-- ==== Sys2Proof/Word.lean ====
section
/-! DEFINITION. The machine's plain words. Spec 10_state.md R42 (32-bit registers), R60 (32-bit handle ids,
16-bit lengths), R70 to R76 (16-bit ring positions). -/

namespace Sys2Proof

/-- A register of the block (R42) and a command word (R140). -/
abbrev Word := BitVec 32

/-- One byte of buffer memory or of a wire frame. -/
abbrev Byte := BitVec 8

/-- A buffer handle id; 0 means "no buffer" (R9, R60). -/
abbrev Handle := BitVec 32

/-- A ring position (R70 to R76) and a 16-bit length (R60). -/
abbrev Index := BitVec 16

/-- A six-byte address as one number, byte `a[j]` at bits [8j+7:8j] (20_memory.md R106). -/
abbrev MacAddr := BitVec 48

end Sys2Proof
end

