-- ==== Sys2Proof/Syntax.lean ====
section
/-! DEFINITION. The commands of the block, one constructor per row of spec/opcode_table.json (30_encoding.md R141),
the two command ports (60_exceptions.md R430) and the names of the registers (10_state.md R42). -/

namespace Sys2Proof

/-- A command of the block. Its operands other than `K` are in the argument registers (R142). -/
inductive Instr where
  | cfg                    -- CFG, 40_ring.md R210
  | txSend (k : Nat)       -- TX_SEND with its fragment count K, 41_transmit.md R230
  | txReclaim              -- TX_RECLAIM, 41_transmit.md R240
  | rxPoll                 -- RX_POLL, 42_receive.md R280
  | evtDrain               -- EVT_DRAIN, 43_event_gate.md R340
  | mcJoin                 -- MC_JOIN, 44_multicast.md R362
  | mcLeave                -- MC_LEAVE, 44_multicast.md R365
  | irqEntry               -- IRQ_ENTRY, 43_event_gate.md R330
  deriving DecidableEq, Repr

/-- The command port a word is written to (R430): `CMD` or `INTCMD`. -/
inductive Port where
  | worker
  | interrupt
  deriving DecidableEq, Repr

/-- The port that accepts a command (R141, R430). -/
def Instr.port : Instr → Port
  | .cfg => .worker
  | .txSend _ => .worker
  | .txReclaim => .worker
  | .rxPoll => .worker
  | .evtDrain => .worker
  | .mcJoin => .worker
  | .mcLeave => .worker
  | .irqEntry => .interrupt

/-- The registers of the map of R42. `mcCount j` is `MC_COUNT[j]`, `arg a` is `ARG[a]`. -/
inductive Reg where
  | cmd | result | value | status | fault | isr | evt | sig | txDoorbell | intCmd | intResult
  | mcHashLo | mcHashHi | rxDropCount | rxOvfCount | faultSlot
  | txCurrent | txRelease | txInUse | txHwIdx | rxCurrent | rxChainFirst | rxChainLen | rxHwIdx
  | cfgCounts | cfgCap | linkAddrLo | linkAddrHi | txRingBase | rxRingBase
  | mcCount (j : Nat)
  | arg (a : Nat)
  deriving DecidableEq, Repr

end Sys2Proof
end

