-- ==== Sys2Proof/Decode.lean ====
section
/-! DEFINITION. Reading a command word and writing one (30_encoding.md R140 to R146). Decoding is total on every
32-bit word and rejects by name; the encoder is written from the same tables. -/

namespace Sys2Proof

/-- Why a word is illegal on the port it was written to (R144, R145). -/
inductive Reject where
  | reservedOp      -- OP is 0x00 or 0x09..0xFF
  | wrongPort       -- IRQ_ENTRY's OP on CMD, or a worker command on INTCMD
  | reservedBits    -- RES [31:16] is not 0
  | strayK          -- K [15:8] is not 0 and OP is not TX_SEND
  deriving DecidableEq, Repr

/-- The field `OP`, bits [7:0] (R140). -/
def opField (w : Word) : BitVec 8 := w.extractLsb' 0 8

/-- The field `K`, bits [15:8] (R140). -/
def kField (w : Word) : BitVec 8 := w.extractLsb' 8 8

/-- The field `RES`, bits [31:16] (R140). -/
def resField (w : Word) : BitVec 16 := w.extractLsb' 16 16

/-- The worker port's part of the opcode map (R141). -/
def workerOp (op k : Nat) : Option Instr :=
  match op with
  | 0x01 => some .cfg
  | 0x02 => some (.txSend k)
  | 0x03 => some .txReclaim
  | 0x04 => some .rxPoll
  | 0x05 => some .evtDrain
  | 0x06 => some .mcJoin
  | 0x07 => some .mcLeave
  | _ => none

/-- Decoding a word written to `CMD` (R144): the operation first, then `RES`, then a stray `K`. -/
def decodeWorker (w : Word) : Except Reject Instr :=
  match workerOp (opField w).toNat (kField w).toNat with
  | none => .error (if opField w = 0x08#8 then .wrongPort else .reservedOp)
  | some i =>
    if resField w ≠ 0#16 then .error .reservedBits
    else if opField w ≠ 0x02#8 ∧ kField w ≠ 0#8 then .error .strayK
    else .ok i

/-- Decoding a word written to `INTCMD` (R144): only 0x00000008 is legal. The reject's name is the model's reading of
why; every reject has the one effect of R145. -/
def decodeInterrupt (w : Word) : Except Reject Instr :=
  if w = 0x00000008#32 then .ok .irqEntry
  else if opField w = 0x08#8 then .error (if resField w ≠ 0#16 then .reservedBits else .strayK)
  else match workerOp (opField w).toNat (kField w).toNat with
    | none => .error .reservedOp
    | some _ => .error .wrongPort

/-- Decoding a word on a port. -/
def decode (p : Port) (w : Word) : Except Reject Instr :=
  match p with
  | .worker => decodeWorker w
  | .interrupt => decodeInterrupt w

/-- The word of a command (R140, R141, R160); `K` is the low eight bits of its count. -/
def encode : Instr → Word
  | .cfg => 0x00000001#32
  | .txSend k => 0x00000002#32 ||| (BitVec.ofNat 8 k).setWidth 32 <<< 8
  | .txReclaim => 0x00000003#32
  | .rxPoll => 0x00000004#32
  | .evtDrain => 0x00000005#32
  | .mcJoin => 0x00000006#32
  | .mcLeave => 0x00000007#32
  | .irqEntry => 0x00000008#32

/-- The port whose decoder the command word `w` belongs to: IRQ_ENTRY's word is written to `INTCMD`, every other word to
`CMD` (R141). -/
def portOfWord (w : Word) : Port :=
  if w = 0x00000008#32 then .interrupt else .worker

/-- The command word whose low `nbits` bits are those of `w` and whose other bits are 0: a command is one 32-bit word
(R146). -/
def tableWord (nbits w : Nat) : Word := BitVec.ofNat 32 (w % 2 ^ nbits)

/-- The command the decoder reads from a row's bits, numbered as spec/opcode_table.json numbers them. -/
def decodeTableWord (nbits w : Nat) : Option Instr :=
  match decode (portOfWord (tableWord nbits w)) (tableWord nbits w) with
  | .ok i => some i
  | .error _ => none

end Sys2Proof
end

