-- ==== Sys2Proof/Config.lean ====
section
/-! DEFINITION. What an implementation or the environment fixes and the model leaves open: the parameters of
00_scope.md R9 and the `draw`s of R17, each an opaque constant with no body, and the moves the environment may make
(00_scope.md R20, R30). Nothing in Lean can evaluate an opaque constant, so what is proved holds for every value. -/

namespace Sys2Proof

/-- A move of the environment ENV (00_scope.md R30). -/
inductive HostMove where
  /-- A bus write of `v`, `width` bits wide, at byte offset `off` = address - `BASE` (20_memory.md R100 to R102). -/
  | write (off width : Nat) (v : Word)
  /-- A bus read, `width` bits wide, at byte offset `off` from `BASE`. -/
  | read (off width : Nat)
  /-- A wire frame is offered to RXD (42_receive.md R300). -/
  | offer (frame : List Byte)
  /-- The owner of handle `h` outside the block gives it back to the Buffer Provider (R30, R31). -/
  | giveBack (h : Handle)
  /-- A user of the Buffer Provider outside the block takes the free handle `h` (assumption 10). -/
  | take (h : Handle)
  /-- ENV writes `bytes` into `BufData(h)` from byte `start` on (20_memory.md R100, 70_reset_and_hazards.md R472). -/
  | fill (h : Handle) (start : Nat) (bytes : List Byte)
  /-- ENV reads `n` bytes of `BufData(h)` from byte `start` on (20_memory.md R100). -/
  | readBuffer (h : Handle) (start n : Nat)
  deriving DecidableEq, Repr, Inhabited

/-- Whose step comes next (00_scope.md R20): W, I, TXD, RXD, or a move of ENV. -/
inductive Turn where
  | worker
  | interrupt
  | txd
  | rxd
  | host (m : HostMove)
  deriving DecidableEq, Repr, Inhabited

namespace Config

/-- The schedule beyond the turns that `State.script` names: any agent may be scheduled at any step (R20, R116). -/
opaque turn : Nat → Turn

/-- The `draw`s of R17 beyond the values that `State.draws` names; a consumer reads a drawn number at its own width. -/
opaque draw : Nat → Nat

/-- `BASE`, the block's register base address (R9, 20_memory.md R101). -/
opaque base : Nat

/-- `MC_HASH`, address to bucket: total and deterministic, nothing else known (R10, 44_multicast.md R361). -/
opaque mcHash : MacAddr → BitVec 6

/-- `BufAddr(h)`, the data address the Buffer Provider gives each handle (20_memory.md R108). -/
opaque bufAddr : Handle → Word

/-- `RX_ACCEPT(F, MC_HASH_LO, MC_HASH_HI, LINK_ADDR)` where it is not the default (42_receive.md R300). -/
opaque rxAccept : List Byte → Word → Word → MacAddr → Bool

/-- `POOL`, the handles free at reset (R9). -/
opaque pool : List Handle

/-- What `ARG[a]` holds at reset: unspecified (10_state.md R54, 70_reset_and_hazards.md R450). -/
opaque argReset : Nat → Word

/-- What a byte of buffer memory holds at reset: unspecified (10_state.md R90, R450). -/
opaque bufByte : Nat → Byte

end Config

end Sys2Proof
end

