-- ==== Sys2Proof/Machine/Store.lean ====
section
/-! DEFINITION. Sparse data in one canonical form: a list of key and value pairs with strictly rising keys (buffer
memory, written argument words, spans, parameter tables), and a set of handles as a strictly rising list (the Buffer
Provider's free set, 00_scope.md R31, and what the Frame Router holds, R33). -/

namespace Sys2Proof.Machine

/-- The value stored at key `a`, if one is. -/
def Store.get? {α : Type} : List (Nat × α) → Nat → Option α
  | [], _ => none
  | (k, v) :: m, a => if a = k then some v else Store.get? m a

/-- Stores `v` at key `a`, keeping the keys in order. -/
def Store.put {α : Type} : List (Nat × α) → Nat → α → List (Nat × α)
  | [], a, v => [(a, v)]
  | (k, w) :: m, a, v =>
    if a < k then (a, v) :: (k, w) :: m
    else if a = k then (a, v) :: m
    else (k, w) :: Store.put m a v

/-- Removes the entry at key `a`, if there is one. -/
def Store.del {α : Type} : List (Nat × α) → Nat → List (Nat × α)
  | [], _ => []
  | (k, w) :: m, a => if a = k then m else (k, w) :: Store.del m a

/-- The canonical form: strictly rising keys. -/
abbrev Store.wf {α : Type} (m : List (Nat × α)) : Prop := (m.map Prod.fst).Pairwise (· < ·)

/-- Adds a handle to a set of handles. -/
def HandleSet.insert : List Handle → Handle → List Handle
  | [], h => [h]
  | x :: l, h =>
    if h.toNat < x.toNat then h :: x :: l
    else if h = x then x :: l
    else x :: HandleSet.insert l h

/-- Removes a handle from a set of handles. -/
def HandleSet.remove : List Handle → Handle → List Handle
  | [], _ => []
  | x :: l, h => if h = x then l else x :: HandleSet.remove l h

/-- Adds each handle of a list to a set of handles. -/
def HandleSet.insertAll (l : List Handle) (hs : List Handle) : List Handle := hs.foldl HandleSet.insert l

/-- A set of handles in order, each once. -/
abbrev HandleSet.rising (l : List Handle) : Prop := (l.map BitVec.toNat).Pairwise (· < ·)

/-- The canonical form of a set of handles: strictly rising, and without the id 0, which is no buffer (R9). -/
abbrev HandleSet.wf (l : List Handle) : Prop := HandleSet.rising l ∧ 0#32 ∉ l

/-- The set of the handles named in a list: in order, each once, without the id 0. -/
def HandleSet.ofList : List Handle → List Handle
  | [] => []
  | h :: l => if h = 0#32 then HandleSet.ofList l else HandleSet.insert (HandleSet.ofList l) h

end Sys2Proof.Machine
end

