-- ==== Sys2Proof/Machine/State.lean ====
section
/-! DEFINITION. Everything the spec gives the machine, as plain data (10_state.md R40 to R93), the state after reset
(70_reset_and_hazards.md R450), and the reasons a step can stop. -/

namespace Sys2Proof.Machine

/-- The result codes (60_exceptions.md R400); 11..255 are never produced. -/
inductive ResultCode where
  | ok | ringFull | outOfBuffers | tableFull | notJoined | misconfigured | unaligned | badChain
  | illegalCommand | notConfigured | alreadyConfigured
  deriving DecidableEq, Repr

/-- The fault bits (60_exceptions.md R405). -/
inductive FaultBit where
  | emptySlotOwned | txChainBroken | rxLengthInconsistent | rxSlotEmpty
  deriving DecidableEq, Repr

/-- Which ring a slot belongs to (60_exceptions.md R407). -/
inductive Ring where
  | tx | rx
  deriving DecidableEq, Repr

/-- Agent W between two of its atomic steps (20_memory.md R110): the command it runs and that command's local values. -/
inductive WState where
  /-- No command runs: BUSY is 0 (10_state.md R52). -/
  | idle
  /-- A fault ended the command without a return: BUSY stays 1 (60_exceptions.md R408). -/
  | stopped
  /-- TX_SEND of `k` fragments, about to write the ownership bit of fragment `i` (41_transmit.md R230 step 4). -/
  | txCommit (k i : Nat)
  /-- TX_SEND of `k` fragments, all ownership bits written, about to read `txd.state` (R233). -/
  | txDoorbell (k : Nat)
  /-- TX_RECLAIM about to read the slot at `tx.release`; `more` visits may follow this one (R240, R245). -/
  | reclaim (more count : Nat)
  /-- RX_POLL about to read the slot at `rx.current` (42_receive.md R280). -/
  | pollVisit (delivered : Nat)
  /-- RX_POLL about to re-arm the slot of fragment `f` with the first of `fresh`; the frame's length is `len` (R285). -/
  | pollRearm (delivered f : Nat) (fresh : List Handle) (len : BitVec 16)
  /-- RX_POLL about to put the original buffer of fragment `f` back into its slot (R288). -/
  | pollRecycle (delivered f : Nat)
  deriving DecidableEq, Repr

/-- The state of TXD (41_transmit.md R260). -/
inductive TxdState where
  | idle | running | completing
  deriving DecidableEq, Repr

/-- One TX slot (10_state.md R60); `buf = 0` is "no buffer". -/
structure TxSlot where
  buf   : Handle
  len   : BitVec 16
  last  : Bool
  wrap  : Bool
  owned : Bool
  err   : BitVec 8
  deriving DecidableEq, Repr

/-- One RX slot (10_state.md R62). -/
structure RxSlot where
  buf   : Handle
  len   : BitVec 16
  sof   : Bool
  eof   : Bool
  wrap  : Bool
  owned : Bool
  deriving DecidableEq, Repr

/-- A frame as the Frame Router gets it (00_scope.md R32): handles, total length, and the span of each buffer. -/
structure Frame where
  handles     : List Handle
  totalLength : BitVec 16
  spans       : List (BitVec 16)
  deriving DecidableEq, Repr

/-- A call to the Buffer Provider (00_scope.md R14); `allocate none` answered `OutOfBuffers`. -/
inductive ProviderCall where
  | allocate (answer : Option Handle)
  | release (h : Handle)
  deriving DecidableEq, Repr

/-- What a CFG command and the base writes set (10_state.md R42, R51, R55, R67). -/
structure CfgRegs where
  configured : Bool
  cap        : BitVec 16
  linkAddr   : MacAddr
  txRingBase : Word
  rxRingBase : Word
  deriving DecidableEq, Repr

/-- The worker port: RESULT, VALUE (10_state.md R50) and agent W's position. -/
structure WorkerPort where
  result : BitVec 8
  value  : Word
  w      : WState
  deriving DecidableEq, Repr

/-- The fault registers (10_state.md R91, 60_exceptions.md R405, R407). -/
structure FaultRegs where
  fault     : BitVec 4
  faultSlot : BitVec 17
  deriving DecidableEq, Repr

/-- The interrupt side (10_state.md R53, R80 to R82): ISR, EVT, SIG, INTRESULT, what a running IRQ_ENTRY captured, and
the INTCMD writes that wait behind it. -/
structure IrqRegs where
  isr       : BitVec 2
  evt       : BitVec 2
  sig       : Bool
  intResult : BitVec 8
  latch     : Option (BitVec 2)
  queue     : List Word
  deriving DecidableEq, Repr

/-- The TX ring and its cursors (10_state.md R60, R70 to R72). `N_TX` is the number of slots. -/
structure TxRing where
  slots   : List TxSlot
  current : Index
  release : Index
  inUse   : BitVec 17
  deriving DecidableEq, Repr

/-- TXD (10_state.md R75). -/
structure Txd where
  idx   : Index
  state : TxdState
  left  : BitVec 17
  deriving DecidableEq, Repr

/-- The RX ring, its cursor and the Pending Frame Chain (10_state.md R62, R73, R74). `N_RX` is the number of slots. -/
structure RxRing where
  slots      : List RxSlot
  current    : Index
  chain      : List Handle
  chainFirst : Index
  deriving DecidableEq, Repr

/-- RXD (10_state.md R76). -/
structure Rxd where
  idx   : Index
  frame : Option (List Byte)
  frag  : BitVec 16
  m     : BitVec 17
  deriving DecidableEq, Repr

/-- The observability counters (10_state.md R77). -/
structure Counters where
  rxDrop : Word
  rxOvf  : Word
  deriving DecidableEq, Repr

/-- The multicast filter table (10_state.md R85 to R87); bucket b's filter bit is bit b of `filter`, and
`MC_HASH_LO`, `MC_HASH_HI` are its two halves. -/
structure Multicast where
  count  : Vector (BitVec 8) 64
  filter : BitVec 64
  deriving DecidableEq, Repr

/-- Buffer memory and the spans (10_state.md R90). `data` lists the bytes something has written, byte `j` of `BufData(h)`
at address `h * 65536 + j`; `span` lists the handles whose span is not 0. -/
structure Buffers where
  data : List Host.Cell
  span : List (Nat × BitVec 16)
  deriving DecidableEq, Repr

/-- What is outside the block and its calls reach (00_scope.md R14, R31 to R34): the free set, the handles the Frame Router
owns (R33), the histories of frames sent, frames delivered and Buffer Provider calls, each oldest first, and what ENV's last
bus read and last buffer read returned. -/
structure Env where
  pool      : List Handle
  router    : List Handle
  wire      : List (List Byte)
  delivered : List Frame
  provider  : List ProviderCall
  readData  : Word
  readBytes : List Byte
  deriving DecidableEq, Repr

/-- Which wire frames RXD accepts (00_scope.md R9): the spec's default, or the open parameter. -/
inductive RxAccept where
  | everyFrame
  | parameter
  deriving DecidableEq, Repr

/-- The parameters of 00_scope.md R9 that commands read, as data no step writes: known values of `MC_HASH` (by address)
and of `BufAddr` (by handle), each open where the table has no entry; the exponent of `TX_ALIGN`, a power of two; and
`RX_ACCEPT`. -/
structure Params where
  mcHash      : List (Nat × BitVec 6)
  bufAddr     : List (Nat × Word)
  txAlignLog2 : Nat
  rxAccept    : RxAccept
  deriving DecidableEq, Repr

/-- The state of the machine. `service` is the worker's part of the gate's view: the drained events whose service command has
not returned (43_event_gate.md R345). `script`, `turnNo`, `draws` and `drawNo` are the model's own: the turns and draws already
fixed, and how many of the free ones have been used. -/
structure State where
  cfg     : CfgRegs
  port    : WorkerPort
  halt    : FaultRegs
  irq     : IrqRegs
  args    : List (Nat × Word)
  tx      : TxRing
  txd     : Txd
  rx      : RxRing
  rxd     : Rxd
  ctr     : Counters
  mc      : Multicast
  buf     : Buffers
  env     : Env
  service : BitVec 2
  params  : Params
  script  : List Turn
  turnNo  : Nat
  draws   : List Nat
  drawNo  : Nat
  deriving DecidableEq, Repr

/-- Why the machine stops. The fault bits of the block are no stop: raising one is a next state (60_exceptions.md R410). -/
inductive Fault where
  /-- Raised by a register access that is not a 32-bit access at a 4-aligned offset: the spec gives it no step, so the
  agent that issues it is stuck (20_memory.md R102). Safe. -/
  | accessNotAdmitted
  deriving DecidableEq, Repr

/-- The duties of the environment (00_scope.md R30, R34, 20_memory.md R100, 70_reset_and_hazards.md R472). -/
inductive Duty where
  | sendsOwnHandles | givesBackOwnHandle | keepsSentHandle | takesFreeHandle | fillsOwnBuffer | readsOwnBuffer | offersWireFrame
  deriving DecidableEq, Repr

/-- Why a step has no meaning. -/
inductive Refusal where
  /-- Raised by `exec` for a command that has no meaning yet. Safe. -/
  | notModelled (mnemonic : String)
  /-- Raised by a move of the environment that breaks a duty: the spec says a model gives ENV no such move
  (00_scope.md R30). Unsafe for an environment that breaks the duty, as the spec says of each. -/
  | noSuchMove (duty : Duty)
  deriving DecidableEq, Repr

/-- The state after reset (70_reset_and_hazards.md R450). The free set is POOL, `TX_ALIGN` and `RX_ACCEPT` are at the
spec's defaults (00_scope.md R9), and no turn or draw is fixed. -/
def State.reset : State where
  cfg := { configured := false, cap := 0#16, linkAddr := 0#48, txRingBase := 0#32, rxRingBase := 0#32 }
  port := { result := 0#8, value := 0#32, w := .idle }
  halt := { fault := 0#4, faultSlot := 0#17 }
  irq := { isr := 0#2, evt := 0#2, sig := false, intResult := 0#8, latch := none, queue := [] }
  args := []
  tx := { slots := [], current := 0#16, release := 0#16, inUse := 0#17 }
  txd := { idx := 0#16, state := .idle, left := 0#17 }
  rx := { slots := [], current := 0#16, chain := [], chainFirst := 0#16 }
  rxd := { idx := 0#16, frame := none, frag := 0#16, m := 0#17 }
  ctr := { rxDrop := 0#32, rxOvf := 0#32 }
  mc := { count := Vector.replicate 64 0#8, filter := 0#64 }
  buf := { data := [], span := [] }
  env := { pool := HandleSet.ofList Config.pool, router := [], wire := [], delivered := [], provider := [],
           readData := 0#32, readBytes := [] }
  service := 0#2
  params := { mcHash := [], bufAddr := [], txAlignLog2 := 0, rxAccept := .everyFrame }
  script := []
  turnNo := 0
  draws := []
  drawNo := 0

end Sys2Proof.Machine
end

