-- ==== Sys2Proof/Machine/Ops.lean ====
section
/-! DEFINITION. The shared operations over the state: ring index arithmetic and slots (40_ring.md R200 to R206), raising a
fault (60_exceptions.md R405 to R408), ending a worker command (00_scope.md R15), draws (R17), buffer memory and spans
(10_state.md R90), and the calls to the Buffer Provider, the Frame Router and the wire (00_scope.md R14). -/

namespace Sys2Proof.Machine

/-- `adv_N(i) = (i + 1) & (N - 1)` for a ring of `n` slots (R200). -/
def adv (n : Nat) (i : Index) : Index := (i + 1#16) &&& (BitVec.ofNat 16 n - 1#16)

/-- The ring position `i + k` taken modulo the ring size (41_transmit.md R230: `TX[j]` with `j >= m` means `TX[j mod m]`). -/
def ringPos (n : Nat) (i : Index) (k : Nat) : Nat := (i.toNat + k) % n

/-- `pow2(n)` (R206). -/
def pow2 (n : BitVec 16) : Bool := n != 0#16 && (n &&& (n - 1#16)) == 0#16

/-- `N_TX`. -/
def State.nTx (s : State) : Nat := s.tx.slots.length

/-- `N_RX`. -/
def State.nRx (s : State) : Nat := s.rx.slots.length

/-- A free TX slot (40_ring.md R202, R210), and what a read outside a ring gives (assumption 15). -/
def TxSlot.free : TxSlot := { buf := 0#32, len := 0#16, last := false, wrap := false, owned := false, err := 0#8 }

/-- An RX slot with nothing in it, what a read outside a ring gives (assumption 15). -/
def RxSlot.empty : RxSlot := { buf := 0#32, len := 0#16, sof := false, eof := false, wrap := false, owned := false }

/-- `is_free(slot)` (40_ring.md R202). -/
def TxSlot.isFree (d : TxSlot) : Bool := !d.owned && d.buf == 0#32

/-- `TX[p]` for a slot number `p`. -/
def State.txAt (s : State) (p : Nat) : TxSlot := s.tx.slots.getD p TxSlot.free

/-- `RX[p]` for a slot number `p`. -/
def State.rxAt (s : State) (p : Nat) : RxSlot := s.rx.slots.getD p RxSlot.empty

/-- `TX[p] <- d`. -/
def State.setTx (s : State) (p : Nat) (d : TxSlot) : State := { s with tx.slots := s.tx.slots.set p d }

/-- `RX[p] <- d`. -/
def State.setRx (s : State) (p : Nat) (d : RxSlot) : State := { s with rx.slots := s.rx.slots.set p d }

/-- The block has a fault and takes no step (60_exceptions.md R410). -/
def State.halted (s : State) : Bool := s.halt.fault != 0#4

/-- BUSY: agent W runs a command (10_state.md R52). -/
def State.busy (s : State) : Bool := s.port.w != .idle

/-- The bit of FAULT (60_exceptions.md R405). -/
def FaultBit.mask : FaultBit → BitVec 4
  | .emptySlotOwned => 0b0001#4
  | .txChainBroken => 0b0010#4
  | .rxLengthInconsistent => 0b0100#4
  | .rxSlotEmpty => 0b1000#4

/-- The value FAULT_SLOT records for slot `p` of a ring (60_exceptions.md R407). -/
def faultSlotWord (ring : Ring) (p : Nat) : BitVec 17 :=
  match ring with
  | .tx => 0#1 ++ BitVec.ofNat 16 p
  | .rx => 1#1 ++ BitVec.ofNat 16 p

/-- `raise Fault(bit)` at slot `p` (60_exceptions.md R405, R407): the bit is set, and FAULT_SLOT is written if no fault was
there before. -/
def State.raise (s : State) (bit : FaultBit) (ring : Ring) (p : Nat) : State :=
  { s with
    halt.fault := s.halt.fault ||| bit.mask
    halt.faultSlot := if s.halted then s.halt.faultSlot else faultSlotWord ring p }

/-- A fault raised inside a worker command, which ends without a return: BUSY stays 1 (60_exceptions.md R408). -/
def State.raiseInCommand (s : State) (bit : FaultBit) (ring : Ring) (p : Nat) : State :=
  { s.raise bit ring p with port.w := .stopped }

/-- The code of a result (60_exceptions.md R400). -/
def ResultCode.bits : ResultCode → BitVec 8
  | .ok => 0#8
  | .ringFull => 1#8
  | .outOfBuffers => 2#8
  | .tableFull => 3#8
  | .notJoined => 4#8
  | .misconfigured => 5#8
  | .unaligned => 6#8
  | .badChain => 7#8
  | .illegalCommand => 8#8
  | .notConfigured => 9#8
  | .alreadyConfigured => 10#8

/-- `return OK(value)` (00_scope.md R15): RESULT 0, VALUE, and BUSY back to 0 (10_state.md R52). -/
def State.retOk (s : State) (value : Word) : State :=
  { s with port := { result := ResultCode.ok.bits, value := value, w := .idle } }

/-- `return ERR(code)` (00_scope.md R15): RESULT the code, VALUE 0, and BUSY back to 0. -/
def State.retErr (s : State) (code : ResultCode) : State :=
  { s with port := { result := code.bits, value := 0#32, w := .idle } }

/-- W reaches a visible point inside a command (20_memory.md R110): `w` is what it does next, and BUSY is 1. -/
def State.goOn (s : State) (w : WState) : State := { s with port.w := w }

/-- A worker command `cmd` written to `CMD`: ignored once the block is halted (60_exceptions.md R410) or while another
command runs (10_state.md R52). -/
def State.issue (s : State) (cmd : State → State) : State :=
  if s.halted || s.busy then s else cmd s

/-- A worker command other than CFG: `NotConfigured` before a CFG has succeeded (60_exceptions.md R402). -/
def State.issueConfigured (s : State) (cmd : State → State) : State :=
  s.issue fun s => if s.cfg.configured then cmd s else s.retErr .notConfigured

/-- A `draw` (00_scope.md R17): the next number already fixed, else the next free one. -/
def State.draw (s : State) : Nat × State :=
  match s.draws with
  | d :: rest => (d, { s with draws := rest })
  | [] => (Config.draw s.drawNo, { s with drawNo := s.drawNo + 1 })

/-- `Allocate()` (00_scope.md R31): one drawn handle of the free set, or `OutOfBuffers` when the set is empty. -/
def State.allocate (s : State) : Option Handle × State :=
  match s.env.pool with
  | [] => (none, { s with env.provider := s.env.provider ++ [.allocate none] })
  | g :: rest =>
    let (d, s) := s.draw
    let h := (g :: rest).getD (d % (g :: rest).length) g
    (some h, { s with
      env.pool := HandleSet.remove (g :: rest) h
      env.provider := s.env.provider ++ [.allocate (some h)] })

/-- Up to `k` calls of `Allocate()`, stopping at the first `OutOfBuffers` (42_receive.md R284, 40_ring.md R210): the
handles obtained, in order. -/
def State.allocateUpTo : Nat → State → List Handle × State
  | 0, s => ([], s)
  | k + 1, s =>
    match s.allocate with
    | (none, s) => ([], s)
    | (some h, s) =>
      let (hs, s) := State.allocateUpTo k s
      (h :: hs, s)

/-- `Release(h)` (00_scope.md R31): `h` goes back into the free set. -/
def State.releaseHandle (s : State) (h : Handle) : State :=
  { s with
    env.pool := HandleSet.insert s.env.pool h
    env.provider := s.env.provider ++ [.release h] }

/-- `Release(g)` for each `g` of a list, in order. -/
def State.releaseAll (s : State) (hs : List Handle) : State := hs.foldl State.releaseHandle s

/-- `Deliver(frame)` (00_scope.md R32): the Frame Router owns the frame's handles from here on (R33). -/
def State.deliver (s : State) (f : Frame) : State :=
  { s with
    env.router := HandleSet.insertAll s.env.router f.handles
    env.delivered := s.env.delivered ++ [f] }

/-- `WireTx(bytes)` (00_scope.md R34): one more frame of the wire's output history. -/
def State.wireTx (s : State) (bytes : List Byte) : State := { s with env.wire := s.env.wire ++ [bytes] }

/-- The address in buffer memory of byte `j` of `BufData(h)`: `j` is below 65536, since `CAP` is (00_scope.md R9). -/
def bufKey (h : Handle) (j : Nat) : Nat := h.toNat * 65536 + j

/-- The canonical form of buffer memory: strictly rising addresses. An unlisted address is a byte nothing has written; no
listed byte can be equal to what it reads as, which is open, so no entry is ever removed (assumption 5). -/
abbrev Memory.wf (m : List Host.Cell) : Prop := Store.wf m

/-- The byte at an address of buffer memory; what nothing has written reads as the open reset contents (10_state.md R90). -/
def Memory.read (m : List Host.Cell) (a : Nat) : Byte := (Store.get? m a).getD (Config.bufByte a)

/-- `BufData(h)[start .. start+n-1]`. -/
def Memory.readBytes (m : List Host.Cell) (h : Handle) (start n : Nat) : List Byte :=
  (List.range n).map fun j => Memory.read m (bufKey h (start + j))

/-- Writes bytes into `BufData(h)` from byte `j` on. Handle 0 names no buffer, and nothing is written (assumption 16). -/
def Memory.writeBytes (m : List Host.Cell) (h : Handle) (j : Nat) : List Byte → List Host.Cell
  | [] => m
  | b :: bs =>
    if h = 0#32 then m
    else Memory.writeBytes (Store.put m (bufKey h j) b) h (j + 1) bs

/-- `BufSpan(h)`, 0 at reset (R450). -/
def State.span (s : State) (h : Handle) : BitVec 16 := (Store.get? s.buf.span h.toNat).getD 0#16

/-- `BufSpan(h) <- v`; a span of 0 is not listed. -/
def State.setSpan (s : State) (h : Handle) (v : BitVec 16) : State :=
  { s with buf.span := if v = 0#16 then Store.del s.buf.span h.toNat else Store.put s.buf.span h.toNat v }

/-- `BufSpan(h) <- v` for each `h` of a list. -/
def State.setSpans (s : State) (hs : List Handle) (v : BitVec 16) : State := hs.foldl (fun s h => s.setSpan h v) s

end Sys2Proof.Machine
end

