-- ==== Sys2Proof/Machine/Operands.lean ====
section
/-! DEFINITION. The operands of the commands, taken from the argument registers (30_encoding.md R142, R143), and the
parameters a command reads (00_scope.md R9). -/

namespace Sys2Proof.Machine

/-- `ARG[a]`; a word nothing has written holds its open reset value (10_state.md R54). -/
def State.arg (s : State) (a : Nat) : Word := (Store.get? s.args a).getD (Config.argReset a)

/-- `tx_descriptor_count`, `ARG[0][15:0]`. -/
def State.cfgTxCount (s : State) : BitVec 16 := (s.arg 0).extractLsb' 0 16

/-- `rx_descriptor_count`, `ARG[0][31:16]`. -/
def State.cfgRxCount (s : State) : BitVec 16 := (s.arg 0).extractLsb' 16 16

/-- `buffer_capacity`, `ARG[1][15:0]`. -/
def State.cfgCapacity (s : State) : BitVec 16 := (s.arg 1).extractLsb' 0 16

/-- The address whose word `W0` is `ARG[a]` and whose word `W1` is `ARG[a+1][15:0]` (20_memory.md R106). -/
def State.argAddr (s : State) (a : Nat) : MacAddr := (s.arg (a + 1)).extractLsb' 0 16 ++ s.arg a

/-- TX_SEND's handle `h_i`, `ARG[2i]`. -/
def State.sendHandle (s : State) (i : Nat) : Handle := s.arg (2 * i)

/-- TX_SEND's length `len_i`, `ARG[2i+1][15:0]`. -/
def State.sendLen (s : State) (i : Nat) : BitVec 16 := (s.arg (2 * i + 1)).extractLsb' 0 16

/-- The handles `h_0 .. h_(k-1)` of a TX_SEND. -/
def State.sendHandles (s : State) (k : Nat) : List Handle := (List.range k).map s.sendHandle

/-- `MC_HASH(a)` (00_scope.md R10). -/
def State.mcHash (s : State) (a : MacAddr) : BitVec 6 :=
  (Store.get? s.params.mcHash a.toNat).getD (Config.mcHash a)

/-- `BufAddr(h)` (20_memory.md R108). -/
def State.bufAddr (s : State) (h : Handle) : Word :=
  (Store.get? s.params.bufAddr h.toNat).getD (Config.bufAddr h)

/-- `TX_ALIGN`, a power of two (00_scope.md R9). -/
def State.txAlign (s : State) : Nat := 2 ^ s.params.txAlignLog2

/-- `RX_ACCEPT(F, MC_HASH_LO, MC_HASH_HI, LINK_ADDR)` (42_receive.md R300). -/
def State.rxAccepts (s : State) (frame : List Byte) : Bool :=
  match s.params.rxAccept with
  | .everyFrame => true
  | .parameter =>
    Config.rxAccept frame (s.mc.filter.extractLsb' 0 32) (s.mc.filter.extractLsb' 32 32) s.cfg.linkAddr

end Sys2Proof.Machine
end

