-- ==== Sys2Proof/Machine/Flags.lean ====
section
/-! DEFINITION. The status words, each a view of the state (10_state.md R42, R43, R51, R87, R93), the bits that the agents
set in ISR (R82), the interrupt line (60_exceptions.md R420) and the gate's view state (43_event_gate.md R345). -/

namespace Sys2Proof.Machine

/-- One flag as a bit. -/
def flag (b : Bool) : BitVec 1 := BitVec.ofBool b

/-- TX_ACTIVE: TXD is RUNNING or COMPLETING (10_state.md R51). -/
def State.txActive (s : State) : Bool := s.txd.state != .idle

/-- STATUS (R51): [0] CONFIGURED, [1] TX_ACTIVE, [2] FAULTED, [3] BUSY. -/
def State.statusWord (s : State) : Word :=
  (flag s.busy ++ flag s.halted ++ flag s.txActive ++ flag s.cfg.configured).setWidth 32

/-- CFG_COUNTS (R42): `N_RX` and `N_TX`, each modulo 65536. -/
def State.cfgCountsWord (s : State) : Word := BitVec.ofNat 16 s.nRx ++ BitVec.ofNat 16 s.nTx

/-- MC_COUNT[j] (R42): `count[4j+b]` at bits [8b+7:8b]. -/
def State.mcCountWord (s : State) (j : Nat) : Word :=
  s.mc.count.toList.getD (4 * j + 3) 0#8 ++ s.mc.count.toList.getD (4 * j + 2) 0#8 ++
    s.mc.count.toList.getD (4 * j + 1) 0#8 ++ s.mc.count.toList.getD (4 * j) 0#8

/-- ISR bit 0, RX_DONE (R82). -/
def rxDoneBit : BitVec 2 := 0b01#2

/-- ISR bit 1, TX_DONE (R82). -/
def txDoneBit : BitVec 2 := 0b10#2

/-- A DMA agent sets bits of ISR (42_receive.md R304, 41_transmit.md R264). -/
def State.setIsr (s : State) (bits : BitVec 2) : State := { s with irq.isr := s.irq.isr ||| bits }

/-- The interrupt line IRQ: asserted while ISR is not 0 (60_exceptions.md R420). -/
def State.irqLine (s : State) : Bool := s.irq.isr != 0#2

/-- The event bits of captured interrupt status: RX_DONE gives RECEIVED, TX_DONE gives TRANSMITTED (43_event_gate.md
R332). -/
def eventBits (captured : BitVec 2) : BitVec 2 :=
  (if captured.getLsbD 0 then 0b01#2 else 0b00#2) ||| (if captured.getLsbD 1 then 0b10#2 else 0b00#2)

/-- The gate's view states (43_event_gate.md R345). -/
inductive GateState where
  | idle | eventPending | draining
  deriving DecidableEq, Repr

/-- EVT_DRAIN answered `v`: from here on the worker services the events of `v` (43_event_gate.md R345). -/
def State.beginService (s : State) (v : BitVec 2) : State := { s with service := s.service ||| v }

/-- A service command for the event bits `v` returned (43_event_gate.md R345, R346; assumption 18). -/
def State.endService (s : State) (v : BitVec 2) : State := { s with service := s.service &&& ~~~v }

/-- EVT bit 0, RECEIVED, which RX_POLL services (10_state.md R80, 43_event_gate.md R346). -/
def receivedBit : BitVec 2 := 0b01#2

/-- EVT bit 1, TRANSMITTED, which TX_RECLAIM services (10_state.md R80, 43_event_gate.md R346). -/
def transmittedBit : BitVec 2 := 0b10#2

/-- The gate's view (R345): EVENT_PENDING while EVT is not 0; else DRAINING while a service command for a drained value has
not returned; else IDLE. -/
def State.gateView (s : State) : GateState :=
  if s.irq.evt != 0#2 then .eventPending else if s.service != 0#2 then .draining else .idle

end Sys2Proof.Machine
end

