-- ==== Sys2Proof/Machine/Gate.lean ====
section
/-! DEFINITION. The deferred event gate: IRQ_ENTRY and EVT_DRAIN (43_event_gate.md R330 to R347). -/

namespace Sys2Proof.Machine

/-- An IRQ_ENTRY is between its two steps, or INTCMD writes wait (10_state.md R53). -/
def State.interruptBusy (s : State) : Bool := s.irq.latch.isSome || !s.irq.queue.isEmpty

/-- Step A of IRQ_ENTRY (R330, R331): ISR is read and the bits read are cleared; INTRESULT is 0 (30_encoding.md R144). -/
def State.irqCapture (s : State) : State :=
  { s with
    irq.isr := s.irq.isr &&& ~~~s.irq.isr
    irq.latch := some s.irq.isr
    irq.intResult := ResultCode.ok.bits }

/-- Step B of IRQ_ENTRY (R330, R333): the captured events go into EVT and SIG is set, one atomic step. -/
def State.irqMerge (s : State) (captured : BitVec 2) : State :=
  { s with
    irq.evt := s.irq.evt ||| eventBits captured
    irq.sig := true
    irq.intResult := ResultCode.ok.bits
    irq.latch := none }

/-- An INTCMD write waits behind the running one (10_state.md R53, R335). -/
def State.enqueueInt (s : State) (w : Word) : State := { s with irq.queue := s.irq.queue ++ [w] }

/-- A word other than IRQ_ENTRY's on the interrupt port: INTRESULT is `IllegalCommand` (30_encoding.md R144). -/
def State.intIllegal (s : State) : State := { s with irq.intResult := ResultCode.illegalCommand.bits }

/-- An INTCMD word is performed (30_encoding.md R144). -/
def State.performInt (s : State) (w : Word) : State :=
  match decodeInterrupt w with
  | .ok _ => s.irqCapture
  | .error _ => s.intIllegal

/-- One step of agent I: step B of a running IRQ_ENTRY, else the oldest waiting INTCMD word (R335). -/
def State.interruptStep (s : State) : State :=
  if s.halted then s
  else match s.irq.latch with
    | some captured => s.irqMerge captured
    | none =>
      match s.irq.queue with
      | [] => s
      | w :: rest => ({ s with irq.queue := rest }).performInt w

/-- IRQ_ENTRY (43_event_gate.md R330) written to INTCMD: its step A, or its place in the queue while one runs (R335); ignored
once the block is halted (60_exceptions.md R410). `irqMerge` is agent I's further step. -/
def execIrqEntry (s : State) : Host.Outcome State Fault Refusal :=
  .next (if s.halted then s
    else if s.interruptBusy then s.enqueueInt (encode .irqEntry)
    else s.irqCapture)

/-- The swap of EVT_DRAIN (R340, R341): one atomic step, from which the drained events are the worker's to service (R345). -/
def State.drainEvents (s : State) : State :=
  (({ s with irq.evt := 0#2, irq.sig := false }).beginService s.irq.evt).retOk (s.irq.evt.setWidth 32)

/-- EVT_DRAIN (43_event_gate.md R340). -/
def execEvtDrain (s : State) : Host.Outcome State Fault Refusal := .next (s.issueConfigured State.drainEvents)

end Sys2Proof.Machine
end

