-- ==== Sys2Proof/Machine/Multicast.lean ====
section
/-! DEFINITION. The multicast filter table: MC_JOIN and MC_LEAVE (44_multicast.md R360 to R370). -/

namespace Sys2Proof.Machine

/-- `count[b]` (10_state.md R85). -/
def Multicast.countOf (t : Multicast) (b : BitVec 6) : BitVec 8 := t.count[b.toNat]

/-- The filter bit `F[b]` (10_state.md R86, R87). -/
def Multicast.filterBit (t : Multicast) (b : BitVec 6) : Bool := t.filter.getLsbD b.toNat

/-- The 64-bit word with only bit `b` set. -/
def bucketMask (b : BitVec 6) : BitVec 64 := 1#64 <<< b.toNat

/-- The bucket whose address is in `ARG[0]` and `ARG[1]` (R361, R362). -/
def State.argBucket (s : State) : BitVec 6 := s.mcHash (s.argAddr 0)

/-- One more reference of bucket `b`; the filter bit is set at the 0 to 1 transition (R362, R363). -/
def Multicast.join (t : Multicast) (b : BitVec 6) : Multicast :=
  { count := t.count.set b.toNat (t.countOf b + 1#8)
    filter := if t.countOf b + 1#8 = 1#8 then t.filter ||| bucketMask b else t.filter }

/-- One reference of bucket `b` less; the filter bit is cleared at the 1 to 0 transition (R365). -/
def Multicast.leave (t : Multicast) (b : BitVec 6) : Multicast :=
  { count := t.count.set b.toNat (t.countOf b - 1#8)
    filter := if t.countOf b - 1#8 = 0#8 then t.filter &&& ~~~bucketMask b else t.filter }

/-- MC_JOIN's atomic step (R362, R364). -/
def State.joinBucket (s : State) : State :=
  if s.mc.countOf s.argBucket = 255#8 then s.retErr .tableFull
  else ({ s with mc := s.mc.join s.argBucket }).retOk 0#32

/-- MC_LEAVE's atomic step (R365). -/
def State.leaveBucket (s : State) : State :=
  if s.mc.countOf s.argBucket = 0#8 then s.retErr .notJoined
  else ({ s with mc := s.mc.leave s.argBucket }).retOk 0#32

/-- MC_JOIN (44_multicast.md R362). -/
def execMcJoin (s : State) : Host.Outcome State Fault Refusal := .next (s.issueConfigured State.joinBucket)

/-- MC_LEAVE (44_multicast.md R365). -/
def execMcLeave (s : State) : Host.Outcome State Fault Refusal := .next (s.issueConfigured State.leaveBucket)

end Sys2Proof.Machine
end

