-- ==== Sys2Proof/Machine/Receive.lean ====
section
/-! DEFINITION. RX_POLL and RXD (42_receive.md R280 to R307). `n` is `N_RX`. -/

namespace Sys2Proof.Machine

/-- The slot number of fragment `f` of the Pending Frame Chain: `rx.chain_first + f` modulo `N_RX`. -/
def State.chainSlot (s : State) (f : Nat) : Nat := ringPos s.nRx s.rx.chainFirst f

/-- RX slot `p` gets buffer `h` and is armed, its wrap bit unchanged (R280, R285, R288). -/
def State.armSlot (s : State) (p : Nat) (h : Handle) : State :=
  s.setRx p { buf := h, len := 0#16, sof := false, eof := false, wrap := (s.rxAt p).wrap, owned := true }

/-- The slot at `rx.current` is linked into the chain: its handle moves out of the slot, which stays software-owned
(R280, R281). -/
def State.linkSlot (s : State) : State :=
  let i := s.rx.current
  let p := ringPos s.nRx i 0
  let d := s.rxAt p
  let first := if s.rx.chain.isEmpty then i else s.rx.chainFirst
  let s := s.setRx p { d with buf := 0#32 }
  { s with rx.chain := s.rx.chain ++ [d.buf], rx.chainFirst := first, rx.current := adv s.nRx i }

/-- The length `len` of a frame of `k` fragments puts the last span inside 1..CAP (R283). -/
def State.lengthFits (s : State) (k : Nat) (len : BitVec 16) : Bool :=
  decide ((k - 1) * s.cfg.cap.toNat < len.toNat) && decide (len.toNat ≤ k * s.cfg.cap.toNat)

/-- The spans of the chain's buffers (R287): `CAP` for all but the last, which gets the rest of the length. -/
def State.spanChain (s : State) (len : BitVec 16) : State :=
  let k := s.rx.chain.length
  let s := s.setSpans s.rx.chain.dropLast s.cfg.cap
  s.setSpan (s.rx.chain.getLastD 0#32) (BitVec.ofNat 16 (len.toNat - (k - 1) * s.cfg.cap.toNat))

/-- W's next re-arming write on the success path (R285): the buffer it places next starts with span 0. -/
def State.rearmFrom (s : State) (delivered f : Nat) (fresh : List Handle) (len : BitVec 16) : State :=
  (s.setSpan (fresh.headD 0#32) 0#16).goOn (.pollRearm delivered f fresh len)

/-- W's next re-arming write on the failure path (R288, R291): the recycled buffer's span is 0. -/
def State.recycleFrom (s : State) (delivered f : Nat) : State :=
  (s.setSpan (s.rx.chain.getD f 0#32) 0#16).goOn (.pollRecycle delivered f)

/-- The end of a frame, after its EOF slot `p` is linked (R283, R284, R288): the length check, the spans, and the request
for as many fresh buffers as the chain has. -/
def State.endOfFrame (s : State) (delivered p : Nat) (len : BitVec 16) : State :=
  let k := s.rx.chain.length
  if !s.lengthFits k len then s.raiseInCommand .rxLengthInconsistent .rx p
  else
    let (fresh, s) := (s.spanChain len).allocateUpTo k
    if fresh.length = k then s.rearmFrom delivered 0 fresh len
    else (s.releaseAll fresh).recycleFrom delivered 0

/-- `VALUE` for a count of `n`: the count, or a free value where the count does not fit 32 bits (assumption 17). -/
def State.countValue (s : State) (n : Nat) : Word × State :=
  if n < 2 ^ 32 then (BitVec.ofNat 32 n, s)
  else
    let (d, s) := s.draw
    (BitVec.ofNat 32 d, s)

/-- `return OK(delivered)` of RX_POLL (R280), with which RECEIVED has been serviced (43_event_gate.md R346). -/
def State.pollReturn (s : State) (delivered : Nat) : State :=
  let (v, s) := s.countValue delivered
  (s.endService receivedBit).retOk v

/-- One visit of RX_POLL to the slot at `rx.current` (R280). -/
def State.pollVisit (s : State) (delivered : Nat) : State :=
  let p := ringPos s.nRx s.rx.current 0
  let d := s.rxAt p
  if d.owned then s.pollReturn delivered
  else if d.buf = 0#32 then s.raiseInCommand .rxSlotEmpty .rx p
  else if d.eof then s.linkSlot.endOfFrame delivered p d.len
  else s.linkSlot.goOn (.pollVisit delivered)

/-- The chain is closed (R290), and the walk goes on. -/
def State.closeChain (s : State) (delivered : Nat) : State :=
  { s with rx.chain := [], port.w := .pollVisit delivered }

/-- The frame record of the chain (R286, 00_scope.md R32). -/
def State.chainFrame (s : State) (len : BitVec 16) : Frame :=
  { handles := s.rx.chain, totalLength := len, spans := s.rx.chain.map s.span }

/-- The completed chain goes to the Frame Router, and the chain is closed (R285, R286, R290). -/
def State.deliverChain (s : State) (delivered : Nat) (len : BitVec 16) : State :=
  (s.deliver (s.chainFrame len)).closeChain (delivered + 1)

/-- One re-arming write of the success path (R285), and after the last one the delivery. -/
def State.pollRearm (s : State) (delivered f : Nat) (fresh : List Handle) (len : BitVec 16) : State :=
  match fresh with
  | [] => s.deliverChain delivered len
  | h :: rest =>
    let s := s.armSlot (s.chainSlot f) h
    if rest.isEmpty then s.deliverChain delivered len else s.rearmFrom delivered (f + 1) rest len

/-- The frame is dropped and counted (R292), and the chain is closed (R290). -/
def State.dropChain (s : State) (delivered : Nat) : State :=
  ({ s with ctr.rxDrop := s.ctr.rxDrop + 1#32 }).closeChain delivered

/-- One re-arming write of the failure path (R288): fragment `f`'s original buffer goes back into its own slot. -/
def State.pollRecycle (s : State) (delivered f : Nat) : State :=
  let s := s.armSlot (s.chainSlot f) (s.rx.chain.getD f 0#32)
  if f + 1 < s.rx.chain.length then s.recycleFrom delivered (f + 1) else s.dropChain delivered

/-- RX_POLL (42_receive.md R280): it starts with a visible point; `pollVisit`, `pollRearm` and `pollRecycle` are W's
further steps. -/
def execRxPoll (s : State) : Host.Outcome State Fault Refusal :=
  .next (s.issueConfigured fun s => s.goOn (.pollVisit 0))

/-- `ceil(len / CAP)`, the fragments of a wire frame of `len` bytes (R301). -/
def fragmentCount (len cap : Nat) : Nat := (len + (cap - 1)) / cap

/-- What RXD's start step finds on the slots it looks at, in order (R301). -/
inductive ArmCheck where
  | allArmed
  | notArmed
  | broken (p : Nat)
  deriving DecidableEq, Repr

/-- The armed-slot check over the slot numbers `ps` (R301). -/
def State.checkArmed (s : State) : List Nat → ArmCheck
  | [] => .allArmed
  | p :: ps =>
    if (s.rxAt p).owned && (s.rxAt p).buf == 0#32 then .broken p
    else if !(s.rxAt p).owned then .notArmed
    else s.checkArmed ps

/-- A wire frame is discarded and counted (R302). -/
def State.overflow (s : State) : State := { s with ctr.rxOvf := s.ctr.rxOvf + 1#32 }

/-- RXD's start step on a frame it may take (R301). -/
def State.rxdStart (s : State) (frame : List Byte) : State :=
  let m := fragmentCount frame.length s.cfg.cap.toNat
  if s.nRx < m then s.overflow
  else match s.checkArmed ((List.range m).map (ringPos s.nRx s.rxd.idx)) with
    | .broken p => s.raise .emptySlotOwned .rx p
    | .notArmed => s.overflow
    | .allArmed => { s with rxd.frame := some frame, rxd.m := BitVec.ofNat 17 m, rxd.frag := 0#16 }

/-- ENV offers a wire frame to RXD (R300): RXD takes it only when it is configured, not halted, free, and the frame is
acceptable; else the frame is lost on the wire and counted nowhere (40_ring.md R213). DESIGN CHOICE (assumption 28): RXD's start
step is taken in the turn of ENV that offers the frame, so no other agent steps between the offer and the start. -/
def State.offerFrame (s : State) (frame : List Byte) : State :=
  if s.cfg.configured && !s.halted && s.rxd.frame.isNone && s.rxAccepts frame then s.rxdStart frame else s

/-- RXD's write step (R303, R304): one fragment of the frame goes into the slot at `rxd.idx`, which is released. -/
def State.rxdWrite (s : State) (frame : List Byte) : State :=
  let f := s.rxd.frag.toNat
  let cap := s.cfg.cap.toNat
  let p := ringPos s.nRx s.rxd.idx 0
  let d := s.rxAt p
  let isLast := decide (f + 1 = s.rxd.m.toNat)
  let s := { s with buf.data := Memory.writeBytes s.buf.data d.buf 0 ((frame.drop (f * cap)).take cap) }
  let s := s.setRx p
    { d with
      sof := decide (f = 0), eof := isLast, owned := false
      len := if isLast then BitVec.ofNat 16 frame.length else s.cfg.cap }
  let s := { s with rxd.idx := adv s.nRx s.rxd.idx, rxd.frag := s.rxd.frag + 1#16 }
  if isLast then { s.setIsr rxDoneBit with rxd.frame := none } else s

/-- One step of RXD on a frame it has taken (R300, R303); nothing where no step is enabled. -/
def State.rxdStep (s : State) : State :=
  if s.halted || !s.cfg.configured then s
  else match s.rxd.frame with
    | none => s
    | some frame => s.rxdWrite frame

end Sys2Proof.Machine
end

