-- ==== Sys2Proof/Machine/Ring.lean ====
section
/-! DEFINITION. CFG, which constructs both rings (40_ring.md R210 to R214). -/

namespace Sys2Proof.Machine

/-- The `t` TX slots after CFG: all free, the last with its wrap bit (R210, 10_state.md R65). -/
def freeTxSlots (t : Nat) : List TxSlot :=
  (List.range t).map fun i => { TxSlot.free with wrap := decide (i + 1 = t) }

/-- An RX slot armed with buffer `h` (R210). -/
def RxSlot.armed (h : Handle) (wrap : Bool) : RxSlot := { RxSlot.empty with buf := h, wrap := wrap, owned := true }

/-- The RX slots after CFG: slot `i` armed with the `i`-th handle, the last with its wrap bit (R210). -/
def armedRxSlots : List Handle → List RxSlot
  | [] => []
  | h :: hs => RxSlot.armed h hs.isEmpty :: armedRxSlots hs

/-- CFG once it holds its buffers `got` (R210): both rings, every cursor and both DMA agents start over. -/
def State.construct (s : State) (t : BitVec 16) (got : List Handle) : State :=
  let s := s.setSpans got 0#16
  { s with
    cfg.configured := true
    cfg.cap := s.cfgCapacity
    cfg.linkAddr := s.argAddr 2
    tx := { slots := freeTxSlots t.toNat, current := 0#16, release := 0#16, inUse := 0#17 }
    rx := { slots := armedRxSlots got, current := 0#16, chain := [], chainFirst := 0#16 }
    txd := { idx := 0#16, state := .idle, left := 0#17 }
    rxd := { idx := 0#16, frame := none, frag := 0#16, m := 0#17 } }

/-- CFG (R210), its checks in the order of R211. -/
def State.configure (s : State) : State :=
  if s.cfg.configured then s.retErr .alreadyConfigured
  else if !pow2 s.cfgTxCount || !pow2 s.cfgRxCount || s.cfgCapacity == 0#16 then s.retErr .misconfigured
  else
    let (got, s) := s.allocateUpTo s.cfgRxCount.toNat
    if got.length = s.cfgRxCount.toNat then (s.construct s.cfgTxCount got).retOk 0#32
    else (s.releaseAll got).retErr .outOfBuffers

/-- CFG (40_ring.md R210). -/
def execCfg (s : State) : Host.Outcome State Fault Refusal := .next (s.issue State.configure)

end Sys2Proof.Machine
end

