-- ==== Sys2Proof/Machine/Transmit.lean ====
section
/-! DEFINITION. TX_SEND, TX_RECLAIM and TXD (41_transmit.md R230 to R268). `m` is `N_TX`. -/

namespace Sys2Proof.Machine

/-- `hw_owned <- 1` or `0` on TX slot `p`. -/
def State.setTxOwned (s : State) (p : Nat) (owned : Bool) : State := s.setTx p { s.txAt p with owned := owned }

/-- The slot number of fragment `i` of a TX_SEND: `tx.current + i` modulo `N_TX`. -/
def State.sendSlot (s : State) (i : Nat) : Nat := ringPos s.nTx s.tx.current i

/-- `h` is the `buffer_ref` of a slot, or in `rx.chain` (41_transmit.md R231, check 4). -/
def State.slotOrChainHolds (s : State) (h : Handle) : Bool :=
  s.tx.slots.any (·.buf == h) || s.rx.slots.any (·.buf == h) || s.rx.chain.contains h

/-- Fragment `i` of a TX_SEND has a zero handle, a zero length, or a length over `CAP` (R231, check 2). -/
def State.badFragment (s : State) (i : Nat) : Bool :=
  s.sendHandle i == 0#32 || s.sendLen i == 0#16 || decide (s.cfg.cap.toNat < (s.sendLen i).toNat)

/-- TX_SEND's validation (R231), the first failing check first; `none` when every check passes. -/
def State.sendError (s : State) (k : Nat) : Option ResultCode :=
  if k = 0 then some .badChain
  else if (List.range k).any s.badFragment then some .badChain
  else if !decide (s.sendHandles k).Nodup then some .badChain
  else if (s.sendHandles k).any s.slotOrChainHolds then some .badChain
  else if (List.range k).any (fun i => (s.bufAddr (s.sendHandle i)).toNat % s.txAlign != 0) then some .unaligned
  else if s.nTx < k then some .ringFull
  else none

/-- What the free-slot check of TX_SEND finds first on the slots it looks at, in order (R230 step 1). -/
inductive SlotCheck where
  | allFree
  | full
  | broken (p : Nat)
  deriving DecidableEq, Repr

/-- The free-slot check over the slot numbers `ps` (R230 step 1). -/
def State.checkFree (s : State) : List Nat → SlotCheck
  | [] => .allFree
  | p :: ps =>
    if (s.txAt p).buf == 0#32 && (s.txAt p).owned then .broken p
    else if !(s.txAt p).isFree then .full
    else s.checkFree ps

/-- The slot numbers a TX_SEND of `k` fragments uses. -/
def State.sendSlots (s : State) (k : Nat) : List Nat := (List.range k).map s.sendSlot

/-- Fragment `i` of `k` is written into its slot, which stays software-owned (R230 steps 2 and 3). -/
def State.fillSlot (s : State) (k i : Nat) : State :=
  s.setTx (s.sendSlot i)
    { s.txAt (s.sendSlot i) with
      buf := s.sendHandle i, len := s.sendLen i, last := decide (i + 1 = k), err := 0#8 }

/-- All `k` fragments are written into their slots, one atomic step (R230 steps 2 and 3). -/
def State.fillChain (s : State) (k : Nat) : State := (List.range k).foldl (fun s i => s.fillSlot k i) s

/-- The first atomic step of TX_SEND: validate, check, fill (R230, R231, R234). -/
def State.sendStart (s : State) (k : Nat) : State :=
  match s.sendError k with
  | some code => s.retErr code
  | none =>
    match s.checkFree (s.sendSlots k) with
    | .broken p => s.raiseInCommand .emptySlotOwned .tx p
    | .full => s.retErr .ringFull
    | .allFree => (s.fillChain k).goOn (.txCommit k (k - 1))

/-- One ownership write of the reverse commit (R230 step 4, R232); the last one also moves the cursor and the counter
(step 5). -/
def State.sendCommit (s : State) (k i : Nat) : State :=
  match i with
  | 0 =>
    let s := s.setTxOwned (s.sendSlot 0) true
    { s with
      tx.current := BitVec.ofNat 16 (s.sendSlot k)
      tx.inUse := s.tx.inUse + BitVec.ofNat 17 k
      port.w := .txDoorbell k }
  | i + 1 => (s.setTxOwned (s.sendSlot (i + 1)) true).goOn (.txCommit k i)

/-- TXD leaves IDLE for RUNNING, and stays as it is otherwise (R233, R267). -/
def State.wakeTxd (s : State) : State :=
  if s.txd.state = .idle then { s with txd.state := .running } else s

/-- The last step of TX_SEND: the doorbell, then `OK(0)` (R233). -/
def State.sendDoorbell (s : State) : State := s.wakeTxd.retOk 0#32

/-- TX_SEND (41_transmit.md R230): its first step; `sendCommit` and `sendDoorbell` are W's further steps. -/
def execTxSend (k : Nat) (s : State) : Host.Outcome State Fault Refusal :=
  .next (s.issueConfigured (·.sendStart k))

/-- `return OK(count)` of TX_RECLAIM (R240), with which TRANSMITTED has been serviced (43_event_gate.md R346). -/
def State.reclaimReturn (s : State) (count : Nat) : State :=
  (s.endService transmittedBit).retOk (BitVec.ofNat 32 count)

/-- The first step of TX_RECLAIM (R240): `n` visits follow, or `OK(0)` when nothing is in use. -/
def State.reclaimStart (s : State) : State :=
  match s.tx.inUse.toNat with
  | 0 => s.reclaimReturn 0
  | more + 1 => s.goOn (.reclaim more 0)

/-- The slot at `tx.release` leaves the in-use window (R240). -/
def State.advanceRelease (s : State) : State :=
  { s with tx.release := adv s.nTx s.tx.release, tx.inUse := s.tx.inUse - 1#17 }

/-- After a visit of TX_RECLAIM: the next visit, or `OK(count)` when the window is walked (R245). -/
def State.reclaimNext (s : State) (more count : Nat) : State :=
  match more with
  | 0 => s.reclaimReturn count
  | more + 1 => s.goOn (.reclaim more count)

/-- "Clear the slot" (R243): everything but `is_wrap`. -/
def TxSlot.clear (d : TxSlot) : TxSlot := { d with buf := 0#32, len := 0#16, last := false, err := 0#8 }

/-- One visit of TX_RECLAIM (R240 to R243). -/
def State.reclaimVisit (s : State) (more count : Nat) : State :=
  let p := ringPos s.nTx s.tx.release 0
  let d := s.txAt p
  if d.buf = 0#32 then
    if d.owned then s.raiseInCommand .emptySlotOwned .tx p
    else s.advanceRelease.reclaimNext more count
  else if d.owned then s.reclaimReturn count
  else (((s.releaseHandle d.buf).setTx p d.clear).advanceRelease).reclaimNext more (count + 1)

/-- TX_RECLAIM (41_transmit.md R240): its first step; `reclaimVisit` is W's further steps. -/
def execTxReclaim (s : State) : Host.Outcome State Fault Refusal :=
  .next (s.issueConfigured State.reclaimStart)

/-- What TXD's send step finds on the frame at `txd.idx` (R262). -/
inductive FrameWalk where
  | frame (n : Nat)
  | fault (bit : FaultBit) (p : Nat)
  deriving DecidableEq, Repr

/-- TXD's walk from fragment `j` on, over at most `fuel` more slots (R262). -/
def State.walkFrame (s : State) (j : Nat) : Nat → FrameWalk
  | 0 => .fault .txChainBroken s.txd.idx.toNat
  | fuel + 1 =>
    let p := ringPos s.nTx s.txd.idx j
    let d := s.txAt p
    if !d.owned then .fault .txChainBroken p
    else if d.buf = 0#32 then .fault .emptySlotOwned p
    else if d.last then .frame (j + 1)
    else s.walkFrame (j + 1) fuel

/-- The bytes of the fragment in TX slot `p`: the first `byte_length` bytes of its buffer (R263). -/
def State.fragmentBytes (s : State) (p : Nat) : List Byte :=
  Memory.readBytes s.buf.data (s.txAt p).buf 0 (s.txAt p).len.toNat

/-- The bytes of the `n` fragments from `txd.idx` on, in slot order (R262, R263). -/
def State.frameBytes (s : State) (n : Nat) : List Byte :=
  (List.range n).flatMap fun f => s.fragmentBytes (ringPos s.nTx s.txd.idx f)

/-- TXD's send step (R262). -/
def State.txdSend (s : State) : State :=
  match s.walkFrame 0 s.nTx with
  | .fault bit p => s.raise bit .tx p
  | .frame n =>
    let s := s.wireTx (s.frameBytes n)
    { s with txd.left := BitVec.ofNat 17 n, txd.state := .completing }

/-- TXD's completion step (R264): the slot's error flags are a draw (R266), its ownership bit is cleared, and after the
frame's last slot TX_DONE is set. -/
def State.txdComplete (s : State) : State :=
  let (flags, s) := s.draw
  let p := ringPos s.nTx s.txd.idx 0
  let s := s.setTx p { s.txAt p with err := BitVec.ofNat 8 flags, owned := false }
  let s := { s with txd.idx := adv s.nTx s.txd.idx, txd.left := s.txd.left - 1#17 }
  if s.txd.left = 0#17 then { s.setIsr txDoneBit with txd.state := .running } else s

/-- One step of TXD (R260 to R264); nothing where no step is enabled. -/
def State.txdStep (s : State) : State :=
  if s.halted || !s.cfg.configured then s
  else match s.txd.state with
    | .idle => s
    | .running =>
      if (s.txAt (ringPos s.nTx s.txd.idx 0)).owned then s.txdSend else { s with txd.state := .idle }
    | .completing => s.txdComplete

/-- A write to `TX_DOORBELL` (R267). -/
def State.ringDoorbell (s : State) : State :=
  if s.halted || !s.cfg.configured then s else s.wakeTxd

end Sys2Proof.Machine
end

