-- ==== Sys2Proof/Machine/Dispatch.lean ====
section
/-! DEFINITION. One arm per command: what writing the command's word to its port does in one atomic step (30_encoding.md
R141, R144). -/

namespace Sys2Proof.Machine

def exec (i : Instr) (s : State) : Host.Outcome State Fault Refusal :=
  match i with
  | .cfg => Sys2Proof.Machine.execCfg s
  | .txSend k => Sys2Proof.Machine.execTxSend k s
  | .txReclaim => Sys2Proof.Machine.execTxReclaim s
  | .rxPoll => Sys2Proof.Machine.execRxPoll s
  | .evtDrain => Sys2Proof.Machine.execEvtDrain s
  | .mcJoin => Sys2Proof.Machine.execMcJoin s
  | .mcLeave => Sys2Proof.Machine.execMcLeave s
  | .irqEntry => Sys2Proof.Machine.execIrqEntry s

end Sys2Proof.Machine
end

