-- ==== Sys2Proof/Machine/Registers.lean ====
section
/-! DEFINITION. The register space (10_state.md R42, 20_memory.md R100 to R102, R112, R114): which register an offset names,
what a read returns, and what a write does. -/

namespace Sys2Proof.Machine

/-- The registers at offsets below 0x100 (R42). -/
def regTable : List (Nat × Reg) :=
  [(0x000, .cmd), (0x004, .result), (0x008, .value), (0x00C, .status), (0x010, .fault), (0x014, .isr), (0x018, .evt),
   (0x01C, .sig), (0x020, .txDoorbell), (0x024, .intCmd), (0x028, .intResult), (0x02C, .mcHashLo), (0x030, .mcHashHi),
   (0x034, .rxDropCount), (0x038, .rxOvfCount), (0x03C, .faultSlot), (0x040, .txCurrent), (0x044, .txRelease),
   (0x048, .txInUse), (0x04C, .txHwIdx), (0x050, .rxCurrent), (0x054, .rxChainFirst), (0x058, .rxChainLen),
   (0x05C, .rxHwIdx), (0x060, .cfgCounts), (0x064, .cfgCap), (0x068, .linkAddrLo), (0x06C, .linkAddrHi),
   (0x070, .txRingBase), (0x074, .rxRingBase)]

/-- The register at an offset below 0x2000; `none` for an unlisted one (R42). -/
def regAt (off : Nat) : Option Reg :=
  if 0x1000 ≤ off then some (.arg ((off - 0x1000) / 4))
  else if 0x100 ≤ off ∧ off ≤ 0x13C then some (.mcCount ((off - 0x100) / 4))
  else Store.get? regTable off

/-- What a read of a register returns (R42). -/
def State.readReg (s : State) : Reg → Word
  | .cmd => 0#32
  | .result => s.port.result.setWidth 32
  | .value => s.port.value
  | .status => s.statusWord
  | .fault => s.halt.fault.setWidth 32
  | .isr => s.irq.isr.setWidth 32
  | .evt => s.irq.evt.setWidth 32
  | .sig => (flag s.irq.sig).setWidth 32
  | .txDoorbell => 0#32
  | .intCmd => 0#32
  | .intResult => s.irq.intResult.setWidth 32
  | .mcHashLo => s.mc.filter.extractLsb' 0 32
  | .mcHashHi => s.mc.filter.extractLsb' 32 32
  | .rxDropCount => s.ctr.rxDrop
  | .rxOvfCount => s.ctr.rxOvf
  | .faultSlot => s.halt.faultSlot.setWidth 32
  | .txCurrent => s.tx.current.setWidth 32
  | .txRelease => s.tx.release.setWidth 32
  | .txInUse => s.tx.inUse.setWidth 32
  | .txHwIdx => s.txd.idx.setWidth 32
  | .rxCurrent => s.rx.current.setWidth 32
  | .rxChainFirst => s.rx.chainFirst.setWidth 32
  | .rxChainLen => (BitVec.ofNat 17 s.rx.chain.length).setWidth 32
  | .rxHwIdx => s.rxd.idx.setWidth 32
  | .cfgCounts => s.cfgCountsWord
  | .cfgCap => s.cfg.cap.setWidth 32
  | .linkAddrLo => s.cfg.linkAddr.extractLsb' 0 32
  | .linkAddrHi => (s.cfg.linkAddr.extractLsb' 32 16).setWidth 32
  | .txRingBase => s.cfg.txRingBase
  | .rxRingBase => s.cfg.rxRingBase
  | .mcCount j => s.mcCountWord j
  | .arg a => s.arg a

/-- The byte offset of a bus address from `BASE`, bits [12:0] of the difference, which wraps for an address below `BASE`
(20_memory.md R101). -/
def offsetOf (addr : Nat) : Nat := (((addr : Int) - (Config.base : Int)) % 0x2000).toNat

/-- What a 32-bit read at byte offset `off` from `BASE` returns: only bits [12:0] of the offset are decoded (R101), and an
unlisted offset reads 0 (R42). -/
def State.readAt (s : State) (off : Nat) : Word :=
  match regAt (off % 0x2000) with
  | some r => s.readReg r
  | none => 0#32

/-- A write to `CMD` (30_encoding.md R144): a legal word runs its command; an illegal word is a command that answers
`IllegalCommand`. Either is ignored while BUSY or halted (10_state.md R52, 60_exceptions.md R410). -/
def State.writeCmd (s : State) (w : Word) : Host.Outcome State Fault Refusal :=
  match decodeWorker w with
  | .ok i => exec i s
  | .error _ => .next (s.issue (·.retErr .illegalCommand))

/-- A write to `INTCMD` (30_encoding.md R144, 10_state.md R53): a word that arrives while an IRQ_ENTRY runs waits behind
it. -/
def State.writeIntCmd (s : State) (w : Word) : Host.Outcome State Fault Refusal :=
  match decodeInterrupt w with
  | .ok i => exec i s
  | .error _ =>
    .next (if s.halted then s else if s.interruptBusy then s.enqueueInt w else s.intIllegal)

/-- A write to `ISR` clears each bit written as 1 (20_memory.md R112); ignored once halted (60_exceptions.md R410). -/
def State.writeIsr (s : State) (v : Word) : State :=
  if s.halted then s else { s with irq.isr := s.irq.isr &&& ~~~(v.extractLsb' 0 2) }

/-- A write to `ARG[a]`: ignored while BUSY (10_state.md R54) or halted (60_exceptions.md R410). -/
def State.writeArg (s : State) (a : Nat) (v : Word) : State :=
  if s.halted || s.busy then s else { s with args := Store.put s.args a v }

/-- A write of `v` to a register (20_memory.md R112); every write not named there is ignored. -/
def State.writeReg (s : State) (r : Reg) (v : Word) : Host.Outcome State Fault Refusal :=
  match r with
  | .cmd => s.writeCmd v
  | .intCmd => s.writeIntCmd v
  | .txDoorbell => .next s.ringDoorbell
  | .isr => .next (s.writeIsr v)
  | .txRingBase => .next (if s.cfg.configured then s else { s with cfg.txRingBase := v })
  | .rxRingBase => .next (if s.cfg.configured then s else { s with cfg.rxRingBase := v })
  | .arg a => .next (s.writeArg a v)
  | .result | .value | .status | .fault | .evt | .sig | .intResult | .mcHashLo | .mcHashHi | .rxDropCount
  | .rxOvfCount | .faultSlot | .txCurrent | .txRelease | .txInUse | .txHwIdx | .rxCurrent | .rxChainFirst
  | .rxChainLen | .rxHwIdx | .cfgCounts | .cfgCap | .linkAddrLo | .linkAddrHi | .mcCount _ => .next s

/-- A 32-bit write at byte offset `off` from `BASE`; an unlisted offset ignores it (R42, R101). -/
def State.writeAt (s : State) (off : Nat) (v : Word) : Host.Outcome State Fault Refusal :=
  match regAt (off % 0x2000) with
  | some r => s.writeReg r v
  | none => .next s

end Sys2Proof.Machine
end

