-- ==== Sys2Proof/Machine/Worker.lean ====
section
/-! DEFINITION. Agent W between the visible points of a command (00_scope.md R16, 20_memory.md R110): one further atomic
step of the command it runs. -/

namespace Sys2Proof.Machine

/-- One step of agent W: the next atomic step of the running command; nothing when no command runs or the block is
halted (60_exceptions.md R410). -/
def State.workerStep (s : State) : State :=
  if s.halted then s
  else match s.port.w with
    | .idle => s
    | .stopped => s
    | .txCommit k i => s.sendCommit k i
    | .txDoorbell _ => s.sendDoorbell
    | .reclaim more count => s.reclaimVisit more count
    | .pollVisit delivered => s.pollVisit delivered
    | .pollRearm delivered f fresh len => s.pollRearm delivered f fresh len
    | .pollRecycle delivered f => s.pollRecycle delivered f

/-- `n` steps of agent W with no other agent between them. -/
def State.runWorker : Nat → State → State
  | 0, s => s
  | n + 1, s => State.runWorker n s.workerStep

/-- The buffers W has allocated for the refill of a frame and not yet placed in their slots (42_receive.md R284, R285). -/
def WState.fresh : WState → List Handle
  | .idle => []
  | .stopped => []
  | .txCommit _ _ => []
  | .txDoorbell _ => []
  | .reclaim _ _ => []
  | .pollVisit _ => []
  | .pollRearm _ _ fresh _ => fresh
  | .pollRecycle _ _ => []

/-- The fragments of the running TX_SEND. -/
def WState.sendCount : WState → Nat
  | .idle => 0
  | .stopped => 0
  | .txCommit k _ => k
  | .txDoorbell k => k
  | .reclaim _ _ => 0
  | .pollVisit _ => 0
  | .pollRearm _ _ _ _ => 0
  | .pollRecycle _ _ => 0

/-- The handles of the running TX_SEND, whose slots are filled: they are the caller's until it returns OK (00_scope.md R33,
41_transmit.md R236). Its `ARG` words keep them, since no write reaches `ARG` while it runs (10_state.md R54). -/
def State.sending (s : State) : List Handle := s.sendHandles s.port.w.sendCount

end Sys2Proof.Machine
end

