-- ==== Sys2Proof/Machine/Agents.lean ====
section
/-! DEFINITION. The agents' turns (00_scope.md R20) and the environment's moves with its duties (R30 to R34,
20_memory.md R100, R102, R103, 70_reset_and_hazards.md R472). -/

namespace Sys2Proof.Machine

/-- Handle `h` lies in the block: in a slot, in `rx.chain`, or in W's hands during a refill (70_reset_and_hazards.md R472). -/
def State.blockHolds (s : State) (h : Handle) : Bool := s.slotOrChainHolds h || s.port.w.fresh.contains h

/-- The block owns handle `h`: it lies in the block, and not as one that a running TX_SEND was passed, which is the caller's
until the command returns OK (00_scope.md R33, 41_transmit.md R236). -/
def State.blockOwns (s : State) (h : Handle) : Bool := s.blockHolds h && !s.sending.contains h

/-- A user outside the block owns handle `h`: a real handle that is neither free nor the block's, so the Frame Router's or a
caller's (R33; assumption 9). -/
def State.envOwns (s : State) (h : Handle) : Bool :=
  h != 0#32 && !s.env.pool.contains h && !s.blockOwns h

/-- A TX_SEND of `k` fragments would be accepted and fill its slots in this state (41_transmit.md R230, R231). -/
def State.sendAccepted (s : State) (k : Nat) : Bool :=
  s.cfg.configured && !s.halted && !s.busy && s.sendError k == none && s.checkFree (s.sendSlots k) == .allFree

/-- Handle `h` is not a caller's to send: it is free, or the Frame Router owns it, from which it comes back to the block only
through `Release` (R30, R33). -/
def State.notCallers (s : State) (h : Handle) : Bool := s.env.pool.contains h || s.env.router.contains h

/-- The word `w` written to `CMD` would hand the block a handle that ENV may not pass to TX_SEND: its duties are to own every
handle it sends, and to hand no delivered handle back but through `Release` (R30). -/
def State.sendBreaksDuty (s : State) (w : Word) : Bool :=
  match decodeWorker w with
  | .ok (.txSend k) => s.sendAccepted k && (s.sendHandles k).any s.notCallers
  | _ => false

/-- How many bytes of a buffer ENV may reach: `CAP`, or before a CFG has set it the largest `CAP` (assumption 11). -/
def State.bufferLimit (s : State) : Nat := if s.cfg.configured then s.cfg.cap.toNat else 65535

/-- ENV may read bytes `start` to `start + n - 1` of the buffer of `h`: a real handle that the block does not own (20_memory.md
R100, 00_scope.md R33). -/
def State.envReads (s : State) (h : Handle) (start n : Nat) : Bool :=
  h != 0#32 && !s.blockOwns h && decide (start + n ≤ s.bufferLimit)

/-- ENV may write those bytes: only of a handle that does not lie in the block, so not of one that a running TX_SEND was passed
(70_reset_and_hazards.md R472; DEDUCED, assumption 29). -/
def State.envWrites (s : State) (h : Handle) (start n : Nat) : Bool :=
  h != 0#32 && !s.blockHolds h && decide (start + n ≤ s.bufferLimit)

/-- Every register access is 32 bits wide at a 4-aligned offset (20_memory.md R102). -/
def accessAdmitted (off width : Nat) : Bool := off % 4 == 0 && width == 32

/-- A move of ENV (R30). A move that breaks a duty does not exist. -/
def State.hostMove (s : State) (m : HostMove) : Host.Outcome State Fault Refusal :=
  match m with
  | .write off width v =>
    if !accessAdmitted off width then .fault .accessNotAdmitted
    else if off % 0x2000 = 0 ∧ s.sendBreaksDuty v then .refused (.noSuchMove .sendsOwnHandles)
    else s.writeAt off v
  | .read off width =>
    if !accessAdmitted off width then .fault .accessNotAdmitted
    else .next { s with env.readData := s.readAt off }
  | .offer frame =>
    if frame.length = 0 ∨ 65535 < frame.length then .refused (.noSuchMove .offersWireFrame)
    else .next (s.offerFrame frame)
  | .giveBack h =>
    if !s.envOwns h then .refused (.noSuchMove .givesBackOwnHandle)
    else if s.sending.contains h then .refused (.noSuchMove .keepsSentHandle)
    else .next { s with
      env.pool := HandleSet.insert s.env.pool h
      env.router := HandleSet.remove s.env.router h }
  | .take h =>
    if s.env.pool.contains h then .next { s with env.pool := HandleSet.remove s.env.pool h }
    else .refused (.noSuchMove .takesFreeHandle)
  | .fill h start bytes =>
    if s.envWrites h start bytes.length then .next { s with buf.data := Memory.writeBytes s.buf.data h start bytes }
    else .refused (.noSuchMove .fillsOwnBuffer)
  | .readBuffer h start n =>
    if s.envReads h start n then .next { s with env.readBytes := Memory.readBytes s.buf.data h start n }
    else .refused (.noSuchMove .readsOwnBuffer)

/-- One turn (R20): one atomic step of an agent, or one move of ENV. A turn of an agent with no enabled step passes. -/
def State.takeTurn (s : State) (t : Turn) : Host.Outcome State Fault Refusal :=
  match t with
  | .worker => .next s.workerStep
  | .interrupt => .next s.interruptStep
  | .txd => .next s.txdStep
  | .rxd => .next s.rxdStep
  | .host m => s.hostMove m

/-- The byte offset of the port that a command word is written to (10_state.md R42). -/
def portOffset : Port → Nat
  | .worker => 0x000
  | .interrupt => 0x024

/-- The move of ENV that issues a command word (60_exceptions.md R430). -/
def issueMove (w : Word) : HostMove := .write (portOffset (portOfWord w)) 32 w

end Sys2Proof.Machine
end

