-- ==== Sys2Proof/Machine/Step.lean ====
section
/-! DEFINITION. One step of the machine: one atomic step of one agent (00_scope.md R16, R20, 20_memory.md R116). The turn
comes from the script, and beyond it from the free schedule. -/

namespace Sys2Proof.Machine

/-- One step: the next turn the script fixes, else the next turn of the free schedule (R20: the model fixes no order). -/
def step (s : State) : Host.Outcome State Fault Refusal :=
  match s.script with
  | t :: rest => ({ s with script := rest }).takeTurn t
  | [] => ({ s with turnNo := s.turnNo + 1 }).takeTurn (Config.turn s.turnNo)

/-- `s` with the next turn fixed: ENV writes the command word `w` (of `nbits` bits, the rest 0) to its port. -/
def State.withFetchWord (s : State) (nbits w : Nat) : State :=
  { s with script := .host (issueMove (tableWord nbits w)) :: s.script }

end Sys2Proof.Machine
end

