-- ==== Sys2Proof/Machine/Assembler.lean ====
section
/-! DEFINITION. The spec's assembler lines and pseudo-instructions as moves of ENV (30_encoding.md R160, R161): each line is
its `ARG` writes and then one write of the command word. -/

namespace Sys2Proof.Machine

/-- The writes of `ARG[a]`, `ARG[a+1]`, ... -/
def argMoves (a : Nat) : List Word → List HostMove
  | [] => []
  | v :: vs => .write (0x1000 + 4 * a) 32 v :: argMoves (a + 1) vs

/-- The address words `W0`, `W1` (20_memory.md R106). -/
def addrWords (a : MacAddr) : List Word := [a.extractLsb' 0 32, (a.extractLsb' 32 16).setWidth 32]

/-- The address written `a0:a1:a2:a3:a4:a5` (20_memory.md R106). -/
def macAddr (a0 a1 a2 a3 a4 a5 : Byte) : MacAddr := a5 ++ a4 ++ a3 ++ a2 ++ a1 ++ a0

/-- `CFG tx, rx, cap, address` (R160). -/
def asmCfg (tx rx cap : BitVec 16) (a : MacAddr) : List HostMove :=
  argMoves 0 ([rx ++ tx, cap.setWidth 32] ++ addrWords a) ++ [issueMove (encode .cfg)]

/-- `TX_SEND h0:len0, h1:len1, ...` (R160). -/
def asmTxSend (fragments : List (Handle × BitVec 16)) : List HostMove :=
  argMoves 0 (fragments.flatMap fun f => [f.1, f.2.setWidth 32]) ++ [issueMove (encode (.txSend fragments.length))]

/-- `MC_JOIN address` (R160). -/
def asmMcJoin (a : MacAddr) : List HostMove := argMoves 0 (addrWords a) ++ [issueMove (encode .mcJoin)]

/-- `MC_LEAVE address` (R160). -/
def asmMcLeave (a : MacAddr) : List HostMove := argMoves 0 (addrWords a) ++ [issueMove (encode .mcLeave)]

/-- A line with no operands: `TX_RECLAIM`, `RX_POLL`, `EVT_DRAIN`, `IRQ_ENTRY` (R160). -/
def asmPlain (i : Instr) : List HostMove := [issueMove (encode i)]

/-- `DOORBELL` (R161): a write of any value `v` to `TX_DOORBELL`. -/
def asmDoorbell (v : Word) : List HostMove := [.write 0x020 32 v]

/-- `ACK mask` (R161). -/
def asmAck (mask : Word) : List HostMove := [.write 0x014 32 mask]

/-- What `SERVICE` issues after its EVT_DRAIN answered `v`: TX_RECLAIM if TRANSMITTED, then RX_POLL if RECEIVED (R161,
43_event_gate.md R346). -/
def serviceCommands (v : Word) : List Instr :=
  (if v.getLsbD 1 then [Instr.txReclaim] else []) ++ (if v.getLsbD 0 then [Instr.rxPoll] else [])

end Sys2Proof.Machine
end

