-- ==== Sys2Proof/Machine/Image.lean ====
section
/-! DEFINITION. The reference byte image of the descriptor slots (30_encoding.md R150 to R155, 20_memory.md R104, R105). No
rule of the block's semantics reads it (10_state.md R55). -/

namespace Sys2Proof.Machine

/-- Word 0 of a TX descriptor (R151). -/
def TxSlot.word0 (d : TxSlot) : Word :=
  flag d.owned ++ flag d.wrap ++ flag d.last ++ 0#5 ++ d.err ++ d.len

/-- Word 0 of an RX descriptor (R152). -/
def RxSlot.word0 (d : RxSlot) : Word :=
  flag d.owned ++ flag d.wrap ++ flag d.eof ++ flag d.sof ++ 0#12 ++ d.len

/-- The TX slot that a word 0 and a word 1 stand for; the reserved bits are ignored (R151, R153, R154). -/
def TxSlot.ofWords (w0 w1 : Word) : TxSlot :=
  { buf := w1, len := w0.extractLsb' 0 16, last := w0.getLsbD 29, wrap := w0.getLsbD 30, owned := w0.getLsbD 31,
    err := w0.extractLsb' 16 8 }

/-- The RX slot that a word 0 and a word 1 stand for; the reserved bits are ignored (R152, R153, R154). -/
def RxSlot.ofWords (w0 w1 : Word) : RxSlot :=
  { buf := w1, len := w0.extractLsb' 0 16, sof := w0.getLsbD 28, eof := w0.getLsbD 29, wrap := w0.getLsbD 30,
    owned := w0.getLsbD 31 }

/-- Word 2, `ADDR`: the buffer's data address, 0 for an empty slot (R153). -/
def State.addrWord (s : State) (h : Handle) : Word := if h = 0#32 then 0#32 else s.bufAddr h

/-- The four words of TX slot `p` (R151, R153). -/
def State.txImage (s : State) (p : Nat) : List Word :=
  [(s.txAt p).word0, (s.txAt p).buf, s.addrWord (s.txAt p).buf, 0#32]

/-- The four words of RX slot `p` (R152, R153). -/
def State.rxImage (s : State) (p : Nat) : List Word :=
  [(s.rxAt p).word0, (s.rxAt p).buf, s.addrWord (s.rxAt p).buf, 0#32]

/-- The four bytes of a word, lowest address first (20_memory.md R104, R105). -/
def wordBytes (w : Word) : List Byte :=
  [w.extractLsb' 0 8, w.extractLsb' 8 8, w.extractLsb' 16 8, w.extractLsb' 24 8]

/-- The sixteen bytes of TX slot `p` (R150). -/
def State.txImageBytes (s : State) (p : Nat) : List Byte := (s.txImage p).flatMap wordBytes

/-- The sixteen bytes of RX slot `p` (R150). -/
def State.rxImageBytes (s : State) (p : Nat) : List Byte := (s.rxImage p).flatMap wordBytes

/-- Where the image of TX slot `p` lies in DMA memory (20_memory.md R100). -/
def State.txSlotAddr (s : State) (p : Nat) : Nat := s.cfg.txRingBase.toNat + 16 * p

/-- Where the image of RX slot `p` lies in DMA memory (20_memory.md R100). -/
def State.rxSlotAddr (s : State) (p : Nat) : Nat := s.cfg.rxRingBase.toNat + 16 * p

end Sys2Proof.Machine
end

