-- ==== Sys2Proof/Machine/Schedule.lean ====
section
/-! DEFINITION. Infinite runs of the machine under a schedule, and the weak fairness of the block's four agents
(70_reset_and_hazards.md R491). -/

namespace Sys2Proof.Machine

/-- The agents whose steps R491 takes to be fair: all of 00_scope.md R20 but ENV. -/
inductive Agent where
  | worker
  | interrupt
  | txd
  | rxd
  deriving DecidableEq, Repr

/-- The turn in which an agent takes one step. -/
def Agent.turn : Agent → Turn
  | .worker => .worker
  | .interrupt => .interrupt
  | .txd => .txd
  | .rxd => .rxd

/-- The agent has an enabled step: W inside a command (10_state.md R52, 60_exceptions.md R408), I with an IRQ_ENTRY between its
steps or a waiting word (R53), TXD when it is not IDLE (41_transmit.md R260), RXD with a frame to write (42_receive.md R300);
none once the block is halted (60_exceptions.md R410). -/
def State.enabled (s : State) : Agent → Bool
  | .worker => !s.halted && s.busy && s.port.w != .stopped
  | .interrupt => !s.halted && s.interruptBusy
  | .txd => !s.halted && s.cfg.configured && s.txd.state != .idle
  | .rxd => !s.halted && s.cfg.configured && s.rxd.frame.isSome

/-- `r` is an infinite run of the machine in which step `n` takes the turn `sched n`. -/
def FollowsSchedule (sched : Nat → Turn) (r : Nat → State) : Prop :=
  ∀ n, step { r n with script := [sched n] } = .next (r (n + 1))

/-- Weak fairness (R491, assumption 30): an agent that has an enabled step from some point on is given a turn after it. ENV's
moves are not assumed to happen. -/
def WeaklyFair (sched : Nat → Turn) (r : Nat → State) : Prop :=
  ∀ (a : Agent) (n : Nat), (∀ m ≥ n, (r m).enabled a = true) → ∃ m ≥ n, sched m = a.turn

/-- `r` is a weakly fair infinite run of the machine under `sched`. -/
structure FairRun (sched : Nat → Turn) (r : Nat → State) : Prop where
  follows : FollowsSchedule sched r
  fair : WeaklyFair sched r

end Sys2Proof.Machine
end

