-- ==== Sys2Proof/Safety.lean ====
section
/-! DEFINITION. What counts as a good state, in the terms the statements use: the invariants of the rings (10_state.md R64,
R65, R73, 40_ring.md R204, 20_memory.md R119, 42_receive.md R307), of handle ownership (00_scope.md R33), of the event gate
(70_reset_and_hazards.md R476), of the multicast table (44_multicast.md R360), and the canonical forms. -/

namespace Sys2Proof.Machine

/-- A ring size CFG can build: a power of two, 1 to 32768 (R9, R66). -/
abbrev IsRingSize (n : Nat) : Prop := ∃ e ≤ 15, n = 2 ^ e

/-- The sparse data are in canonical form: buffer memory, written arguments and spans with strictly rising keys, no span of
0 listed, the free set strictly rising without the id 0, and the Frame Router's handles strictly rising. -/
structure Canonical (s : State) : Prop where
  data : Memory.wf s.buf.data
  args : Store.wf s.args
  span : Store.wf s.buf.span
  noZeroSpan : ∀ e ∈ s.buf.span, e.2 ≠ 0#16
  pool : HandleSet.wf s.env.pool
  router : HandleSet.rising s.env.router

/-- The filter bit of a bucket is set if and only if its count is above 0 (R360). -/
def FilterMatchesCounts (s : State) : Prop := ∀ b : BitVec 6, s.mc.filterBit b = true ↔ 0 < (s.mc.countOf b).toNat

/-- An event is pending only while the worker is signalled (R476). -/
def EventsSignalled (s : State) : Prop := s.irq.evt ≠ 0#2 → s.irq.sig = true

/-- Exactly the last slot of each ring has its wrap bit (R65). -/
def WrapAtEnd (s : State) : Prop :=
  (∀ p < s.nTx, (s.txAt p).wrap = decide (p + 1 = s.nTx)) ∧ (∀ p < s.nRx, (s.rxAt p).wrap = decide (p + 1 = s.nRx))

/-- The handles of the Pending Frame Chain that are not back in a slot: during a recycle the first `f` are (R288). -/
def State.chainHeld (s : State) : List Handle :=
  match s.port.w with
  | .pollRecycle _ f => s.rx.chain.drop f
  | _ => s.rx.chain

/-- Every handle that lies in the free set, a slot, the Receive Assembler or the Frame Router's hands, once for each place. -/
def State.placedHandles (s : State) : List Handle :=
  s.env.pool ++ (s.tx.slots.map TxSlot.buf).filter (· ≠ 0#32) ++ (s.rx.slots.map RxSlot.buf).filter (· ≠ 0#32) ++
    s.chainHeld ++ s.port.w.fresh ++ s.env.router

/-- Who can own a handle (R33). -/
inductive Owner where
  | provider
  | slot
  | assembler
  | router
  | caller
  deriving DecidableEq, Repr

/-- `h` belongs to this owner (R33, 41_transmit.md R236): to the slot it lies in, but that a handle of a running TX_SEND is the
caller's until the command returns OK; to the Receive Assembler in `rx.chain` and while W refills a frame; and to a caller when it
lies in no place (assumption 9). -/
def State.owns (s : State) (h : Handle) : Owner → Prop
  | .provider => h ∈ s.env.pool
  | .slot => (h ∈ s.tx.slots.map TxSlot.buf ∧ h ∉ s.sending) ∨ h ∈ s.rx.slots.map RxSlot.buf
  | .assembler => h ∈ s.chainHeld ∨ h ∈ s.port.w.fresh
  | .router => h ∈ s.env.router
  | .caller => h ∈ s.sending ∨ h ∉ s.placedHandles

/-- No handle is in two places, and those of a running TX_SEND lie in TX slots, so that every real handle has one owner (R33). -/
structure HandlesExclusive (s : State) : Prop where
  placed : s.placedHandles.Nodup
  sending : ∀ h ∈ s.sending, h ≠ 0#32 ∧ h ∈ s.tx.slots.map TxSlot.buf

/-- How many slots a running TX_SEND has filled and not yet counted in `tx.in_use`. -/
def WState.filled : WState → Nat
  | .txCommit k _ => k
  | _ => 0

/-- Fragment `q` of a running TX_SEND has its ownership bit written: the commit runs from the last fragment down to the
first, and `i` is the next to be written (R232). -/
def WState.committed : WState → Nat → Bool
  | .txCommit _ i, q => decide (i < q)
  | _, _ => false

/-- The slot `j` places after `tx.release`. -/
def State.txFromRelease (s : State) (j : Nat) : TxSlot := s.txAt (ringPos s.nTx s.tx.release j)

/-- The TX ring is sound with `d` slots released by TXD and not yet reclaimed (R204, R119, R262). From `tx.release` on lie
`d` completed slots, then the slots owned by TXD up to `tx.in_use`, then the slots a running TX_SEND has filled, then free
slots; TXD stands after the completed ones, at a frame boundary unless it is completing a frame. -/
structure TxSound (s : State) (d : Nat) : Prop where
  size : IsRingSize s.nTx
  release_lt : s.tx.release.toNat < s.nTx
  current_eq : s.tx.current.toNat = ringPos s.nTx s.tx.release s.tx.inUse.toNat
  room : s.tx.inUse.toNat + s.port.w.filled ≤ s.nTx
  done_le : d ≤ s.tx.inUse.toNat
  idx_eq : s.txd.idx.toNat = ringPos s.nTx s.tx.release d
  done_slots : ∀ j < d, (s.txFromRelease j).buf ≠ 0#32 ∧ (s.txFromRelease j).owned = false
  sent_slots : ∀ j, d ≤ j → j < s.tx.inUse.toNat → (s.txFromRelease j).buf ≠ 0#32 ∧ (s.txFromRelease j).owned = true
  filled_slots : ∀ q < s.port.w.filled,
    (s.txFromRelease (s.tx.inUse.toNat + q)).buf ≠ 0#32 ∧
    (s.txFromRelease (s.tx.inUse.toNat + q)).owned = s.port.w.committed q ∧
    (s.txFromRelease (s.tx.inUse.toNat + q)).last = decide (q + 1 = s.port.w.filled)
  free_slots : ∀ j, s.tx.inUse.toNat + s.port.w.filled ≤ j → j < s.nTx → (s.txFromRelease j).isFree = true
  last_closed : d < s.tx.inUse.toNat → (s.txFromRelease (s.tx.inUse.toNat - 1)).last = true
  completing : s.txd.state = .completing →
    0 < s.txd.left.toNat ∧ d + s.txd.left.toNat ≤ s.tx.inUse.toNat ∧
    (s.txFromRelease (d + s.txd.left.toNat - 1)).last = true
  commit_lt : ∀ k i, s.port.w = .txCommit k i → i < k
  visits_le : ∀ more count, s.port.w = .reclaim more count → more < s.tx.inUse.toNat

/-- W is inside a TX_SEND. -/
def WState.inSend : WState → Bool
  | .txCommit _ _ | .txDoorbell _ => true
  | .idle | .stopped | .reclaim _ _ | .pollVisit _ | .pollRearm _ _ _ _ | .pollRecycle _ _ => false

/-- W is inside a TX_RECLAIM. -/
def WState.inReclaim : WState → Bool
  | .reclaim _ _ => true
  | .idle | .stopped | .txCommit _ _ | .txDoorbell _ | .pollVisit _ | .pollRearm _ _ _ _ | .pollRecycle _ _ => false

/-- W is inside an RX_POLL. -/
def WState.inPoll : WState → Bool
  | .pollVisit _ | .pollRearm _ _ _ _ | .pollRecycle _ _ => true
  | .idle | .stopped | .txCommit _ _ | .txDoorbell _ | .reclaim _ _ => false

/-- `t` follows `s` by a step of TX_SEND: its first step, or a further step of W (41_transmit.md R230). -/
def SendStep (s t : State) : Prop :=
  (∃ k, exec (.txSend k) s = .next t) ∨ s.port.w.inSend = true ∧ t = s.workerStep

/-- `t` follows `s` by a step of TX_RECLAIM: its first step, or a further step of W (41_transmit.md R240). -/
def ReclaimStep (s t : State) : Prop :=
  exec .txReclaim s = .next t ∨ s.port.w.inReclaim = true ∧ t = s.workerStep

/-- `t` follows `s` by a step of RX_POLL: its first step, or a further step of W (42_receive.md R280). -/
def PollStep (s t : State) : Prop :=
  exec .rxPoll s = .next t ∨ s.port.w.inPoll = true ∧ t = s.workerStep

/-- No worker command that needs a configured block runs. -/
def WState.outside : WState → Bool
  | .idle | .stopped => true
  | .txCommit _ _ | .txDoorbell _ | .reclaim _ _ | .pollVisit _ | .pollRearm _ _ _ _ | .pollRecycle _ _ => false

/-- The TX ring invariant: before CFG there is no ring, and afterwards the ring is sound. -/
def TxRingOk (s : State) : Prop :=
  if s.cfg.configured then ∃ d, TxSound s d
  else s.tx.slots = [] ∧ s.txd.state = .idle ∧ s.port.w.outside = true

/-- TXD is awake: while it is IDLE no slot waits for it, but between the last ownership write of a TX_SEND and its doorbell
(41_transmit.md R233, R268). -/
def TxdAwake (s : State) : Prop :=
  s.cfg.configured = true → s.txd.state = .idle → (∀ k, s.port.w ≠ .txDoorbell k) →
    (s.txAt (ringPos s.nTx s.txd.idx 0)).owned = false

/-- How many slots of the Pending Frame Chain hold no buffer: during a refill the first `f` are armed again (R285, R288). -/
def State.emptySlots (s : State) : Nat :=
  match s.port.w with
  | .pollRearm _ f _ _ => s.rx.chain.length - f
  | .pollRecycle _ f => s.rx.chain.length - f
  | _ => s.rx.chain.length

/-- How many fragments of a frame not yet complete the chain holds: none while a complete frame is refilled. -/
def State.openFragments (s : State) : Nat :=
  match s.port.w with
  | .pollRearm _ _ _ _ => 0
  | .pollRecycle _ _ => 0
  | _ => s.rx.chain.length

/-- How many fragments of the frame RXD is writing it has written. -/
def Rxd.written (r : Rxd) : Nat := if r.frame.isSome then r.frag.toNat else 0

/-- The slots RXD wrote and RX_POLL has not visited make up frames: after `p` fragments of the open frame, each EOF slot
carries a length that fits its frame's fragments, and what is left over is what RXD has written of its current frame
(R283, R303). -/
def FramesFit (s : State) : Nat → List RxSlot → Prop
  | p, [] => p = s.rxd.written
  | p, d :: ds => if d.eof then s.lengthFits (p + 1) d.len = true ∧ FramesFit s 0 ds else FramesFit s (p + 1) ds

/-- The slot `j` places after `rx.current`. -/
def State.rxFromCurrent (s : State) (j : Nat) : RxSlot := s.rxAt (ringPos s.nRx s.rx.current j)

/-- The RX ring is sound with `a` slots written by RXD and not yet visited (R64, R73, R299, R305, R307). From `rx.current`
on lie `a` written slots, then armed slots, then the empty slots of the chain; RXD stands at the first armed slot, and its
frame fits the armed slots. -/
structure RxSound (s : State) (a : Nat) : Prop where
  size : IsRingSize s.nRx
  cap_pos : 0 < s.cfg.cap.toNat
  current_lt : s.rx.current.toNat < s.nRx
  idx_eq : s.rxd.idx.toNat = ringPos s.nRx s.rx.current a
  room : s.emptySlots + a ≤ s.nRx
  written_slots : ∀ j < a, (s.rxFromCurrent j).buf ≠ 0#32 ∧ (s.rxFromCurrent j).owned = false
  armed_slots : ∀ j, a ≤ j → j + s.emptySlots < s.nRx →
    (s.rxFromCurrent j).buf ≠ 0#32 ∧ (s.rxFromCurrent j).owned = true
  empty_slots : ∀ j, j < s.nRx → s.nRx ≤ j + s.emptySlots →
    (s.rxFromCurrent j).buf = 0#32 ∧ (s.rxFromCurrent j).owned = false
  chain_first : s.rx.chain ≠ [] → s.rx.current.toNat = ringPos s.nRx s.rx.chainFirst s.rx.chain.length
  chain_le : s.rx.chain.length ≤ s.nRx
  chain_bufs : ∀ h ∈ s.rx.chain, h ≠ 0#32
  pool_bufs : ∀ h ∈ s.env.pool, h ≠ 0#32
  frames : FramesFit s s.openFragments ((List.range a).map s.rxFromCurrent)
  taken : ∀ frame, s.rxd.frame = some frame →
    s.rxd.m.toNat = fragmentCount frame.length s.cfg.cap.toNat ∧ 0 < frame.length ∧ frame.length ≤ 65535 ∧
    s.rxd.frag.toNat < s.rxd.m.toNat ∧ s.rxd.m.toNat - s.rxd.frag.toNat + a + s.emptySlots ≤ s.nRx ∧
    s.rxd.m.toNat ≤ s.nRx
  rearm : ∀ delivered f fresh len, s.port.w = .pollRearm delivered f fresh len →
    f < s.rx.chain.length ∧ fresh.length = s.rx.chain.length - f ∧ ∀ h ∈ fresh, h ≠ 0#32
  recycle : ∀ delivered f, s.port.w = .pollRecycle delivered f → f < s.rx.chain.length

/-- The RX ring invariant: before CFG there is no ring, and afterwards the ring is sound. -/
def RxRingOk (s : State) : Prop :=
  if s.cfg.configured then ∃ a, RxSound s a
  else s.rx.slots = [] ∧ s.rx.chain = [] ∧ s.rxd.frame = none ∧ s.port.w.outside = true ∧ ∀ h ∈ s.env.pool, h ≠ 0#32

/-! ### The conditions and parts that the statements share -/

/-- The worker port takes commands: no fault, and no command runs (R52, R410). -/
abbrev State.Accepting (s : State) : Prop := s.halted = false ∧ s.busy = false

/-- The worker port takes commands and the block is configured (R402). -/
abbrev State.Ready (s : State) : Prop := s.halted = false ∧ s.busy = false ∧ s.cfg.configured = true

/-- A DMA agent may step: configured and no fault (R260, R300). -/
abbrev State.DmaEnabled (s : State) : Prop := s.halted = false ∧ s.cfg.configured = true

/-- The bytes of buffer memory are those of another state (the frame of a step that stores nothing there). -/
def State.SameBytes (t s : State) : Prop := ∀ a, Memory.read t.buf.data a = Memory.read s.buf.data a

/-- The slot that began the frame RX_POLL is assembling, or will begin it (R281). -/
def State.frameFirst (s : State) : Index := if s.rx.chain.isEmpty then s.rx.current else s.rx.chainFirst

/-- The handles of the next `k` slots RX_POLL visits. -/
def State.nextHandles (s : State) (k : Nat) : List Handle := (List.range k).map fun j => (s.rxFromCurrent j).buf

/-- The next `k` slots RX_POLL visits complete a frame of length `len`: all are software-owned with a buffer, the last and
only the last ends a frame, and with the open chain they make at most a ring of fragments that the length fits (R280, R283). -/
structure FrameReady (s : State) (k : Nat) (len : BitVec 16) : Prop where
  size : IsRingSize s.nRx
  current_lt : s.rx.current.toNat < s.nRx
  chain_first : s.rx.chain ≠ [] → s.rx.current.toNat = ringPos s.nRx s.rx.chainFirst s.rx.chain.length
  k_pos : 0 < k
  k_le : s.rx.chain.length + k ≤ s.nRx
  slots : ∀ j < k, (s.rxFromCurrent j).owned = false ∧ (s.rxFromCurrent j).buf ≠ 0#32 ∧
    (s.rxFromCurrent j).eof = decide (j + 1 = k)
  len_eq : (s.rxFromCurrent (k - 1)).len = len
  len_gt : (s.rx.chain.length + k - 1) * s.cfg.cap.toNat < len.toNat
  len_le : len.toNat ≤ (s.rx.chain.length + k) * s.cfg.cap.toNat

/-- Every slot but those of the `k` fragments from `first` on is the same in two states. -/
def OtherRxSlotsSame (t s : State) (first : Index) (k : Nat) : Prop :=
  ∀ p, (∀ f < k, p ≠ ringPos s.nRx first f) → t.rxAt p = s.rxAt p

/-- Every TX slot but those of the `k` places from `first` on is the same in two states. -/
def OtherTxSlotsSame (t s : State) (first : Index) (k : Nat) : Prop :=
  ∀ p, (∀ j < k, p ≠ ringPos s.nTx first j) → t.txAt p = s.txAt p

/-- The offsets below 0x2000 that the map of 10_state.md R42 does not list. -/
abbrev Unlisted (off : Nat) : Prop := (0x078 ≤ off ∧ off < 0x100) ∨ (0x140 ≤ off ∧ off < 0x1000)

/-- The registers of R42 that read as one field of the state, zero-extended, each at its offset; CMD, TX_DOORBELL and INTCMD
read 0. -/
def State.simpleRegisters (s : State) : List (Nat × Word) :=
  [(0x000, 0#32), (0x004, s.port.result.setWidth 32), (0x008, s.port.value), (0x010, s.halt.fault.setWidth 32),
   (0x014, s.irq.isr.setWidth 32), (0x018, s.irq.evt.setWidth 32), (0x01C, if s.irq.sig then 1#32 else 0#32),
   (0x020, 0#32), (0x024, 0#32), (0x028, s.irq.intResult.setWidth 32), (0x034, s.ctr.rxDrop), (0x038, s.ctr.rxOvf),
   (0x03C, s.halt.faultSlot.setWidth 32), (0x040, s.tx.current.setWidth 32), (0x044, s.tx.release.setWidth 32),
   (0x048, s.tx.inUse.setWidth 32), (0x04C, s.txd.idx.setWidth 32), (0x050, s.rx.current.setWidth 32),
   (0x054, s.rx.chainFirst.setWidth 32), (0x058, BitVec.ofNat 32 (s.rx.chain.length % 2 ^ 17)),
   (0x05C, s.rxd.idx.setWidth 32), (0x064, s.cfg.cap.setWidth 32), (0x068, s.cfg.linkAddr.extractLsb' 0 32),
   (0x06C, (s.cfg.linkAddr.extractLsb' 32 16).setWidth 32), (0x070, s.cfg.txRingBase), (0x074, s.cfg.rxRingBase)]

/-- The registers that a command returns with: RESULT the code, VALUE, and BUSY 0 (00_scope.md R15). -/
def returned (code : ResultCode) (value : Word) : WorkerPort := { result := code.bits, value := value, w := .idle }

end Sys2Proof.Machine
end

