-- ==== Sys2Proof/WellFormed.lean ====
section
/-! DEFINITION. Which terms of `Instr` are commands of the block: the fragment count of TX_SEND fits the eight bits
of the `K` field (30_encoding.md R140, R143; `MAX_CHAIN` = 255, 00_scope.md R9). -/

namespace Sys2Proof

/-- The most fragments in one TX_SEND (00_scope.md R9). -/
def maxChain : Nat := 255

/-- The command has an encoding: `K` is an integer 0..255 (R143). `K = 0` is legal and answers `BadChain` (R145). -/
def Instr.wf : Instr → Bool
  | .cfg => true
  | .txSend k => decide (k ≤ maxChain)
  | .txReclaim => true
  | .rxPoll => true
  | .evtDrain => true
  | .mcJoin => true
  | .mcLeave => true
  | .irqEntry => true

end Sys2Proof
end

