-- ==== Sys2Proof/Certificates/Slice0/Obligations.lean ====
section
/-! DEFINITION. The statements for the provers. Each docstring names the rules of spec/ it formalises; a clause that rests
on the model's own choice names the assumption log's entry. -/

open Sys2Proof Sys2Proof.Machine

/-! ### Encoding and the step -/

/-- R140, R141, R144, R146: decoding the word of a well-formed command on its port gives the command back, and every legal
word is the word of the one well-formed command it decodes to, on that command's port. -/
def Obligations.DecodeAndEncodeAgree : Prop :=
  (∀ i : Instr, i.wf = true → decode i.port (encode i) = .ok i) ∧
  (∀ (p : Port) (w : Word) (i : Instr), decode p w = .ok i → encode i = w ∧ i.port = p ∧ i.wf = true)

/-- R141, R144, R145, R160: words written out from the spec's encodings decode to their commands, and illegal ones are
rejected. The names of the reasons are the model's choice (assumption 26): of each the spec says only `IllegalCommand`. -/
def Obligations.SampleWordsDecode : Prop :=
  decode .worker 0x00000001#32 = .ok .cfg ∧ decode .worker 0x00000302#32 = .ok (.txSend 3) ∧
  decode .worker 0x0000FF02#32 = .ok (.txSend 255) ∧ decode .worker 0x00000002#32 = .ok (.txSend 0) ∧
  decode .worker 0x00000003#32 = .ok .txReclaim ∧ decode .worker 0x00000004#32 = .ok .rxPoll ∧
  decode .worker 0x00000005#32 = .ok .evtDrain ∧ decode .worker 0x00000006#32 = .ok .mcJoin ∧
  decode .worker 0x00000007#32 = .ok .mcLeave ∧ decode .interrupt 0x00000008#32 = .ok .irqEntry ∧
  decode .worker 0x00000008#32 = .error .wrongPort ∧ decode .worker 0x00000000#32 = .error .reservedOp ∧
  decode .worker 0x000000FF#32 = .error .reservedOp ∧ decode .worker 0x00000103#32 = .error .strayK ∧
  decode .worker 0x80000004#32 = .error .reservedBits ∧ decode .interrupt 0x00000108#32 = .error .strayK ∧
  decode .interrupt 0x00000005#32 = .error .wrongPort

/-- R42, R112, R144: when the next turn is ENV's write of a command word to its port and the word decodes to command `i`, the
step is `exec i` on the state with that turn taken. The model's choices in it: the turn comes from the script and ENV's write is
one (assumptions 1 and 2); the write of the word and the command's first step are one step (assumption 13, unsafe for a block
that lets another agent step between them); and the one premise besides, that ENV breaks no duty (R30, assumption 8). -/
def Obligations.StepRunsTheDecodedCommand : Prop :=
  ∀ (s : State) (w : Word) (i : Instr) (rest : List Turn),
    s.script = .host (issueMove w) :: rest → decode (portOfWord w) w = .ok i →
    ({ s with script := rest }).sendBreaksDuty w = false →
    step s = exec i { s with script := rest }

/-- R144, R145: on the worker port a word whose OP is not 0x01..0x07, or whose RES is not 0, or whose K is not 0 with an OP
other than TX_SEND's, answers `IllegalCommand` and changes nothing but RESULT and VALUE; on the interrupt port every word but
0x00000008 changes nothing but INTRESULT, which becomes 8. -/
def Obligations.IllegalWordsChangeOnlyTheResult : Prop :=
  (∀ (s : State) (w : Word), s.Accepting →
    ((opField w).toNat = 0 ∨ 8 ≤ (opField w).toNat ∨ resField w ≠ 0#16 ∨ (opField w ≠ 0x02#8 ∧ kField w ≠ 0#8)) →
    s.writeCmd w = .next { s with port := returned .illegalCommand 0#32 }) ∧
  (∀ (s : State) (w : Word), s.halted = false → s.interruptBusy = false → w ≠ 0x00000008#32 →
    s.writeIntCmd w = .next { s with irq := { s.irq with intResult := 8#8 } })

/-- R30, R102: a bus access that is not 32 bits wide at a 4-aligned offset gets no step. R102 says that the agent that issues it
is stuck; that the whole machine stops, with `accessNotAdmitted`, is the model's reading (assumption 27). -/
def Obligations.OtherAccessesAreStuck : Prop :=
  ∀ (s : State) (off width : Nat) (v : Word) (rest : List Turn), ¬(off % 4 = 0 ∧ width = 32) →
    (s.script = .host (.write off width v) :: rest → step s = .fault .accessNotAdmitted) ∧
    (s.script = .host (.read off width) :: rest → step s = .fault .accessNotAdmitted)

/-! ### Reset -/

/-- R450: after reset every register of the map reads 0, but ARG, whose words are unspecified; the hidden state is as the
table says; every span is 0, every buffer byte is unspecified, and the free set is POOL. The unspecified values are the
model's open constants (assumptions 4, 5 and 6). -/
def Obligations.ResetState : Prop :=
  (∀ r : Reg, State.reset.readReg r = match r with
    | .arg a => Config.argReset a
    | _ => 0#32) ∧
  State.reset.cfg.configured = false ∧ State.reset.busy = false ∧ State.reset.halted = false ∧
  State.reset.irqLine = false ∧ State.reset.irq.latch = none ∧ State.reset.irq.queue = [] ∧
  State.reset.tx.slots = [] ∧ State.reset.rx.slots = [] ∧ State.reset.rx.chain = [] ∧
  State.reset.txd.state = .idle ∧ State.reset.txd.left = 0#17 ∧
  State.reset.rxd.frame = none ∧ State.reset.rxd.frag = 0#16 ∧ State.reset.rxd.m = 0#17 ∧
  (∀ h, State.reset.span h = 0#16) ∧ (∀ a, Memory.read State.reset.buf.data a = Config.bufByte a) ∧
  (∀ h, h ∈ State.reset.env.pool ↔ h ∈ Config.pool ∧ h ≠ 0#32)

/-- R450, R360, R476, R33, R64, R65, R268: reset meets every invariant. -/
def Obligations.ResetMeetsInvariants : Prop :=
  Canonical State.reset ∧ FilterMatchesCounts State.reset ∧ EventsSignalled State.reset ∧ WrapAtEnd State.reset ∧
  HandlesExclusive State.reset ∧ TxRingOk State.reset ∧ TxdAwake State.reset ∧ RxRingOk State.reset ∧
  State.reset.halt.fault = 0#4

/-! ### CFG -/

/-- R214 (and R210): a CFG with legal operands on an unconfigured block with enough free buffers answers OK(0); then every TX
slot is free, every RX slot is armed and holds a distinct buffer of the free set, exactly the last slot of each ring has its
wrap bit, all cursors are 0, the chain is empty and both DMA agents are at their start; the configuration registers hold the
operands and the buffers taken left the free set, with span 0. -/
def Obligations.CfgBuildsBothRings : Prop :=
  ∀ s : State, s.Accepting → s.cfg.configured = false → Canonical s →
    pow2 s.cfgTxCount = true → pow2 s.cfgRxCount = true → s.cfgCapacity ≠ 0#16 →
    s.cfgRxCount.toNat ≤ s.env.pool.length →
    ∃ t : State, ∃ got : List Handle, exec .cfg s = .next t ∧ t.port = returned .ok 0#32 ∧
      t.cfg = { s.cfg with configured := true, cap := s.cfgCapacity, linkAddr := s.argAddr 2 } ∧
      t.nTx = s.cfgTxCount.toNat ∧ t.nRx = s.cfgRxCount.toNat ∧
      (∀ p < t.nTx, (t.txAt p).isFree = true ∧ (t.txAt p).wrap = decide (p + 1 = t.nTx)) ∧
      (∀ p < t.nRx, t.rxAt p = { RxSlot.empty with
        buf := got.getD p 0#32, wrap := decide (p + 1 = t.nRx), owned := true }) ∧
      got.length = t.nRx ∧ got.Nodup ∧ (∀ h ∈ got, h ≠ 0#32 ∧ h ∈ s.env.pool ∧ t.span h = 0#16) ∧
      (∀ h, h ∈ t.env.pool ↔ h ∈ s.env.pool ∧ h ∉ got) ∧
      t.tx.current = 0#16 ∧ t.tx.release = 0#16 ∧ t.tx.inUse = 0#17 ∧
      t.rx.current = 0#16 ∧ t.rx.chain = [] ∧ t.rx.chainFirst = 0#16 ∧
      t.txd = { idx := 0#16, state := .idle, left := 0#17 } ∧
      t.rxd = { idx := 0#16, frame := none, frag := 0#16, m := 0#17 }

/-- R211: CFG's errors, first match wins: `AlreadyConfigured`, then `Misconfigured`, then `OutOfBuffers`. A CFG that answers an
error leaves CONFIGURED, every ring, cursor and agent state and the free set as they were, and the port takes commands. -/
def Obligations.CfgErrorsInOrder : Prop :=
  ∀ s : State, s.Accepting → HandleSet.wf s.env.pool →
    (s.cfg.configured = true → exec .cfg s = .next { s with port := returned .alreadyConfigured 0#32 }) ∧
    (s.cfg.configured = false → (pow2 s.cfgTxCount = false ∨ pow2 s.cfgRxCount = false ∨ s.cfgCapacity = 0#16) →
      exec .cfg s = .next { s with port := returned .misconfigured 0#32 }) ∧
    (s.cfg.configured = false → pow2 s.cfgTxCount = true → pow2 s.cfgRxCount = true → s.cfgCapacity ≠ 0#16 →
      s.env.pool.length < s.cfgRxCount.toNat →
      ∃ t, exec .cfg s = .next t ∧ t.port = returned .outOfBuffers 0#32 ∧ t.Accepting ∧ t.cfg = s.cfg ∧ t.tx = s.tx ∧
        t.rx = s.rx ∧ t.txd = s.txd ∧ t.rxd = s.rxd ∧ t.env.pool = s.env.pool ∧ t.buf = s.buf ∧ t.irq = s.irq ∧
        t.mc = s.mc ∧ t.ctr = s.ctr ∧ t.args = s.args ∧ t.halt = s.halt ∧ t.env.wire = s.env.wire ∧
        t.env.delivered = s.env.delivered ∧ t.env.router = s.env.router ∧ t.service = s.service)

/-- R210 (flags written): what a CFG leaves as it was: the multicast table, ISR, EVT, SIG, INTRESULT, the counters, the fault
registers, the arguments, the bases, the frames sent and delivered, the handles the Frame Router owns, and every byte of buffer
memory. -/
def Obligations.CfgFrame : Prop :=
  ∀ s t : State, exec .cfg s = .next t →
    t.mc = s.mc ∧ t.irq = s.irq ∧ t.ctr = s.ctr ∧ t.halt = s.halt ∧ t.args = s.args ∧ t.params = s.params ∧
    t.cfg.txRingBase = s.cfg.txRingBase ∧ t.cfg.rxRingBase = s.cfg.rxRingBase ∧
    t.env.wire = s.env.wire ∧ t.env.delivered = s.env.delivered ∧ t.env.router = s.env.router ∧
    t.env.readData = s.env.readData ∧ t.env.readBytes = s.env.readBytes ∧ t.service = s.service ∧ t.SameBytes s

/-! ### Commands before CFG, while busy, and after a fault -/

/-- R402: while the block is not configured each worker command but CFG answers `NotConfigured` and changes nothing else, and
IRQ_ENTRY runs as it does on a configured block (R330). That INTRESULT is 0 from its first step on is the model's reading of R144
(assumption 19): R330 sets it in the second. -/
def Obligations.UnconfiguredCommandsAnswerNotConfigured : Prop :=
  ∀ s : State, s.Accepting → s.cfg.configured = false →
    (∀ i : Instr, i.port = .worker → i ≠ .cfg → exec i s = .next { s with port := returned .notConfigured 0#32 }) ∧
    (s.interruptBusy = false → ∃ t, exec .irqEntry s = .next t ∧
      t = { s with irq := { s.irq with isr := 0#2, latch := some s.irq.isr, intResult := 0#8 } } ∧
      t.interruptStep = { s with
        irq := { s.irq with isr := 0#2, evt := s.irq.evt ||| s.irq.isr, sig := true, intResult := 0#8, latch := none } })

/-- R52, R54, R410: while a worker command runs a CMD write and an ARG write change nothing; once a fault bit is set every write
to CMD, INTCMD, TX_DOORBELL, ISR and ARG changes nothing and no agent of the block moves. -/
def Obligations.IgnoredWrites : Prop :=
  (∀ (s : State) (w : Word) (a : Nat), s.busy = true → s.writeCmd w = .next s ∧ s.writeReg (.arg a) w = .next s) ∧
  (∀ (s : State) (w : Word) (r : Reg) (a : Nat), s.halt.fault ≠ 0#4 →
    (r = .cmd ∨ r = .intCmd ∨ r = .txDoorbell ∨ r = .isr ∨ r = .arg a → s.writeReg r w = .next s) ∧
    s.workerStep = s ∧ s.interruptStep = s ∧ s.txdStep = s ∧ s.rxdStep = s)

/-! ### TX_SEND -/

/-- R230, R232, R233, R236: TX_SEND on free slots. Its first step fills the slots of all fragments and leaves them
software-owned; then `k` steps of W write the ownership bits from the last fragment down to the first, so that after `j` of them
exactly the last `j` fragments are owned; then the doorbell step answers OK(0). At the end the cursor and the in-use counter
have moved by `k`, TXD is RUNNING if it was IDLE, and no other slot has changed at any point. The handles of its fragments are the
caller's (`State.sending`) from the first step until it answers, and none is from then on (R33). -/
def Obligations.SendFillsThenCommitsInReverse : Prop :=
  ∀ (s : State) (k : Nat), s.Ready → s.sendError k = none → (∀ i < k, (s.txAt (s.sendSlot i)).isFree = true) →
    ∃ t, exec (.txSend k) s = .next t ∧
      (∀ j ≤ k,
        (∀ i < k, (t.runWorker j).txAt (s.sendSlot i) =
          { buf := s.sendHandle i, len := s.sendLen i, last := decide (i + 1 = k),
            wrap := (s.txAt (s.sendSlot i)).wrap, owned := decide (k - j ≤ i), err := 0#8 }) ∧
        (t.runWorker j).sending = s.sendHandles k ∧ OtherTxSlotsSame (t.runWorker j) s s.tx.current k) ∧
      (t.runWorker (k + 1)).tx = { (t.runWorker k).tx with
        current := BitVec.ofNat 16 (ringPos s.nTx s.tx.current k), release := s.tx.release,
        inUse := s.tx.inUse + BitVec.ofNat 17 k } ∧
      (t.runWorker (k + 1)).txd =
        { s.txd with state := if s.txd.state = .idle then .running else s.txd.state } ∧
      (t.runWorker (k + 1)).port = returned .ok 0#32 ∧ (t.runWorker (k + 1)).sending = []

/-- R231 (with R234): TX_SEND's errors, first match wins, each with no change but RESULT and VALUE. -/
def Obligations.SendErrorsInOrder : Prop :=
  ∀ (s : State) (k : Nat), s.Ready →
    let badCount := k = 0
    let badFragment := ∃ i < k, s.sendHandle i = 0#32 ∨ s.sendLen i = 0#16 ∨ s.cfg.cap.toNat < (s.sendLen i).toNat
    let repeated := ∃ i < k, ∃ j < k, i ≠ j ∧ s.sendHandle i = s.sendHandle j
    let held := ∃ i < k, (∃ d ∈ s.tx.slots, d.buf = s.sendHandle i) ∨ (∃ d ∈ s.rx.slots, d.buf = s.sendHandle i) ∨
      s.sendHandle i ∈ s.rx.chain
    let misaligned := ∃ i < k, (s.bufAddr (s.sendHandle i)).toNat % s.txAlign ≠ 0
    let answers := fun code => exec (.txSend k) s = .next { s with port := returned code 0#32 }
    (badCount ∨ badFragment ∨ repeated ∨ held → answers .badChain) ∧
    (¬(badCount ∨ badFragment ∨ repeated ∨ held) → misaligned → answers .unaligned) ∧
    (¬(badCount ∨ badFragment ∨ repeated ∨ held) → ¬misaligned → s.nTx < k → answers .ringFull) ∧
    (¬(badCount ∨ badFragment ∨ repeated ∨ held) → ¬misaligned → k ≤ s.nTx →
      (∀ i < k, (s.txAt (s.sendSlot i)).buf = 0#32 → (s.txAt (s.sendSlot i)).owned = false) →
      (∃ i < k, (s.txAt (s.sendSlot i)).isFree = false) → answers .ringFull)

/-- R235: on a sound TX ring with no TX_SEND running, an otherwise valid TX_SEND of `k` fragments answers `RingFull` if and only
if the slots in use and the `k` fragments are more than the ring has. -/
def Obligations.RingFullExactlyWhenNoRoom : Prop :=
  ∀ (s : State) (k : Nat), s.Ready → TxRingOk s → s.sendError k = none →
    (exec (.txSend k) s = .next { s with port := returned .ringFull 0#32 } ↔ s.nTx < s.tx.inUse.toNat + k)

/-! ### TX_RECLAIM -/

/-- R240, R242, R243, R244, R245: TX_RECLAIM on a window whose first `c` slots are completed and whose next one, if there is one,
is still owned by TXD: it releases exactly the buffers of those `c` slots, in slot order, clears the slots but for their wrap
bits, moves the cursor and the counter by `c`, changes no other slot, and answers OK(c). -/
def Obligations.ReclaimReleasesTheCompletedSlots : Prop :=
  ∀ (s : State) (c : Nat), s.Ready → IsRingSize s.nTx → s.tx.release.toNat < s.nTx → s.tx.inUse.toNat ≤ s.nTx →
    c ≤ s.tx.inUse.toNat →
    (∀ j < c, (s.txFromRelease j).buf ≠ 0#32 ∧ (s.txFromRelease j).owned = false) →
    (c < s.tx.inUse.toNat → (s.txFromRelease c).buf ≠ 0#32 ∧ (s.txFromRelease c).owned = true) →
    ∃ t u, exec .txReclaim s = .next t ∧ u = t.runWorker (min (c + 1) s.tx.inUse.toNat) ∧
      u.port = returned .ok (BitVec.ofNat 32 c) ∧
      u.tx.current = s.tx.current ∧ u.tx.release.toNat = ringPos s.nTx s.tx.release c ∧
      u.tx.inUse.toNat = s.tx.inUse.toNat - c ∧
      (∀ j < c, u.txAt (ringPos s.nTx s.tx.release j) =
        { buf := 0#32, len := 0#16, last := false, wrap := (s.txFromRelease j).wrap, owned := false, err := 0#8 }) ∧
      OtherTxSlotsSame u s s.tx.release c ∧
      u.env.provider = s.env.provider ++ (List.range c).map (fun j => .release (s.txFromRelease j).buf) ∧
      (∀ h, h ∈ u.env.pool ↔ h ∈ s.env.pool ∨ ∃ j < c, h = (s.txFromRelease j).buf)

/-- R241: a visit of TX_RECLAIM to a slot of the window that holds no buffer and is not owned moves past it and does not count
it. -/
def Obligations.ReclaimSkipsAnEmptySlot : Prop :=
  ∀ (s : State) (more count : Nat), s.halted = false → s.port.w = .reclaim more count →
    (s.txFromRelease 0).buf = 0#32 → (s.txFromRelease 0).owned = false →
    s.workerStep.tx = { s.tx with release := adv s.nTx s.tx.release, inUse := s.tx.inUse - 1#17 } ∧
    s.workerStep.env = s.env ∧
    (more = 0 → s.workerStep.port = returned .ok (BitVec.ofNat 32 count)) ∧
    (∀ m, more = m + 1 → s.workerStep.port = { s.port with w := .reclaim m count })

/-! ### TXD -/

/-- R262, R263: TXD's send step on a frame of `n` owned slots, of which the last and only the last is marked, puts the fragments'
bytes on the wire as one frame, in slot order and byte order, and starts releasing `n` slots; nothing else changes. -/
def Obligations.TxdSendsTheWholeFrame : Prop :=
  ∀ (s : State) (n : Nat), s.DmaEnabled → s.txd.state = .running → 0 < n → n ≤ s.nTx →
    (∀ j < n, (s.txAt (ringPos s.nTx s.txd.idx j)).owned = true ∧ (s.txAt (ringPos s.nTx s.txd.idx j)).buf ≠ 0#32 ∧
      (s.txAt (ringPos s.nTx s.txd.idx j)).last = decide (j + 1 = n)) →
    s.txdStep = { s with
      env := { s.env with wire := s.env.wire ++ [(List.range n).flatMap fun j =>
        (List.range (s.txAt (ringPos s.nTx s.txd.idx j)).len.toNat).map fun b =>
          Memory.read s.buf.data (bufKey (s.txAt (ringPos s.nTx s.txd.idx j)).buf b)] }
      txd := { idx := s.txd.idx, state := .completing, left := BitVec.ofNat 17 n } }

/-- R261, R264, R267: TXD's stop step goes to IDLE and nothing else; its completion step clears the ownership bit of the slot at
`txd.idx`, keeps that slot's other fields but its error flags, which are any value, and moves on; with the frame's last slot it
sets TX_DONE and is RUNNING again; a doorbell wakes TXD from IDLE on a configured block with no fault, and changes nothing
otherwise. -/
def Obligations.TxdStopsCompletesAndWakes : Prop :=
  (∀ s : State, s.DmaEnabled → s.txd.state = .running → (s.txAt (ringPos s.nTx s.txd.idx 0)).owned = false →
    s.txdStep = { s with txd := { s.txd with state := .idle } }) ∧
  (∀ s : State, s.DmaEnabled → s.txd.state = .completing → 0 < s.nTx →
    ∃ flags : BitVec 8, ∃ t, s.txdStep = t ∧
      t.txAt (ringPos s.nTx s.txd.idx 0) =
        { s.txAt (ringPos s.nTx s.txd.idx 0) with owned := false, err := flags } ∧
      OtherTxSlotsSame t s s.txd.idx 1 ∧
      t.tx.current = s.tx.current ∧ t.tx.release = s.tx.release ∧ t.tx.inUse = s.tx.inUse ∧
      t.txd.idx = adv s.nTx s.txd.idx ∧ t.txd.left = s.txd.left - 1#17 ∧
      t.txd.state = (if s.txd.left = 1#17 then .running else .completing) ∧
      t.irq.isr = (if s.txd.left = 1#17 then s.irq.isr ||| 0b10#2 else s.irq.isr) ∧
      t.rx = s.rx ∧ t.rxd = s.rxd ∧ t.port = s.port ∧ t.env = s.env ∧ t.buf = s.buf ∧ t.mc = s.mc ∧ t.halt = s.halt) ∧
  (∀ (s : State) (v : Word), s.DmaEnabled →
    s.writeReg .txDoorbell v = .next { s with
      txd := { s.txd with state := if s.txd.state = .idle then .running else s.txd.state } }) ∧
  (∀ (s : State) (v : Word), ¬s.DmaEnabled → s.writeReg .txDoorbell v = .next s)

/-! ### RXD -/

/-- R107, R300, R301, R303, R304: a wire frame that RXD takes, whose fragments all find armed slots with distinct buffers, lies
whole in those buffers after as many write steps as it has fragments: byte `j` of the frame is byte `j mod CAP` of the buffer
of fragment `floor(j / CAP)`; every slot carries its length and its start and end marks and is software-owned; RX_DONE is set,
RXD is free again and stands after the frame; no other byte and no other slot has changed. That the offer and RXD's start are one
step is the model's choice (assumption 28). -/
def Obligations.ReceivedFrameLiesInItsBuffers : Prop :=
  ∀ (s : State) (frame : List Byte) (m : Nat), s.DmaEnabled → s.rxd.frame = none → s.rxAccepts frame = true →
    0 < frame.length → frame.length ≤ 65535 → 0 < s.cfg.cap.toNat →
    m = fragmentCount frame.length s.cfg.cap.toNat → m ≤ s.nRx → IsRingSize s.nRx → s.rxd.idx.toNat < s.nRx →
    (∀ f < m, (s.rxAt (ringPos s.nRx s.rxd.idx f)).owned = true ∧ (s.rxAt (ringPos s.nRx s.rxd.idx f)).buf ≠ 0#32) →
    (∀ f < m, ∀ g < m, f ≠ g →
      (s.rxAt (ringPos s.nRx s.rxd.idx f)).buf ≠ (s.rxAt (ringPos s.nRx s.rxd.idx g)).buf) →
    ∃ u, u = State.rxdStep^[m] (s.offerFrame frame) ∧
      (∀ j < frame.length, some (Memory.read u.buf.data
        (bufKey (s.rxAt (ringPos s.nRx s.rxd.idx (j / s.cfg.cap.toNat))).buf (j % s.cfg.cap.toNat))) = frame[j]?) ∧
      (∀ a, (∀ j < frame.length,
          a ≠ bufKey (s.rxAt (ringPos s.nRx s.rxd.idx (j / s.cfg.cap.toNat))).buf (j % s.cfg.cap.toNat)) →
        Memory.read u.buf.data a = Memory.read s.buf.data a) ∧
      (∀ f < m, u.rxAt (ringPos s.nRx s.rxd.idx f) =
        { buf := (s.rxAt (ringPos s.nRx s.rxd.idx f)).buf
          len := if f + 1 = m then BitVec.ofNat 16 frame.length else s.cfg.cap
          sof := decide (f = 0), eof := decide (f + 1 = m)
          wrap := (s.rxAt (ringPos s.nRx s.rxd.idx f)).wrap, owned := false }) ∧
      OtherRxSlotsSame u s s.rxd.idx m ∧
      u.rxd.frame = none ∧ u.rxd.idx.toNat = ringPos s.nRx s.rxd.idx m ∧ u.irq.isr = s.irq.isr ||| 0b01#2 ∧
      u.rx.current = s.rx.current ∧ u.rx.chain = s.rx.chain ∧ u.tx = s.tx ∧ u.txd = s.txd ∧ u.port = s.port ∧
      u.env = s.env ∧ u.ctr = s.ctr ∧ u.mc = s.mc ∧ u.halt = s.halt

/-- R301, R302: a wire frame that needs more slots than the ring has, or that meets a slot not armed before any empty armed one,
is discarded whole: RX_OVF_COUNT goes up by one, wrapping, and nothing else changes. That the offer and RXD's start are one step is
the model's choice (assumption 28). -/
def Obligations.OverflowDiscardsTheFrameWhole : Prop :=
  ∀ (s : State) (frame : List Byte), s.DmaEnabled → s.rxd.frame = none → s.rxAccepts frame = true →
    (s.nRx < fragmentCount frame.length s.cfg.cap.toNat ∨
      ∃ f < fragmentCount frame.length s.cfg.cap.toNat, (s.rxAt (ringPos s.nRx s.rxd.idx f)).owned = false ∧
        ∀ g < f, (s.rxAt (ringPos s.nRx s.rxd.idx g)).owned = true → (s.rxAt (ringPos s.nRx s.rxd.idx g)).buf ≠ 0#32) →
    s.offerFrame frame = { s with ctr := { s.ctr with rxOvf := s.ctr.rxOvf + 1#32 } }

/-- R213, R300: a wire frame offered while the block is not configured, has a fault, or RXD is writing another frame is lost and
counted nowhere. That it is judged in the step that offers it is the model's choice (assumption 28). -/
def Obligations.FramesNotTakenAreLost : Prop :=
  ∀ (s : State) (frame : List Byte), s.cfg.configured = false ∨ s.halt.fault ≠ 0#4 ∨ s.rxd.frame ≠ none ∨
    s.rxAccepts frame = false → s.offerFrame frame = s

/-! ### RX_POLL -/

/-- R280 to R287, R290, R294, R295: RX_POLL with slots ready that complete a frame (whatever part of it the chain already holds),
enough free buffers, distinct handles, and an armed slot behind the frame: W links the slots, re-arms all of the frame's slots
with fresh buffers of the free set, delivers the original buffers as one frame with their spans, which the Frame Router owns from
then on (R32, R33), closes the chain, stops at the armed slot and answers OK(1). -/
def Obligations.PollDeliversACompleteFrame : Prop :=
  ∀ (s : State) (k : Nat) (len : BitVec 16), s.Ready → Canonical s → FrameReady s k len →
    (s.rx.chain.length + k < s.nRx → (s.rxFromCurrent k).owned = true) →
    (s.rx.chain ++ s.nextHandles k).Nodup → (∀ h ∈ s.rx.chain ++ s.nextHandles k, h ∉ s.env.pool) →
    s.rx.chain.length + k ≤ s.env.pool.length →
    ∃ t u, ∃ fresh : List Handle, exec .rxPoll s = .next t ∧
      u = t.runWorker (k + (s.rx.chain.length + k) + 1) ∧ u.port = returned .ok 1#32 ∧
      u.env.delivered = s.env.delivered ++ [{
        handles := s.rx.chain ++ s.nextHandles k, totalLength := len,
        spans := List.replicate (s.rx.chain.length + k - 1) s.cfg.cap ++
          [BitVec.ofNat 16 (len.toNat - (s.rx.chain.length + k - 1) * s.cfg.cap.toNat)] }] ∧
      (∀ h, h ∈ u.env.router ↔ h ∈ s.env.router ∨ h ∈ s.rx.chain ++ s.nextHandles k) ∧
      fresh.length = s.rx.chain.length + k ∧ fresh.Nodup ∧ (∀ h ∈ fresh, h ∈ s.env.pool) ∧
      (∀ h, h ∈ u.env.pool ↔ h ∈ s.env.pool ∧ h ∉ fresh) ∧
      (∀ f < s.rx.chain.length + k, u.rxAt (ringPos s.nRx s.frameFirst f) =
        { buf := fresh.getD f 0#32, len := 0#16, sof := false, eof := false,
          wrap := (s.rxAt (ringPos s.nRx s.frameFirst f)).wrap, owned := true }) ∧
      OtherRxSlotsSame u s s.frameFirst (s.rx.chain.length + k) ∧
      u.rx.chain = [] ∧ u.rx.current.toNat = ringPos s.nRx s.rx.current k ∧ u.ctr = s.ctr

/-- R284, R288, R289, R291, R292, R298: RX_POLL with slots ready that complete a frame but too few free buffers: W puts every
original buffer back into its own slot and re-arms it, delivers nothing, counts one dropped frame, leaves the free set as it was,
closes the chain, stops at the armed slot and answers OK(0). -/
def Obligations.PollRecyclesWhenBuffersRunOut : Prop :=
  ∀ (s : State) (k : Nat) (len : BitVec 16), s.Ready → Canonical s → FrameReady s k len →
    (s.rx.chain.length + k < s.nRx → (s.rxFromCurrent k).owned = true) →
    s.env.pool.length < s.rx.chain.length + k →
    ∃ t u, exec .rxPoll s = .next t ∧ u = t.runWorker (k + (s.rx.chain.length + k) + 1) ∧
      u.port = returned .ok 0#32 ∧ u.env.delivered = s.env.delivered ∧ u.env.router = s.env.router ∧
      u.env.pool = s.env.pool ∧
      u.ctr = { s.ctr with rxDrop := s.ctr.rxDrop + 1#32 } ∧
      (∀ f < s.rx.chain.length + k, u.rxAt (ringPos s.nRx s.frameFirst f) =
        { buf := (s.rx.chain ++ s.nextHandles k).getD f 0#32, len := 0#16, sof := false, eof := false,
          wrap := (s.rxAt (ringPos s.nRx s.frameFirst f)).wrap, owned := true }) ∧
      (∀ h ∈ s.rx.chain ++ s.nextHandles k, u.span h = 0#16) ∧
      OtherRxSlotsSame u s s.frameFirst (s.rx.chain.length + k) ∧
      u.rx.chain = [] ∧ u.rx.current.toNat = ringPos s.nRx s.rx.current k

/-- R280, R281, R282, R294: RX_POLL over `k` interior fragments and then an armed slot (`k = 0`: the first slot is armed): the
handles move from the slots into the chain, which stays open, the slots stay software-owned and are empty, and the command
answers OK(0); the Buffer Provider, the spans and the other slots are not touched. -/
def Obligations.PollKeepsAnOpenChain : Prop :=
  ∀ (s : State) (k : Nat), s.Ready → IsRingSize s.nRx → s.rx.current.toNat < s.nRx → k < s.nRx →
    (∀ j < k, (s.rxFromCurrent j).owned = false ∧ (s.rxFromCurrent j).buf ≠ 0#32 ∧ (s.rxFromCurrent j).eof = false) →
    (s.rxFromCurrent k).owned = true →
    ∃ t u, exec .rxPoll s = .next t ∧ u = t.runWorker (k + 1) ∧ u.port = returned .ok 0#32 ∧
      u.rx.chain = s.rx.chain ++ s.nextHandles k ∧
      u.rx.chainFirst = (if k = 0 then s.rx.chainFirst else s.frameFirst) ∧
      u.rx.current.toNat = ringPos s.nRx s.rx.current k ∧
      (∀ j < k, u.rxAt (ringPos s.nRx s.rx.current j) = { s.rxFromCurrent j with buf := 0#32 }) ∧
      OtherRxSlotsSame u s s.rx.current k ∧ u.env = s.env ∧ u.buf = s.buf ∧ u.ctr = s.ctr

/-- R280, R283, R405, R407, R408: RX_POLL's two faults. At a software-owned slot with no buffer RX_SLOT_EMPTY is raised; at an EOF
slot whose length does not fit its chain RX_LENGTH_INCONSISTENT is. FAULT_SLOT names the slot in the RX ring, BUSY stays 1, and
RESULT and VALUE keep their values. -/
def Obligations.PollFaults : Prop :=
  ∀ (s : State) (delivered : Nat), s.halt.fault = 0#4 → s.port.w = .pollVisit delivered →
    s.rx.current.toNat < s.nRx → (s.rxFromCurrent 0).owned = false →
    ((s.rxFromCurrent 0).buf = 0#32 →
      s.workerStep.halt = { fault := 0b1000#4, faultSlot := 1#1 ++ s.rx.current } ∧
      s.workerStep.busy = true ∧ s.workerStep.port.result = s.port.result ∧ s.workerStep.port.value = s.port.value) ∧
    ((s.rxFromCurrent 0).buf ≠ 0#32 → (s.rxFromCurrent 0).eof = true →
      ¬(s.rx.chain.length * s.cfg.cap.toNat < (s.rxFromCurrent 0).len.toNat ∧
        (s.rxFromCurrent 0).len.toNat ≤ (s.rx.chain.length + 1) * s.cfg.cap.toNat) →
      s.workerStep.halt = { fault := 0b0100#4, faultSlot := 1#1 ++ s.rx.current } ∧
      s.workerStep.busy = true ∧ s.workerStep.port.result = s.port.result ∧ s.workerStep.port.value = s.port.value)

/-! ### Faults on the TX side -/

/-- R405, R407, R408: a slot with no buffer that is hardware-owned raises EMPTY_SLOT_OWNED where TX_SEND's check, TX_RECLAIM's
visit, TXD's walk or RXD's start check reaches it first, and FAULT_SLOT names it; in a worker command BUSY stays 1 and RESULT
and VALUE keep their values. That RXD's start check falls in the step that offers the frame is the model's choice (assumption 28). -/
def Obligations.EmptyOwnedSlotFaults : Prop :=
  (∀ (s : State) (k i : Nat), s.Ready → s.sendError k = none → i < k →
    (∀ j < i, (s.txAt (s.sendSlot j)).isFree = true) →
    (s.txAt (s.sendSlot i)).buf = 0#32 → (s.txAt (s.sendSlot i)).owned = true →
    exec (.txSend k) s = .next { s with
      halt := { fault := 0b0001#4, faultSlot := 0#1 ++ BitVec.ofNat 16 (s.sendSlot i) }
      port := { s.port with w := .stopped } }) ∧
  (∀ (s : State) (more count : Nat), s.halt.fault = 0#4 → s.port.w = .reclaim more count →
    (s.txFromRelease 0).buf = 0#32 → (s.txFromRelease 0).owned = true →
    s.workerStep = { s with
      halt := { fault := 0b0001#4, faultSlot := 0#1 ++ BitVec.ofNat 16 (ringPos s.nTx s.tx.release 0) }
      port := { s.port with w := .stopped } }) ∧
  (∀ (s : State) (j : Nat), s.DmaEnabled → s.txd.state = .running → j < s.nTx →
    (∀ i < j, (s.txAt (ringPos s.nTx s.txd.idx i)).owned = true ∧ (s.txAt (ringPos s.nTx s.txd.idx i)).buf ≠ 0#32 ∧
      (s.txAt (ringPos s.nTx s.txd.idx i)).last = false) →
    (s.txAt (ringPos s.nTx s.txd.idx j)).owned = true → (s.txAt (ringPos s.nTx s.txd.idx j)).buf = 0#32 →
    s.txdStep = { s with
      halt := { fault := 0b0001#4, faultSlot := 0#1 ++ BitVec.ofNat 16 (ringPos s.nTx s.txd.idx j) } }) ∧
  (∀ (s : State) (frame : List Byte) (f : Nat), s.DmaEnabled → s.rxd.frame = none → s.rxAccepts frame = true →
    fragmentCount frame.length s.cfg.cap.toNat ≤ s.nRx → f < fragmentCount frame.length s.cfg.cap.toNat →
    (∀ g < f, (s.rxAt (ringPos s.nRx s.rxd.idx g)).owned = true ∧ (s.rxAt (ringPos s.nRx s.rxd.idx g)).buf ≠ 0#32) →
    (s.rxAt (ringPos s.nRx s.rxd.idx f)).owned = true → (s.rxAt (ringPos s.nRx s.rxd.idx f)).buf = 0#32 →
    s.offerFrame frame = { s with
      halt := { fault := 0b0001#4, faultSlot := 1#1 ++ BitVec.ofNat 16 (ringPos s.nRx s.rxd.idx f) } })

/-- R262, R405, R407: TXD's send step raises TX_CHAIN_BROKEN at a not-owned slot before the frame's last fragment, and, when all
slots of the ring are owned and none is a last fragment, at `txd.idx`. -/
def Obligations.BrokenTxChainFaults : Prop :=
  ∀ s : State, s.DmaEnabled → s.txd.state = .running →
    (∀ j, 0 < j → j < s.nTx →
      (∀ i < j, (s.txAt (ringPos s.nTx s.txd.idx i)).owned = true ∧ (s.txAt (ringPos s.nTx s.txd.idx i)).buf ≠ 0#32 ∧
        (s.txAt (ringPos s.nTx s.txd.idx i)).last = false) →
      (s.txAt (ringPos s.nTx s.txd.idx j)).owned = false →
      s.txdStep = { s with
        halt := { fault := 0b0010#4, faultSlot := 0#1 ++ BitVec.ofNat 16 (ringPos s.nTx s.txd.idx j) } }) ∧
    (0 < s.nTx →
      (∀ i < s.nTx, (s.txAt (ringPos s.nTx s.txd.idx i)).owned = true ∧
        (s.txAt (ringPos s.nTx s.txd.idx i)).buf ≠ 0#32 ∧ (s.txAt (ringPos s.nTx s.txd.idx i)).last = false) →
      s.txdStep = { s with halt := { fault := 0b0010#4, faultSlot := 0#1 ++ s.txd.idx } })

/-! ### The event gate -/

/-- R340, R341, R345: EVT_DRAIN answers OK with the prior event set and clears EVT and SIG, in one step; nothing of the block
changes besides. The gate's view is EVENT_PENDING while EVT is not 0; the drain leaves it DRAINING if it answered a value other
than 0, or an earlier one is still being serviced. The service ends with the commands' returns (that any TX_RECLAIM or RX_POLL
after the drain is the service command of its bit is the model's reading, assumption 18): a TX_RECLAIM that returns takes
TRANSMITTED out of `service`, an RX_POLL that returns takes RECEIVED out, and no other step of the two changes it. -/
def Obligations.DrainSwapsTheEventSet : Prop :=
  ∀ s : State,
    (s.Ready → exec .evtDrain s = .next { s with
      irq := { s.irq with evt := 0#2, sig := false }
      port := returned .ok (s.irq.evt.setWidth 32)
      service := s.service ||| s.irq.evt }) ∧
    (s.irq.evt ≠ 0#2 → s.gateView = .eventPending) ∧
    (∀ t, s.Ready → exec .evtDrain s = .next t →
      t.gateView = if s.irq.evt = 0#2 ∧ s.service = 0#2 then .idle else .draining) ∧
    (s.port.w.inReclaim = true →
      s.workerStep.service = if s.workerStep.busy then s.service else s.service &&& 0b01#2) ∧
    (s.port.w.inPoll = true →
      s.workerStep.service = if s.workerStep.busy then s.service else s.service &&& 0b10#2) ∧
    (∀ t, exec .txReclaim s = .next t →
      t.service = if s.Ready ∧ s.tx.inUse = 0#17 then s.service &&& 0b01#2 else s.service) ∧
    (∀ t, exec .rxPoll s = .next t → t.service = s.service)

/-- R330, R331, R332, R333, R336: IRQ_ENTRY. Its first step takes what ISR holds and clears exactly that; its second step, one
atomic step of agent I, adds RECEIVED if RX_DONE was captured and TRANSMITTED if TX_DONE was, sets SIG whatever was captured,
and INTRESULT is 0; a bit that another agent sets in ISR between the two steps stays in ISR and keeps the interrupt line
asserted. The first step sets INTRESULT to 0 as well, which is the model's reading of R144 (assumption 19): R330 sets it in the
second. Nothing else changes. -/
def Obligations.IrqEntryCapturesThenMerges : Prop :=
  ∀ s : State, s.halted = false → s.interruptBusy = false →
    ∃ t, exec .irqEntry s = .next t ∧
      t = { s with irq := { s.irq with isr := 0#2, latch := some s.irq.isr, intResult := 0#8 } } ∧
      (∀ bits : BitVec 2, (t.setIsr bits).interruptStep = { s with
        irq := { s.irq with
          isr := bits
          evt := s.irq.evt ||| s.irq.isr
          sig := true, intResult := 0#8, latch := none } } ∧
        (bits ≠ 0#2 → (t.setIsr bits).interruptStep.irqLine = true))

/-- R53, R335: an INTCMD write that arrives while an IRQ_ENTRY is between its two steps waits, and is performed after the second
step: after two further steps of agent I the running entry is merged and the waiting one has captured. That the waiting word takes
a step of agent I of its own, so that the count is two, is the model's reading (assumption 20): R53 and R335 say only that it is
performed after the second step. -/
def Obligations.NestedEntryRunsAfterTheFirst : Prop :=
  ∀ (s : State) (captured : BitVec 2), s.halted = false → s.irq.latch = some captured → s.irq.queue = [] →
    ∃ t, exec .irqEntry s = .next t ∧ t.irq = { s.irq with queue := [0x00000008#32] } ∧
      t.interruptStep.interruptStep.irq =
        { isr := 0#2, evt := s.irq.evt ||| captured, sig := true, intResult := 0#8, latch := some s.irq.isr, queue := [] }

/-- R343: no event is lost. A step clears a bit of EVT only if it is an EVT_DRAIN that answers OK with that bit in VALUE. -/
def Obligations.EventsLeaveOnlyThroughADrain : Prop :=
  ∀ s t : State, step s = .next t →
    s.irq.evt &&& ~~~t.irq.evt = 0#2 ∨
    (t.irq.evt = 0#2 ∧ t.irq.sig = false ∧ t.port = returned .ok (s.irq.evt.setWidth 32))

/-- R82, R331, R421: a bit of ISR that is set stays set until IRQ_ENTRY's capture takes it or ENV writes a 1 to it: any other
turn keeps it. -/
def Obligations.PendingInterruptStays : Prop :=
  ∀ s t : State, ∀ turn : Turn, s.takeTurn turn = .next t → s.irq.isr &&& ~~~t.irq.isr ≠ 0#2 →
    t.irq.latch = some s.irq.isr ∨
    ∃ off v, turn = .host (.write off 32 v) ∧ off % 0x2000 = 0x014 ∧ t.irq.isr = s.irq.isr &&& ~~~(v.extractLsb' 0 2)

/-- R334, R431: neither step of IRQ_ENTRY, nor a waiting INTCMD word, touches anything but ISR, EVT, SIG, INTRESULT and agent I's
own place: no slot, cursor, buffer, worker register or other state. -/
def Obligations.InterruptContextTouchesOnlyTheGate : Prop :=
  ∀ s : State, (∃ r, s.interruptStep = { s with irq := r }) ∧ (∃ r, exec .irqEntry s = .next { s with irq := r }) ∧
    s.interruptStep.SameBytes s

/-! ### The multicast table -/

/-- R362, R363, R364: MC_JOIN below saturation adds one to its bucket's count, leaves the filter bit set, and changes no other
bucket; at 255 it answers `TableFull` and changes nothing else. -/
def Obligations.JoinCountsAndSetsTheFilter : Prop :=
  ∀ s : State, s.Ready → FilterMatchesCounts s →
    (s.mc.countOf s.argBucket ≠ 255#8 → ∃ t, exec .mcJoin s = .next t ∧ t = { s with port := returned .ok 0#32, mc := t.mc } ∧
      (t.mc.countOf s.argBucket).toNat = (s.mc.countOf s.argBucket).toNat + 1 ∧ t.mc.filterBit s.argBucket = true ∧
      ∀ b, b ≠ s.argBucket → t.mc.countOf b = s.mc.countOf b ∧ t.mc.filterBit b = s.mc.filterBit b) ∧
    (s.mc.countOf s.argBucket = 255#8 → exec .mcJoin s = .next { s with port := returned .tableFull 0#32 })

/-- R365: MC_LEAVE of a bucket with references takes one away, clears the filter bit exactly when none is left, and changes no
other bucket; at 0 it answers `NotJoined` and changes nothing else. -/
def Obligations.LeaveCountsAndClearsTheFilter : Prop :=
  ∀ s : State, s.Ready → FilterMatchesCounts s →
    (s.mc.countOf s.argBucket ≠ 0#8 → ∃ t, exec .mcLeave s = .next t ∧ t = { s with port := returned .ok 0#32, mc := t.mc } ∧
      (t.mc.countOf s.argBucket).toNat = (s.mc.countOf s.argBucket).toNat - 1 ∧
      t.mc.filterBit s.argBucket = decide (1 < (s.mc.countOf s.argBucket).toNat) ∧
      ∀ b, b ≠ s.argBucket → t.mc.countOf b = s.mc.countOf b ∧ t.mc.filterBit b = s.mc.filterBit b) ∧
    (s.mc.countOf s.argBucket = 0#8 → exec .mcLeave s = .next { s with port := returned .notJoined 0#32 })

/-- R369: `k` joins and then `k` leaves of a bucket with count 0, for every `k` up to 255, leave its count 0 and its filter bit
clear, and one join and leave restores count and filter bit from any count below saturation; the other buckets are as before. -/
def Obligations.JoinLeaveRoundTrip : Prop :=
  (∀ (t : Multicast) (b : BitVec 6) (k : Nat), t.countOf b = 0#8 → t.filterBit b = false → k ≤ 255 →
    let u := (fun m : Multicast => m.leave b)^[k] ((fun m : Multicast => m.join b)^[k] t)
    u.countOf b = 0#8 ∧ u.filterBit b = false ∧ ∀ c, c ≠ b → u.countOf c = t.countOf c ∧ u.filterBit c = t.filterBit c) ∧
  (∀ s : State, FilterMatchesCounts s → ∀ b : BitVec 6, s.mc.countOf b ≠ 255#8 →
    ((s.mc.join b).leave b).countOf b = s.mc.countOf b ∧ ((s.mc.join b).leave b).filterBit b = s.mc.filterBit b)

/-! ### Frames -/

/-- R431, R93: what EVT_DRAIN, MC_JOIN and MC_LEAVE leave as it was whenever they answer a next state: everything but the worker
port and, for EVT_DRAIN, EVT, SIG and the worker's `service` (R345), and for the other two, the multicast table; every byte of
buffer memory. -/
def Obligations.AtomicCommandsFrame : Prop :=
  ∀ s t : State,
    (exec .evtDrain s = .next t → t = { s with
      port := t.port, irq := { s.irq with evt := t.irq.evt, sig := t.irq.sig }, service := t.service } ∧ t.SameBytes s) ∧
    (exec .mcJoin s = .next t → t = { s with port := t.port, mc := t.mc } ∧ t.SameBytes s) ∧
    (exec .mcLeave s = .next t → t = { s with port := t.port, mc := t.mc } ∧ t.SameBytes s)

/-- R230, R237, R240, R280 (flags written), R431: what the first step of TX_SEND, TX_RECLAIM and RX_POLL, and every further step of
W, leave as it was. All of them: the configuration, the arguments, the interrupt side, the multicast table, RX_OVF_COUNT, the
parameters, TXD's position, RXD, the wire, what ENV's reads returned, every byte of buffer memory, and the fault registers unless
the command stops on a fault. TX_SEND and TX_RECLAIM: the RX ring, the counters, the spans, the delivered frames and the Frame
Router's handles. TX_SEND, over its first step, its ownership writes and its doorbell: the Buffer Provider and all else outside
the block. TX_RECLAIM: TXD. RX_POLL: the TX ring and TXD. -/
def Obligations.RingCommandsFrame : Prop :=
  ∀ s t : State,
    (SendStep s t ∨ ReclaimStep s t ∨ PollStep s t ∨ t = s.workerStep →
      t.cfg = s.cfg ∧ t.args = s.args ∧ t.irq = s.irq ∧ t.mc = s.mc ∧ t.ctr.rxOvf = s.ctr.rxOvf ∧ t.params = s.params ∧
      t.txd.idx = s.txd.idx ∧ t.txd.left = s.txd.left ∧ t.rxd = s.rxd ∧ t.env.wire = s.env.wire ∧
      t.env.readData = s.env.readData ∧ t.env.readBytes = s.env.readBytes ∧ t.SameBytes s ∧
      (t.halt = s.halt ∨ t.port = { s.port with w := .stopped })) ∧
    (SendStep s t ∨ ReclaimStep s t →
      t.rx = s.rx ∧ t.ctr = s.ctr ∧ t.buf = s.buf ∧ t.env.delivered = s.env.delivered ∧ t.env.router = s.env.router) ∧
    (SendStep s t → t.env = s.env ∧ t.service = s.service) ∧
    (ReclaimStep s t → t.txd = s.txd) ∧
    (PollStep s t → t.tx = s.tx ∧ t.txd = s.txd)

/-- R260 to R264, R300 to R304: what a step of TXD and a step of RXD leave as it was: TXD the RX ring, RXD, the cursors, the
buffer bytes and every TX slot but the one at `txd.idx`; RXD the TX ring, TXD, the cursors, the chain, the spans, every RX slot but
the one at `rxd.idx`, and every byte of buffer memory but the first `CAP` of that slot's buffer; both the worker port, the
configuration, the arguments, EVT, SIG, the multicast table, the free set, the Frame Router's handles and the delivered frames. -/
def Obligations.DmaStepsFrame : Prop :=
  ∀ s : State,
    (∀ t, t = s.txdStep ∨ t = s.rxdStep →
      t.port = s.port ∧ t.cfg = s.cfg ∧ t.args = s.args ∧ t.irq = { s.irq with isr := t.irq.isr } ∧ t.mc = s.mc ∧
      t.ctr = s.ctr ∧ t.env.pool = s.env.pool ∧ t.env.delivered = s.env.delivered ∧ t.env.provider = s.env.provider ∧
      t.env.router = s.env.router ∧ t.service = s.service ∧
      t.tx.current = s.tx.current ∧ t.tx.release = s.tx.release ∧ t.tx.inUse = s.tx.inUse ∧
      t.rx.current = s.rx.current ∧ t.rx.chain = s.rx.chain ∧ t.rx.chainFirst = s.rx.chainFirst) ∧
    s.txdStep.rx = s.rx ∧ s.txdStep.rxd = s.rxd ∧ s.txdStep.buf = s.buf ∧ OtherTxSlotsSame s.txdStep s s.txd.idx 1 ∧
    s.rxdStep.tx = s.tx ∧ s.rxdStep.txd = s.txd ∧ s.rxdStep.env.wire = s.env.wire ∧ s.rxdStep.halt = s.halt ∧
    s.rxdStep.buf.span = s.buf.span ∧ OtherRxSlotsSame s.rxdStep s s.rxd.idx 1 ∧
    (∀ a, (∀ j < s.cfg.cap.toNat, a ≠ bufKey (s.rxAt (ringPos s.nRx s.rxd.idx 0)).buf j) →
      Memory.read s.rxdStep.buf.data a = Memory.read s.buf.data a)

/-! ### Registers and images -/

/-- R42, R43, R51, R54, R86, R87, R407: which offset names which register, and what each reads, in every state. STATUS has
CONFIGURED, TX_ACTIVE, FAULTED and BUSY at bits 0 to 3 and 0 above; CFG_COUNTS has the ring sizes for every legal size; bucket b's
filter bit is bit b of MC_HASH_LO or bit b-32 of MC_HASH_HI; the count of bucket b is byte b mod 4 of MC_COUNT[b / 4]; ARG[a] is at
0x1000 + 4a; the other registers are as `State.simpleRegisters` lists them, and an unlisted offset reads 0. -/
def Obligations.StatusRegistersRead : Prop :=
  ∀ s : State,
    (∀ i, (s.readAt 0x00C).getLsbD i =
      (decide (i = 0) && s.cfg.configured || decide (i = 1) && decide (s.txd.state ≠ .idle) ||
        decide (i = 2) && decide (s.halt.fault ≠ 0#4) || decide (i = 3) && decide (s.port.w ≠ .idle))) ∧
    (IsRingSize s.nTx → IsRingSize s.nRx →
      ((s.readAt 0x060).extractLsb' 0 16).toNat = s.nTx ∧ ((s.readAt 0x060).extractLsb' 16 16).toNat = s.nRx) ∧
    (∀ b : BitVec 6, s.mc.filterBit b =
      (if b.toNat < 32 then (s.readAt 0x02C).getLsbD b.toNat else (s.readAt 0x030).getLsbD (b.toNat - 32))) ∧
    (∀ b : BitVec 6, s.mc.countOf b = (s.readAt (0x100 + 4 * (b.toNat / 4))).extractLsb' (8 * (b.toNat % 4)) 8) ∧
    (∀ a < 1024, s.readAt (0x1000 + 4 * a) = s.arg a) ∧
    (∀ e ∈ s.simpleRegisters, s.readAt e.1 = e.2) ∧
    (∀ off, Unlisted off → s.readAt off = 0#32)

/-- R42, R82, R101, R112, R410: in every state, also while a command runs and after a fault, a read changes nothing but what the
bus returned, and two reads return the same; only bits [12:0] of an offset count. A write of 1 to a bit of ISR clears it and no
other bit, also while a command runs; an ARG write while no command runs is what the next read of that word gives, and no other
word changes; the command ports, the doorbell and the ring bases are at their offsets; a write to any other offset, read-only or
unlisted, changes nothing. -/
def Obligations.RegisterAccess : Prop :=
  ∀ s : State,
    (∀ off, off % 4 = 0 →
      s.hostMove (.read off 32) = .next { s with env := { s.env with readData := s.readAt off } } ∧
      ({ s with env := { s.env with readData := s.readAt off } } : State).readAt off = s.readAt off) ∧
    (∀ off v, off % 4 = 0 → off % 0x2000 ≠ 0 → s.hostMove (.write off 32 v) = s.writeAt off v) ∧
    (∀ off v, s.readAt off = s.readAt (off % 0x2000) ∧ s.writeAt off v = s.writeAt (off % 0x2000) v) ∧
    (∀ v : Word, s.halted = false → ∃ t, s.writeAt 0x014 v = .next t ∧ t = { s with irq := { s.irq with isr := t.irq.isr } } ∧
      ∀ i < 2, t.irq.isr.getLsbD i = (s.irq.isr.getLsbD i && !v.getLsbD i)) ∧
    (∀ a < 1024, ∀ v : Word, s.Accepting → ∃ t, s.writeAt (0x1000 + 4 * a) v = .next t ∧ t = { s with args := t.args } ∧
      t.readAt (0x1000 + 4 * a) = v ∧ ∀ b < 1024, b ≠ a → t.readAt (0x1000 + 4 * b) = s.readAt (0x1000 + 4 * b)) ∧
    (∀ v : Word, s.writeAt 0x000 v = s.writeCmd v ∧ s.writeAt 0x024 v = s.writeIntCmd v ∧
      s.writeAt 0x020 v = s.writeReg .txDoorbell v ∧ s.writeAt 0x070 v = s.writeReg .txRingBase v ∧
      s.writeAt 0x074 v = s.writeReg .rxRingBase v) ∧
    (∀ off v, off % 4 = 0 → off < 0x1000 → off ∉ [0x000, 0x014, 0x020, 0x024, 0x070, 0x074] → s.writeAt off v = .next s)

/-- R55: a write to a ring base register is taken only while the block is not configured. That it is taken there after a fault too is
the model's reading (assumption 25): R410's list of the writes that a fault makes ignored does not name the two registers, and R410
also says that reads return the state as it was at the fault. -/
def Obligations.RingBasesFreezeAtCfg : Prop :=
  ∀ (s : State) (v : Word),
    (s.cfg.configured = false →
      s.writeReg .txRingBase v = .next { s with cfg := { s.cfg with txRingBase := v } } ∧
      s.writeReg .rxRingBase v = .next { s with cfg := { s.cfg with rxRingBase := v } }) ∧
    (s.cfg.configured = true → s.writeReg .txRingBase v = .next s ∧ s.writeReg .rxRingBase v = .next s)

/-- R150 to R154: a slot is read back from words 0 and 1 of its reference image, the reserved bits of word 0 are written 0, and
reading a word ignores them. -/
def Obligations.DescriptorImageRoundTrip : Prop :=
  (∀ d : TxSlot, TxSlot.ofWords d.word0 d.buf = d ∧ d.word0 &&& 0x1F000000#32 = 0#32) ∧
  (∀ d : RxSlot, RxSlot.ofWords d.word0 d.buf = d ∧ d.word0 &&& 0x0FFF0000#32 = 0#32) ∧
  (∀ w0 w1 : Word, TxSlot.ofWords (w0 &&& 0xE0FFFFFF#32) w1 = TxSlot.ofWords w0 w1 ∧
    (TxSlot.ofWords w0 w1).word0 = w0 &&& 0xE0FFFFFF#32) ∧
  (∀ w0 w1 : Word, RxSlot.ofWords (w0 &&& 0xF000FFFF#32) w1 = RxSlot.ofWords w0 w1 ∧
    (RxSlot.ofWords w0 w1).word0 = w0 &&& 0xF000FFFF#32)

/-! ### Rules of the whole machine -/

/-- R360: reset leaves every count 0 and the filter 0, and every step keeps the filter equal to the counts: F[b] is 1 if and
only if count[b] is above 0. -/
def Obligations.EveryStepKeepsFilterAndCounts : Prop :=
  (∀ b : BitVec 6, State.reset.mc.countOf b = 0#8 ∧ State.reset.mc.filterBit b = false) ∧ FilterMatchesCounts State.reset ∧
  ∀ s t : State, FilterMatchesCounts s → step s = .next t → FilterMatchesCounts t

/-- R476: every step keeps "EVT not 0 implies SIG is 1". -/
def Obligations.EveryStepKeepsEventsSignalled : Prop :=
  ∀ s t : State, EventsSignalled s → step s = .next t → EventsSignalled t

/-- The canonical forms of the state's sparse data, which are the model's representation and no rule of the spec: buffer memory
(R90, assumption 5), the free set (R31, assumption 6), the Frame Router's handles (R33, assumption 9), arguments (R54, assumption 4)
and spans (assumption 22). Every step keeps buffer memory, arguments and spans in order, no span of 0 listed, and the two sets of
handles rising, the free set without the id 0. -/
def Obligations.EveryStepKeepsCanonicalForm : Prop :=
  ∀ s t : State, Canonical s → step s = .next t → Canonical t

/-- R9, R10, R65, R66, R212: no step changes a parameter; once configured, the ring sizes, the capacity, the link address and
every slot's wrap bit never change; and every step keeps exactly the last slot of each ring marked. -/
def Obligations.RingShapeIsFixed : Prop :=
  ∀ s t : State, step s = .next t →
    t.params = s.params ∧
    (s.cfg.configured = true → t.cfg = s.cfg ∧ t.nTx = s.nTx ∧ t.nRx = s.nRx ∧
      (∀ p, (t.txAt p).wrap = (s.txAt p).wrap) ∧ ∀ p, (t.rxAt p).wrap = (s.rxAt p).wrap) ∧
    (WrapAtEnd s → WrapAtEnd t)

/-- R91, R407, R410: no step clears a fault bit; once a fault bit is set FAULT_SLOT stays, and nothing of the block changes: no
slot, cursor, agent, register or command. The one exception is the model's reading (assumption 25): the two ring base registers
still take writes while the block is not configured, since R410's list does not name them. -/
def Obligations.FaultsStickAndHalt : Prop :=
  ∀ s t : State, step s = .next t →
    s.halt.fault &&& ~~~t.halt.fault = 0#4 ∧
    (s.halt.fault ≠ 0#4 →
      t.halt = s.halt ∧ t.port = s.port ∧ t.irq = s.irq ∧ t.args = s.args ∧ t.tx = s.tx ∧ t.txd = s.txd ∧ t.rx = s.rx ∧
      t.rxd = s.rxd ∧ t.ctr = s.ctr ∧ t.mc = s.mc ∧ t.service = s.service ∧ t.buf.span = s.buf.span ∧
      t.cfg = { s.cfg with txRingBase := t.cfg.txRingBase, rxRingBase := t.cfg.rxRingBase } ∧
      (s.cfg.configured = true → t.cfg = s.cfg))

/-- R33, R236 (under ENV's duties, assumptions 8 and 9): every step keeps handle ownership exclusive: no handle lies at once in two
of the free set, the slots of both rings, the Pending Frame Chain, the buffers W holds for a refill and the Frame Router's hands, and
the handles of a running TX_SEND lie in TX slots. In such a state every real handle belongs to exactly one of the Buffer Provider, a
slot, the Receive Assembler, the Frame Router and a caller. A handle of a running TX_SEND is the caller's; the step in which the
command returns OK passes it to its slot. While a failed refill puts buffers back into their slots, a handle that is back is in its
slot and still in `rx.chain`; the invariant then counts the chain from the first handle not yet back, which is the model's reading
(assumption 21). A handle that lies in no place is a caller's (assumption 9). -/
def Obligations.EveryStepKeepsHandlesExclusive : Prop :=
  (∀ s t : State, HandlesExclusive s → step s = .next t → HandlesExclusive t) ∧
  (∀ (s : State) (h : Handle), HandlesExclusive s → h ≠ 0#32 → ∃! o : Owner, s.owns h o) ∧
  (∀ (s : State) (h : Handle), h ∈ s.sending → s.owns h .caller) ∧
  (∀ (s : State) (k : Nat) (h : Handle), HandlesExclusive s → s.halted = false → s.port.w = .txDoorbell k → h ∈ s.sending →
    s.workerStep.port = returned .ok 0#32 ∧ s.workerStep.owns h .slot ∧ ¬s.workerStep.owns h .caller)

/-- R472, R118: the bytes of a buffer that the block holds are written by RXD alone, and only those of the buffer of the slot it
releases: every other turn leaves every byte of a held handle as it was. A held handle is one that lies in the block, the handles of a
running TX_SEND among them, though they are the caller's until it returns OK (R33), whom R100 lets write what it owns: that ENV does
not write those is the model's reading of R472's "held by a TX slot" (assumption 29). -/
def Obligations.HeldBuffersAreWrittenOnlyByRxd : Prop :=
  ∀ (s t : State) (turn : Turn) (h : Handle) (j : Nat), s.takeTurn turn = .next t → s.blockHolds h = true → j < 65536 →
    (turn ≠ .rxd ∨ h ≠ (s.rxAt (ringPos s.nRx s.rxd.idx 0)).buf) →
    Memory.read t.buf.data (bufKey h j) = Memory.read s.buf.data (bufKey h j)

/-- R204, R230 to R265 (tx.in_use, the cursors, TXD): every step keeps the TX ring sound. In the middle of a TX_SEND the slots it
has filled are not yet in `tx.in_use` and not free; the invariant counts them as the command's own, which is the model's reading of
R204 there (assumption 21). And no wake-up is lost (R268): every step keeps it that an IDLE TXD stands at a slot it does not own,
but between the last ownership write of a TX_SEND and its doorbell. -/
def Obligations.EveryStepKeepsTheTxRing : Prop :=
  ∀ s t : State, TxRingOk s → step s = .next t → TxRingOk t ∧ (TxdAwake s → TxdAwake t)

/-- R73, R299, R305, R307: every step keeps the RX ring sound. -/
def Obligations.EveryStepKeepsTheRxRing : Prop :=
  ∀ s t : State, RxRingOk s → step s = .next t → RxRingOk t

/-- R262, R307, R405: from a state with sound rings and no fault no step raises one; and no run from reset, whatever its turns,
draws and parameters, reaches one. -/
def Obligations.NoFaultArises : Prop :=
  (∀ s t : State, TxRingOk s → RxRingOk s → s.halt.fault = 0#4 → step s = .next t → t.halt.fault = 0#4) ∧
  (∀ (script : List Turn) (draws : List Nat) (params : Params) (n : Nat) (t : State),
    Sys2Proof.core.run n { State.reset with script := script, draws := draws, params := params } = .next t →
    t.halt.fault = 0#4)

/-- R119: commit atomicity. On a sound TX ring, while a TX_SEND writes its ownership bits, the owned slots of its chain are the
last ones; the first is owned only when the command has written all of them, and TXD, if it stands at the chain's first slot, is not
completing a frame, and its step does nothing but stop it. -/
def Obligations.ChainIsSeenWholeOrNotAtAll : Prop :=
  ∀ (s : State) (k i : Nat), s.cfg.configured = true → TxRingOk s → s.port.w = .txCommit k i →
    (∀ q < k, (s.txAt (s.sendSlot q)).owned = decide (i < q)) ∧ (s.txAt (s.sendSlot 0)).owned = false ∧
    (s.txd.idx.toNat = s.sendSlot 0 → s.txd.state ≠ .completing ∧
      s.txdStep = if s.halted then s else { s with txd := { s.txd with state := .idle } }) ∧
    (i = 0 → ∀ q < k, s.halted = false → (s.workerStep.txAt (s.sendSlot q)).owned = true)

/-- R118: the ownership protocol, on sound rings. W changes no slot that is hardware-owned; TXD and RXD change no slot that is
not. -/
def Obligations.AgentsWriteOnlyTheirSlots : Prop :=
  ∀ s t : State, TxRingOk s → RxRingOk s →
    (t = s.workerStep ∨ (∃ i, exec i s = .next t) → ∀ p,
      ((s.txAt p).owned = true → t.txAt p = s.txAt p) ∧ ((s.rxAt p).owned = true → t.rxAt p = s.rxAt p)) ∧
    (t = s.txdStep ∨ t = s.rxdStep → ∀ p,
      ((s.txAt p).owned = false → t.txAt p = s.txAt p) ∧ ((s.rxAt p).owned = false → t.rxAt p = s.rxAt p))

/-- R491, R492, R493: progress. First, what needs no fairness: while a command runs W's next step always does something; TX_SEND
is over after its first step and at most K + 1 more of W, TX_RECLAIM after its first step and at most `tx.in_use` more, when W steps
alone; and an agent with an enabled step keeps it through every turn but its own, unless the block halts. Then, in every weakly fair
run (`FairRun`, the reading of R491 in assumption 30), from any of its states on, unless a fault halts the block: a running TX_SEND
or TX_RECLAIM ends; a running RX_POLL ends if ENV offers no frame from here on; the events that an IRQ_ENTRY has captured are merged
into EVT with SIG set (R343); TXD, RUNNING at an owned frame, puts its bytes on the wire (R268); TXD, COMPLETING, comes back to
RUNNING; and RXD ends the frame it is writing. -/
def Obligations.CommandsGoOn : Prop :=
  (∀ s : State, s.halted = false → s.busy = true → s.port.w ≠ .stopped → s.workerStep ≠ s) ∧
  (∀ (s t : State) (k : Nat), s.Accepting → exec (.txSend k) s = .next t →
    ∃ n ≤ k + 1, (t.runWorker n).busy = false ∨ (t.runWorker n).halted = true) ∧
  (∀ s t : State, s.Accepting → exec .txReclaim s = .next t →
    ∃ n ≤ s.tx.inUse.toNat, (t.runWorker n).busy = false ∨ (t.runWorker n).halted = true) ∧
  (∀ (s t : State) (turn : Turn) (a : Agent), s.takeTurn turn = .next t → turn ≠ a.turn → s.enabled a = true →
    t.enabled a = true ∨ t.halted = true) ∧
  (∀ (sched : Nat → Turn) (r : Nat → State) (n : Nat), FairRun sched r →
    ((r n).port.w.inSend = true ∨ (r n).port.w.inReclaim = true →
      ∃ m ≥ n, (r m).busy = false ∨ (r m).halted = true) ∧
    ((r n).port.w.inPoll = true → RxRingOk (r n) → (∀ m ≥ n, ∀ frame, sched m ≠ .host (.offer frame)) →
      ∃ m ≥ n, (r m).busy = false ∨ (r m).halted = true) ∧
    (∀ c, (r n).irq.latch = some c →
      ∃ m ≥ n, (r m).halted = true ∨
        ((r m).irq.latch = some c ∧ (r (m + 1)).irq.latch = none ∧
          (r (m + 1)).irq.evt = (r m).irq.evt ||| eventBits c ∧ (r (m + 1)).irq.sig = true)) ∧
    (∀ k, (r n).cfg.configured = true → (r n).txd.state = .running → (r n).walkFrame 0 (r n).nTx = .frame k →
      ∃ m ≥ n, (r m).halted = true ∨ (r (m + 1)).env.wire = (r m).env.wire ++ [(r m).frameBytes k]) ∧
    ((r n).cfg.configured = true → (r n).txd.state = .completing → 0 < (r n).txd.left.toNat →
      ∃ m ≥ n, (r m).halted = true ∨ (r m).txd.state = .running) ∧
    ((r n).rxd.frame ≠ none → RxRingOk (r n) → ∃ m ≥ n, (r m).halted = true ∨ (r m).rxd.frame = none))

/-- R14, R32, R34, R286: the outputs are histories: a step appends at most one frame to the wire and at most one frame to the
delivered ones, never both, and removes none. -/
def Obligations.OutputsOnlyGrow : Prop :=
  ∀ s t : State, step s = .next t →
    (t.env.wire = s.env.wire ∧ t.env.delivered = s.env.delivered) ∨
    (∃ f, t.env.wire = s.env.wire ++ [f] ∧ t.env.delivered = s.env.delivered) ∨
    (∃ f, t.env.wire = s.env.wire ∧ t.env.delivered = s.env.delivered ++ [f])

/-- R30, R31, R33, R100, R472: the moves ENV does not have: giving back a handle that it does not own or that it passed to a TX_SEND
still running, taking a handle that is not free, writing a buffer that lies in the block, reading one that the block owns, offering a
frame of no bytes or more than 65535, and handing to a TX_SEND that would take it a handle that is free or that the Frame Router owns.
And what ENV has instead: the owner of a handle outside the block gives it back, after which it is free and no longer the Frame
Router's; of a buffer that does not lie in the block ENV reads what it wrote; and the caller of a running TX_SEND reads the buffers it
sends until the command returns OK. The model's choices: a missing move is the refusal `noSuchMove`, and a TX_SEND is one only when
it would be accepted (assumption 8); who owns a handle that lies in no place (assumption 9); the move `take` (assumption 10); how many
bytes ENV reaches before CFG (assumption 11); that R472's bar on writing holds for the slots of a running TX_SEND (assumption 29). -/
def Obligations.DutyBreakingMovesDoNotExist : Prop :=
  ∀ s : State,
    (∀ h, s.envOwns h = false → s.hostMove (.giveBack h) = .refused (.noSuchMove .givesBackOwnHandle)) ∧
    (∀ h, h ∉ s.env.pool → s.hostMove (.take h) = .refused (.noSuchMove .takesFreeHandle)) ∧
    (∀ h start bytes, s.blockHolds h = true →
      s.hostMove (.fill h start bytes) = .refused (.noSuchMove .fillsOwnBuffer)) ∧
    (∀ h start n, s.blockOwns h = true →
      s.hostMove (.readBuffer h start n) = .refused (.noSuchMove .readsOwnBuffer)) ∧
    (∀ frame, frame.length = 0 ∨ 65535 < frame.length →
      s.hostMove (.offer frame) = .refused (.noSuchMove .offersWireFrame)) ∧
    (∀ w k, decodeWorker w = .ok (.txSend k) → s.Ready → s.sendError k = none →
      (∀ i < k, (s.txAt (s.sendSlot i)).isFree = true) →
      (∃ i < k, s.sendHandle i ∈ s.env.pool ∨ s.sendHandle i ∈ s.env.router) →
      s.hostMove (issueMove w) = .refused (.noSuchMove .sendsOwnHandles)) ∧
    (∀ h, s.envOwns h = true → h ∉ s.sending → HandleSet.rising s.env.router →
      ∃ t, s.hostMove (.giveBack h) = .next t ∧ h ∈ t.env.pool ∧ h ∉ t.env.router) ∧
    (∀ h start bytes, h ≠ 0#32 → s.blockHolds h = false → start + bytes.length ≤ s.bufferLimit →
      ∃ t, s.hostMove (.fill h start bytes) = .next t ∧
        t.hostMove (.readBuffer h start bytes.length) = .next { t with env := { t.env with readBytes := bytes } }) ∧
    (∀ h ∈ s.sending, h ≠ 0#32 → h ∉ s.env.pool →
      s.hostMove (.giveBack h) = .refused (.noSuchMove .keepsSentHandle) ∧
      ∀ start n, start + n ≤ s.bufferLimit → ∃ t, s.hostMove (.readBuffer h start n) = .next t ∧
        t.env.readBytes = (List.range n).map fun j => Memory.read s.buf.data (bufKey h (start + j)))

/-- R106, R142, R160: the assembler's `ARG` words of an address carry it: the address that MC_JOIN and MC_LEAVE read from the words
`W0` and `W1` of `a` is `a`, and its byte `j` is the byte written `j`-th. -/
def Obligations.AddressPacking : Prop :=
  (∀ (s : State) (a : MacAddr), Store.get? s.args 0 = (addrWords a)[0]? → Store.get? s.args 1 = (addrWords a)[1]? →
    s.argAddr 0 = a) ∧
  (∀ a0 a1 a2 a3 a4 a5 : Byte, addrWords (macAddr a0 a1 a2 a3 a4 a5) = [a3 ++ a2 ++ a1 ++ a0, 0#16 ++ a5 ++ a4])
end

