-- ==== Sys2Proof/Laws/Ring.lean ====
section
/-! SUPPORT. Index arithmetic on rings whose size is a power of two (40_ring.md R200, R201, R206), and slot reads after slot
writes. -/

namespace Sys2Proof.Machine

/-- The ring sizes are the values `pow2` accepts (R206). -/
theorem pow2_iff (n : BitVec 16) : pow2 n = true ↔ IsRingSize n.toNat := by
  have hlt := n.isLt
  constructor
  · intro h
    simp only [pow2, Bool.and_eq_true, bne_iff_ne, ne_eq, beq_iff_eq] at h
    obtain ⟨h0, h1⟩ := h
    have hn0 : n.toNat ≠ 0 := fun e => h0 (BitVec.eq_of_toNat_eq e)
    have h2 : n.toNat &&& (n.toNat - 1) = 0 := by
      have := congrArg BitVec.toNat h1
      rw [BitVec.toNat_and, BitVec.toNat_sub_of_le (by rw [BitVec.le_def]; simp; omega)] at this
      simpa using this
    obtain ⟨k, hk⟩ := (Nat.and_sub_one_eq_zero_iff_isPowerOfTwo hn0).mp h2
    refine ⟨k, ?_, hk⟩
    by_contra hc
    have : 2 ^ 16 ≤ 2 ^ k := Nat.pow_le_pow_right (by decide) (by omega)
    omega
  · rintro ⟨k, hk, hn⟩
    have hpos : 0 < 2 ^ k := Nat.two_pow_pos k
    have hn0 : n.toNat ≠ 0 := by omega
    simp only [pow2, Bool.and_eq_true, bne_iff_ne, ne_eq, beq_iff_eq]
    refine ⟨fun e => hn0 (by simp [e]), BitVec.eq_of_toNat_eq ?_⟩
    rw [BitVec.toNat_and, BitVec.toNat_sub_of_le (by rw [BitVec.le_def]; simp; omega)]
    simpa using (Nat.and_sub_one_eq_zero_iff_isPowerOfTwo hn0).mpr ⟨k, hn⟩

theorem IsRingSize.pos {n : Nat} (h : IsRingSize n) : 0 < n := by
  obtain ⟨k, -, rfl⟩ := h
  exact Nat.two_pow_pos k

theorem IsRingSize.le {n : Nat} (h : IsRingSize n) : n ≤ 32768 := by
  obtain ⟨k, hk, rfl⟩ := h
  exact (Nat.pow_le_pow_right (by decide : 0 < 2) hk : 2 ^ k ≤ 2 ^ 15)

/-- `adv_N(i) = (i + 1) mod N` (R201). -/
theorem adv_toNat {n : Nat} (hn : IsRingSize n) (i : Index) (hi : i.toNat < n) :
    (adv n i).toNat = (i.toNat + 1) % n := by
  have hle := hn.le
  have hpos := hn.pos
  obtain ⟨k, hk, rfl⟩ := hn
  have h1 : (i + 1#16).toNat = i.toNat + 1 := by
    rw [BitVec.toNat_add]
    simp
    omega
  have h2 : (BitVec.ofNat 16 (2 ^ k) - 1#16).toNat = 2 ^ k - 1 := by
    have hof : (BitVec.ofNat 16 (2 ^ k)).toNat = 2 ^ k := by
      simp
      omega
    rw [BitVec.toNat_sub_of_le (by rw [BitVec.le_def, hof]; simp; omega), hof]
    rfl
  rw [adv, BitVec.toNat_and, h1, h2, Nat.and_two_pow_sub_one_eq_mod]

theorem adv_eq_ringPos {n : Nat} (hn : IsRingSize n) (i : Index) (hi : i.toNat < n) :
    (adv n i).toNat = ringPos n i 1 := adv_toNat hn i hi

theorem ringPos_lt {n : Nat} (hn : 0 < n) (i : Index) (k : Nat) : ringPos n i k < n := Nat.mod_lt _ hn

/-- Two places less than a ring apart are two slots. -/
theorem ringPos_inj {n : Nat} (i : Index) {j k : Nat} (hj : j < n) (hk : k < n)
    (h : ringPos n i j = ringPos n i k) : j = k := by
  have : j ≡ k [MOD n] := Nat.ModEq.add_left_cancel' i.toNat h
  exact Nat.ModEq.eq_of_lt_of_lt this hj hk

theorem ringPos_ofNat {n : Nat} (hn : IsRingSize n) (i : Index) (k : Nat) :
    (BitVec.ofNat 16 (ringPos n i k)).toNat = ringPos n i k := by
  have h1 := ringPos_lt hn.pos i k
  have h2 := hn.le
  simp
  omega

/-- A place counted from another place of the ring. -/
theorem ringPos_add {n : Nat} (i j : Index) (k l : Nat) (h : j.toNat = ringPos n i k) :
    ringPos n j l = ringPos n i (k + l) := by
  simp only [ringPos, h, Nat.mod_add_mod, Nat.add_assoc]

@[simp] theorem State.nTx_setTx (s : State) (p : Nat) (d : TxSlot) : (s.setTx p d).nTx = s.nTx := by
  simp [State.nTx, State.setTx]

@[simp] theorem State.nRx_setRx (s : State) (p : Nat) (d : RxSlot) : (s.setRx p d).nRx = s.nRx := by
  simp [State.nRx, State.setRx]

theorem State.txAt_setTx_self (s : State) {p : Nat} (d : TxSlot) (hp : p < s.nTx) : (s.setTx p d).txAt p = d := by
  simp only [State.nTx] at hp
  simp [State.txAt, State.setTx, List.getD, hp]

theorem State.txAt_setTx_ne (s : State) {p q : Nat} (d : TxSlot) (h : q ≠ p) : (s.setTx p d).txAt q = s.txAt q := by
  simp [State.txAt, State.setTx, List.getD, Ne.symm h]

theorem State.rxAt_setRx_self (s : State) {p : Nat} (d : RxSlot) (hp : p < s.nRx) : (s.setRx p d).rxAt p = d := by
  simp only [State.nRx] at hp
  simp [State.rxAt, State.setRx, List.getD, hp]

theorem State.rxAt_setRx_ne (s : State) {p q : Nat} (d : RxSlot) (h : q ≠ p) : (s.setRx p d).rxAt q = s.rxAt q := by
  simp [State.rxAt, State.setRx, List.getD, Ne.symm h]

/-! ### The ring invariants before and after CFG -/

theorem txRingOk_configured {s : State} (hc : s.cfg.configured = true) : TxRingOk s ↔ ∃ d, TxSound s d := by
  simp [TxRingOk, hc]

theorem txRingOk_unconfigured {s : State} (hc : s.cfg.configured = false) :
    TxRingOk s ↔ s.tx.slots = [] ∧ s.txd.state = .idle ∧ s.port.w.outside = true := by
  simp [TxRingOk, hc]

theorem rxRingOk_configured {s : State} (hc : s.cfg.configured = true) : RxRingOk s ↔ ∃ a, RxSound s a := by
  simp [RxRingOk, hc]

theorem rxRingOk_unconfigured {s : State} (hc : s.cfg.configured = false) :
    RxRingOk s ↔ s.rx.slots = [] ∧ s.rx.chain = [] ∧ s.rxd.frame = none ∧ s.port.w.outside = true ∧
      ∀ h ∈ s.env.pool, h ≠ 0#32 := by
  simp [RxRingOk, hc]

end Sys2Proof.Machine
end

