-- ==== Sys2Proof/Laws/State.lean ====
section
/-! SUPPORT. What each named update of the state changes: one lemma per field, true by rfl, so that no proof unfolds a
record update. -/

namespace Sys2Proof.Machine

variable (s : State)

@[simp] theorem State.setTx_cfg (p : Nat) (d : TxSlot) : (s.setTx p d).cfg = s.cfg := rfl
@[simp] theorem State.setTx_port (p : Nat) (d : TxSlot) : (s.setTx p d).port = s.port := rfl
@[simp] theorem State.setTx_halt (p : Nat) (d : TxSlot) : (s.setTx p d).halt = s.halt := rfl
@[simp] theorem State.setTx_irq (p : Nat) (d : TxSlot) : (s.setTx p d).irq = s.irq := rfl
@[simp] theorem State.setTx_args (p : Nat) (d : TxSlot) : (s.setTx p d).args = s.args := rfl
@[simp] theorem State.setTx_tx (p : Nat) (d : TxSlot) : (s.setTx p d).tx = { s.tx with slots := s.tx.slots.set p d } := rfl
@[simp] theorem State.setTx_txd (p : Nat) (d : TxSlot) : (s.setTx p d).txd = s.txd := rfl
@[simp] theorem State.setTx_rx (p : Nat) (d : TxSlot) : (s.setTx p d).rx = s.rx := rfl
@[simp] theorem State.setTx_rxd (p : Nat) (d : TxSlot) : (s.setTx p d).rxd = s.rxd := rfl
@[simp] theorem State.setTx_ctr (p : Nat) (d : TxSlot) : (s.setTx p d).ctr = s.ctr := rfl
@[simp] theorem State.setTx_mc (p : Nat) (d : TxSlot) : (s.setTx p d).mc = s.mc := rfl
@[simp] theorem State.setTx_buf (p : Nat) (d : TxSlot) : (s.setTx p d).buf = s.buf := rfl
@[simp] theorem State.setTx_env (p : Nat) (d : TxSlot) : (s.setTx p d).env = s.env := rfl
@[simp] theorem State.setTx_service (p : Nat) (d : TxSlot) : (s.setTx p d).service = s.service := rfl
@[simp] theorem State.setTx_params (p : Nat) (d : TxSlot) : (s.setTx p d).params = s.params := rfl
@[simp] theorem State.setTx_script (p : Nat) (d : TxSlot) : (s.setTx p d).script = s.script := rfl
@[simp] theorem State.setTx_turnNo (p : Nat) (d : TxSlot) : (s.setTx p d).turnNo = s.turnNo := rfl
@[simp] theorem State.setTx_draws (p : Nat) (d : TxSlot) : (s.setTx p d).draws = s.draws := rfl
@[simp] theorem State.setTx_drawNo (p : Nat) (d : TxSlot) : (s.setTx p d).drawNo = s.drawNo := rfl

@[simp] theorem State.setRx_cfg (p : Nat) (d : RxSlot) : (s.setRx p d).cfg = s.cfg := rfl
@[simp] theorem State.setRx_port (p : Nat) (d : RxSlot) : (s.setRx p d).port = s.port := rfl
@[simp] theorem State.setRx_halt (p : Nat) (d : RxSlot) : (s.setRx p d).halt = s.halt := rfl
@[simp] theorem State.setRx_irq (p : Nat) (d : RxSlot) : (s.setRx p d).irq = s.irq := rfl
@[simp] theorem State.setRx_args (p : Nat) (d : RxSlot) : (s.setRx p d).args = s.args := rfl
@[simp] theorem State.setRx_tx (p : Nat) (d : RxSlot) : (s.setRx p d).tx = s.tx := rfl
@[simp] theorem State.setRx_txd (p : Nat) (d : RxSlot) : (s.setRx p d).txd = s.txd := rfl
@[simp] theorem State.setRx_rx (p : Nat) (d : RxSlot) : (s.setRx p d).rx = { s.rx with slots := s.rx.slots.set p d } := rfl
@[simp] theorem State.setRx_rxd (p : Nat) (d : RxSlot) : (s.setRx p d).rxd = s.rxd := rfl
@[simp] theorem State.setRx_ctr (p : Nat) (d : RxSlot) : (s.setRx p d).ctr = s.ctr := rfl
@[simp] theorem State.setRx_mc (p : Nat) (d : RxSlot) : (s.setRx p d).mc = s.mc := rfl
@[simp] theorem State.setRx_buf (p : Nat) (d : RxSlot) : (s.setRx p d).buf = s.buf := rfl
@[simp] theorem State.setRx_env (p : Nat) (d : RxSlot) : (s.setRx p d).env = s.env := rfl
@[simp] theorem State.setRx_service (p : Nat) (d : RxSlot) : (s.setRx p d).service = s.service := rfl
@[simp] theorem State.setRx_params (p : Nat) (d : RxSlot) : (s.setRx p d).params = s.params := rfl
@[simp] theorem State.setRx_script (p : Nat) (d : RxSlot) : (s.setRx p d).script = s.script := rfl
@[simp] theorem State.setRx_turnNo (p : Nat) (d : RxSlot) : (s.setRx p d).turnNo = s.turnNo := rfl
@[simp] theorem State.setRx_draws (p : Nat) (d : RxSlot) : (s.setRx p d).draws = s.draws := rfl
@[simp] theorem State.setRx_drawNo (p : Nat) (d : RxSlot) : (s.setRx p d).drawNo = s.drawNo := rfl

@[simp] theorem State.setTxOwned_cfg (p : Nat) (o : Bool) : (s.setTxOwned p o).cfg = s.cfg := rfl
@[simp] theorem State.setTxOwned_port (p : Nat) (o : Bool) : (s.setTxOwned p o).port = s.port := rfl
@[simp] theorem State.setTxOwned_halt (p : Nat) (o : Bool) : (s.setTxOwned p o).halt = s.halt := rfl
@[simp] theorem State.setTxOwned_irq (p : Nat) (o : Bool) : (s.setTxOwned p o).irq = s.irq := rfl
@[simp] theorem State.setTxOwned_args (p : Nat) (o : Bool) : (s.setTxOwned p o).args = s.args := rfl
@[simp] theorem State.setTxOwned_tx (p : Nat) (o : Bool) : (s.setTxOwned p o).tx = { s.tx with slots := s.tx.slots.set p { s.txAt p with owned := o } } := rfl
@[simp] theorem State.setTxOwned_txd (p : Nat) (o : Bool) : (s.setTxOwned p o).txd = s.txd := rfl
@[simp] theorem State.setTxOwned_rx (p : Nat) (o : Bool) : (s.setTxOwned p o).rx = s.rx := rfl
@[simp] theorem State.setTxOwned_rxd (p : Nat) (o : Bool) : (s.setTxOwned p o).rxd = s.rxd := rfl
@[simp] theorem State.setTxOwned_ctr (p : Nat) (o : Bool) : (s.setTxOwned p o).ctr = s.ctr := rfl
@[simp] theorem State.setTxOwned_mc (p : Nat) (o : Bool) : (s.setTxOwned p o).mc = s.mc := rfl
@[simp] theorem State.setTxOwned_buf (p : Nat) (o : Bool) : (s.setTxOwned p o).buf = s.buf := rfl
@[simp] theorem State.setTxOwned_env (p : Nat) (o : Bool) : (s.setTxOwned p o).env = s.env := rfl
@[simp] theorem State.setTxOwned_service (p : Nat) (o : Bool) : (s.setTxOwned p o).service = s.service := rfl
@[simp] theorem State.setTxOwned_params (p : Nat) (o : Bool) : (s.setTxOwned p o).params = s.params := rfl
@[simp] theorem State.setTxOwned_script (p : Nat) (o : Bool) : (s.setTxOwned p o).script = s.script := rfl
@[simp] theorem State.setTxOwned_turnNo (p : Nat) (o : Bool) : (s.setTxOwned p o).turnNo = s.turnNo := rfl
@[simp] theorem State.setTxOwned_draws (p : Nat) (o : Bool) : (s.setTxOwned p o).draws = s.draws := rfl
@[simp] theorem State.setTxOwned_drawNo (p : Nat) (o : Bool) : (s.setTxOwned p o).drawNo = s.drawNo := rfl

@[simp] theorem State.raise_cfg (b : FaultBit) (r : Ring) (p : Nat) : (s.raise b r p).cfg = s.cfg := rfl
@[simp] theorem State.raise_port (b : FaultBit) (r : Ring) (p : Nat) : (s.raise b r p).port = s.port := rfl
@[simp] theorem State.raise_halt (b : FaultBit) (r : Ring) (p : Nat) : (s.raise b r p).halt = { fault := s.halt.fault ||| b.mask, faultSlot := if s.halted then s.halt.faultSlot else faultSlotWord r p } := rfl
@[simp] theorem State.raise_irq (b : FaultBit) (r : Ring) (p : Nat) : (s.raise b r p).irq = s.irq := rfl
@[simp] theorem State.raise_args (b : FaultBit) (r : Ring) (p : Nat) : (s.raise b r p).args = s.args := rfl
@[simp] theorem State.raise_tx (b : FaultBit) (r : Ring) (p : Nat) : (s.raise b r p).tx = s.tx := rfl
@[simp] theorem State.raise_txd (b : FaultBit) (r : Ring) (p : Nat) : (s.raise b r p).txd = s.txd := rfl
@[simp] theorem State.raise_rx (b : FaultBit) (r : Ring) (p : Nat) : (s.raise b r p).rx = s.rx := rfl
@[simp] theorem State.raise_rxd (b : FaultBit) (r : Ring) (p : Nat) : (s.raise b r p).rxd = s.rxd := rfl
@[simp] theorem State.raise_ctr (b : FaultBit) (r : Ring) (p : Nat) : (s.raise b r p).ctr = s.ctr := rfl
@[simp] theorem State.raise_mc (b : FaultBit) (r : Ring) (p : Nat) : (s.raise b r p).mc = s.mc := rfl
@[simp] theorem State.raise_buf (b : FaultBit) (r : Ring) (p : Nat) : (s.raise b r p).buf = s.buf := rfl
@[simp] theorem State.raise_env (b : FaultBit) (r : Ring) (p : Nat) : (s.raise b r p).env = s.env := rfl
@[simp] theorem State.raise_service (b : FaultBit) (r : Ring) (p : Nat) : (s.raise b r p).service = s.service := rfl
@[simp] theorem State.raise_params (b : FaultBit) (r : Ring) (p : Nat) : (s.raise b r p).params = s.params := rfl
@[simp] theorem State.raise_script (b : FaultBit) (r : Ring) (p : Nat) : (s.raise b r p).script = s.script := rfl
@[simp] theorem State.raise_turnNo (b : FaultBit) (r : Ring) (p : Nat) : (s.raise b r p).turnNo = s.turnNo := rfl
@[simp] theorem State.raise_draws (b : FaultBit) (r : Ring) (p : Nat) : (s.raise b r p).draws = s.draws := rfl
@[simp] theorem State.raise_drawNo (b : FaultBit) (r : Ring) (p : Nat) : (s.raise b r p).drawNo = s.drawNo := rfl

@[simp] theorem State.raiseInCommand_cfg (b : FaultBit) (r : Ring) (p : Nat) : (s.raiseInCommand b r p).cfg = s.cfg := rfl
@[simp] theorem State.raiseInCommand_port (b : FaultBit) (r : Ring) (p : Nat) : (s.raiseInCommand b r p).port = { s.port with w := .stopped } := rfl
@[simp] theorem State.raiseInCommand_halt (b : FaultBit) (r : Ring) (p : Nat) : (s.raiseInCommand b r p).halt = (s.raise b r p).halt := rfl
@[simp] theorem State.raiseInCommand_irq (b : FaultBit) (r : Ring) (p : Nat) : (s.raiseInCommand b r p).irq = s.irq := rfl
@[simp] theorem State.raiseInCommand_args (b : FaultBit) (r : Ring) (p : Nat) : (s.raiseInCommand b r p).args = s.args := rfl
@[simp] theorem State.raiseInCommand_tx (b : FaultBit) (r : Ring) (p : Nat) : (s.raiseInCommand b r p).tx = s.tx := rfl
@[simp] theorem State.raiseInCommand_txd (b : FaultBit) (r : Ring) (p : Nat) : (s.raiseInCommand b r p).txd = s.txd := rfl
@[simp] theorem State.raiseInCommand_rx (b : FaultBit) (r : Ring) (p : Nat) : (s.raiseInCommand b r p).rx = s.rx := rfl
@[simp] theorem State.raiseInCommand_rxd (b : FaultBit) (r : Ring) (p : Nat) : (s.raiseInCommand b r p).rxd = s.rxd := rfl
@[simp] theorem State.raiseInCommand_ctr (b : FaultBit) (r : Ring) (p : Nat) : (s.raiseInCommand b r p).ctr = s.ctr := rfl
@[simp] theorem State.raiseInCommand_mc (b : FaultBit) (r : Ring) (p : Nat) : (s.raiseInCommand b r p).mc = s.mc := rfl
@[simp] theorem State.raiseInCommand_buf (b : FaultBit) (r : Ring) (p : Nat) : (s.raiseInCommand b r p).buf = s.buf := rfl
@[simp] theorem State.raiseInCommand_env (b : FaultBit) (r : Ring) (p : Nat) : (s.raiseInCommand b r p).env = s.env := rfl
@[simp] theorem State.raiseInCommand_service (b : FaultBit) (r : Ring) (p : Nat) : (s.raiseInCommand b r p).service = s.service := rfl
@[simp] theorem State.raiseInCommand_params (b : FaultBit) (r : Ring) (p : Nat) : (s.raiseInCommand b r p).params = s.params := rfl
@[simp] theorem State.raiseInCommand_script (b : FaultBit) (r : Ring) (p : Nat) : (s.raiseInCommand b r p).script = s.script := rfl
@[simp] theorem State.raiseInCommand_turnNo (b : FaultBit) (r : Ring) (p : Nat) : (s.raiseInCommand b r p).turnNo = s.turnNo := rfl
@[simp] theorem State.raiseInCommand_draws (b : FaultBit) (r : Ring) (p : Nat) : (s.raiseInCommand b r p).draws = s.draws := rfl
@[simp] theorem State.raiseInCommand_drawNo (b : FaultBit) (r : Ring) (p : Nat) : (s.raiseInCommand b r p).drawNo = s.drawNo := rfl

@[simp] theorem State.retOk_cfg (v : Word) : (s.retOk v).cfg = s.cfg := rfl
@[simp] theorem State.retOk_port (v : Word) : (s.retOk v).port = { result := 0#8, value := v, w := .idle } := rfl
@[simp] theorem State.retOk_halt (v : Word) : (s.retOk v).halt = s.halt := rfl
@[simp] theorem State.retOk_irq (v : Word) : (s.retOk v).irq = s.irq := rfl
@[simp] theorem State.retOk_args (v : Word) : (s.retOk v).args = s.args := rfl
@[simp] theorem State.retOk_tx (v : Word) : (s.retOk v).tx = s.tx := rfl
@[simp] theorem State.retOk_txd (v : Word) : (s.retOk v).txd = s.txd := rfl
@[simp] theorem State.retOk_rx (v : Word) : (s.retOk v).rx = s.rx := rfl
@[simp] theorem State.retOk_rxd (v : Word) : (s.retOk v).rxd = s.rxd := rfl
@[simp] theorem State.retOk_ctr (v : Word) : (s.retOk v).ctr = s.ctr := rfl
@[simp] theorem State.retOk_mc (v : Word) : (s.retOk v).mc = s.mc := rfl
@[simp] theorem State.retOk_buf (v : Word) : (s.retOk v).buf = s.buf := rfl
@[simp] theorem State.retOk_env (v : Word) : (s.retOk v).env = s.env := rfl
@[simp] theorem State.retOk_service (v : Word) : (s.retOk v).service = s.service := rfl
@[simp] theorem State.retOk_params (v : Word) : (s.retOk v).params = s.params := rfl
@[simp] theorem State.retOk_script (v : Word) : (s.retOk v).script = s.script := rfl
@[simp] theorem State.retOk_turnNo (v : Word) : (s.retOk v).turnNo = s.turnNo := rfl
@[simp] theorem State.retOk_draws (v : Word) : (s.retOk v).draws = s.draws := rfl
@[simp] theorem State.retOk_drawNo (v : Word) : (s.retOk v).drawNo = s.drawNo := rfl

@[simp] theorem State.retErr_cfg (c : ResultCode) : (s.retErr c).cfg = s.cfg := rfl
@[simp] theorem State.retErr_port (c : ResultCode) : (s.retErr c).port = { result := c.bits, value := 0#32, w := .idle } := rfl
@[simp] theorem State.retErr_halt (c : ResultCode) : (s.retErr c).halt = s.halt := rfl
@[simp] theorem State.retErr_irq (c : ResultCode) : (s.retErr c).irq = s.irq := rfl
@[simp] theorem State.retErr_args (c : ResultCode) : (s.retErr c).args = s.args := rfl
@[simp] theorem State.retErr_tx (c : ResultCode) : (s.retErr c).tx = s.tx := rfl
@[simp] theorem State.retErr_txd (c : ResultCode) : (s.retErr c).txd = s.txd := rfl
@[simp] theorem State.retErr_rx (c : ResultCode) : (s.retErr c).rx = s.rx := rfl
@[simp] theorem State.retErr_rxd (c : ResultCode) : (s.retErr c).rxd = s.rxd := rfl
@[simp] theorem State.retErr_ctr (c : ResultCode) : (s.retErr c).ctr = s.ctr := rfl
@[simp] theorem State.retErr_mc (c : ResultCode) : (s.retErr c).mc = s.mc := rfl
@[simp] theorem State.retErr_buf (c : ResultCode) : (s.retErr c).buf = s.buf := rfl
@[simp] theorem State.retErr_env (c : ResultCode) : (s.retErr c).env = s.env := rfl
@[simp] theorem State.retErr_service (c : ResultCode) : (s.retErr c).service = s.service := rfl
@[simp] theorem State.retErr_params (c : ResultCode) : (s.retErr c).params = s.params := rfl
@[simp] theorem State.retErr_script (c : ResultCode) : (s.retErr c).script = s.script := rfl
@[simp] theorem State.retErr_turnNo (c : ResultCode) : (s.retErr c).turnNo = s.turnNo := rfl
@[simp] theorem State.retErr_draws (c : ResultCode) : (s.retErr c).draws = s.draws := rfl
@[simp] theorem State.retErr_drawNo (c : ResultCode) : (s.retErr c).drawNo = s.drawNo := rfl

@[simp] theorem State.goOn_cfg (w : WState) : (s.goOn w).cfg = s.cfg := rfl
@[simp] theorem State.goOn_port (w : WState) : (s.goOn w).port = { s.port with w := w } := rfl
@[simp] theorem State.goOn_halt (w : WState) : (s.goOn w).halt = s.halt := rfl
@[simp] theorem State.goOn_irq (w : WState) : (s.goOn w).irq = s.irq := rfl
@[simp] theorem State.goOn_args (w : WState) : (s.goOn w).args = s.args := rfl
@[simp] theorem State.goOn_tx (w : WState) : (s.goOn w).tx = s.tx := rfl
@[simp] theorem State.goOn_txd (w : WState) : (s.goOn w).txd = s.txd := rfl
@[simp] theorem State.goOn_rx (w : WState) : (s.goOn w).rx = s.rx := rfl
@[simp] theorem State.goOn_rxd (w : WState) : (s.goOn w).rxd = s.rxd := rfl
@[simp] theorem State.goOn_ctr (w : WState) : (s.goOn w).ctr = s.ctr := rfl
@[simp] theorem State.goOn_mc (w : WState) : (s.goOn w).mc = s.mc := rfl
@[simp] theorem State.goOn_buf (w : WState) : (s.goOn w).buf = s.buf := rfl
@[simp] theorem State.goOn_env (w : WState) : (s.goOn w).env = s.env := rfl
@[simp] theorem State.goOn_service (w : WState) : (s.goOn w).service = s.service := rfl
@[simp] theorem State.goOn_params (w : WState) : (s.goOn w).params = s.params := rfl
@[simp] theorem State.goOn_script (w : WState) : (s.goOn w).script = s.script := rfl
@[simp] theorem State.goOn_turnNo (w : WState) : (s.goOn w).turnNo = s.turnNo := rfl
@[simp] theorem State.goOn_draws (w : WState) : (s.goOn w).draws = s.draws := rfl
@[simp] theorem State.goOn_drawNo (w : WState) : (s.goOn w).drawNo = s.drawNo := rfl

@[simp] theorem State.releaseHandle_cfg (h : Handle) : (s.releaseHandle h).cfg = s.cfg := rfl
@[simp] theorem State.releaseHandle_port (h : Handle) : (s.releaseHandle h).port = s.port := rfl
@[simp] theorem State.releaseHandle_halt (h : Handle) : (s.releaseHandle h).halt = s.halt := rfl
@[simp] theorem State.releaseHandle_irq (h : Handle) : (s.releaseHandle h).irq = s.irq := rfl
@[simp] theorem State.releaseHandle_args (h : Handle) : (s.releaseHandle h).args = s.args := rfl
@[simp] theorem State.releaseHandle_tx (h : Handle) : (s.releaseHandle h).tx = s.tx := rfl
@[simp] theorem State.releaseHandle_txd (h : Handle) : (s.releaseHandle h).txd = s.txd := rfl
@[simp] theorem State.releaseHandle_rx (h : Handle) : (s.releaseHandle h).rx = s.rx := rfl
@[simp] theorem State.releaseHandle_rxd (h : Handle) : (s.releaseHandle h).rxd = s.rxd := rfl
@[simp] theorem State.releaseHandle_ctr (h : Handle) : (s.releaseHandle h).ctr = s.ctr := rfl
@[simp] theorem State.releaseHandle_mc (h : Handle) : (s.releaseHandle h).mc = s.mc := rfl
@[simp] theorem State.releaseHandle_buf (h : Handle) : (s.releaseHandle h).buf = s.buf := rfl
@[simp] theorem State.releaseHandle_env (h : Handle) : (s.releaseHandle h).env = { s.env with pool := HandleSet.insert s.env.pool h, provider := s.env.provider ++ [.release h] } := rfl
@[simp] theorem State.releaseHandle_service (h : Handle) : (s.releaseHandle h).service = s.service := rfl
@[simp] theorem State.releaseHandle_params (h : Handle) : (s.releaseHandle h).params = s.params := rfl
@[simp] theorem State.releaseHandle_script (h : Handle) : (s.releaseHandle h).script = s.script := rfl
@[simp] theorem State.releaseHandle_turnNo (h : Handle) : (s.releaseHandle h).turnNo = s.turnNo := rfl
@[simp] theorem State.releaseHandle_draws (h : Handle) : (s.releaseHandle h).draws = s.draws := rfl
@[simp] theorem State.releaseHandle_drawNo (h : Handle) : (s.releaseHandle h).drawNo = s.drawNo := rfl

@[simp] theorem State.deliver_cfg (f : Frame) : (s.deliver f).cfg = s.cfg := rfl
@[simp] theorem State.deliver_port (f : Frame) : (s.deliver f).port = s.port := rfl
@[simp] theorem State.deliver_halt (f : Frame) : (s.deliver f).halt = s.halt := rfl
@[simp] theorem State.deliver_irq (f : Frame) : (s.deliver f).irq = s.irq := rfl
@[simp] theorem State.deliver_args (f : Frame) : (s.deliver f).args = s.args := rfl
@[simp] theorem State.deliver_tx (f : Frame) : (s.deliver f).tx = s.tx := rfl
@[simp] theorem State.deliver_txd (f : Frame) : (s.deliver f).txd = s.txd := rfl
@[simp] theorem State.deliver_rx (f : Frame) : (s.deliver f).rx = s.rx := rfl
@[simp] theorem State.deliver_rxd (f : Frame) : (s.deliver f).rxd = s.rxd := rfl
@[simp] theorem State.deliver_ctr (f : Frame) : (s.deliver f).ctr = s.ctr := rfl
@[simp] theorem State.deliver_mc (f : Frame) : (s.deliver f).mc = s.mc := rfl
@[simp] theorem State.deliver_buf (f : Frame) : (s.deliver f).buf = s.buf := rfl
@[simp] theorem State.deliver_env (f : Frame) : (s.deliver f).env = { s.env with router := HandleSet.insertAll s.env.router f.handles, delivered := s.env.delivered ++ [f] } := rfl
@[simp] theorem State.deliver_service (f : Frame) : (s.deliver f).service = s.service := rfl
@[simp] theorem State.deliver_params (f : Frame) : (s.deliver f).params = s.params := rfl
@[simp] theorem State.deliver_script (f : Frame) : (s.deliver f).script = s.script := rfl
@[simp] theorem State.deliver_turnNo (f : Frame) : (s.deliver f).turnNo = s.turnNo := rfl
@[simp] theorem State.deliver_draws (f : Frame) : (s.deliver f).draws = s.draws := rfl
@[simp] theorem State.deliver_drawNo (f : Frame) : (s.deliver f).drawNo = s.drawNo := rfl

@[simp] theorem State.wireTx_cfg (bytes : List Byte) : (s.wireTx bytes).cfg = s.cfg := rfl
@[simp] theorem State.wireTx_port (bytes : List Byte) : (s.wireTx bytes).port = s.port := rfl
@[simp] theorem State.wireTx_halt (bytes : List Byte) : (s.wireTx bytes).halt = s.halt := rfl
@[simp] theorem State.wireTx_irq (bytes : List Byte) : (s.wireTx bytes).irq = s.irq := rfl
@[simp] theorem State.wireTx_args (bytes : List Byte) : (s.wireTx bytes).args = s.args := rfl
@[simp] theorem State.wireTx_tx (bytes : List Byte) : (s.wireTx bytes).tx = s.tx := rfl
@[simp] theorem State.wireTx_txd (bytes : List Byte) : (s.wireTx bytes).txd = s.txd := rfl
@[simp] theorem State.wireTx_rx (bytes : List Byte) : (s.wireTx bytes).rx = s.rx := rfl
@[simp] theorem State.wireTx_rxd (bytes : List Byte) : (s.wireTx bytes).rxd = s.rxd := rfl
@[simp] theorem State.wireTx_ctr (bytes : List Byte) : (s.wireTx bytes).ctr = s.ctr := rfl
@[simp] theorem State.wireTx_mc (bytes : List Byte) : (s.wireTx bytes).mc = s.mc := rfl
@[simp] theorem State.wireTx_buf (bytes : List Byte) : (s.wireTx bytes).buf = s.buf := rfl
@[simp] theorem State.wireTx_env (bytes : List Byte) : (s.wireTx bytes).env = { s.env with wire := s.env.wire ++ [bytes] } := rfl
@[simp] theorem State.wireTx_service (bytes : List Byte) : (s.wireTx bytes).service = s.service := rfl
@[simp] theorem State.wireTx_params (bytes : List Byte) : (s.wireTx bytes).params = s.params := rfl
@[simp] theorem State.wireTx_script (bytes : List Byte) : (s.wireTx bytes).script = s.script := rfl
@[simp] theorem State.wireTx_turnNo (bytes : List Byte) : (s.wireTx bytes).turnNo = s.turnNo := rfl
@[simp] theorem State.wireTx_draws (bytes : List Byte) : (s.wireTx bytes).draws = s.draws := rfl
@[simp] theorem State.wireTx_drawNo (bytes : List Byte) : (s.wireTx bytes).drawNo = s.drawNo := rfl

@[simp] theorem State.setSpan_cfg (h : Handle) (v : BitVec 16) : (s.setSpan h v).cfg = s.cfg := rfl
@[simp] theorem State.setSpan_port (h : Handle) (v : BitVec 16) : (s.setSpan h v).port = s.port := rfl
@[simp] theorem State.setSpan_halt (h : Handle) (v : BitVec 16) : (s.setSpan h v).halt = s.halt := rfl
@[simp] theorem State.setSpan_irq (h : Handle) (v : BitVec 16) : (s.setSpan h v).irq = s.irq := rfl
@[simp] theorem State.setSpan_args (h : Handle) (v : BitVec 16) : (s.setSpan h v).args = s.args := rfl
@[simp] theorem State.setSpan_tx (h : Handle) (v : BitVec 16) : (s.setSpan h v).tx = s.tx := rfl
@[simp] theorem State.setSpan_txd (h : Handle) (v : BitVec 16) : (s.setSpan h v).txd = s.txd := rfl
@[simp] theorem State.setSpan_rx (h : Handle) (v : BitVec 16) : (s.setSpan h v).rx = s.rx := rfl
@[simp] theorem State.setSpan_rxd (h : Handle) (v : BitVec 16) : (s.setSpan h v).rxd = s.rxd := rfl
@[simp] theorem State.setSpan_ctr (h : Handle) (v : BitVec 16) : (s.setSpan h v).ctr = s.ctr := rfl
@[simp] theorem State.setSpan_mc (h : Handle) (v : BitVec 16) : (s.setSpan h v).mc = s.mc := rfl
@[simp] theorem State.setSpan_buf (h : Handle) (v : BitVec 16) : (s.setSpan h v).buf = { s.buf with span := if v = 0#16 then Store.del s.buf.span h.toNat else Store.put s.buf.span h.toNat v } := rfl
@[simp] theorem State.setSpan_env (h : Handle) (v : BitVec 16) : (s.setSpan h v).env = s.env := rfl
@[simp] theorem State.setSpan_service (h : Handle) (v : BitVec 16) : (s.setSpan h v).service = s.service := rfl
@[simp] theorem State.setSpan_params (h : Handle) (v : BitVec 16) : (s.setSpan h v).params = s.params := rfl
@[simp] theorem State.setSpan_script (h : Handle) (v : BitVec 16) : (s.setSpan h v).script = s.script := rfl
@[simp] theorem State.setSpan_turnNo (h : Handle) (v : BitVec 16) : (s.setSpan h v).turnNo = s.turnNo := rfl
@[simp] theorem State.setSpan_draws (h : Handle) (v : BitVec 16) : (s.setSpan h v).draws = s.draws := rfl
@[simp] theorem State.setSpan_drawNo (h : Handle) (v : BitVec 16) : (s.setSpan h v).drawNo = s.drawNo := rfl

@[simp] theorem State.beginService_cfg (v : BitVec 2) : (s.beginService v).cfg = s.cfg := rfl
@[simp] theorem State.beginService_port (v : BitVec 2) : (s.beginService v).port = s.port := rfl
@[simp] theorem State.beginService_halt (v : BitVec 2) : (s.beginService v).halt = s.halt := rfl
@[simp] theorem State.beginService_irq (v : BitVec 2) : (s.beginService v).irq = s.irq := rfl
@[simp] theorem State.beginService_args (v : BitVec 2) : (s.beginService v).args = s.args := rfl
@[simp] theorem State.beginService_tx (v : BitVec 2) : (s.beginService v).tx = s.tx := rfl
@[simp] theorem State.beginService_txd (v : BitVec 2) : (s.beginService v).txd = s.txd := rfl
@[simp] theorem State.beginService_rx (v : BitVec 2) : (s.beginService v).rx = s.rx := rfl
@[simp] theorem State.beginService_rxd (v : BitVec 2) : (s.beginService v).rxd = s.rxd := rfl
@[simp] theorem State.beginService_ctr (v : BitVec 2) : (s.beginService v).ctr = s.ctr := rfl
@[simp] theorem State.beginService_mc (v : BitVec 2) : (s.beginService v).mc = s.mc := rfl
@[simp] theorem State.beginService_buf (v : BitVec 2) : (s.beginService v).buf = s.buf := rfl
@[simp] theorem State.beginService_env (v : BitVec 2) : (s.beginService v).env = s.env := rfl
@[simp] theorem State.beginService_service (v : BitVec 2) : (s.beginService v).service = s.service ||| v := rfl
@[simp] theorem State.beginService_params (v : BitVec 2) : (s.beginService v).params = s.params := rfl
@[simp] theorem State.beginService_script (v : BitVec 2) : (s.beginService v).script = s.script := rfl
@[simp] theorem State.beginService_turnNo (v : BitVec 2) : (s.beginService v).turnNo = s.turnNo := rfl
@[simp] theorem State.beginService_draws (v : BitVec 2) : (s.beginService v).draws = s.draws := rfl
@[simp] theorem State.beginService_drawNo (v : BitVec 2) : (s.beginService v).drawNo = s.drawNo := rfl

@[simp] theorem State.endService_cfg (v : BitVec 2) : (s.endService v).cfg = s.cfg := rfl
@[simp] theorem State.endService_port (v : BitVec 2) : (s.endService v).port = s.port := rfl
@[simp] theorem State.endService_halt (v : BitVec 2) : (s.endService v).halt = s.halt := rfl
@[simp] theorem State.endService_irq (v : BitVec 2) : (s.endService v).irq = s.irq := rfl
@[simp] theorem State.endService_args (v : BitVec 2) : (s.endService v).args = s.args := rfl
@[simp] theorem State.endService_tx (v : BitVec 2) : (s.endService v).tx = s.tx := rfl
@[simp] theorem State.endService_txd (v : BitVec 2) : (s.endService v).txd = s.txd := rfl
@[simp] theorem State.endService_rx (v : BitVec 2) : (s.endService v).rx = s.rx := rfl
@[simp] theorem State.endService_rxd (v : BitVec 2) : (s.endService v).rxd = s.rxd := rfl
@[simp] theorem State.endService_ctr (v : BitVec 2) : (s.endService v).ctr = s.ctr := rfl
@[simp] theorem State.endService_mc (v : BitVec 2) : (s.endService v).mc = s.mc := rfl
@[simp] theorem State.endService_buf (v : BitVec 2) : (s.endService v).buf = s.buf := rfl
@[simp] theorem State.endService_env (v : BitVec 2) : (s.endService v).env = s.env := rfl
@[simp] theorem State.endService_service (v : BitVec 2) : (s.endService v).service = s.service &&& ~~~v := rfl
@[simp] theorem State.endService_params (v : BitVec 2) : (s.endService v).params = s.params := rfl
@[simp] theorem State.endService_script (v : BitVec 2) : (s.endService v).script = s.script := rfl
@[simp] theorem State.endService_turnNo (v : BitVec 2) : (s.endService v).turnNo = s.turnNo := rfl
@[simp] theorem State.endService_draws (v : BitVec 2) : (s.endService v).draws = s.draws := rfl
@[simp] theorem State.endService_drawNo (v : BitVec 2) : (s.endService v).drawNo = s.drawNo := rfl

@[simp] theorem State.reclaimReturn_cfg (n : Nat) : (s.reclaimReturn n).cfg = s.cfg := rfl
@[simp] theorem State.reclaimReturn_port (n : Nat) : (s.reclaimReturn n).port = { result := 0#8, value := BitVec.ofNat 32 n, w := .idle } := rfl
@[simp] theorem State.reclaimReturn_halt (n : Nat) : (s.reclaimReturn n).halt = s.halt := rfl
@[simp] theorem State.reclaimReturn_irq (n : Nat) : (s.reclaimReturn n).irq = s.irq := rfl
@[simp] theorem State.reclaimReturn_args (n : Nat) : (s.reclaimReturn n).args = s.args := rfl
@[simp] theorem State.reclaimReturn_tx (n : Nat) : (s.reclaimReturn n).tx = s.tx := rfl
@[simp] theorem State.reclaimReturn_txd (n : Nat) : (s.reclaimReturn n).txd = s.txd := rfl
@[simp] theorem State.reclaimReturn_rx (n : Nat) : (s.reclaimReturn n).rx = s.rx := rfl
@[simp] theorem State.reclaimReturn_rxd (n : Nat) : (s.reclaimReturn n).rxd = s.rxd := rfl
@[simp] theorem State.reclaimReturn_ctr (n : Nat) : (s.reclaimReturn n).ctr = s.ctr := rfl
@[simp] theorem State.reclaimReturn_mc (n : Nat) : (s.reclaimReturn n).mc = s.mc := rfl
@[simp] theorem State.reclaimReturn_buf (n : Nat) : (s.reclaimReturn n).buf = s.buf := rfl
@[simp] theorem State.reclaimReturn_env (n : Nat) : (s.reclaimReturn n).env = s.env := rfl
@[simp] theorem State.reclaimReturn_service (n : Nat) : (s.reclaimReturn n).service = s.service &&& ~~~transmittedBit := rfl
@[simp] theorem State.reclaimReturn_params (n : Nat) : (s.reclaimReturn n).params = s.params := rfl
@[simp] theorem State.reclaimReturn_script (n : Nat) : (s.reclaimReturn n).script = s.script := rfl
@[simp] theorem State.reclaimReturn_turnNo (n : Nat) : (s.reclaimReturn n).turnNo = s.turnNo := rfl
@[simp] theorem State.reclaimReturn_draws (n : Nat) : (s.reclaimReturn n).draws = s.draws := rfl
@[simp] theorem State.reclaimReturn_drawNo (n : Nat) : (s.reclaimReturn n).drawNo = s.drawNo := rfl

@[simp] theorem State.setIsr_cfg (bits : BitVec 2) : (s.setIsr bits).cfg = s.cfg := rfl
@[simp] theorem State.setIsr_port (bits : BitVec 2) : (s.setIsr bits).port = s.port := rfl
@[simp] theorem State.setIsr_halt (bits : BitVec 2) : (s.setIsr bits).halt = s.halt := rfl
@[simp] theorem State.setIsr_irq (bits : BitVec 2) : (s.setIsr bits).irq = { s.irq with isr := s.irq.isr ||| bits } := rfl
@[simp] theorem State.setIsr_args (bits : BitVec 2) : (s.setIsr bits).args = s.args := rfl
@[simp] theorem State.setIsr_tx (bits : BitVec 2) : (s.setIsr bits).tx = s.tx := rfl
@[simp] theorem State.setIsr_txd (bits : BitVec 2) : (s.setIsr bits).txd = s.txd := rfl
@[simp] theorem State.setIsr_rx (bits : BitVec 2) : (s.setIsr bits).rx = s.rx := rfl
@[simp] theorem State.setIsr_rxd (bits : BitVec 2) : (s.setIsr bits).rxd = s.rxd := rfl
@[simp] theorem State.setIsr_ctr (bits : BitVec 2) : (s.setIsr bits).ctr = s.ctr := rfl
@[simp] theorem State.setIsr_mc (bits : BitVec 2) : (s.setIsr bits).mc = s.mc := rfl
@[simp] theorem State.setIsr_buf (bits : BitVec 2) : (s.setIsr bits).buf = s.buf := rfl
@[simp] theorem State.setIsr_env (bits : BitVec 2) : (s.setIsr bits).env = s.env := rfl
@[simp] theorem State.setIsr_service (bits : BitVec 2) : (s.setIsr bits).service = s.service := rfl
@[simp] theorem State.setIsr_params (bits : BitVec 2) : (s.setIsr bits).params = s.params := rfl
@[simp] theorem State.setIsr_script (bits : BitVec 2) : (s.setIsr bits).script = s.script := rfl
@[simp] theorem State.setIsr_turnNo (bits : BitVec 2) : (s.setIsr bits).turnNo = s.turnNo := rfl
@[simp] theorem State.setIsr_draws (bits : BitVec 2) : (s.setIsr bits).draws = s.draws := rfl
@[simp] theorem State.setIsr_drawNo (bits : BitVec 2) : (s.setIsr bits).drawNo = s.drawNo := rfl

@[simp] theorem State.advanceRelease_cfg : s.advanceRelease.cfg = s.cfg := rfl
@[simp] theorem State.advanceRelease_port : s.advanceRelease.port = s.port := rfl
@[simp] theorem State.advanceRelease_halt : s.advanceRelease.halt = s.halt := rfl
@[simp] theorem State.advanceRelease_irq : s.advanceRelease.irq = s.irq := rfl
@[simp] theorem State.advanceRelease_args : s.advanceRelease.args = s.args := rfl
@[simp] theorem State.advanceRelease_tx : s.advanceRelease.tx = { s.tx with release := adv s.nTx s.tx.release, inUse := s.tx.inUse - 1#17 } := rfl
@[simp] theorem State.advanceRelease_txd : s.advanceRelease.txd = s.txd := rfl
@[simp] theorem State.advanceRelease_rx : s.advanceRelease.rx = s.rx := rfl
@[simp] theorem State.advanceRelease_rxd : s.advanceRelease.rxd = s.rxd := rfl
@[simp] theorem State.advanceRelease_ctr : s.advanceRelease.ctr = s.ctr := rfl
@[simp] theorem State.advanceRelease_mc : s.advanceRelease.mc = s.mc := rfl
@[simp] theorem State.advanceRelease_buf : s.advanceRelease.buf = s.buf := rfl
@[simp] theorem State.advanceRelease_env : s.advanceRelease.env = s.env := rfl
@[simp] theorem State.advanceRelease_service : s.advanceRelease.service = s.service := rfl
@[simp] theorem State.advanceRelease_params : s.advanceRelease.params = s.params := rfl
@[simp] theorem State.advanceRelease_script : s.advanceRelease.script = s.script := rfl
@[simp] theorem State.advanceRelease_turnNo : s.advanceRelease.turnNo = s.turnNo := rfl
@[simp] theorem State.advanceRelease_draws : s.advanceRelease.draws = s.draws := rfl
@[simp] theorem State.advanceRelease_drawNo : s.advanceRelease.drawNo = s.drawNo := rfl

@[simp] theorem State.armSlot_cfg (p : Nat) (h : Handle) : (s.armSlot p h).cfg = s.cfg := rfl
@[simp] theorem State.armSlot_port (p : Nat) (h : Handle) : (s.armSlot p h).port = s.port := rfl
@[simp] theorem State.armSlot_halt (p : Nat) (h : Handle) : (s.armSlot p h).halt = s.halt := rfl
@[simp] theorem State.armSlot_irq (p : Nat) (h : Handle) : (s.armSlot p h).irq = s.irq := rfl
@[simp] theorem State.armSlot_args (p : Nat) (h : Handle) : (s.armSlot p h).args = s.args := rfl
@[simp] theorem State.armSlot_tx (p : Nat) (h : Handle) : (s.armSlot p h).tx = s.tx := rfl
@[simp] theorem State.armSlot_txd (p : Nat) (h : Handle) : (s.armSlot p h).txd = s.txd := rfl
@[simp] theorem State.armSlot_rx (p : Nat) (h : Handle) : (s.armSlot p h).rx = (s.setRx p { RxSlot.empty with buf := h, wrap := (s.rxAt p).wrap, owned := true }).rx := rfl
@[simp] theorem State.armSlot_rxd (p : Nat) (h : Handle) : (s.armSlot p h).rxd = s.rxd := rfl
@[simp] theorem State.armSlot_ctr (p : Nat) (h : Handle) : (s.armSlot p h).ctr = s.ctr := rfl
@[simp] theorem State.armSlot_mc (p : Nat) (h : Handle) : (s.armSlot p h).mc = s.mc := rfl
@[simp] theorem State.armSlot_buf (p : Nat) (h : Handle) : (s.armSlot p h).buf = s.buf := rfl
@[simp] theorem State.armSlot_env (p : Nat) (h : Handle) : (s.armSlot p h).env = s.env := rfl
@[simp] theorem State.armSlot_service (p : Nat) (h : Handle) : (s.armSlot p h).service = s.service := rfl
@[simp] theorem State.armSlot_params (p : Nat) (h : Handle) : (s.armSlot p h).params = s.params := rfl
@[simp] theorem State.armSlot_script (p : Nat) (h : Handle) : (s.armSlot p h).script = s.script := rfl
@[simp] theorem State.armSlot_turnNo (p : Nat) (h : Handle) : (s.armSlot p h).turnNo = s.turnNo := rfl
@[simp] theorem State.armSlot_draws (p : Nat) (h : Handle) : (s.armSlot p h).draws = s.draws := rfl
@[simp] theorem State.armSlot_drawNo (p : Nat) (h : Handle) : (s.armSlot p h).drawNo = s.drawNo := rfl

@[simp] theorem State.closeChain_cfg (n : Nat) : (s.closeChain n).cfg = s.cfg := rfl
@[simp] theorem State.closeChain_port (n : Nat) : (s.closeChain n).port = { s.port with w := .pollVisit n } := rfl
@[simp] theorem State.closeChain_halt (n : Nat) : (s.closeChain n).halt = s.halt := rfl
@[simp] theorem State.closeChain_irq (n : Nat) : (s.closeChain n).irq = s.irq := rfl
@[simp] theorem State.closeChain_args (n : Nat) : (s.closeChain n).args = s.args := rfl
@[simp] theorem State.closeChain_tx (n : Nat) : (s.closeChain n).tx = s.tx := rfl
@[simp] theorem State.closeChain_txd (n : Nat) : (s.closeChain n).txd = s.txd := rfl
@[simp] theorem State.closeChain_rx (n : Nat) : (s.closeChain n).rx = { s.rx with chain := [] } := rfl
@[simp] theorem State.closeChain_rxd (n : Nat) : (s.closeChain n).rxd = s.rxd := rfl
@[simp] theorem State.closeChain_ctr (n : Nat) : (s.closeChain n).ctr = s.ctr := rfl
@[simp] theorem State.closeChain_mc (n : Nat) : (s.closeChain n).mc = s.mc := rfl
@[simp] theorem State.closeChain_buf (n : Nat) : (s.closeChain n).buf = s.buf := rfl
@[simp] theorem State.closeChain_env (n : Nat) : (s.closeChain n).env = s.env := rfl
@[simp] theorem State.closeChain_service (n : Nat) : (s.closeChain n).service = s.service := rfl
@[simp] theorem State.closeChain_params (n : Nat) : (s.closeChain n).params = s.params := rfl
@[simp] theorem State.closeChain_script (n : Nat) : (s.closeChain n).script = s.script := rfl
@[simp] theorem State.closeChain_turnNo (n : Nat) : (s.closeChain n).turnNo = s.turnNo := rfl
@[simp] theorem State.closeChain_draws (n : Nat) : (s.closeChain n).draws = s.draws := rfl
@[simp] theorem State.closeChain_drawNo (n : Nat) : (s.closeChain n).drawNo = s.drawNo := rfl

@[simp] theorem State.overflow_cfg : s.overflow.cfg = s.cfg := rfl
@[simp] theorem State.overflow_port : s.overflow.port = s.port := rfl
@[simp] theorem State.overflow_halt : s.overflow.halt = s.halt := rfl
@[simp] theorem State.overflow_irq : s.overflow.irq = s.irq := rfl
@[simp] theorem State.overflow_args : s.overflow.args = s.args := rfl
@[simp] theorem State.overflow_tx : s.overflow.tx = s.tx := rfl
@[simp] theorem State.overflow_txd : s.overflow.txd = s.txd := rfl
@[simp] theorem State.overflow_rx : s.overflow.rx = s.rx := rfl
@[simp] theorem State.overflow_rxd : s.overflow.rxd = s.rxd := rfl
@[simp] theorem State.overflow_ctr : s.overflow.ctr = { s.ctr with rxOvf := s.ctr.rxOvf + 1#32 } := rfl
@[simp] theorem State.overflow_mc : s.overflow.mc = s.mc := rfl
@[simp] theorem State.overflow_buf : s.overflow.buf = s.buf := rfl
@[simp] theorem State.overflow_env : s.overflow.env = s.env := rfl
@[simp] theorem State.overflow_service : s.overflow.service = s.service := rfl
@[simp] theorem State.overflow_params : s.overflow.params = s.params := rfl
@[simp] theorem State.overflow_script : s.overflow.script = s.script := rfl
@[simp] theorem State.overflow_turnNo : s.overflow.turnNo = s.turnNo := rfl
@[simp] theorem State.overflow_draws : s.overflow.draws = s.draws := rfl
@[simp] theorem State.overflow_drawNo : s.overflow.drawNo = s.drawNo := rfl

@[simp] theorem State.irqCapture_cfg : s.irqCapture.cfg = s.cfg := rfl
@[simp] theorem State.irqCapture_port : s.irqCapture.port = s.port := rfl
@[simp] theorem State.irqCapture_halt : s.irqCapture.halt = s.halt := rfl
@[simp] theorem State.irqCapture_irq : s.irqCapture.irq = { s.irq with isr := s.irq.isr &&& ~~~s.irq.isr, latch := some s.irq.isr, intResult := 0#8 } := rfl
@[simp] theorem State.irqCapture_args : s.irqCapture.args = s.args := rfl
@[simp] theorem State.irqCapture_tx : s.irqCapture.tx = s.tx := rfl
@[simp] theorem State.irqCapture_txd : s.irqCapture.txd = s.txd := rfl
@[simp] theorem State.irqCapture_rx : s.irqCapture.rx = s.rx := rfl
@[simp] theorem State.irqCapture_rxd : s.irqCapture.rxd = s.rxd := rfl
@[simp] theorem State.irqCapture_ctr : s.irqCapture.ctr = s.ctr := rfl
@[simp] theorem State.irqCapture_mc : s.irqCapture.mc = s.mc := rfl
@[simp] theorem State.irqCapture_buf : s.irqCapture.buf = s.buf := rfl
@[simp] theorem State.irqCapture_env : s.irqCapture.env = s.env := rfl
@[simp] theorem State.irqCapture_service : s.irqCapture.service = s.service := rfl
@[simp] theorem State.irqCapture_params : s.irqCapture.params = s.params := rfl
@[simp] theorem State.irqCapture_script : s.irqCapture.script = s.script := rfl
@[simp] theorem State.irqCapture_turnNo : s.irqCapture.turnNo = s.turnNo := rfl
@[simp] theorem State.irqCapture_draws : s.irqCapture.draws = s.draws := rfl
@[simp] theorem State.irqCapture_drawNo : s.irqCapture.drawNo = s.drawNo := rfl

@[simp] theorem State.irqMerge_cfg (c : BitVec 2) : (s.irqMerge c).cfg = s.cfg := rfl
@[simp] theorem State.irqMerge_port (c : BitVec 2) : (s.irqMerge c).port = s.port := rfl
@[simp] theorem State.irqMerge_halt (c : BitVec 2) : (s.irqMerge c).halt = s.halt := rfl
@[simp] theorem State.irqMerge_irq (c : BitVec 2) : (s.irqMerge c).irq = { s.irq with evt := s.irq.evt ||| eventBits c, sig := true, intResult := 0#8, latch := none } := rfl
@[simp] theorem State.irqMerge_args (c : BitVec 2) : (s.irqMerge c).args = s.args := rfl
@[simp] theorem State.irqMerge_tx (c : BitVec 2) : (s.irqMerge c).tx = s.tx := rfl
@[simp] theorem State.irqMerge_txd (c : BitVec 2) : (s.irqMerge c).txd = s.txd := rfl
@[simp] theorem State.irqMerge_rx (c : BitVec 2) : (s.irqMerge c).rx = s.rx := rfl
@[simp] theorem State.irqMerge_rxd (c : BitVec 2) : (s.irqMerge c).rxd = s.rxd := rfl
@[simp] theorem State.irqMerge_ctr (c : BitVec 2) : (s.irqMerge c).ctr = s.ctr := rfl
@[simp] theorem State.irqMerge_mc (c : BitVec 2) : (s.irqMerge c).mc = s.mc := rfl
@[simp] theorem State.irqMerge_buf (c : BitVec 2) : (s.irqMerge c).buf = s.buf := rfl
@[simp] theorem State.irqMerge_env (c : BitVec 2) : (s.irqMerge c).env = s.env := rfl
@[simp] theorem State.irqMerge_service (c : BitVec 2) : (s.irqMerge c).service = s.service := rfl
@[simp] theorem State.irqMerge_params (c : BitVec 2) : (s.irqMerge c).params = s.params := rfl
@[simp] theorem State.irqMerge_script (c : BitVec 2) : (s.irqMerge c).script = s.script := rfl
@[simp] theorem State.irqMerge_turnNo (c : BitVec 2) : (s.irqMerge c).turnNo = s.turnNo := rfl
@[simp] theorem State.irqMerge_draws (c : BitVec 2) : (s.irqMerge c).draws = s.draws := rfl
@[simp] theorem State.irqMerge_drawNo (c : BitVec 2) : (s.irqMerge c).drawNo = s.drawNo := rfl

@[simp] theorem State.enqueueInt_cfg (w : Word) : (s.enqueueInt w).cfg = s.cfg := rfl
@[simp] theorem State.enqueueInt_port (w : Word) : (s.enqueueInt w).port = s.port := rfl
@[simp] theorem State.enqueueInt_halt (w : Word) : (s.enqueueInt w).halt = s.halt := rfl
@[simp] theorem State.enqueueInt_irq (w : Word) : (s.enqueueInt w).irq = { s.irq with queue := s.irq.queue ++ [w] } := rfl
@[simp] theorem State.enqueueInt_args (w : Word) : (s.enqueueInt w).args = s.args := rfl
@[simp] theorem State.enqueueInt_tx (w : Word) : (s.enqueueInt w).tx = s.tx := rfl
@[simp] theorem State.enqueueInt_txd (w : Word) : (s.enqueueInt w).txd = s.txd := rfl
@[simp] theorem State.enqueueInt_rx (w : Word) : (s.enqueueInt w).rx = s.rx := rfl
@[simp] theorem State.enqueueInt_rxd (w : Word) : (s.enqueueInt w).rxd = s.rxd := rfl
@[simp] theorem State.enqueueInt_ctr (w : Word) : (s.enqueueInt w).ctr = s.ctr := rfl
@[simp] theorem State.enqueueInt_mc (w : Word) : (s.enqueueInt w).mc = s.mc := rfl
@[simp] theorem State.enqueueInt_buf (w : Word) : (s.enqueueInt w).buf = s.buf := rfl
@[simp] theorem State.enqueueInt_env (w : Word) : (s.enqueueInt w).env = s.env := rfl
@[simp] theorem State.enqueueInt_service (w : Word) : (s.enqueueInt w).service = s.service := rfl
@[simp] theorem State.enqueueInt_params (w : Word) : (s.enqueueInt w).params = s.params := rfl
@[simp] theorem State.enqueueInt_script (w : Word) : (s.enqueueInt w).script = s.script := rfl
@[simp] theorem State.enqueueInt_turnNo (w : Word) : (s.enqueueInt w).turnNo = s.turnNo := rfl
@[simp] theorem State.enqueueInt_draws (w : Word) : (s.enqueueInt w).draws = s.draws := rfl
@[simp] theorem State.enqueueInt_drawNo (w : Word) : (s.enqueueInt w).drawNo = s.drawNo := rfl

@[simp] theorem State.intIllegal_cfg : s.intIllegal.cfg = s.cfg := rfl
@[simp] theorem State.intIllegal_port : s.intIllegal.port = s.port := rfl
@[simp] theorem State.intIllegal_halt : s.intIllegal.halt = s.halt := rfl
@[simp] theorem State.intIllegal_irq : s.intIllegal.irq = { s.irq with intResult := 8#8 } := rfl
@[simp] theorem State.intIllegal_args : s.intIllegal.args = s.args := rfl
@[simp] theorem State.intIllegal_tx : s.intIllegal.tx = s.tx := rfl
@[simp] theorem State.intIllegal_txd : s.intIllegal.txd = s.txd := rfl
@[simp] theorem State.intIllegal_rx : s.intIllegal.rx = s.rx := rfl
@[simp] theorem State.intIllegal_rxd : s.intIllegal.rxd = s.rxd := rfl
@[simp] theorem State.intIllegal_ctr : s.intIllegal.ctr = s.ctr := rfl
@[simp] theorem State.intIllegal_mc : s.intIllegal.mc = s.mc := rfl
@[simp] theorem State.intIllegal_buf : s.intIllegal.buf = s.buf := rfl
@[simp] theorem State.intIllegal_env : s.intIllegal.env = s.env := rfl
@[simp] theorem State.intIllegal_service : s.intIllegal.service = s.service := rfl
@[simp] theorem State.intIllegal_params : s.intIllegal.params = s.params := rfl
@[simp] theorem State.intIllegal_script : s.intIllegal.script = s.script := rfl
@[simp] theorem State.intIllegal_turnNo : s.intIllegal.turnNo = s.turnNo := rfl
@[simp] theorem State.intIllegal_draws : s.intIllegal.draws = s.draws := rfl
@[simp] theorem State.intIllegal_drawNo : s.intIllegal.drawNo = s.drawNo := rfl

end Sys2Proof.Machine
end

