-- ==== Sys2Proof/Laws/Store.lean ====
section
/-! SUPPORT. The laws of sparse stores and handle sets: a read after a write, the other keys, and the canonical form. -/

namespace Sys2Proof.Machine

theorem Store.get?_put_self {α : Type} (m : List (Nat × α)) (a : Nat) (v : α) :
    Store.get? (Store.put m a v) a = some v := by
  induction m with
  | nil => simp [Store.put, Store.get?]
  | cons e m ih =>
    obtain ⟨k, w⟩ := e
    by_cases h1 : a < k
    · simp [Store.put, Store.get?, h1]
    · by_cases h2 : a = k
      · simp [Store.put, Store.get?, h2]
      · simp [Store.put, Store.get?, h1, h2, ih]

theorem Store.get?_put_ne {α : Type} (m : List (Nat × α)) {a b : Nat} (v : α) (h : b ≠ a) :
    Store.get? (Store.put m a v) b = Store.get? m b := by
  induction m with
  | nil => simp [Store.put, Store.get?, h]
  | cons e m ih =>
    obtain ⟨k, w⟩ := e
    by_cases h1 : a < k
    · simp [Store.put, Store.get?, h1, h]
    · by_cases h2 : a = k
      · subst h2
        simp [Store.put, Store.get?, h]
      · simp [Store.put, Store.get?, h1, h2, ih]

theorem Store.get?_del_ne {α : Type} (m : List (Nat × α)) {a b : Nat} (h : b ≠ a) :
    Store.get? (Store.del m a) b = Store.get? m b := by
  induction m with
  | nil => rfl
  | cons e m ih =>
    obtain ⟨k, w⟩ := e
    by_cases h2 : a = k
    · subst h2
      simp [Store.del, Store.get?, h]
    · simp [Store.del, Store.get?, h2, ih]

theorem Store.mem_of_get? {α : Type} {m : List (Nat × α)} {a : Nat} {v : α} (h : Store.get? m a = some v) :
    (a, v) ∈ m := by
  induction m with
  | nil => exact absurd h (by simp [Store.get?])
  | cons e m ih =>
    obtain ⟨k, w⟩ := e
    by_cases h2 : a = k
    · subst h2
      have : w = v := by simpa [Store.get?] using h
      simp [this]
    · exact List.mem_cons_of_mem _ (ih (by simpa [Store.get?, h2] using h))

theorem Store.get?_of_not_mem {α : Type} {m : List (Nat × α)} {a : Nat} (h : a ∉ m.map Prod.fst) :
    Store.get? m a = none := by
  induction m with
  | nil => rfl
  | cons e m ih =>
    obtain ⟨k, w⟩ := e
    simp only [List.map_cons, List.mem_cons, not_or] at h
    simp [Store.get?, h.1, ih h.2]

theorem Store.get?_del_self {α : Type} {m : List (Nat × α)} (hm : Store.wf m) (a : Nat) :
    Store.get? (Store.del m a) a = none := by
  induction m with
  | nil => rfl
  | cons e m ih =>
    obtain ⟨k, w⟩ := e
    have hk := List.pairwise_cons.mp hm
    by_cases h2 : a = k
    · subst h2
      simp only [Store.del, if_true]
      refine Store.get?_of_not_mem fun hmem => ?_
      exact absurd (hk.1 _ hmem) (Nat.lt_irrefl _)
    · simp [Store.del, Store.get?, h2, ih hk.2]

/-- The keys after a `put`: the key put, and the keys there were. -/
theorem Store.mem_keys_put {α : Type} (m : List (Nat × α)) (a : Nat) (v : α) (x : Nat) :
    x ∈ (Store.put m a v).map Prod.fst ↔ x = a ∨ x ∈ m.map Prod.fst := by
  induction m with
  | nil => simp [Store.put]
  | cons e m ih =>
    obtain ⟨k, w⟩ := e
    by_cases h1 : a < k
    · simp [Store.put, h1]
    · by_cases h2 : a = k
      · subst h2
        simp [Store.put]
      · simp only [Store.put, h1, h2, if_false, List.map_cons, List.mem_cons, ih]
        tauto

theorem Store.put_wf {α : Type} {m : List (Nat × α)} (hm : Store.wf m) (a : Nat) (v : α) :
    Store.wf (Store.put m a v) := by
  induction m with
  | nil => simp [Store.put, Store.wf]
  | cons e m ih =>
    obtain ⟨k, w⟩ := e
    have hk := List.pairwise_cons.mp hm
    by_cases h1 : a < k
    · simp only [Store.put, h1, if_true]
      refine List.pairwise_cons.mpr ⟨fun x hx => ?_, hm⟩
      rcases List.mem_cons.mp hx with rfl | hx
      · exact h1
      · exact Nat.lt_trans h1 (hk.1 x hx)
    · by_cases h2 : a = k
      · subst h2
        simp only [Store.put, Nat.lt_irrefl, if_false, if_true]
        exact hm
      · simp only [Store.put, h1, h2, if_false]
        refine List.pairwise_cons.mpr ⟨fun x hx => ?_, ih hk.2⟩
        rcases (Store.mem_keys_put m a v x).mp hx with rfl | hx
        · show k < x
          omega
        · exact hk.1 x hx

/-- `del` keeps a part of the list, in order. -/
theorem Store.del_sublist {α : Type} (m : List (Nat × α)) (a : Nat) : (Store.del m a).Sublist m := by
  induction m with
  | nil => exact List.Sublist.slnil
  | cons e m ih =>
    obtain ⟨k, w⟩ := e
    by_cases h : a = k
    · simp [Store.del, h]
    · simpa [Store.del, h] using ih

theorem Store.del_wf {α : Type} {m : List (Nat × α)} (hm : Store.wf m) (a : Nat) : Store.wf (Store.del m a) :=
  List.Pairwise.sublist ((Store.del_sublist m a).map _) hm

/-- The entries after a `put`: the new one, and old ones. -/
theorem Store.mem_put {α : Type} {m : List (Nat × α)} {a : Nat} {v : α} {e : Nat × α}
    (h : e ∈ Store.put m a v) : e = (a, v) ∨ e ∈ m := by
  induction m with
  | nil => simpa [Store.put] using h
  | cons f m ih =>
    obtain ⟨k, w⟩ := f
    by_cases h1 : a < k
    · simpa [Store.put, h1] using h
    · by_cases h2 : a = k
      · subst h2
        simp only [Store.put, Nat.lt_irrefl, if_false, if_true, List.mem_cons] at h
        rcases h with h | h
        · exact .inl h
        · exact .inr (List.mem_cons_of_mem _ h)
      · simp only [Store.put, h1, h2, if_false, List.mem_cons] at h
        rcases h with h | h
        · exact .inr (h ▸ List.mem_cons_self)
        · rcases ih h with h | h
          · exact .inl h
          · exact .inr (List.mem_cons_of_mem _ h)

/-! ### Sets of handles -/

@[simp] theorem HandleSet.mem_insert (l : List Handle) (h x : Handle) :
    x ∈ HandleSet.insert l h ↔ x = h ∨ x ∈ l := by
  induction l with
  | nil => simp [HandleSet.insert]
  | cons y l ih =>
    by_cases h1 : h.toNat < y.toNat
    · simp [HandleSet.insert, h1]
    · by_cases h2 : h = y
      · subst h2
        simp [HandleSet.insert]
      · simp only [HandleSet.insert, h1, h2, if_false, List.mem_cons, ih]
        tauto

theorem HandleSet.remove_eq_erase (l : List Handle) (h : Handle) : HandleSet.remove l h = l.erase h := by
  induction l with
  | nil => rfl
  | cons y l ih =>
    by_cases h2 : h = y
    · simp [HandleSet.remove, h2]
    · simp [HandleSet.remove, h2, ih, List.erase_cons_tail, beq_eq_false_iff_ne.mpr (Ne.symm h2)]

theorem HandleSet.nodup_of_wf {l : List Handle} (hl : HandleSet.wf l) : l.Nodup := by
  have h : (l.map BitVec.toNat).Nodup := hl.1.imp fun h => Nat.ne_of_lt h
  exact List.Nodup.of_map _ h

/-- A member of a set of handles is a real handle (R9). -/
theorem HandleSet.ne_zero {l : List Handle} (hl : HandleSet.wf l) {h : Handle} (hh : h ∈ l) : h ≠ 0#32 :=
  fun h0 => hl.2 (h0 ▸ hh)

/-- Two sets of handles in canonical form with the same members are equal. -/
theorem HandleSet.ext {l m : List Handle} (hl : HandleSet.wf l) (hm : HandleSet.wf m) (h : ∀ x, x ∈ l ↔ x ∈ m) :
    l = m := by
  have sorted : ∀ {k : List Handle}, HandleSet.wf k → k.Pairwise (fun a b => a.toNat < b.toNat) :=
    fun hk => List.pairwise_map.mp hk.1
  have hp : l.Perm m :=
    (List.perm_ext_iff_of_nodup (HandleSet.nodup_of_wf hl) (HandleSet.nodup_of_wf hm)).mpr h
  exact hp.eq_of_pairwise (fun a b _ _ h1 h2 => absurd h1 (Nat.lt_asymm h2)) (sorted hl) (sorted hm)

theorem HandleSet.mem_remove {l : List Handle} (hl : HandleSet.wf l) (h x : Handle) :
    x ∈ HandleSet.remove l h ↔ x ≠ h ∧ x ∈ l := by
  rw [HandleSet.remove_eq_erase]
  exact (HandleSet.nodup_of_wf hl).mem_erase_iff

/-- Adding a handle that is not there yet puts it in front, up to order. -/
theorem HandleSet.insert_perm {l : List Handle} {h : Handle} (hh : h ∉ l) : (HandleSet.insert l h).Perm (h :: l) := by
  induction l with
  | nil => exact List.Perm.refl _
  | cons y l ih =>
    obtain ⟨hy, hl⟩ := not_or.mp (mt List.mem_cons.mpr hh)
    by_cases h1 : h.toNat < y.toNat
    · simp [HandleSet.insert, h1]
    · simp only [HandleSet.insert, h1, hy, if_false]
      exact ((ih hl).cons y).trans (List.Perm.swap h y l)

theorem HandleSet.insert_rising {l : List Handle} (hs : HandleSet.rising l) (h : Handle) :
    HandleSet.rising (HandleSet.insert l h) := by
  induction l with
  | nil => simp [HandleSet.insert, HandleSet.rising]
  | cons y l ih =>
    have hy := List.pairwise_cons.mp hs
    by_cases h1 : h.toNat < y.toNat
    · simp only [HandleSet.insert, h1, if_true]
      refine List.pairwise_cons.mpr ⟨fun x hx => ?_, hs⟩
      rcases List.mem_cons.mp hx with rfl | hx
      · exact h1
      · exact Nat.lt_trans h1 (hy.1 x hx)
    · by_cases h2 : h = y
      · simpa [HandleSet.insert, h1, h2] using hs
      · simp only [HandleSet.insert, h1, h2, if_false]
        refine List.pairwise_cons.mpr ⟨fun x hx => ?_, ih hy.2⟩
        obtain ⟨z, hz, rfl⟩ := List.mem_map.mp hx
        rcases (HandleSet.mem_insert l h z).mp hz with rfl | hz
        · have : z.toNat ≠ y.toNat := fun e => h2 (BitVec.eq_of_toNat_eq e)
          omega
        · exact hy.1 _ (List.mem_map_of_mem hz)

theorem HandleSet.insert_wf {l : List Handle} (hl : HandleSet.wf l) {h : Handle} (h0 : h ≠ 0#32) :
    HandleSet.wf (HandleSet.insert l h) := by
  refine ⟨HandleSet.insert_rising hl.1 h, fun hx => ?_⟩
  rcases (HandleSet.mem_insert l h _).mp hx with hx | hx
  · exact h0 hx.symm
  · exact hl.2 hx

@[simp] theorem HandleSet.mem_insertAll (hs : List Handle) (x : Handle) :
    ∀ l : List Handle, x ∈ HandleSet.insertAll l hs ↔ x ∈ l ∨ x ∈ hs := by
  induction hs with
  | nil => simp [HandleSet.insertAll]
  | cons h hs ih =>
    intro l
    have := ih (HandleSet.insert l h)
    simp only [HandleSet.insertAll, List.foldl_cons] at this ⊢
    simp only [this, HandleSet.mem_insert, List.mem_cons]
    tauto

theorem HandleSet.insertAll_rising (hs : List Handle) :
    ∀ {l : List Handle}, HandleSet.rising l → HandleSet.rising (HandleSet.insertAll l hs) := by
  induction hs with
  | nil => exact fun hl => hl
  | cons h hs ih => exact fun hl => ih (HandleSet.insert_rising hl h)

/-- Adding handles that are not there yet appends them, up to order. -/
theorem HandleSet.insertAll_perm (hs : List Handle) :
    ∀ {l : List Handle}, (l ++ hs).Nodup → (HandleSet.insertAll l hs).Perm (l ++ hs) := by
  induction hs with
  | nil => intro l _; simp [HandleSet.insertAll]
  | cons h hs ih =>
    intro l hn
    have hmem : h ∉ l := fun hh =>
      (List.nodup_append.mp hn).2.2 h hh h List.mem_cons_self rfl
    have hp : (HandleSet.insert l h).Perm (h :: l) := HandleSet.insert_perm hmem
    have hn' : (HandleSet.insert l h ++ hs).Nodup :=
      ((hp.append_right hs).trans (List.perm_middle.symm)).nodup_iff.mpr hn
    exact (ih hn').trans ((hp.append_right hs).trans List.perm_middle.symm)

theorem HandleSet.remove_wf {l : List Handle} (hl : HandleSet.wf l) (h : Handle) :
    HandleSet.wf (HandleSet.remove l h) := by
  rw [HandleSet.remove_eq_erase]
  exact ⟨List.Pairwise.sublist (List.erase_sublist.map _) hl.1, fun hx => hl.2 (List.mem_of_mem_erase hx)⟩

theorem HandleSet.ofList_wf (l : List Handle) : HandleSet.wf (HandleSet.ofList l) := by
  induction l with
  | nil => exact ⟨List.Pairwise.nil, List.not_mem_nil⟩
  | cons h l ih =>
    by_cases h0 : h = 0#32
    · simpa [HandleSet.ofList, h0] using ih
    · simpa [HandleSet.ofList, h0] using HandleSet.insert_wf ih h0

end Sys2Proof.Machine
end

