-- ==== Sys2Proof/Laws/Memory.lean ====
section
/-! SUPPORT. The laws of buffer memory: every operation keeps the canonical form, a read after a write, and the bytes a
write leaves alone. -/

namespace Sys2Proof.Machine

theorem Memory.writeBytes_wf {m : List Host.Cell} (hm : Memory.wf m) (h : Handle) (j : Nat) (bs : List Byte) :
    Memory.wf (Memory.writeBytes m h j bs) := by
  induction bs generalizing m j with
  | nil => exact hm
  | cons b bs ih =>
    unfold Memory.writeBytes
    split
    · exact hm
    · exact ih (Store.put_wf hm _ _) _

/-- A write leaves every byte outside the written ones as it was. -/
theorem Memory.read_writeBytes_other (m : List Host.Cell) (h : Handle) (j : Nat) (bs : List Byte) (a : Nat)
    (ha : ∀ i < bs.length, a ≠ bufKey h (j + i)) :
    Memory.read (Memory.writeBytes m h j bs) a = Memory.read m a := by
  induction bs generalizing m j with
  | nil => rfl
  | cons b bs ih =>
    unfold Memory.writeBytes
    split
    · rfl
    · rw [ih]
      · have h0 : a ≠ bufKey h j := ha 0 (by simp)
        simp only [Memory.read, Store.get?_put_ne m b h0]
      · intro i hi
        have := ha (i + 1) (by simpa using hi)
        rwa [← Nat.add_assoc, Nat.add_right_comm] at this

/-- A read of a written byte gives the byte written. -/
theorem Memory.read_writeBytes_same (m : List Host.Cell) {h : Handle} (h0 : h ≠ 0#32) (j : Nat) (bs : List Byte)
    (i : Nat) (hi : i < bs.length) :
    Memory.read (Memory.writeBytes m h j bs) (bufKey h (j + i)) = bs[i] := by
  induction bs generalizing m j i with
  | nil => exact absurd hi (Nat.not_lt_zero _)
  | cons b bs ih =>
    simp only [Memory.writeBytes, h0, if_false]
    cases i with
    | zero =>
      rw [Memory.read_writeBytes_other]
      · simp [Memory.read, Store.get?_put_self]
      · intro i _
        simp only [bufKey]
        omega
    | succ i =>
      have := ih (Store.put m (bufKey h j) b) (j + 1) i (by simpa using hi)
      rw [Nat.add_right_comm, Nat.add_assoc] at this
      simpa using this

/-- A read of the bytes just written gives them. -/
theorem Memory.readBytes_writeBytes (m : List Host.Cell) {h : Handle} (h0 : h ≠ 0#32) (j : Nat) (bs : List Byte) :
    Memory.readBytes (Memory.writeBytes m h j bs) h j bs.length = bs := by
  refine List.ext_getElem (by simp [Memory.readBytes]) fun i hi hi' => ?_
  simp only [Memory.readBytes, List.getElem_map, List.getElem_range]
  exact Memory.read_writeBytes_same m h0 j bs i hi'

/-- A span write keeps the canonical form, and no span of 0 is listed. -/
theorem State.setSpan_canonical {s : State} (hw : Store.wf s.buf.span) (h0 : ∀ e ∈ s.buf.span, e.2 ≠ 0#16)
    (h : Handle) (v : BitVec 16) :
    Store.wf (s.setSpan h v).buf.span ∧ ∀ e ∈ (s.setSpan h v).buf.span, e.2 ≠ 0#16 := by
  unfold State.setSpan
  by_cases hv : v = 0#16
  · simp only [hv, if_true]
    exact ⟨Store.del_wf hw _, fun e he => h0 e ((Store.del_sublist _ _).subset he)⟩
  · simp only [hv, if_false]
    refine ⟨Store.put_wf hw _ _, fun e he => ?_⟩
    rcases Store.mem_put he with rfl | he
    · exact hv
    · exact h0 e he

theorem State.span_setSpan_self {s : State} (hw : Store.wf s.buf.span) (h : Handle) (v : BitVec 16) :
    (s.setSpan h v).span h = v := by
  unfold State.setSpan State.span
  by_cases hv : v = 0#16
  · simp [hv, Store.get?_del_self hw]
  · simp [hv, Store.get?_put_self]

theorem State.span_setSpan_ne (s : State) {h g : Handle} (hg : g ≠ h) (v : BitVec 16) :
    (s.setSpan h v).span g = s.span g := by
  have hn : g.toNat ≠ h.toNat := fun e => hg (BitVec.eq_of_toNat_eq e)
  unfold State.setSpan State.span
  by_cases hv : v = 0#16
  · simp [hv, Store.get?_del_ne _ hn]
  · simp [hv, Store.get?_put_ne _ _ hn]

end Sys2Proof.Machine
end

