-- ==== Sys2Proof/Laws/Ops.lean ====
section
/-! SUPPORT. One lemma per shared operation that says everything the operation can do: draws, Buffer Provider calls, span
writes over a list, and the acceptance of a worker command. -/

namespace Sys2Proof.Machine

/-- A draw changes only the model's own fields. -/
theorem State.draw_spec (s : State) : ∃ ds n, s.draw.2 = { s with draws := ds, drawNo := n } := by
  unfold State.draw
  split
  · exact ⟨_, s.drawNo, rfl⟩
  · exact ⟨s.draws, _, rfl⟩

/-- `Allocate()` on an empty free set answers `OutOfBuffers` and changes only the history of calls (R31). -/
theorem State.allocate_empty {s : State} (h : s.env.pool = []) :
    s.allocate = (none, { s with env.provider := s.env.provider ++ [.allocate none] }) := by
  simp [State.allocate, h]

/-- `Allocate()` on a free set that is not empty takes one of its handles (R31). -/
theorem State.allocate_some {s : State} (h : s.env.pool ≠ []) :
    ∃ g ∈ s.env.pool, ∃ ds n, s.allocate = (some g, { s with
      draws := ds, drawNo := n,
      env := { s.env with
        pool := HandleSet.remove s.env.pool g, provider := s.env.provider ++ [.allocate (some g)] } }) := by
  obtain ⟨x, l, hp⟩ := List.exists_cons_of_ne_nil h
  obtain ⟨ds, n, hd⟩ := s.draw_spec
  refine ⟨(x :: l).getD (s.draw.1 % (x :: l).length) x, ?_, ds, n, ?_⟩
  · have hlt : s.draw.1 % (x :: l).length < (x :: l).length := Nat.mod_lt _ (by simp)
    rw [hp, List.getD_eq_getElem _ _ hlt]
    exact List.getElem_mem hlt
  · simp only [State.allocate, hp, hd]

/-- Up to `k` allocations: what is obtained comes out of the free set, each handle once, as many as there are, and only
the free set, the history of calls and the model's own draws change (R31, 42_receive.md R284). -/
theorem State.allocateUpTo_spec (k : Nat) : ∀ {s : State}, HandleSet.wf s.env.pool →
    ∃ got pool' calls ds n,
      State.allocateUpTo k s = (got, { s with
        draws := ds, drawNo := n, env := { s.env with pool := pool', provider := s.env.provider ++ calls } }) ∧
      got.length = min k s.env.pool.length ∧ got.Nodup ∧ (∀ h ∈ got, h ∈ s.env.pool) ∧
      HandleSet.wf pool' ∧ (∀ h, h ∈ pool' ↔ h ∈ s.env.pool ∧ h ∉ got) := by
  induction k with
  | zero =>
    intro s hw
    exact ⟨[], s.env.pool, [], s.draws, s.drawNo, by simp [State.allocateUpTo], by simp, List.nodup_nil,
      fun h hh => absurd hh List.not_mem_nil, hw, fun h => by simp⟩
  | succ k ih =>
    intro s hw
    by_cases hp : s.env.pool = []
    · refine ⟨[], [], [.allocate none], s.draws, s.drawNo, ?_, by simp [hp], List.nodup_nil,
        fun h hh => absurd hh List.not_mem_nil, hp ▸ hw, fun h => by simp [hp]⟩
      rw [State.allocateUpTo, State.allocate_empty hp]
      simp [hp]
    · obtain ⟨g, hg, ds, n, ha⟩ := State.allocate_some hp
      have hw' : HandleSet.wf (HandleSet.remove s.env.pool g) := HandleSet.remove_wf hw g
      obtain ⟨got, pool', calls, ds', n', he, hl, hn, hm, hwf, hiff⟩ := ih (s := { s with
        draws := ds, drawNo := n,
        env := { s.env with
          pool := HandleSet.remove s.env.pool g, provider := s.env.provider ++ [.allocate (some g)] } }) hw'
      simp only at hl hm hiff
      have hmem := HandleSet.mem_remove hw g
      have hlen : (HandleSet.remove s.env.pool g).length = s.env.pool.length - 1 := by
        rw [HandleSet.remove_eq_erase, List.length_erase_of_mem hg]
      have hpos : 0 < s.env.pool.length := List.length_pos_of_mem hg
      refine ⟨g :: got, pool', .allocate (some g) :: calls, ds', n', ?_, ?_, ?_, ?_, hwf, ?_⟩
      · rw [State.allocateUpTo, ha]
        simp only
        rw [he]
        simp
      · simp only [List.length_cons, hl, hlen]
        omega
      · exact List.nodup_cons.mpr ⟨fun h => ((hmem g).mp (hm g h)).1 rfl, hn⟩
      · intro h hh
        rcases List.mem_cons.mp hh with rfl | hh
        · exact hg
        · exact ((hmem h).mp (hm h hh)).2
      · intro h
        rw [hiff h, hmem h]
        simp only [List.mem_cons, not_or]
        tauto

/-- Releasing a list of handles changes only the free set and the history of calls (R31). -/
theorem State.releaseAll_spec (hs : List Handle) : ∀ {s : State}, HandleSet.wf s.env.pool → (∀ h ∈ hs, h ≠ 0#32) →
    ∃ pool', s.releaseAll hs = { s with
        env := { s.env with pool := pool', provider := s.env.provider ++ hs.map .release } } ∧
      HandleSet.wf pool' ∧ (∀ h, h ∈ pool' ↔ h ∈ s.env.pool ∨ h ∈ hs) := by
  induction hs with
  | nil =>
    intro s hw _
    exact ⟨s.env.pool, by simp [State.releaseAll], hw, fun h => by simp⟩
  | cons g hs ih =>
    intro s hw h0
    have hg := h0 g List.mem_cons_self
    obtain ⟨pool', he, hwf, hiff⟩ := ih (s := s.releaseHandle g) (HandleSet.insert_wf hw hg)
      (fun h hh => h0 h (List.mem_cons_of_mem _ hh))
    refine ⟨pool', ?_, hwf, fun h => ?_⟩
    · have : s.releaseAll (g :: hs) = (s.releaseHandle g).releaseAll hs := rfl
      rw [this, he]
      simp [State.releaseHandle]
    · rw [hiff h]
      simp only [State.releaseHandle_env, HandleSet.mem_insert, List.mem_cons]
      tauto

/-- Span writes over a list change only the spans. -/
theorem State.setSpans_spec (hs : List Handle) (v : BitVec 16) :
    ∀ s : State, ∃ sp, s.setSpans hs v = { s with buf := { s.buf with span := sp } } := by
  induction hs with
  | nil => exact fun s => ⟨s.buf.span, rfl⟩
  | cons h hs ih =>
    intro s
    obtain ⟨sp, he⟩ := ih (s.setSpan h v)
    exact ⟨sp, he⟩

theorem State.setSpans_canonical (hs : List Handle) (v : BitVec 16) : ∀ {s : State}, Store.wf s.buf.span →
    (∀ e ∈ s.buf.span, e.2 ≠ 0#16) →
    Store.wf (s.setSpans hs v).buf.span ∧ ∀ e ∈ (s.setSpans hs v).buf.span, e.2 ≠ 0#16 := by
  induction hs with
  | nil => exact fun hw h0 => ⟨hw, h0⟩
  | cons h hs ih =>
    intro s hw h0
    obtain ⟨hw', h0'⟩ := State.setSpan_canonical hw h0 h v
    exact ih hw' h0'

/-- What the spans are after a span write over a list. -/
theorem State.span_setSpans (hs : List Handle) (v : BitVec 16) : ∀ {s : State}, Store.wf s.buf.span →
    (∀ e ∈ s.buf.span, e.2 ≠ 0#16) → ∀ g, (s.setSpans hs v).span g = if g ∈ hs then v else s.span g := by
  induction hs with
  | nil =>
    intro s _ _ g
    simp [State.setSpans]
  | cons h hs ih =>
    intro s hw h0 g
    obtain ⟨hw', h0'⟩ := State.setSpan_canonical hw h0 h v
    have he : (s.setSpans (h :: hs) v).span g = ((s.setSpan h v).setSpans hs v).span g := rfl
    rw [he, ih hw' h0' g]
    by_cases hg : g = h
    · subst hg
      simp [State.span_setSpan_self hw]
    · simp [hg, State.span_setSpan_ne s hg]

/-- A worker command runs when the block is not halted and no other command runs. -/
theorem State.issue_run {s : State} (hh : s.halted = false) (hb : s.busy = false) (cmd : State → State) :
    s.issue cmd = cmd s := by
  simp [State.issue, hh, hb]

/-- A worker command is ignored while the block is halted or busy (R52, R410). -/
theorem State.issue_ignored {s : State} (h : s.halted = true ∨ s.busy = true) (cmd : State → State) :
    s.issue cmd = s := by
  rcases h with h | h <;> simp [State.issue, h]

theorem State.issueConfigured_run {s : State} (hh : s.halted = false) (hb : s.busy = false)
    (hc : s.cfg.configured = true) (cmd : State → State) : s.issueConfigured cmd = cmd s := by
  simp [State.issueConfigured, State.issue_run hh hb, hc]

theorem State.issueConfigured_unconfigured {s : State} (hh : s.halted = false) (hb : s.busy = false)
    (hc : s.cfg.configured = false) (cmd : State → State) : s.issueConfigured cmd = s.retErr .notConfigured := by
  simp [State.issueConfigured, State.issue_run hh hb, hc]

/-- What `issue` can answer: the state itself, or the command's. -/
theorem State.issue_cases (s : State) (cmd : State → State) :
    s.issue cmd = s ∨ (s.halted = false ∧ s.busy = false ∧ s.issue cmd = cmd s) := by
  unfold State.issue
  cases s.halted <;> cases s.busy <;> simp

/-- What `issueConfigured` can answer: the state itself, `NotConfigured`, or the command's state. -/
theorem State.issueConfigured_cases (s : State) (cmd : State → State) :
    s.issueConfigured cmd = s ∨
    (s.halted = false ∧ s.busy = false ∧ s.cfg.configured = false ∧
      s.issueConfigured cmd = s.retErr .notConfigured) ∨
    (s.halted = false ∧ s.busy = false ∧ s.cfg.configured = true ∧ s.issueConfigured cmd = cmd s) := by
  rcases hh : s.halted <;> rcases hb : s.busy <;> rcases hc : s.cfg.configured <;>
    simp [State.issueConfigured, State.issue, hh, hb, hc]

end Sys2Proof.Machine
end

