-- ==== Sys2Proof/Laws/Step.lean ====
section
/-! SUPPORT. What a step can do, said once: the turn it takes, and what each turn can answer. Every proof about all steps
goes through these lemmas. -/

namespace Sys2Proof.Machine

/-- Every command answers a next state. -/
theorem exec_next (i : Instr) (s : State) : ∃ t, exec i s = .next t := by
  cases i <;> exact ⟨_, rfl⟩

/-- A step pops a turn of the script, or takes one from the free schedule, and takes that turn (R20). -/
theorem step_cases {s t : State} (h : step s = .next t) :
    (∃ turn rest, s.script = turn :: rest ∧ ({ s with script := rest }).takeTurn turn = .next t) ∨
    (s.script = [] ∧ ({ s with turnNo := s.turnNo + 1 }).takeTurn (Config.turn s.turnNo) = .next t) := by
  unfold step at h
  split at h
  · next turn rest hs => exact .inl ⟨turn, rest, hs, h⟩
  · next hs => exact .inr ⟨hs, h⟩

/-- A property that does not look at the schedule and that every turn keeps is kept by every step. -/
theorem step_keeps {P : State → Prop}
    (hpop : ∀ s script turnNo, P s → P { s with script := script, turnNo := turnNo })
    (hturn : ∀ s turn t, P s → s.takeTurn turn = .next t → P t)
    {s t : State} (hs : P s) (h : step s = .next t) : P t := by
  rcases step_cases h with ⟨turn, rest, -, h⟩ | ⟨-, h⟩
  · exact hturn _ turn t (hpop s rest s.turnNo hs) h
  · exact hturn _ _ t (hpop s s.script (s.turnNo + 1) hs) h

/-- The duties ENV keeps when it writes a TX_SEND word (R30): no handle of an accepted send is free or the Frame Router's. -/
def SendsOwn (s : State) (i : Instr) : Prop :=
  ∀ k, i = .txSend k → s.sendAccepted k = true → ∀ h ∈ s.sendHandles k, h ∉ s.env.pool ∧ h ∉ s.env.router

/-- What one move of ENV can answer. -/
inductive HostAnswer (s : State) : HostMove → State → Prop where
  | command {off width : Nat} {v : Word} (i : Instr) (t : State) (h : exec i s = .next t) (duty : SendsOwn s i) :
      HostAnswer s (.write off width v) t
  | illegal {off width : Nat} {v : Word} : HostAnswer s (.write off width v) (s.issue (·.retErr .illegalCommand))
  | intIllegal {off width : Nat} {v : Word} (h : s.halted = false) (hb : s.interruptBusy = false) :
      HostAnswer s (.write off width v) s.intIllegal
  | intQueued {off width : Nat} {v : Word} (h : s.halted = false) (hb : s.interruptBusy = true) :
      HostAnswer s (.write off width v) (s.enqueueInt v)
  | doorbell {off width : Nat} {v : Word} : HostAnswer s (.write off width v) s.ringDoorbell
  | isr {off width : Nat} {v : Word} : HostAnswer s (.write off width v) (s.writeIsr v)
  | txBase {off width : Nat} {v : Word} (h : s.cfg.configured = false) :
      HostAnswer s (.write off width v) { s with cfg.txRingBase := v }
  | rxBase {off width : Nat} {v : Word} (h : s.cfg.configured = false) :
      HostAnswer s (.write off width v) { s with cfg.rxRingBase := v }
  | arg {off width : Nat} {v : Word} (a : Nat) : HostAnswer s (.write off width v) (s.writeArg a v)
  | ignored {off width : Nat} {v : Word} : HostAnswer s (.write off width v) s
  | read (off width : Nat) : HostAnswer s (.read off width) { s with env.readData := s.readAt off }
  | offer (frame : List Byte) (h0 : 0 < frame.length) (h1 : frame.length ≤ 65535) :
      HostAnswer s (.offer frame) (s.offerFrame frame)
  | giveBack (h : Handle) (own : s.envOwns h = true) (kept : h ∉ s.sending) :
      HostAnswer s (.giveBack h) { s with
        env.pool := HandleSet.insert s.env.pool h
        env.router := HandleSet.remove s.env.router h }
  | take (h : Handle) (free : h ∈ s.env.pool) :
      HostAnswer s (.take h) { s with env.pool := HandleSet.remove s.env.pool h }
  | fill (h : Handle) (start : Nat) (bytes : List Byte) (h0 : h ≠ 0#32) (held : s.blockHolds h = false)
      (fits : start + bytes.length ≤ s.bufferLimit) :
      HostAnswer s (.fill h start bytes) { s with buf.data := Memory.writeBytes s.buf.data h start bytes }
  | readBuffer (h : Handle) (start n : Nat) (h0 : h ≠ 0#32) (other : s.blockOwns h = false)
      (fits : start + n ≤ s.bufferLimit) :
      HostAnswer s (.readBuffer h start n) { s with env.readBytes := Memory.readBytes s.buf.data h start n }

/-- What one turn can answer. -/
inductive TurnAnswer (s : State) : Turn → State → Prop where
  | worker : TurnAnswer s .worker s.workerStep
  | interrupt : TurnAnswer s .interrupt s.interruptStep
  | txd : TurnAnswer s .txd s.txdStep
  | rxd : TurnAnswer s .rxd s.rxdStep
  | host {m : HostMove} {t : State} (h : HostAnswer s m t) : TurnAnswer s (.host m) t

/-- A write to a register. -/
theorem writeReg_answer {s t : State} {r : Reg} {off width : Nat} {v : Word} (h : s.writeReg r v = .next t)
    (duty : r = .cmd → ∀ i, decodeWorker v = .ok i → SendsOwn s i) : HostAnswer s (.write off width v) t := by
  cases r <;> simp only [State.writeReg, Host.Outcome.next.injEq] at h
  case cmd =>
    unfold State.writeCmd at h
    split at h
    · next i hd => exact .command i t h (duty rfl i hd)
    · cases h
      exact .illegal
  case intCmd =>
    unfold State.writeIntCmd at h
    split at h
    · next i hd =>
      refine .command i t h fun k hk => ?_
      subst hk
      unfold decodeInterrupt at hd
      split at hd
      · cases hd
      · split at hd
        · cases hd
        · split at hd <;> cases hd
    · simp only [Host.Outcome.next.injEq] at h
      subst h
      rcases hh : s.halted <;> rcases hb : s.interruptBusy <;> simp only [if_true, if_false, Bool.false_eq_true]
      · exact .intIllegal hh hb
      · exact .intQueued hh hb
      · exact .ignored
      · exact .ignored
  case txDoorbell => exact h ▸ .doorbell
  case isr => exact h ▸ .isr
  case txRingBase =>
    subst h
    split
    · exact .ignored
    · next hc => exact .txBase (by simpa using hc)
  case rxRingBase =>
    subst h
    split
    · exact .ignored
    · next hc => exact .rxBase (by simpa using hc)
  case arg a => exact h ▸ .arg a
  all_goals exact h ▸ .ignored

/-- The offset of an address at or above `BASE` (20_memory.md R101). -/
theorem offsetOf_above (off : Nat) : offsetOf (Config.base + off) = off % 0x2000 := by
  unfold offsetOf
  omega

/-- The offset of an address below `BASE` wraps (20_memory.md R101). -/
theorem offsetOf_below {k : Nat} (hk : k ≤ Config.base) (h0 : 0 < k) (h1 : k ≤ 0x2000) :
    offsetOf (Config.base - k) = 0x2000 - k := by
  unfold offsetOf
  omega

/-- `ARG[a]` is at 0x1000 + 4a (R42). -/
theorem regAt_arg (a : Nat) : regAt (0x1000 + 4 * a) = some (.arg a) := by
  simp [regAt]

/-- `MC_COUNT[j]` is at 0x100 + 4j (R42). -/
theorem regAt_mcCount {j : Nat} (h : j < 16) : regAt (0x100 + 4 * j) = some (.mcCount j) := by
  simp only [regAt, if_neg (show ¬0x1000 ≤ 0x100 + 4 * j by omega),
    if_pos (show 0x100 ≤ 0x100 + 4 * j ∧ 0x100 + 4 * j ≤ 0x13C by omega), Option.some.injEq, Reg.mcCount.injEq]
  omega

/-- Below 0x100 the map is the table of R42. -/
theorem regAt_low {off : Nat} (h : off < 0x100) : regAt off = Store.get? regTable off := by
  simp only [regAt, if_neg (show ¬0x1000 ≤ off by omega), if_neg (show ¬(0x100 ≤ off ∧ off ≤ 0x13C) by omega)]

/-- An unlisted offset names no register (R42). -/
theorem regAt_unlisted {off : Nat} (h : Unlisted off) : regAt off = none := by
  simp only [regAt, if_neg (show ¬0x1000 ≤ off by omega), if_neg (show ¬(0x100 ≤ off ∧ off ≤ 0x13C) by omega)]
  refine Store.get?_of_not_mem fun hm => ?_
  have : ∀ k ∈ regTable.map Prod.fst, k ≤ 0x074 := by decide
  have := this off hm
  omega

/-- Only offset 0 is `CMD` (R42). -/
theorem regAt_cmd {off : Nat} (h : regAt off = some .cmd) : off = 0 := by
  unfold regAt at h
  split at h
  · cases h
  · split at h
    · cases h
    · simpa [regTable] using Store.mem_of_get? h

/-- The places a real handle can lie in (00_scope.md R33). -/
theorem mem_placedHandles {s : State} {h : Handle} (h0 : h ≠ 0#32) :
    h ∈ s.placedHandles ↔ h ∈ s.env.pool ∨ h ∈ s.tx.slots.map TxSlot.buf ∨ h ∈ s.rx.slots.map RxSlot.buf ∨
      h ∈ s.chainHeld ∨ h ∈ s.port.w.fresh ∨ h ∈ s.env.router := by
  simp only [State.placedHandles, List.mem_append, List.mem_filter, ne_eq, h0, not_false_eq_true, decide_true, and_true,
    or_assoc]

/-- What ENV may read of a buffer (20_memory.md R100, 00_scope.md R33). -/
theorem envReads_iff {s : State} {h : Handle} {start n : Nat} :
    s.envReads h start n = true ↔ h ≠ 0#32 ∧ s.blockOwns h = false ∧ start + n ≤ s.bufferLimit := by
  simp [State.envReads, and_assoc]

/-- What ENV may write of a buffer (R472). -/
theorem envWrites_iff {s : State} {h : Handle} {start n : Nat} :
    s.envWrites h start n = true ↔ h ≠ 0#32 ∧ s.blockHolds h = false ∧ start + n ≤ s.bufferLimit := by
  simp [State.envWrites, and_assoc]

/-- The block owns nothing but what lies in it. -/
theorem blockOwns_of_not_held {s : State} {h : Handle} (held : s.blockHolds h = false) : s.blockOwns h = false := by
  simp [State.blockOwns, held]

/-- A handle of a running TX_SEND is not the block's (R33). -/
theorem blockOwns_of_sending {s : State} {h : Handle} (sent : h ∈ s.sending) : s.blockOwns h = false := by
  simp [State.blockOwns, sent]

/-- Outside a TX_SEND no handle is a caller's that lies in the block. -/
theorem sending_of_not_send {s : State} (h : s.port.w.inSend = false) : s.sending = [] := by
  rcases hw : s.port.w <;> simp_all [State.sending, WState.sendCount, WState.inSend, State.sendHandles]

/-- Every move of ENV that answers a next state answers one of these. -/
theorem hostMove_answer {s t : State} {m : HostMove} (h : s.hostMove m = .next t) : HostAnswer s m t := by
  cases m with
  | write off width v =>
    simp only [State.hostMove] at h
    split at h
    · cases h
    · split at h
      · cases h
      · next hduty =>
        unfold State.writeAt at h
        split at h
        · next r hr =>
          refine writeReg_answer h fun hc i hd k hk hacc g hg => ?_
          by_contra hno
          refine hduty ⟨regAt_cmd (hc ▸ hr), ?_⟩
          subst hk
          simp only [State.sendBreaksDuty, hd, hacc, Bool.true_and, List.any_eq_true]
          refine ⟨g, hg, ?_⟩
          simp only [State.notCallers, Bool.or_eq_true, List.contains_iff_mem]
          tauto
        · cases h
          exact .ignored
  | read off width =>
    simp only [State.hostMove] at h
    split at h
    · cases h
    · cases h
      exact .read off width
  | offer frame =>
    simp only [State.hostMove] at h
    split at h
    · cases h
    · cases h
      exact .offer frame (by omega) (by omega)
  | giveBack g =>
    simp only [State.hostMove] at h
    split at h
    · cases h
    · next hg =>
      split at h
      · cases h
      · next hs =>
        cases h
        exact .giveBack g (by simpa using hg) (by simpa using hs)
  | take g =>
    simp only [State.hostMove] at h
    split at h
    · next hg =>
      cases h
      exact .take g (by simpa using hg)
    · cases h
  | fill g start bytes =>
    simp only [State.hostMove] at h
    split at h
    · next hg =>
      cases h
      obtain ⟨h0, held, fits⟩ := envWrites_iff.mp hg
      exact .fill g start bytes h0 held fits
    · cases h
  | readBuffer g start n =>
    simp only [State.hostMove] at h
    split at h
    · next hg =>
      cases h
      obtain ⟨h0, other, fits⟩ := envReads_iff.mp hg
      exact .readBuffer g start n h0 other fits
    · cases h

/-- Every turn that answers a next state answers one of these. -/
theorem takeTurn_answer {s t : State} {turn : Turn} (h : s.takeTurn turn = .next t) : TurnAnswer s turn t := by
  cases turn <;> simp only [State.takeTurn] at h
  case worker => cases h; exact .worker
  case interrupt => cases h; exact .interrupt
  case txd => cases h; exact .txd
  case rxd => cases h; exact .rxd
  case host m => exact .host (hostMove_answer h)

/-- A property that does not look at the schedule is kept by every step if it is kept by every answer of a turn. -/
theorem step_keeps_of_answers {P : State → Prop}
    (hpop : ∀ s script turnNo, P s → P { s with script := script, turnNo := turnNo })
    (hans : ∀ s turn t, P s → TurnAnswer s turn t → P t)
    {s t : State} (hs : P s) (h : step s = .next t) : P t :=
  step_keeps hpop (fun s turn t hs h => hans s turn t hs (takeTurn_answer h)) hs h

/-- A step whose next turn is fixed takes that turn. -/
theorem step_of_script {s : State} {turn : Turn} {rest : List Turn} (h : s.script = turn :: rest) :
    step s = ({ s with script := rest }).takeTurn turn := by
  simp [step, h]

end Sys2Proof.Machine
end

