-- ==== Sys2Proof/Laws/Walks.lean ====
section
/-! SUPPORT. What the walks over slots find (TX_SEND's check and fill, TXD's walk, RXD's start check), said once, and runs of
agent W alone. -/

namespace Sys2Proof.Machine

/-! ### TX_SEND -/

/-- The free-slot check goes past free slots (R230 step 1). -/
theorem State.checkFree_append (s : State) {pre : List Nat} (h : ∀ p ∈ pre, (s.txAt p).isFree = true) (ps : List Nat) :
    s.checkFree (pre ++ ps) = s.checkFree ps := by
  induction pre with
  | nil => rfl
  | cons p pre ih =>
    have hp := h p List.mem_cons_self
    have hp' : (!(s.txAt p).owned && (s.txAt p).buf == 0#32) = true := hp
    simp only [Bool.and_eq_true, Bool.not_eq_true', beq_iff_eq] at hp'
    have hrest := ih fun q hq => h q (List.mem_cons_of_mem _ hq)
    simp [State.checkFree, hp'.1, hp, hrest]

/-- The free-slot check: every slot is free, or it stops at the first that is not, with a fault if that one is owned and
empty (R230 step 1). -/
theorem State.checkFree_cases (s : State) (ps : List Nat) :
    (s.checkFree ps = .allFree ∧ ∀ p ∈ ps, (s.txAt p).isFree = true) ∨
    ∃ pre p post, ps = pre ++ p :: post ∧ (∀ q ∈ pre, (s.txAt q).isFree = true) ∧ (s.txAt p).isFree = false ∧
      ((s.checkFree ps = .full ∧ ¬((s.txAt p).buf = 0#32 ∧ (s.txAt p).owned = true)) ∨
        (s.checkFree ps = .broken p ∧ (s.txAt p).buf = 0#32 ∧ (s.txAt p).owned = true)) := by
  induction ps with
  | nil => exact .inl ⟨rfl, fun p h => absurd h List.not_mem_nil⟩
  | cons p ps ih =>
    by_cases hf : (s.txAt p).isFree = true
    · have hskip : s.checkFree (p :: ps) = s.checkFree ps :=
        s.checkFree_append (pre := [p]) (fun q hq => List.mem_singleton.mp hq ▸ hf) ps
      rw [hskip]
      rcases ih with ⟨h1, h2⟩ | ⟨pre, q, post, h1, h2, h3⟩
      · exact .inl ⟨h1, List.forall_mem_cons.mpr ⟨hf, h2⟩⟩
      · exact .inr ⟨p :: pre, q, post, by simp [h1], List.forall_mem_cons.mpr ⟨hf, h2⟩, h3⟩
    · have hf' : (s.txAt p).isFree = false := by simpa using hf
      refine .inr ⟨[], p, ps, rfl, fun q h => absurd h List.not_mem_nil, hf', ?_⟩
      by_cases hb : (s.txAt p).buf = 0#32 ∧ (s.txAt p).owned = true
      · exact .inr ⟨by simp [State.checkFree, hb], hb⟩
      · refine .inl ⟨?_, hb⟩
        have : ((s.txAt p).buf == 0#32 && (s.txAt p).owned) = false := by
          simp only [Bool.and_eq_false_iff, beq_eq_false_iff_ne]
          by_cases h0 : (s.txAt p).buf = 0#32
          · exact .inr (by simpa using fun ho => hb ⟨h0, ho⟩)
          · exact .inl h0
        simp [State.checkFree, this, hf']

/-- The fill step writes the slots of the chain and nothing else (R230 steps 2 and 3). -/
theorem State.fillChain_spec (s : State) (k : Nat) (hk : k ≤ s.nTx) :
    ∃ slots, s.fillChain k = { s with tx := { s.tx with slots := slots } } ∧ slots.length = s.nTx ∧
      (∀ i < k, slots.getD (s.sendSlot i) TxSlot.free = { s.txAt (s.sendSlot i) with
        buf := s.sendHandle i, len := s.sendLen i, last := decide (i + 1 = k), err := 0#8 }) ∧
      ∀ p, (∀ i < k, p ≠ s.sendSlot i) → slots.getD p TxSlot.free = s.txAt p := by
  suffices h : ∀ n ≤ k, ∃ slots, (List.range n).foldl (fun s i => s.fillSlot k i) s =
      { s with tx := { s.tx with slots := slots } } ∧ slots.length = s.nTx ∧
      (∀ i < n, slots.getD (s.sendSlot i) TxSlot.free = { s.txAt (s.sendSlot i) with
        buf := s.sendHandle i, len := s.sendLen i, last := decide (i + 1 = k), err := 0#8 }) ∧
      ∀ p, (∀ i < n, p ≠ s.sendSlot i) → slots.getD p TxSlot.free = s.txAt p from h k (Nat.le_refl k)
  intro n hn
  induction n with
  | zero => exact ⟨s.tx.slots, rfl, rfl, fun i h => absurd h (Nat.not_lt_zero i), fun p _ => rfl⟩
  | succ n ih =>
    obtain ⟨slots, he, hl, hin, hout⟩ := ih (by omega)
    have hslot : ({ s with tx := { s.tx with slots := slots } } : State).sendSlot n = s.sendSlot n := by
      simp [State.sendSlot, State.nTx, hl]
    have hlt : s.sendSlot n < slots.length := by
      rw [hl]
      exact ringPos_lt (by omega) _ _
    have hfresh : ∀ i < n, s.sendSlot n ≠ s.sendSlot i := fun i hi e => by
      have := ringPos_inj s.tx.current (by omega) (by omega) e
      omega
    refine ⟨slots.set (s.sendSlot n) { s.txAt (s.sendSlot n) with
        buf := s.sendHandle n, len := s.sendLen n, last := decide (n + 1 = k), err := 0#8 }, ?_, by simp [hl], ?_, ?_⟩
    · rw [List.range_succ, List.foldl_append, he, List.foldl_cons, List.foldl_nil, State.fillSlot, hslot]
      have hold : ({ s with tx := { s.tx with slots := slots } } : State).txAt (s.sendSlot n) = s.txAt (s.sendSlot n) :=
        hout _ hfresh
      rw [hold]
      rfl
    · intro i hi
      by_cases hin' : i = n
      · subst hin'
        simp [List.getD, hlt]
      · have hne : s.sendSlot n ≠ s.sendSlot i := hfresh i (by omega)
        rw [← hin i (by omega)]
        simp [List.getD, hne]
    · intro p hp
      have hne : s.sendSlot n ≠ p := (hp n (by omega)).symm
      rw [← hout p fun i hi => hp i (by omega)]
      simp [List.getD, hne]

/-! ### TXD -/

/-- TXD's walk goes past owned slots with a buffer that are not a last fragment (R262). -/
theorem State.walkFrame_skip (s : State) (j n fuel : Nat)
    (h : ∀ i < n, (s.txAt (ringPos s.nTx s.txd.idx (j + i))).owned = true ∧
      (s.txAt (ringPos s.nTx s.txd.idx (j + i))).buf ≠ 0#32 ∧
      (s.txAt (ringPos s.nTx s.txd.idx (j + i))).last = false) :
    s.walkFrame j (n + fuel) = s.walkFrame (j + n) fuel := by
  induction n generalizing j with
  | zero => simp
  | succ n ih =>
    obtain ⟨h1, h2, h3⟩ := h 0 (by omega)
    rw [Nat.add_zero] at h1 h2 h3
    have hrest := ih (j + 1) fun i hi => by
      have := h (i + 1) (by omega)
      rwa [show j + (i + 1) = j + 1 + i by omega] at this
    rw [show n + 1 + fuel = n + fuel + 1 by omega, State.walkFrame]
    simp only [h1, h2, h3, Bool.not_true, Bool.false_eq_true, if_false, hrest]
    congr 1
    omega

/-! ### RXD -/

/-- TXD's walk sees only its index, the ring's size and owned slots: where these are as before, a frame it found is still there
(R262). -/
theorem State.walkFrame_congr {s t : State} (hd : t.txd.idx = s.txd.idx) (hn : t.nTx = s.nTx)
    (ho : ∀ p, (s.txAt p).owned = true → t.txAt p = s.txAt p) {k : Nat} :
    ∀ fuel j, s.walkFrame j fuel = .frame k → t.walkFrame j fuel = .frame k := by
  intro fuel
  induction fuel with
  | zero =>
    intro j h
    cases h
  | succ fuel ih =>
    intro j h
    simp only [State.walkFrame] at h ⊢
    rw [hd, hn]
    by_cases how : (s.txAt (ringPos s.nTx s.txd.idx j)).owned = true
    · rw [ho _ how]
      split at h
      · cases h
      · split at h
        · cases h
        · split at h
          · simp_all
          · next h1 h2 h3 => simpa [h1, h2, h3] using ih _ h
    · simp [how] at h

/-- RXD's start check goes past armed slots (R301). -/
theorem State.checkArmed_append (s : State) {pre : List Nat}
    (h : ∀ p ∈ pre, (s.rxAt p).owned = true ∧ (s.rxAt p).buf ≠ 0#32) (ps : List Nat) :
    s.checkArmed (pre ++ ps) = s.checkArmed ps := by
  induction pre with
  | nil => rfl
  | cons p pre ih =>
    obtain ⟨h1, h2⟩ := h p List.mem_cons_self
    have hrest := ih fun q hq => h q (List.mem_cons_of_mem _ hq)
    simp [State.checkArmed, h1, h2, hrest]

/-- RXD's start check: every slot is armed, or it stops at the first that is not, with a fault if that one is owned and
empty (R301). -/
theorem State.checkArmed_cases (s : State) (ps : List Nat) :
    (s.checkArmed ps = .allArmed ∧ ∀ p ∈ ps, (s.rxAt p).owned = true ∧ (s.rxAt p).buf ≠ 0#32) ∨
    ∃ pre p post, ps = pre ++ p :: post ∧ (∀ q ∈ pre, (s.rxAt q).owned = true ∧ (s.rxAt q).buf ≠ 0#32) ∧
      ((s.checkArmed ps = .notArmed ∧ (s.rxAt p).owned = false) ∨
        (s.checkArmed ps = .broken p ∧ (s.rxAt p).owned = true ∧ (s.rxAt p).buf = 0#32)) := by
  induction ps with
  | nil => exact .inl ⟨rfl, fun p h => absurd h List.not_mem_nil⟩
  | cons p ps ih =>
    by_cases ho : (s.rxAt p).owned = true
    · by_cases hb : (s.rxAt p).buf = 0#32
      · exact .inr ⟨[], p, ps, rfl, fun q h => absurd h List.not_mem_nil, .inr ⟨by simp [State.checkArmed, ho, hb], ho, hb⟩⟩
      · have hskip : s.checkArmed (p :: ps) = s.checkArmed ps :=
          s.checkArmed_append (pre := [p]) (fun q hq => List.mem_singleton.mp hq ▸ ⟨ho, hb⟩) ps
        rw [hskip]
        rcases ih with ⟨h1, h2⟩ | ⟨pre, q, post, h1, h2, h3⟩
        · exact .inl ⟨h1, List.forall_mem_cons.mpr ⟨⟨ho, hb⟩, h2⟩⟩
        · exact .inr ⟨p :: pre, q, post, by simp [h1], List.forall_mem_cons.mpr ⟨⟨ho, hb⟩, h2⟩, h3⟩
    · have ho' : (s.rxAt p).owned = false := by simpa using ho
      exact .inr ⟨[], p, ps, rfl, fun q h => absurd h List.not_mem_nil, .inl ⟨by simp [State.checkArmed, ho'], ho'⟩⟩

/-! ### Runs of agent W alone -/

theorem State.runWorker_add (s : State) (m n : Nat) : s.runWorker (m + n) = (s.runWorker m).runWorker n := by
  induction m generalizing s with
  | zero => simp [State.runWorker]
  | succ m ih =>
    rw [show m + 1 + n = m + n + 1 by omega]
    exact ih s.workerStep

theorem State.runWorker_succ (s : State) (n : Nat) : s.runWorker (n + 1) = (s.runWorker n).workerStep :=
  s.runWorker_add n 1

end Sys2Proof.Machine
end

