-- ==== Sys2Proof/Laws/Agents.lean ====
section
/-! SUPPORT. What a step of one agent, or a move of ENV, leaves to the others (00_scope.md R20, 20_memory.md R118). -/

namespace Sys2Proof.Machine

/-- `Allocate()` calls change draws and ENV alone. -/
theorem State.allocateUpTo_frame (k : Nat) :
    ∀ s : State, ∃ env ds n, (State.allocateUpTo k s).2 = { s with draws := ds, drawNo := n, env := env } := by
  induction k with
  | zero => exact fun s => ⟨s.env, s.draws, s.drawNo, rfl⟩
  | succ k ih =>
    intro s
    by_cases h : s.env.pool = []
    · simp only [State.allocateUpTo, State.allocate_empty h]
      exact ⟨_, s.draws, s.drawNo, rfl⟩
    · obtain ⟨g, -, ds, n, hg⟩ := State.allocate_some h
      simp only [State.allocateUpTo, hg]
      obtain ⟨env, ds', n', h'⟩ := ih { s with
        draws := ds, drawNo := n
        env := { s.env with pool := HandleSet.remove s.env.pool g, provider := s.env.provider ++ [.allocate (some g)] } }
      exact ⟨env, ds', n', by rw [h']⟩

/-- `Release(h)` calls change ENV alone. -/
theorem State.releaseAll_frame (hs : List Handle) : ∀ s : State, ∃ env, s.releaseAll hs = { s with env := env } := by
  induction hs with
  | nil => exact fun s => ⟨s.env, rfl⟩
  | cons h hs ih =>
    intro s
    obtain ⟨env, he⟩ := ih (s.releaseHandle h)
    exact ⟨env, by simpa [State.releaseAll] using he⟩

/-- What a step of W leaves to the other agents: their registers, but for the doorbell to an idle TXD, and every TX slot that
TXD owns. -/
structure WorkerFrame (s t : State) : Prop where
  cfg : t.cfg = s.cfg
  irq : t.irq = s.irq
  rxd : t.rxd = s.rxd
  txd : s.txd.state ≠ .idle → t.txd = s.txd
  nTx : t.nTx = s.nTx
  owned : ∀ p, (s.txAt p).owned = true → t.txAt p = s.txAt p

/-- W's step changes nothing of the other agents' and no TX slot. -/
theorem WorkerFrame.of_same {s t : State} (hc : t.cfg = s.cfg) (hi : t.irq = s.irq) (hr : t.rxd = s.rxd) (ht : t.txd = s.txd)
    (hs : t.tx.slots = s.tx.slots) : WorkerFrame s t :=
  ⟨hc, hi, hr, fun _ => ht, by simp only [State.nTx, hs], fun p _ => by simp only [State.txAt, hs]⟩

/-- W writes one TX slot that TXD does not own. -/
theorem WorkerFrame.of_setTx {s t : State} (q : Nat) (d : TxSlot) (hc : t.cfg = s.cfg) (hi : t.irq = s.irq)
    (hr : t.rxd = s.rxd) (ht : t.txd = s.txd) (hs : t.tx.slots = s.tx.slots.set q d)
    (hq : ∀ p, (s.txAt p).owned = true → (s.setTx q d).txAt p = s.txAt p) : WorkerFrame s t :=
  ⟨hc, hi, hr, fun _ => ht, by simp only [State.nTx, hs, List.length_set],
    fun p hp => Eq.trans (by simp only [State.txAt, State.setTx, hs]) (hq p hp)⟩

/-- `VALUE`'s count takes at most a draw. -/
theorem State.countValue_frame (s : State) (n : Nat) : ∃ ds k, (s.countValue n).2 = { s with draws := ds, drawNo := k } := by
  unfold State.countValue
  split
  · exact ⟨_, _, rfl⟩
  · obtain ⟨ds, k, h⟩ := s.draw_spec
    exact ⟨ds, k, h⟩

/-- The spans are all that R287 writes. -/
theorem State.spanChain_frame (s : State) (len : BitVec 16) :
    ∃ sp, s.spanChain len = { s with buf := { s.buf with span := sp } } := by
  obtain ⟨sp, h⟩ := State.setSpans_spec s.rx.chain.dropLast s.cfg.cap s
  simp only [State.spanChain, h]
  exact ⟨_, rfl⟩

/-- The end of a frame leaves the rings to the later steps of RX_POLL. -/
theorem State.endOfFrame_frame (s : State) (delivered p : Nat) (len : BitVec 16) :
    ∃ buf env ds n h port, s.endOfFrame delivered p len =
      { s with buf := buf, env := env, draws := ds, drawNo := n, halt := h, port := port } := by
  unfold State.endOfFrame
  simp only
  split
  · exact ⟨s.buf, s.env, s.draws, s.drawNo, _, _, rfl⟩
  · obtain ⟨sp, h⟩ := s.spanChain_frame len
    obtain ⟨env, ds, n, h2⟩ := State.allocateUpTo_frame s.rx.chain.length (s.spanChain len)
    rw [h2]
    rw [h]
    split
    · exact ⟨_, env, ds, n, s.halt, _, rfl⟩
    · obtain ⟨env', h3⟩ := State.releaseAll_frame (State.allocateUpTo s.rx.chain.length (s.spanChain len)).1
        { s.spanChain len with draws := ds, drawNo := n, env := env }
      rw [h] at h3
      rw [h3]
      exact ⟨_, env', ds, n, s.halt, _, rfl⟩

/-- Owning one more slot leaves an owned slot as it is. -/
theorem State.txAt_setTxOwned (s : State) (q p : Nat) (h : (s.txAt p).owned = true) :
    (s.setTxOwned q true).txAt p = s.txAt p := by
  by_cases hpq : p = q
  · subst hpq
    by_cases hp : p < s.nTx
    · rw [State.setTxOwned, State.txAt_setTx_self _ _ hp]
      cases hx : s.txAt p; simp_all
    · simp [State.nTx] at hp
      simp [State.txAt, hp, TxSlot.free] at h
  · rw [State.setTxOwned, State.txAt_setTx_ne _ _ hpq]

/-- Every step of W keeps this frame. -/
theorem State.workerStep_frame (s : State) : WorkerFrame s s.workerStep := by
  unfold State.workerStep
  split
  · exact .of_same rfl rfl rfl rfl rfl
  split
  · exact .of_same rfl rfl rfl rfl rfl
  · exact .of_same rfl rfl rfl rfl rfl
  · next k i _ =>
    cases i <;> exact .of_setTx _ _ rfl rfl rfl rfl rfl (s.txAt_setTxOwned _)
  · refine ⟨?_, ?_, ?_, fun h => ?_, ?_, fun p _ => ?_⟩ <;>
      unfold State.sendDoorbell State.wakeTxd <;> split <;> first | rfl | contradiction
  · unfold State.reclaimVisit State.reclaimNext
    simp only
    split
    · split
      · exact .of_same rfl rfl rfl rfl rfl
      · split <;> exact .of_same rfl rfl rfl rfl rfl
    · split
      · exact .of_same rfl rfl rfl rfl rfl
      · next hown =>
        have key : ∀ (d : TxSlot) p, (s.txAt p).owned = true →
            (s.setTx (ringPos s.nTx s.tx.release 0) d).txAt p = s.txAt p := fun d p h =>
          s.txAt_setTx_ne d (by rintro rfl; exact hown h)
        split <;> exact .of_setTx _ _ rfl rfl rfl rfl rfl (key _)
  · next n _ =>
    unfold State.pollVisit
    simp only
    split
    · obtain ⟨ds, k, h⟩ := s.countValue_frame n
      simp only [State.pollReturn, h]
      exact .of_same rfl rfl rfl rfl rfl
    · split
      · exact .of_same rfl rfl rfl rfl rfl
      · split
        · obtain ⟨buf, env, ds, k, h, port, he⟩ := s.linkSlot.endOfFrame_frame n (ringPos s.nRx s.rx.current 0)
            (s.rxAt (ringPos s.nRx s.rx.current 0)).len
          exact he ▸ .of_same rfl rfl rfl rfl rfl
        · exact .of_same rfl rfl rfl rfl rfl
  · unfold State.pollRearm
    split
    · exact .of_same rfl rfl rfl rfl rfl
    · simp only
      split <;> exact .of_same rfl rfl rfl rfl rfl
  · unfold State.pollRecycle
    simp only
    split <;> exact .of_same rfl rfl rfl rfl rfl

/-- What a move of ENV leaves to the block's agents. -/
structure HostFrame (s t : State) : Prop where
  port : s.busy = true → t.port = s.port ∧ t.rx = s.rx
  latch : s.irq.latch ≠ none → t.irq.latch = s.irq.latch
  waiting : s.interruptBusy = true → t.interruptBusy = true
  cfg : s.cfg.configured = true → t.cfg = s.cfg
  txd : s.cfg.configured = true → s.txd.state ≠ .idle → t.txd = s.txd
  rxd : s.cfg.configured = true → s.rxd.frame ≠ none → t.rxd = s.rxd
  nTx : s.cfg.configured = true → t.nTx = s.nTx
  owned : s.cfg.configured = true → ∀ p, (s.txAt p).owned = true → t.txAt p = s.txAt p

/-- The move changes nothing that the block's agents step on. -/
theorem HostFrame.of_same {s t : State} (hp : t.port = s.port) (hr : t.rx = s.rx) (hl : t.irq.latch = s.irq.latch)
    (hq : t.irq.queue = s.irq.queue) (hc : t.cfg = s.cfg) (htd : t.txd = s.txd) (hrd : t.rxd = s.rxd) (ht : t.tx = s.tx) :
    HostFrame s t :=
  ⟨fun _ => ⟨hp, hr⟩, fun _ => hl, fun h => by simpa only [State.interruptBusy, hl, hq] using h, fun _ => hc,
    fun _ _ => htd, fun _ _ => hrd, fun _ => by simp only [State.nTx, ht], fun _ p _ => by simp only [State.txAt, ht]⟩

/-- The move changes nothing. -/
theorem HostFrame.refl (s : State) : HostFrame s s := .of_same rfl rfl rfl rfl rfl rfl rfl rfl

/-- The move puts a word into the queue of INTCMD. -/
theorem HostFrame.enqueue (s : State) (w : Word) : HostFrame s (s.enqueueInt w) :=
  ⟨fun _ => ⟨rfl, rfl⟩, fun _ => rfl, fun _ => by simp [State.interruptBusy, State.enqueueInt], fun _ => rfl,
    fun _ _ => rfl, fun _ _ => rfl, fun _ => rfl, fun _ _ _ => rfl⟩

/-- The move is a command that W takes. -/
theorem HostFrame.of_command {s t : State} (hb : s.busy = false) (hi : t.irq.latch = s.irq.latch ∧ t.irq.queue = s.irq.queue)
    (hc : s.cfg.configured = true → t.cfg = s.cfg ∧ t.txd = s.txd ∧ t.rxd = s.rxd ∧ t.nTx = s.nTx ∧
      ∀ p, (s.txAt p).owned = true → t.txAt p = s.txAt p) : HostFrame s t :=
  ⟨fun h => absurd (h.symm.trans hb) (by decide), fun _ => hi.1,
    fun h => by simpa only [State.interruptBusy, hi.1, hi.2] using h, fun h => (hc h).1, fun h _ => (hc h).2.1,
    fun h _ => (hc h).2.2.1, fun h => (hc h).2.2.2.1, fun h => (hc h).2.2.2.2⟩

/-- The move is a command other than CFG. -/
theorem HostFrame.of_issueConfigured {s : State} {cmd : State → State}
    (hi : (cmd s).irq.latch = s.irq.latch ∧ (cmd s).irq.queue = s.irq.queue)
    (hc : (cmd s).cfg = s.cfg ∧ (cmd s).txd = s.txd ∧ (cmd s).rxd = s.rxd ∧ (cmd s).nTx = s.nTx ∧
      ∀ p, (s.txAt p).owned = true → (cmd s).txAt p = s.txAt p) : HostFrame s (s.issueConfigured cmd) := by
  rcases s.issueConfigured_cases cmd with h | ⟨-, hb, -, h⟩ | ⟨-, hb, -, h⟩ <;> rw [h]
  · exact .refl s
  · exact .of_command hb ⟨rfl, rfl⟩ fun _ => ⟨rfl, rfl, rfl, rfl, fun _ _ => rfl⟩
  · exact .of_command hb hi fun _ => hc

/-- CFG on a configured block changes only the result. -/
theorem HostFrame.of_cfg (s : State) : HostFrame s (s.issue State.configure) := by
  rcases s.issue_cases State.configure with h | ⟨-, hb, h⟩ <;> rw [h]
  · exact .refl s
  refine .of_command hb ?_ fun hc => ?_
  · unfold State.configure
    split
    · exact ⟨rfl, rfl⟩
    split
    · exact ⟨rfl, rfl⟩
    obtain ⟨env, ds, n, h⟩ := State.allocateUpTo_frame s.cfgRxCount.toNat s
    simp only [h]
    split
    · obtain ⟨sp, h⟩ := State.setSpans_spec (State.allocateUpTo s.cfgRxCount.toNat s).1 0#16
        { s with draws := ds, drawNo := n, env := env }
      simp only [State.construct, h]
      exact ⟨rfl, rfl⟩
    · obtain ⟨env', h⟩ := State.releaseAll_frame (State.allocateUpTo s.cfgRxCount.toNat s).1
        { s with draws := ds, drawNo := n, env := env }
      rw [h]
      exact ⟨rfl, rfl⟩
  · simp only [State.configure, hc, if_true]
    exact ⟨rfl, rfl, rfl, rfl, fun _ _ => rfl⟩

/-- TX_SEND's first step writes no slot that TXD owns. -/
theorem State.sendStart_frame {s : State} {k : Nat} :
    ((s.sendStart k).irq.latch = s.irq.latch ∧ (s.sendStart k).irq.queue = s.irq.queue) ∧
    (s.sendStart k).cfg = s.cfg ∧ (s.sendStart k).txd = s.txd ∧ (s.sendStart k).rxd = s.rxd ∧
      (s.sendStart k).nTx = s.nTx ∧
      ∀ p, (s.txAt p).owned = true → (s.sendStart k).txAt p = s.txAt p := by
  unfold State.sendStart
  split
  · exact ⟨⟨rfl, rfl⟩, rfl, rfl, rfl, rfl, fun _ _ => rfl⟩
  · next he =>
    split
    · exact ⟨⟨rfl, rfl⟩, rfl, rfl, rfl, rfl, fun _ _ => rfl⟩
    · exact ⟨⟨rfl, rfl⟩, rfl, rfl, rfl, rfl, fun _ _ => rfl⟩
    · next hf =>
      have hk : k ≤ s.nTx := by
        unfold State.sendError at he
        repeat' split at he
        all_goals first | (simp at he; done) | omega
      obtain ⟨slots, h, hlen, -, hrest⟩ := s.fillChain_spec k hk
      rw [h]
      refine ⟨⟨rfl, rfl⟩, rfl, rfl, rfl, by simpa [State.nTx, State.goOn] using hlen,
        fun p hp => hrest p fun i hi => ?_⟩
      rintro rfl
      rcases s.checkFree_cases (s.sendSlots k) with ⟨-, hall⟩ | ⟨_, _, _, _, _, _, hx⟩
      · have := hall (s.sendSlot i) (by simp [State.sendSlots]; exact ⟨i, hi, rfl⟩)
        simp [TxSlot.isFree, hp] at this
      · rcases hx with ⟨hx, -⟩ | ⟨hx, -⟩ <;> rw [hf] at hx <;> cases hx

/-- Every command keeps this frame in its first step. -/
theorem exec_frame {i : Instr} {s t : State} (h : exec i s = .next t) : HostFrame s t := by
  cases i <;> simp only [exec, execCfg, execTxSend, execTxReclaim, execRxPoll, execEvtDrain, execMcJoin, execMcLeave,
    execIrqEntry, Host.Outcome.next.injEq] at h <;> subst h
  · exact .of_cfg s
  · exact .of_issueConfigured State.sendStart_frame.1 State.sendStart_frame.2
  · apply HostFrame.of_issueConfigured <;> unfold State.reclaimStart <;> split
    · exact ⟨rfl, rfl⟩
    · exact ⟨rfl, rfl⟩
    · exact ⟨rfl, rfl, rfl, rfl, fun _ _ => rfl⟩
    · exact ⟨rfl, rfl, rfl, rfl, fun _ _ => rfl⟩
  · exact .of_issueConfigured ⟨rfl, rfl⟩ ⟨rfl, rfl, rfl, rfl, fun _ _ => rfl⟩
  · exact .of_issueConfigured ⟨rfl, rfl⟩ ⟨rfl, rfl, rfl, rfl, fun _ _ => rfl⟩
  · apply HostFrame.of_issueConfigured <;> unfold State.joinBucket <;> split
    · exact ⟨rfl, rfl⟩
    · exact ⟨rfl, rfl⟩
    · exact ⟨rfl, rfl, rfl, rfl, fun _ _ => rfl⟩
    · exact ⟨rfl, rfl, rfl, rfl, fun _ _ => rfl⟩
  · apply HostFrame.of_issueConfigured <;> unfold State.leaveBucket <;> split
    · exact ⟨rfl, rfl⟩
    · exact ⟨rfl, rfl⟩
    · exact ⟨rfl, rfl, rfl, rfl, fun _ _ => rfl⟩
    · exact ⟨rfl, rfl, rfl, rfl, fun _ _ => rfl⟩
  · split
    · exact .refl s
    split
    · exact .enqueue s _
    · next hb =>
      refine ⟨fun _ => ⟨rfl, rfl⟩, fun h => ?_, fun h => absurd h hb, fun _ => rfl,
        fun _ _ => rfl, fun _ _ => rfl, fun _ => rfl, fun _ _ _ => rfl⟩
      cases hl : s.irq.latch <;> simp_all [State.interruptBusy]

/-- Every move of ENV keeps this frame. -/
theorem HostAnswer.frame {s t : State} {m : HostMove} (h : HostAnswer s m t) : HostFrame s t := by
  cases h with
  | command i t h duty => exact exec_frame h
  | illegal =>
    rcases s.issue_cases (·.retErr .illegalCommand) with h | ⟨-, hb, h⟩ <;> rw [h]
    · exact .refl s
    · exact .of_command hb ⟨rfl, rfl⟩ fun _ => ⟨rfl, rfl, rfl, rfl, fun _ _ => rfl⟩
  | intIllegal _ hb => exact .of_same rfl rfl rfl rfl rfl rfl rfl rfl
  | intQueued _ hb => exact .enqueue s _
  | doorbell =>
    unfold State.ringDoorbell State.wakeTxd
    split
    · exact .refl s
    split
    · next hi =>
      exact ⟨fun _ => ⟨rfl, rfl⟩, fun _ => rfl, id, fun _ => rfl, fun _ h => absurd hi h,
        fun _ _ => rfl, fun _ => rfl, fun _ _ _ => rfl⟩
    · exact .refl s
  | isr =>
    unfold State.writeIsr
    split
    · exact .refl s
    · exact .of_same rfl rfl rfl rfl rfl rfl rfl rfl
  | txBase h =>
    exact ⟨fun _ => ⟨rfl, rfl⟩, fun _ => rfl, id, fun hc => absurd (hc.symm.trans h) (by decide),
      fun _ _ => rfl, fun _ _ => rfl, fun _ => rfl, fun _ _ _ => rfl⟩
  | rxBase h =>
    exact ⟨fun _ => ⟨rfl, rfl⟩, fun _ => rfl, id, fun hc => absurd (hc.symm.trans h) (by decide),
      fun _ _ => rfl, fun _ _ => rfl, fun _ => rfl, fun _ _ _ => rfl⟩
  | arg a =>
    unfold State.writeArg
    split
    · exact .refl s
    · exact .of_same rfl rfl rfl rfl rfl rfl rfl rfl
  | ignored => exact .refl s
  | offer frame h0 h1 =>
    unfold State.offerFrame
    split
    · next ha =>
      have hn : s.rxd.frame = none := by
        simp only [Bool.and_eq_true, Option.isNone_iff_eq_none] at ha
        exact ha.1.2
      unfold State.rxdStart
      simp only
      split
      · exact .of_same rfl rfl rfl rfl rfl rfl rfl rfl
      · split
        · exact .of_same rfl rfl rfl rfl rfl rfl rfl rfl
        · exact .of_same rfl rfl rfl rfl rfl rfl rfl rfl
        · exact ⟨fun _ => ⟨rfl, rfl⟩, fun _ => rfl, id, fun _ => rfl, fun _ _ => rfl,
            fun _ h => absurd hn h, fun _ => rfl, fun _ _ _ => rfl⟩
    · exact .refl s
  | _ => exact .of_same rfl rfl rfl rfl rfl rfl rfl rfl

/-- Agent I's step changes the gate's registers alone. -/
theorem State.interruptStep_frame (s : State) : ∃ irq, s.interruptStep = { s with irq := irq } := by
  unfold State.interruptStep
  split
  · exact ⟨s.irq, rfl⟩
  split
  · exact ⟨_, rfl⟩
  split
  · exact ⟨s.irq, rfl⟩
  · unfold State.performInt
    split <;> exact ⟨_, rfl⟩

/-- TXD's step changes its own registers, TX slots, ISR, the wire and draws, and may raise a fault. -/
theorem State.txdStep_frame (s : State) : ∃ halt isr slots txd env ds n, slots.length = s.nTx ∧ s.txdStep =
    { s with halt := halt, irq.isr := isr, tx.slots := slots, txd := txd, env := env, draws := ds, drawNo := n } := by
  unfold State.txdStep
  split
  · exact ⟨s.halt, s.irq.isr, s.tx.slots, s.txd, s.env, s.draws, s.drawNo, rfl, rfl⟩
  split
  · exact ⟨s.halt, s.irq.isr, s.tx.slots, s.txd, s.env, s.draws, s.drawNo, rfl, rfl⟩
  · split
    · unfold State.txdSend
      split
      · exact ⟨_, s.irq.isr, s.tx.slots, s.txd, s.env, s.draws, s.drawNo, rfl, rfl⟩
      · exact ⟨s.halt, s.irq.isr, s.tx.slots, _, _, s.draws, s.drawNo, rfl, rfl⟩
    · exact ⟨s.halt, s.irq.isr, s.tx.slots, _, s.env, s.draws, s.drawNo, rfl, rfl⟩
  · obtain ⟨ds, n, h⟩ := s.draw_spec
    unfold State.txdComplete
    simp only [h]
    split
    · exact ⟨s.halt, _, _, _, s.env, ds, n, List.length_set .., rfl⟩
    · exact ⟨s.halt, s.irq.isr, _, _, s.env, ds, n, List.length_set .., rfl⟩

/-- RXD's step changes its own registers, RX slots, ISR and buffer bytes. -/
theorem State.rxdStep_frame (s : State) : ∃ isr slots rxd data, slots.length = s.nRx ∧ s.rxdStep =
    { s with irq.isr := isr, rx.slots := slots, rxd := rxd, buf.data := data } := by
  unfold State.rxdStep
  split
  · exact ⟨s.irq.isr, s.rx.slots, s.rxd, s.buf.data, rfl, rfl⟩
  split
  · exact ⟨s.irq.isr, s.rx.slots, s.rxd, s.buf.data, rfl, rfl⟩
  · unfold State.rxdWrite
    simp only
    split
    · exact ⟨_, _, _, _, List.length_set .., rfl⟩
    · exact ⟨s.irq.isr, _, _, _, List.length_set .., rfl⟩

end Sys2Proof.Machine
end

