-- ==== Sys2Proof/Laws/Decode.lean ====
section
/-! SUPPORT. The fields of TX_SEND's word (30_encoding.md R140, R143). The other words are numerals. -/

namespace Sys2Proof

theorem opField_txSend (k : Nat) : opField (encode (.txSend k)) = 0x02#8 := by
  generalize h : BitVec.ofNat 8 k = x
  simp only [encode, opField, h]
  ext i hi
  interval_cases i <;> simp

theorem kField_txSend (k : Nat) : kField (encode (.txSend k)) = BitVec.ofNat 8 k := by
  generalize h : BitVec.ofNat 8 k = x
  simp only [encode, kField, h]
  ext i hi
  interval_cases i <;> simp

theorem resField_txSend (k : Nat) : resField (encode (.txSend k)) = 0#16 := by
  generalize h : BitVec.ofNat 8 k = x
  simp only [encode, resField, h]
  ext i hi
  interval_cases i <;> simp

theorem txSend_word_ne (k : Nat) : encode (.txSend k) ≠ 0x00000008#32 := fun h => by
  have := opField_txSend k
  rw [h] at this
  exact absurd this (by decide)

end Sys2Proof
end

