-- ==== Sys2Proof/Laws/PerInstr.lean ====
section
/-! SUPPORT. A statement made per command. Family OnePort: a command's word is accepted by its own port only
(60_exceptions.md R430). -/

namespace Sys2Proof.Laws.OnePort

/-- The word of a well-formed command belongs to the command's port, and the other port refuses it as a wrong-port word
(30_encoding.md R144, 60_exceptions.md R430). -/
def Statement (i : Instr) : Prop :=
  i.wf = true → portOfWord (encode i) = i.port ∧ ∀ p, p ≠ i.port → decode p (encode i) = .error .wrongPort

theorem cfg : Statement .cfg := fun _ => ⟨by decide, fun p hp => by cases p <;> first | exact absurd rfl hp | decide⟩

theorem txSend (k : Nat) : Statement (.txSend k) := fun _ => by
  refine ⟨by simp [portOfWord, txSend_word_ne, Instr.port], fun p hp => ?_⟩
  cases p with
  | worker => exact absurd rfl hp
  | interrupt => simp [decode, decodeInterrupt, txSend_word_ne, opField_txSend, workerOp]

theorem txReclaim : Statement .txReclaim := fun _ => ⟨by decide, fun p hp => by cases p <;> first | exact absurd rfl hp | decide⟩

theorem rxPoll : Statement .rxPoll := fun _ => ⟨by decide, fun p hp => by cases p <;> first | exact absurd rfl hp | decide⟩

theorem evtDrain : Statement .evtDrain := fun _ => ⟨by decide, fun p hp => by cases p <;> first | exact absurd rfl hp | decide⟩

theorem mcJoin : Statement .mcJoin := fun _ => ⟨by decide, fun p hp => by cases p <;> first | exact absurd rfl hp | decide⟩

theorem mcLeave : Statement .mcLeave := fun _ => ⟨by decide, fun p hp => by cases p <;> first | exact absurd rfl hp | decide⟩

theorem irqEntry : Statement .irqEntry := fun _ => ⟨by decide, fun p hp => by cases p <;> first | exact absurd rfl hp | decide⟩

end Sys2Proof.Laws.OnePort
end

