-- ==== Sys2Proof/Laws/Schedule.lean ====
section
/-! SUPPORT. Turns of agents with no enabled step, what other turns leave to an agent, and the inductions behind every
progress claim (70_reset_and_hazards.md R491). -/

namespace Sys2Proof.Machine

/-- A turn of an agent that has no enabled step passes with no change. -/
theorem takeTurn_of_not_enabled {s : State} {a : Agent} (h : s.enabled a = false) : s.takeTurn a.turn = .next s := by
  cases a <;> simp only [Agent.turn, State.takeTurn, Host.Outcome.next.injEq]
  case worker =>
    unfold State.workerStep
    rcases hh : s.halted <;> rcases hw : s.port.w <;> simp_all [State.enabled, State.busy]
  case interrupt =>
    unfold State.interruptStep
    rcases hh : s.halted <;> rcases hl : s.irq.latch <;> rcases hq : s.irq.queue <;>
      simp_all [State.enabled, State.interruptBusy]
  case txd =>
    unfold State.txdStep
    rcases hh : s.halted <;> rcases hc : s.cfg.configured <;> rcases ht : s.txd.state <;> simp_all [State.enabled]
  case rxd =>
    unfold State.rxdStep
    rcases hh : s.halted <;> rcases hc : s.cfg.configured <;> rcases hf : s.rxd.frame <;> simp_all [State.enabled]

/-- While W runs a command, no other turn moves it or the receive engine's cursors and chain. -/
theorem takeTurn_port {s t : State} {turn : Turn} (h : s.takeTurn turn = .next t) (hturn : turn ≠ .worker)
    (hb : s.busy = true) : t.port = s.port ∧ (∃ slots, slots.length = s.nRx ∧ t.rx = { s.rx with slots := slots }) := by
  cases takeTurn_answer h with
  | worker => exact absurd rfl hturn
  | interrupt =>
    obtain ⟨_, h⟩ := s.interruptStep_frame
    exact h ▸ ⟨rfl, s.rx.slots, rfl, rfl⟩
  | txd =>
    obtain ⟨_, _, _, _, _, _, _, -, h⟩ := s.txdStep_frame
    exact h ▸ ⟨rfl, s.rx.slots, rfl, rfl⟩
  | rxd =>
    obtain ⟨_, _, _, _, hlen, h⟩ := s.rxdStep_frame
    exact h ▸ ⟨rfl, _, hlen, rfl⟩
  | host h => exact ⟨(h.frame.port hb).1, s.rx.slots, rfl, (h.frame.port hb).2⟩

/-- While an IRQ_ENTRY is between its steps, no other turn takes its captured bits. -/
theorem takeTurn_latch {s t : State} {turn : Turn} (h : s.takeTurn turn = .next t) (hturn : turn ≠ .interrupt)
    (hl : s.irq.latch ≠ none) : t.irq.latch = s.irq.latch := by
  cases takeTurn_answer h with
  | worker => rw [s.workerStep_frame.irq]
  | interrupt => exact absurd rfl hturn
  | txd =>
    obtain ⟨_, _, _, _, _, _, _, -, h⟩ := s.txdStep_frame
    exact h ▸ rfl
  | rxd =>
    obtain ⟨_, _, _, _, -, h⟩ := s.rxdStep_frame
    exact h ▸ rfl
  | host h => exact h.frame.latch hl

/-- A configured block stays as configured, whatever the turn. -/
theorem takeTurn_cfg {s t : State} {turn : Turn} (h : s.takeTurn turn = .next t) (hc : s.cfg.configured = true) :
    t.cfg = s.cfg := by
  cases takeTurn_answer h with
  | worker => exact s.workerStep_frame.cfg
  | interrupt =>
    obtain ⟨_, h⟩ := s.interruptStep_frame
    exact h ▸ rfl
  | txd =>
    obtain ⟨_, _, _, _, _, _, _, -, h⟩ := s.txdStep_frame
    exact h ▸ rfl
  | rxd =>
    obtain ⟨_, _, _, _, -, h⟩ := s.rxdStep_frame
    exact h ▸ rfl
  | host h => exact h.frame.cfg hc

/-- While TXD is not IDLE, no other turn moves it or changes a slot it owns. -/
theorem takeTurn_txd {s t : State} {turn : Turn} (h : s.takeTurn turn = .next t) (hturn : turn ≠ .txd)
    (hc : s.cfg.configured = true) (hi : s.txd.state ≠ .idle) :
    t.txd = s.txd ∧ t.nTx = s.nTx ∧ ∀ p, (s.txAt p).owned = true → t.txAt p = s.txAt p := by
  cases takeTurn_answer h with
  | worker => exact ⟨s.workerStep_frame.txd hi, s.workerStep_frame.nTx, s.workerStep_frame.owned⟩
  | interrupt =>
    obtain ⟨_, h⟩ := s.interruptStep_frame
    exact h ▸ ⟨rfl, rfl, fun _ _ => rfl⟩
  | txd => exact absurd rfl hturn
  | rxd =>
    obtain ⟨_, _, _, _, -, h⟩ := s.rxdStep_frame
    exact h ▸ ⟨rfl, rfl, fun _ _ => rfl⟩
  | host h => exact ⟨h.frame.txd hc hi, h.frame.nTx hc, h.frame.owned hc⟩

/-- While RXD has a frame to write, no other turn moves it. -/
theorem takeTurn_rxd {s t : State} {turn : Turn} (h : s.takeTurn turn = .next t) (hturn : turn ≠ .rxd)
    (hc : s.cfg.configured = true) (hf : s.rxd.frame ≠ none) : t.rxd = s.rxd := by
  cases takeTurn_answer h with
  | worker => exact s.workerStep_frame.rxd
  | interrupt =>
    obtain ⟨_, h⟩ := s.interruptStep_frame
    exact h ▸ rfl
  | txd =>
    obtain ⟨_, _, _, _, _, _, _, -, h⟩ := s.txdStep_frame
    exact h ▸ rfl
  | rxd => exact absurd rfl hturn
  | host h => exact h.frame.rxd hc hf

/-- Step `n` of a run is a turn on the state of the run. -/
theorem FollowsSchedule.turn {sched : Nat → Turn} {r : Nat → State} (h : FollowsSchedule sched r) (n : Nat) :
    ({ r n with script := [] } : State).takeTurn (sched n) = .next (r (n + 1)) := by
  have := h n
  rwa [step_of_script rfl] at this

/-- The induction behind progress: where a condition `P` lasts through every turn but agent `a`'s, or else `Q` comes true,
and `P` makes `a` enabled, a weakly fair run reaches `Q`, or `a`'s turn while `P` holds. -/
theorem FairRun.reaches_turn {sched : Nat → Turn} {r : Nat → State} (h : FairRun sched r) (a : Agent) {P Q : State → Prop}
    (hscript : ∀ s, P s → P { s with script := [] })
    (henabled : ∀ s, P s → s.enabled a = true)
    (hlasts : ∀ s turn t, turn ≠ a.turn → P s → s.takeTurn turn = .next t → P t ∨ Q t)
    {n : Nat} (hn : P (r n)) : ∃ m ≥ n, Q (r m) ∨ P (r m) ∧ sched m = a.turn := by
  by_contra hno
  have hno' : ∀ m ≥ n, ¬Q (r m) ∧ (P (r m) → sched m ≠ a.turn) :=
    fun m hm => ⟨fun hq => hno ⟨m, hm, .inl hq⟩, fun hp ht => hno ⟨m, hm, .inr ⟨hp, ht⟩⟩⟩
  have hP : ∀ k, P (r (n + k)) := by
    intro k
    induction k with
    | zero => exact hn
    | succ k ih =>
      rcases hlasts _ (sched (n + k)) _ ((hno' _ (by omega)).2 ih) (hscript _ ih) (h.follows.turn (n + k)) with hp | hq
      · exact hp
      · exact absurd hq (hno' (n + k + 1) (by omega)).1
  have hP' : ∀ m ≥ n, P (r m) := fun m hm => Nat.add_sub_cancel' hm ▸ hP (m - n)
  obtain ⟨m, hm, ht⟩ := h.fair a n fun m hm => henabled _ (hP' m hm)
  exact (hno' m hm).2 (hP' m hm) ht

/-- The induction behind progress that takes many steps of agent `a`: where a measure never grows in an allowed turn and falls
in each turn of `a`, or else `Q` comes true, a weakly fair run of allowed turns reaches `Q`. -/
theorem FairRun.reaches {α : Type} [Preorder α] [WellFoundedLT α] {sched : Nat → Turn} {r : Nat → State}
    (h : FairRun sched r) (a : Agent) {P Q : State → Prop} (μ : State → α) (allowed : Turn → Prop)
    (hscript : ∀ s, P s → P { s with script := [] } ∧ μ { s with script := [] } = μ s)
    (henabled : ∀ s, P s → s.enabled a = true)
    (hother : ∀ s turn t, allowed turn → turn ≠ a.turn → P s → s.takeTurn turn = .next t → (P t ∧ μ t ≤ μ s) ∨ Q t)
    (hown : ∀ s t, P s → s.takeTurn a.turn = .next t → (P t ∧ μ t < μ s) ∨ Q t)
    {n : Nat} (hallowed : ∀ m ≥ n, allowed (sched m)) (hn : P (r n)) : ∃ m ≥ n, Q (r m) := by
  by_contra hno
  have hno' : ∀ m ≥ n, ¬Q (r m) := fun m hm hq => hno ⟨m, hm, hq⟩
  have hstep : ∀ m ≥ n, P (r m) → P (r (m + 1)) ∧ μ (r (m + 1)) ≤ μ (r m) ∧
      (sched m = a.turn → μ (r (m + 1)) < μ (r m)) := by
    intro m hm hp
    obtain ⟨hp', hμ⟩ := hscript _ hp
    by_cases ht : sched m = a.turn
    · rcases hown _ _ hp' (ht ▸ h.follows.turn m) with ⟨hp2, hlt⟩ | hq
      · exact ⟨hp2, hμ ▸ le_of_lt hlt, fun _ => hμ ▸ hlt⟩
      · exact absurd hq (hno' (m + 1) (by omega))
    · rcases hother _ _ _ (hallowed m hm) ht hp' (h.follows.turn m) with ⟨hp2, hle⟩ | hq
      · exact ⟨hp2, hμ ▸ hle, fun hh => absurd hh ht⟩
      · exact absurd hq (hno' (m + 1) (by omega))
  have hP : ∀ k, P (r (n + k)) := by
    intro k
    induction k with
    | zero => exact hn
    | succ k ih => exact (hstep _ (by omega) ih).1
  have hP' : ∀ m ≥ n, P (r m) := fun m hm => Nat.add_sub_cancel' hm ▸ hP (m - n)
  have hmono : ∀ m ≥ n, ∀ k, μ (r (m + k)) ≤ μ (r m) := by
    intro m hm k
    induction k with
    | zero => exact le_refl _
    | succ k ih =>
      have hk : m + k ≥ n := by omega
      exact le_trans (hstep (m + k) hk (hP' _ hk)).2.1 ih
  have hfall : ∀ x : α, ∀ m ≥ n, μ (r m) = x → False := by
    intro x
    induction x using WellFoundedLT.induction with
    | ind x ih =>
      intro m hm hx
      obtain ⟨m', hm', ht⟩ := h.fair a m fun k hk => henabled _ (hP' k (by omega))
      have h1 : μ (r m') ≤ μ (r m) := Nat.add_sub_cancel' hm' ▸ hmono m hm (m' - m)
      exact ih _ (hx ▸ lt_of_lt_of_le ((hstep m' (by omega) (hP' m' (by omega))).2.2 ht) h1) (m' + 1) (by omega) rfl
  exact hfall _ n (le_refl n) rfl

end Sys2Proof.Machine
end

