-- ==== Sys2Proof/Laws/Progress.lean ====
section
/-! SUPPORT. What falls in the steps of RXD and RX_POLL, for the progress claims (70_reset_and_hazards.md R491, R492): RXD's
unwritten fragments, and RX_POLL's work while ENV offers no frame. -/

namespace Sys2Proof.Machine

/-- A frame that RXD is writing has a fragment left, and its fragments can be counted (42_receive.md R301, R303). -/
def RxdFits (s : State) : Prop :=
  s.rxd.frame ≠ none → s.cfg.configured = true ∧ s.rxd.frag.toNat < s.rxd.m.toNat ∧ s.rxd.m.toNat ≤ 65535

/-- On a sound RX ring it is so. -/
theorem RxRingOk.rxdFits {s : State} (h : RxRingOk s) : RxdFits s := by
  intro hf
  unfold RxRingOk at h
  split at h
  · next hc =>
    obtain ⟨a, ha⟩ := h
    obtain ⟨f, hf'⟩ := Option.ne_none_iff_exists'.mp hf
    obtain ⟨-, -, -, hlt, -, hm⟩ := ha.taken f hf'
    have := ha.size.le
    exact ⟨hc, hlt, by omega⟩
  · exact absurd h.2.2.1 hf

/-- RXD's write step ends the frame, or leaves one fragment less to write (R303). -/
theorem State.rxdStep_progress {s : State} (hh : s.halted = false) (hf : s.rxd.frame ≠ none) (h : RxdFits s) :
    s.rxdStep.cfg = s.cfg ∧ s.rxdStep.halted = false ∧ (s.rxdStep.rxd.frame = none ∨
      (s.rxdStep.rxd.frame ≠ none ∧ s.rxdStep.rxd.m = s.rxd.m ∧ s.rxdStep.rxd.frag.toNat = s.rxd.frag.toNat + 1 ∧
        s.rxd.frag.toNat + 1 < s.rxd.m.toNat)) := by
  obtain ⟨hc, h1, h2⟩ := h hf
  obtain ⟨f, hf'⟩ := Option.ne_none_iff_exists'.mp hf
  simp only [State.rxdStep, hh, hc, hf', State.rxdWrite]
  simp only [Bool.not_true, Bool.or_self, Bool.false_eq_true, if_false, decide_eq_true_eq]
  split
  · exact ⟨rfl, hh, .inl rfl⟩
  · next hne =>
    refine ⟨rfl, hh, .inr ⟨?_, rfl, ?_, by omega⟩⟩
    · show s.rxd.frame ≠ none
      exact hf
    · show (s.rxd.frag + 1#16).toNat = _
      bv_omega

/-- How a count over a list changes with one entry. -/
theorem countP_set {α : Type} (q : α → Bool) (l : List α) (p : Nat) (d x : α) (hp : l[p]? = some x) :
    (l.set p d).countP q + (if q x then 1 else 0) = l.countP q + (if q d then 1 else 0) := by
  induction l generalizing p with
  | nil => simp at hp
  | cons a l ih =>
    cases p with
    | zero =>
      simp at hp
      subst hp
      simp [List.countP_cons]
      omega
    | succ p =>
      simp at hp
      have := ih p hp
      simp [List.countP_cons]
      omega

/-- RX_POLL may still take this slot's buffer. -/
def RxSlot.unvisited (d : RxSlot) : Bool := !d.owned && d.buf != 0#32

/-- How many fragments RXD has left to write of its frame. -/
def State.unwritten (s : State) : Nat := if s.rxd.frame = none then 0 else s.rxd.m.toNat - s.rxd.frag.toNat

/-- The slots RX_POLL may yet visit: those RXD has written, and those its frame is still to be written to. -/
def State.pollWork (s : State) : Nat := s.rx.slots.countP RxSlot.unvisited + s.unwritten

/-- How many refill steps of RX_POLL come before its next visit, at most. -/
def State.pollRank (s : State) : Nat :=
  match s.port.w with
  | .pollRearm _ _ fresh _ => fresh.length + 1
  | .pollRecycle _ f => s.rx.chain.length - f + 1
  | _ => 0

/-- An RX_POLL runs, and RXD's frame, if any, has a fragment left. -/
def Polling (s : State) : Prop := s.halted = false ∧ s.port.w.inPoll = true ∧ RxdFits s

/-- Arming a slot leaves no more slots to visit. -/
theorem countP_arm_le (l : List RxSlot) (p : Nat) (d : RxSlot) (hd : d.unvisited = false) :
    (l.set p d).countP RxSlot.unvisited ≤ l.countP RxSlot.unvisited := by
  cases hx : l[p]? with
  | none => rw [List.set_eq_of_length_le (by simpa using hx)]
  | some x =>
    have := countP_set RxSlot.unvisited l p d x hx
    simp [hd] at this
    omega

/-- While W runs a command, a move of ENV that offers no frame leaves RXD as it is. -/
theorem HostAnswer.rxd_of_busy {s t : State} {m : HostMove} (h : HostAnswer s m t) (hb : s.busy = true)
    (hm : ∀ f, m ≠ .offer f) : t.rxd = s.rxd := by
  cases h with
  | command i t h duty =>
    cases i <;> simp only [exec, execCfg, execTxSend, execTxReclaim, execRxPoll, execEvtDrain, execMcJoin, execMcLeave,
      execIrqEntry, State.issueConfigured, State.issue_ignored (.inr hb), Host.Outcome.next.injEq] at h <;> subst h <;> try rfl
    split
    · rfl
    · split <;> rfl
  | illegal => rw [State.issue_ignored (.inr hb)]
  | doorbell => unfold State.ringDoorbell State.wakeTxd; split; rfl; split <;> rfl
  | isr => unfold State.writeIsr; split <;> rfl
  | arg => unfold State.writeArg; split <;> rfl
  | offer f => exact absurd rfl (hm f)
  | _ => rfl

/-- While ENV offers no frame, no turn but W's gives RX_POLL more work. -/
theorem takeTurn_polling {s t : State} {turn : Turn} (ho : ∀ f, turn ≠ .host (.offer f)) (ht : turn ≠ .worker)
    (h : Polling s) (hn : s.takeTurn turn = .next t) :
    (Polling t ∧ t.pollWork ≤ s.pollWork ∧ t.pollRank = s.pollRank) ∨ t.halted = true := by
  obtain ⟨h1, h2, h3⟩ := h
  cases hht : t.halted
  · left
    have hb : s.busy = true := by cases hw : s.port.w <;> simp_all [State.busy, WState.inPoll]
    obtain ⟨hp, slots, hlen, hrx⟩ := takeTurn_port hn ht hb
    have hrank : t.pollRank = s.pollRank := by simp [State.pollRank, hp, hrx]
    by_cases hrxd : turn = .rxd
    · subst hrxd
      simp only [State.takeTurn, Host.Outcome.next.injEq] at hn
      subst hn
      by_cases hf : s.rxd.frame = none
      · have e : s.rxdStep = s := by unfold State.rxdStep; split; rfl; simp [hf]
        rw [e]
        exact ⟨⟨h1, h2, h3⟩, le_refl _, rfl⟩
      · obtain ⟨hc, hl, hr⟩ := State.rxdStep_progress h1 hf h3
        obtain ⟨a, b, c⟩ := h3 hf
        refine ⟨⟨hl, by rw [hp]; exact h2, ?_⟩, ?_, hrank⟩
        · rcases hr with hr | ⟨r1, r2, r3, r4⟩
          · exact fun hx => absurd hr hx
          · exact fun _ => ⟨by rw [hc, a], by rw [r2, r3]; exact r4, by rw [r2]; exact c⟩
        · have hs : s.rxdStep.rx.slots.countP RxSlot.unvisited ≤ s.rx.slots.countP RxSlot.unvisited + 1 := by
            obtain ⟨f, hf'⟩ := Option.ne_none_iff_exists'.mp hf
            simp only [State.rxdStep, h1, a, hf', State.rxdWrite]
            simp only [Bool.not_true, Bool.or_self, Bool.false_eq_true, if_false]
            have key : ∀ p d,
                (s.rx.slots.set p d).countP RxSlot.unvisited ≤ s.rx.slots.countP RxSlot.unvisited + 1 := by
              intro p d
              cases hx : s.rx.slots[p]? with
              | none => rw [List.set_eq_of_length_le (by simpa using hx)]; omega
              | some x =>
                have := countP_set RxSlot.unvisited s.rx.slots p d x hx
                split at this <;> split at this <;> omega
            split <;> exact key _ _
          have : s.rxdStep.unwritten + 1 ≤ s.unwritten := by
            simp only [State.unwritten, if_neg hf]
            rcases hr with hr | ⟨r1, r2, r3, r4⟩
            · rw [if_pos hr]; omega
            · rw [if_neg r1, r2, r3]; omega
          simp only [State.pollWork]; omega
    · have hrx' : t.rx = s.rx ∧ t.rxd = s.rxd := by
        cases takeTurn_answer hn with
        | worker => exact absurd rfl ht
        | interrupt => obtain ⟨_, h⟩ := s.interruptStep_frame; exact h ▸ ⟨rfl, rfl⟩
        | txd => obtain ⟨_, _, _, _, _, _, _, -, h⟩ := s.txdStep_frame; exact h ▸ ⟨rfl, rfl⟩
        | rxd => exact absurd rfl hrxd
        | host h => exact ⟨(h.frame.port hb).2, h.rxd_of_busy hb fun f hf => ho f (by rw [hf])⟩
      refine ⟨⟨hht, by rw [hp]; exact h2, ?_⟩, by simp [State.pollWork, State.unwritten, hrx'.1, hrx'.2], hrank⟩
      intro hx
      rw [hrx'.2] at hx
      rw [hrx'.2, takeTurn_cfg hn (h3 hx).1]
      exact h3 hx
  · exact .inr rfl

/-- Each step of RX_POLL has less work before it, or as much and fewer refill steps, or is its last. -/
theorem workerStep_polling {s : State} (h : Polling s) :
    (Polling s.workerStep ∧ (s.workerStep.pollWork < s.pollWork ∨
      s.workerStep.pollWork ≤ s.pollWork ∧ s.workerStep.pollRank < s.pollRank)) ∨
    s.workerStep.busy = false ∨ s.workerStep.halted = true := by
  obtain ⟨h1, h2, h3⟩ := h
  by_cases hht : s.workerStep.halted = true
  · exact .inr (.inr hht)
  have hfr := s.workerStep_frame
  have hfits : RxdFits s.workerStep := by unfold RxdFits; rw [hfr.rxd, hfr.cfg]; exact h3
  have hwork : s.workerStep.pollWork = s.workerStep.rx.slots.countP RxSlot.unvisited + s.unwritten := by
    simp only [State.pollWork, State.unwritten, hfr.rxd]
  suffices hs : s.workerStep.busy = false ∨ s.workerStep.port.w.inPoll = true ∧
      (s.workerStep.rx.slots.countP RxSlot.unvisited < s.rx.slots.countP RxSlot.unvisited ∨
      s.workerStep.rx.slots.countP RxSlot.unvisited ≤ s.rx.slots.countP RxSlot.unvisited ∧
        s.workerStep.pollRank < s.pollRank) by
    rcases hs with hs | ⟨a, b⟩
    · exact .inr (.inl hs)
    · refine .inl ⟨⟨by simpa using hht, a, hfits⟩, ?_⟩
      rw [hwork, State.pollWork]
      omega
  clear hwork hfits hfr
  have hrs : ∀ (s : State) b r p, (s.raiseInCommand b r p).halted = true := by
    intro s b r p
    cases b <;> simp [State.raiseInCommand, State.raise, State.halted, FaultBit.mask]
  cases hw : s.port.w <;> simp [hw, WState.inPoll] at h2
  · next n =>
    simp only [State.workerStep, h1, hw] at hht ⊢
    simp only [Bool.false_eq_true, if_false, State.pollVisit] at hht ⊢
    by_cases hown : (s.rxAt (ringPos s.nRx s.rx.current 0)).owned = true
    · left
      simp only [hown, if_true]
      obtain ⟨ds, k, h⟩ := s.countValue_frame n
      simp only [State.pollReturn, h]
      rfl
    by_cases hbuf : (s.rxAt (ringPos s.nRx s.rx.current 0)).buf = 0#32
    · simp only [hown, hbuf, if_true] at hht
      exact absurd (hrs _ _ _ _) hht
    right
    have hx : s.rx.slots[ringPos s.nRx s.rx.current 0]? = some (s.rxAt (ringPos s.nRx s.rx.current 0)) := by
      cases hx : s.rx.slots[ringPos s.nRx s.rx.current 0]? with
      | none => simp [State.rxAt, List.getD, hx, RxSlot.empty] at hbuf
      | some x => simp [State.rxAt, List.getD, hx]
    have hlink : s.linkSlot.rx.slots.countP RxSlot.unvisited < s.rx.slots.countP RxSlot.unvisited := by
      have h := countP_set RxSlot.unvisited s.rx.slots _ { s.rxAt (ringPos s.nRx s.rx.current 0) with buf := 0#32 } _ hx
      rw [show (s.rxAt (ringPos s.nRx s.rx.current 0)).unvisited = true by simp [RxSlot.unvisited, hown, hbuf],
        show RxSlot.unvisited { s.rxAt (ringPos s.nRx s.rx.current 0) with buf := 0#32 } = false by
          simp [RxSlot.unvisited]] at h
      exact Nat.lt_of_succ_le (Nat.le_of_eq h)
    rw [if_neg hown, if_neg hbuf] at hht ⊢
    by_cases heof : (s.rxAt (ringPos s.nRx s.rx.current 0)).eof = true
    · rw [if_pos heof] at hht ⊢
      obtain ⟨_, _, _, _, _, _, he⟩ := s.linkSlot.endOfFrame_frame n (ringPos s.nRx s.rx.current 0)
        (s.rxAt (ringPos s.nRx s.rx.current 0)).len
      refine ⟨?_, .inl (by rw [he]; exact hlink)⟩
      revert hht
      simp only [State.endOfFrame]
      split
      · exact fun hht => absurd (hrs _ _ _ _) hht
      · intro _
        split <;> rfl
    · rw [if_neg heof]
      exact ⟨rfl, .inl hlink⟩
  · next dl f fresh len =>
    right
    simp only [State.workerStep, h1, hw, State.pollRank]
    simp only [Bool.false_eq_true, if_false, State.pollRearm]
    cases fresh with
    | nil => exact ⟨rfl, .inr ⟨le_refl _, by simp [State.deliverChain, State.closeChain, State.deliver]⟩⟩
    | cons g rest =>
      have := countP_arm_le s.rx.slots (s.chainSlot f)
        { buf := g, len := 0#16, sof := false, eof := false, wrap := (s.rxAt (s.chainSlot f)).wrap, owned := true }
        (by simp [RxSlot.unvisited])
      simp only
      split
      · exact ⟨rfl, .inr ⟨this, by simp [State.deliverChain, State.closeChain, State.deliver]⟩⟩
      · exact ⟨rfl, .inr ⟨this, by simp [State.rearmFrom, State.goOn, State.setSpan]⟩⟩
  · next dl f =>
    right
    simp only [State.workerStep, h1, hw, State.pollRank]
    simp only [Bool.false_eq_true, if_false, State.pollRecycle]
    have := countP_arm_le s.rx.slots (s.chainSlot f)
      { buf := s.rx.chain.getD f 0#32, len := 0#16, sof := false, eof := false, wrap := (s.rxAt (s.chainSlot f)).wrap
        owned := true }
        (by simp [RxSlot.unvisited])
    split
    · next hlt =>
      have hlt : f + 1 < s.rx.chain.length := hlt
      have hrank : s.rx.chain.length - (f + 1) + 1 < s.rx.chain.length - f + 1 := by omega
      exact ⟨rfl, .inr ⟨this, hrank⟩⟩
    · exact ⟨rfl, .inr ⟨this, by simp [State.dropChain, State.closeChain]⟩⟩

end Sys2Proof.Machine
end

