-- ==== Sys2Proof/Tests/Slice0.lean ====
section
/-! SUPPORT. Tests of one step each, with results from the vectors of spec/95_test_vectors.md, and a witness for the
hypotheses of every statement. -/

namespace Sys2Proof.Tests

open Sys2Proof Sys2Proof.Machine

/-! ### Small states -/

/-- The state an outcome goes on with. -/
def after : Host.Outcome State Fault Refusal → State
  | .next s => s
  | .fault _ => State.reset
  | .refused _ => State.reset

/-- Reset with six free buffers, known parameters, the lowest-numbered handle drawn each time, and CFG's arguments. -/
def boot (counts cap : Word) : State :=
  { State.reset with
    env.pool := [0x101#32, 0x102#32, 0x103#32, 0x104#32, 0x105#32, 0x106#32]
    params.mcHash := [(0x010000000001, 36#6)]
    params.bufAddr := [(0x11, 0x30000800#32), (0x12, 0x30001000#32), (0x13, 0x30001804#32)]
    args := [(0, counts), (1, cap), (2, 0x00000002#32), (3, 0x00000100#32)]
    draws := [0, 0, 0, 0, 0, 0, 0, 0] }

/-- `C84` (95_test_vectors.md). -/
def c84 : State := after (exec .cfg (boot 0x00040008#32 0x600#32))

/-- Four TX slots, two RX slots, four bytes a buffer. -/
def c42 : State := after (exec .cfg (boot 0x00020004#32 4#32))

/-- A state with other arguments. -/
def withArgs (s : State) (args : List (Nat × Word)) : State := { s with args := args }

/-- Arguments of a TX_SEND of one fragment, 0x11 with 2 bytes. -/
def one : List (Nat × Word) := [(0, 0x11#32), (1, 2#32)]

/-- Arguments of a TX_SEND of two fragments. -/
def two : List (Nat × Word) := [(0, 0x11#32), (1, 4#32), (2, 0x12#32), (3, 1#32)]

/-- A TX slot. -/
def txSlot (buf : Handle) (len : BitVec 16) (last owned : Bool) : TxSlot :=
  { TxSlot.free with buf := buf, len := len, last := last, owned := owned }

/-- An RX slot. -/
def rxSlot (buf : Handle) (len : BitVec 16) (sof eof owned : Bool) : RxSlot :=
  { RxSlot.empty with buf := buf, len := len, sof := sof, eof := eof, owned := owned }

/-- `C42` after `TX_SEND 0x11:4, 0x12:1` alone. -/
def sent2 : State := (after (exec (.txSend 2) (withArgs c42 two))).runWorker 3

/-- `C42` with two completed slots in use and TXD behind them. -/
def done2 : State :=
  { sent2 with
    tx.slots := [txSlot 0x11#32 4#16 false false, txSlot 0x12#32 1#16 true false, TxSlot.free,
      { TxSlot.free with wrap := true }]
    txd := { idx := 2#16, state := .idle, left := 0#17 } }

/-! ### Well-formedness, decoding, encoding -/

theorem test_wf_accepts_k_255 : (Instr.txSend 255).wf = true := by decide

/-- `K` has eight bits (R140). -/
theorem test_wf_refuses_k_256 : (Instr.txSend 256).wf = false := by decide

/-- The opcode table (R141), each word written out: OP in [7:0], K in [15:8], RES in [31:16]. -/
theorem test_decode_each_command :
    decode .worker (0x0000#16 ++ 0x00#8 ++ 0x01#8) = .ok .cfg ∧
    decode .worker (0x0000#16 ++ 0x03#8 ++ 0x02#8) = .ok (.txSend 3) ∧
    decode .worker (0x0000#16 ++ 0x00#8 ++ 0x03#8) = .ok .txReclaim ∧
    decode .worker (0x0000#16 ++ 0x00#8 ++ 0x04#8) = .ok .rxPoll ∧
    decode .worker (0x0000#16 ++ 0x00#8 ++ 0x05#8) = .ok .evtDrain ∧
    decode .worker (0x0000#16 ++ 0x00#8 ++ 0x06#8) = .ok .mcJoin ∧
    decode .worker (0x0000#16 ++ 0x00#8 ++ 0x07#8) = .ok .mcLeave ∧
    decode .interrupt (0x0000#16 ++ 0x00#8 ++ 0x08#8) = .ok .irqEntry := by decide

/-- R160: the words the assembler writes. -/
theorem test_encode_each_command :
    encode .cfg = 0x00000001#32 ∧ encode (.txSend 3) = 0x00000302#32 ∧ encode .txReclaim = 0x00000003#32 ∧
    encode .rxPoll = 0x00000004#32 ∧ encode .evtDrain = 0x00000005#32 ∧ encode .mcJoin = 0x00000006#32 ∧
    encode .mcLeave = 0x00000007#32 ∧ encode .irqEntry = 0x00000008#32 := by decide

/-- V-DEC-1 to V-DEC-4, V-TX-17, V-CFG-10, V-G-7. -/
theorem test_decode_rejects_on_cmd :
    decode .worker 0x00000000#32 = .error .reservedOp ∧ decode .worker 0x00000009#32 = .error .reservedOp ∧
    decode .worker 0x000000FF#32 = .error .reservedOp ∧ decode .worker 0x00000103#32 = .error .strayK ∧
    decode .worker 0x80000004#32 = .error .reservedBits ∧ decode .worker 0x00010002#32 = .error .reservedBits ∧
    decode .worker 0x00000101#32 = .error .strayK ∧ decode .worker 0x00000008#32 = .error .wrongPort := by decide

/-- V-DEC-7, V-G-6. -/
theorem test_decode_rejects_on_intcmd :
    decode .interrupt 0x00000108#32 = .error .strayK ∧ decode .interrupt 0x00000005#32 = .error .wrongPort ∧
    decode .interrupt 0x00000000#32 = .error .reservedOp := by decide

theorem test_table_word : decodeTableWord 32 0x00000302 = some (.txSend 3) ∧
    decodeTableWord 32 0x00000008 = some .irqEntry ∧ decodeTableWord 32 0x00000009 = none := by decide

/-- V-MC-10. -/
theorem test_asm_join : asmMcJoin (macAddr 0x01#8 0x00#8 0x5e#8 0x00#8 0x00#8 0x01#8) =
    [.write 0x1000 32 0x005E0001#32, .write 0x1004 32 0x00000100#32, .write 0x000 32 0x00000006#32] := by decide

/-- P1 step 1. -/
theorem test_asm_cfg : asmCfg 8#16 4#16 1536#16 (macAddr 0x02#8 0x00#8 0x00#8 0x00#8 0x00#8 0x01#8) =
    [.write 0x1000 32 0x00040008#32, .write 0x1004 32 0x00000600#32, .write 0x1008 32 0x00000002#32,
      .write 0x100C 32 0x00000100#32, .write 0x000 32 0x00000001#32] := by decide

theorem test_first_command_after_reset :
    step (State.reset.withFetchWord 32 0x00000001) = exec .cfg State.reset := rfl

theorem test_first_interrupt_command_after_reset :
    step (State.reset.withFetchWord 32 0x00000008) = exec .irqEntry State.reset := rfl

/-! ### Ring arithmetic and images -/

/-- V-RING-1 to V-RING-4. -/
theorem test_adv : adv 8 3#16 = 4#16 ∧ adv 8 7#16 = 0#16 ∧ adv 4 3#16 = 0#16 ∧ adv 1 0#16 = 0#16 := by decide

/-- V-RING-5 and V-RING-6. -/
theorem test_pow2 : [0#16, 1#16, 3#16, 4#16, 6#16, 32768#16, 65535#16].map pow2 =
    [false, true, false, true, false, true, false] := by decide

/-- R155. -/
theorem test_images : ({ TxSlot.free with wrap := true } : TxSlot).word0 = 0x40000000#32 ∧
    (txSlot 0x11#32 60#16 true true).word0 = 0xA000003C#32 ∧
    (rxSlot 0x101#32 60#16 true true false).word0 = 0x3000003C#32 ∧
    ({ rxSlot 0x101#32 60#16 true true false with wrap := true } : RxSlot).word0 = 0x7000003C#32 := by decide

/-- R100: ENV reads the bytes of a buffer it owns, and has no read of one the block holds. -/
theorem test_env_reads_buffer :
    (after ((after (c42.hostMove (.fill 0x11#32 1 [5#8, 6#8]))).hostMove (.readBuffer 0x11#32 1 2))).env.readBytes =
      [5#8, 6#8] ∧
    c42.hostMove (.readBuffer 0x101#32 0 1) = .refused (.noSuchMove .readsOwnBuffer) := ⟨by decide, rfl⟩

/-- R102. -/
theorem test_narrow_access_is_stuck : step { c84 with script := [.host (.write 0x000 16 1#32)] } =
    .fault .accessNotAdmitted := rfl

/-! ### CFG -/

/-- V-CFG-1. -/
theorem test_cfg_c84 : c84.port = returned .ok 0#32 ∧ c84.readReg .status = 1#32 ∧
    c84.readReg .cfgCounts = 0x00040008#32 ∧ c84.readReg .cfgCap = 0x600#32 ∧
    c84.readReg .linkAddrLo = 0x00000002#32 ∧ c84.readReg .linkAddrHi = 0x00000100#32 ∧
    c84.tx.slots.map TxSlot.word0 = [0#32, 0#32, 0#32, 0#32, 0#32, 0#32, 0#32, 0x40000000#32] ∧
    c84.rx.slots.map RxSlot.word0 = [0x80000000#32, 0x80000000#32, 0x80000000#32, 0xC0000000#32] ∧
    c84.rx.slots.map RxSlot.buf = [0x101#32, 0x102#32, 0x103#32, 0x104#32] ∧
    c84.env.pool = [0x105#32, 0x106#32] := by decide

/-- V-CFG-2 and V-CFG-6 (eight buffers of six). -/
theorem test_cfg_errors :
    (after (exec .cfg (boot 0x00040006#32 0x600#32))).port = returned .misconfigured 0#32 ∧
    (after (exec .cfg (boot 0x00080008#32 0x600#32))).port = returned .outOfBuffers 0#32 ∧
    (after (exec .cfg (boot 0x00080008#32 0x600#32))).env.pool = (boot 0#32 0#32).env.pool := by decide

/-! ### TX_SEND, TX_RECLAIM, TXD -/

/-- V-TX-1 (two bytes): filled, then owned, then the doorbell. -/
theorem test_send_one : let t := after (exec (.txSend 1) (withArgs c84 one))
    (t.txAt 0) = txSlot 0x11#32 2#16 true false ∧ (t.runWorker 1).txAt 0 = txSlot 0x11#32 2#16 true true ∧
    (t.runWorker 2).tx.current = 1#16 ∧ (t.runWorker 2).tx.inUse = 1#17 ∧ (t.runWorker 2).readReg .status = 3#32 := by
  decide

/-- V-TX-9, V-TX-10, V-TX-12, V-TX-13: a repeated handle, handle 0, a handle of an RX slot, a misaligned buffer. -/
theorem test_send_errors :
    (after (exec (.txSend 2) (withArgs c84 [(0, 0x11#32), (1, 1#32), (2, 0x11#32), (3, 1#32)]))).port =
      returned .badChain 0#32 ∧
    (after (exec (.txSend 1) (withArgs c84 [(0, 0#32), (1, 1#32)]))).port = returned .badChain 0#32 ∧
    (after (exec (.txSend 1) (withArgs c84 [(0, 0x101#32), (1, 1#32)]))).port = returned .badChain 0#32 ∧
    (after (exec (.txSend 1) { withArgs c84 [(0, 0x13#32), (1, 1#32)] with params.txAlignLog2 := 3 })).port =
      returned .unaligned 0#32 := by decide

/-- V-RC-1. -/
theorem test_reclaim_one :
    let s := { done2 with port.w := .reclaim 1 0 }
    s.workerStep.tx.slots.map TxSlot.word0 = [0#32, 0x20000001#32, 0#32, 0x40000000#32] ∧
    s.workerStep.tx.release = 1#16 ∧ s.workerStep.tx.inUse = 1#17 ∧ s.workerStep.port.w = .reclaim 0 1 ∧
    s.workerStep.env.pool = [0x11#32, 0x103#32, 0x104#32, 0x105#32, 0x106#32] := by decide

/-- V-RC-7. -/
theorem test_reclaim_fault :
    let s := { (c84.setTx 2 { TxSlot.free with owned := true }) with
      tx.release := 2#16, tx.inUse := 1#17, port.w := .reclaim 0 0 }
    s.workerStep.readReg .fault = 1#32 ∧ s.workerStep.readReg .faultSlot = 2#32 ∧ s.workerStep.busy = true := by decide

/-- V-TXD-1 and V-TXD-2. -/
theorem test_txd_completion :
    let s := ((after (exec (.txSend 1) (withArgs c84 one))).runWorker 2).txdStep
    s.txd = { idx := 0#16, state := .completing, left := 1#17 } ∧
    (s.txdStep.txAt 0).owned = false ∧ s.txdStep.txd.idx = 1#16 ∧ s.txdStep.txd.state = .running ∧
    s.txdStep.irq.isr = 2#2 ∧ s.txdStep.irqLine = true := by decide

/-- V-TXD-6. -/
theorem test_txd_fault :
    let s := { (c84.setTx 2 (txSlot 0x11#32 10#16 false true)) with txd := { idx := 2#16, state := .running, left := 0#17 } }
    s.txdStep.readReg .fault = 2#32 ∧ s.txdStep.readReg .faultSlot = 3#32 := by decide

/-! ### RX_POLL, RXD -/

/-- V-RXD-1 (three bytes). -/
theorem test_rxd_write : let t := (c84.offerFrame [7#8, 8#8, 9#8]).rxdStep
    t.rxAt 0 = rxSlot 0x101#32 3#16 true true false ∧ t.rxd.idx = 1#16 ∧ t.irq.isr = 1#2 ∧
    Memory.readBytes t.buf.data 0x101#32 0 3 = [7#8, 8#8, 9#8] := by decide

/-- V-RXD-3 (four bytes a buffer, two slots). -/
theorem test_rxd_overflow :
    (c42.offerFrame (List.replicate 9 0#8)).readReg .rxOvfCount = 1#32 ∧
    (c42.offerFrame (List.replicate 9 0#8)).rx = c42.rx := by decide

/-- V-RX-1 (three bytes). -/
theorem test_poll_delivers :
    let t := (after (exec .rxPoll (c84.offerFrame [7#8, 8#8, 9#8]).rxdStep)).runWorker 3
    t.port = returned .ok 1#32 ∧
    t.env.delivered = [{ handles := [0x101#32], totalLength := 3#16, spans := [3#16] }] ∧
    t.rxAt 0 = rxSlot 0x105#32 0#16 false false true ∧ t.rx.current = 1#16 := by decide

/-- R30, R33: the Frame Router owns what is delivered; the handle comes back only through a release. -/
theorem test_delivered_handles :
    let t := (after (exec .rxPoll (c84.offerFrame [7#8, 8#8, 9#8]).rxdStep)).runWorker 3
    t.env.router = [0x101#32] ∧
    ({ withArgs t [(0, 0x101#32), (1, 1#32)] with params.bufAddr := [(0x101, 0#32)] } : State).sendBreaksDuty
      0x00000102#32 = true ∧
    (after (t.hostMove (.giveBack 0x101#32))).env.router = [] ∧
    (after (t.hostMove (.giveBack 0x101#32))).env.pool = [0x101#32, 0x106#32] := by decide

/-- V-RX-8. -/
theorem test_poll_length_fault :
    let s := { (c84.setRx 2 (rxSlot 0x103#32 2000#16 true true false)) with rx.current := 2#16, port.w := .pollVisit 0 }
    s.workerStep.readReg .fault = 4#32 ∧ s.workerStep.readReg .faultSlot = 0x00010002#32 := by decide

/-! ### Event gate -/

/-- V-G-1. -/
theorem test_irq_entry : let t := after (exec .irqEntry { c84 with irq.isr := 3#2 })
    t.irq.isr = 0#2 ∧ t.interruptStep.irq.evt = 3#2 ∧ t.interruptStep.irq.sig = true ∧
    t.interruptStep.irq.intResult = 0#8 := by decide

/-- V-G-4. -/
theorem test_irq_entry_keeps_later_bits :
    let t := ((after (exec .irqEntry { c84 with irq.isr := 1#2 })).setIsr txDoneBit).interruptStep
    t.irq.evt = 1#2 ∧ t.irq.isr = 2#2 ∧ t.irqLine = true := by decide

/-- V-G-2. -/
theorem test_drain : let t := after (exec .evtDrain { c84 with irq.evt := 3#2, irq.sig := true })
    t.port = returned .ok 3#32 ∧ t.irq.evt = 0#2 ∧ t.irq.sig = false := by decide

/-- R345: the gate is DRAINING until both service commands have returned. -/
theorem test_gate_view :
    let t := after (exec .evtDrain { c84 with irq.evt := 3#2, irq.sig := true })
    let u := after (exec .txReclaim t)
    let v := (after (exec .rxPoll u)).workerStep
    t.gateView = .draining ∧ u.gateView = .draining ∧ v.busy = false ∧ v.gateView = .idle ∧
    ({ t with irq.evt := 1#2 } : State).gateView = .eventPending := by decide

/-- V-G-8. -/
theorem test_drain_unconfigured :
    (after (exec .evtDrain { boot 0#32 0#32 with irq.evt := 3#2 })).readReg .result = 9#32 := by decide

/-! ### Multicast -/

/-- `C84` with the address whose bucket is 36 in the arguments. -/
def mc36 : State := withArgs c84 [(0, 0x00000001#32), (1, 0x00000100#32)]

/-- `mc36` with a count and its filter bit. -/
def mc36With (n : BitVec 8) : State :=
  { mc36 with mc.count := mc36.mc.count.set 36 n, mc.filter := if n = 0#8 then 0#64 else bucketMask 36#6 }

/-- V-MC-1. -/
theorem test_join : let t := after (exec .mcJoin mc36)
    t.port = returned .ok 0#32 ∧ t.readReg .mcHashHi = 0x00000010#32 ∧ t.readReg (.mcCount 9) = 1#32 := by decide

/-- V-MC-7. -/
theorem test_join_saturated : (after (exec .mcJoin (mc36With 255#8))).port = returned .tableFull 0#32 := by decide

/-- V-MC-4. -/
theorem test_leave : let t := after (exec .mcLeave (mc36With 1#8))
    t.readReg .mcHashHi = 0#32 ∧ t.readReg (.mcCount 9) = 0#32 := by decide

/-- V-MC-5. -/
theorem test_leave_not_joined : (after (exec .mcLeave mc36)).port = returned .notJoined 0#32 := by decide

/-! ### Witnesses: a state and operands that meet the hypotheses of each statement -/

/-- A bounded form of "for all places from `d` on". -/
theorem of_bounded {n : Nat} {Q P : Nat → Prop} (h : ∀ j < n, Q j → P j) : ∀ j, Q j → j < n → P j :=
  fun j hq hj => h j hj hq

theorem witness_DecodeAndEncodeAgree : (Instr.txSend 255).wf = true ∧ decode .worker 0x0000FF02#32 = .ok (.txSend 255) ∧
    decode .interrupt 0x00000008#32 = .ok .irqEntry := by decide

theorem witness_StepRunsTheDecodedCommand :
    ({ withArgs c84 one with script := [.host (issueMove 0x00000102#32), .txd] } : State).script =
      .host (issueMove 0x00000102#32) :: [.txd] ∧
    decode (portOfWord 0x00000102#32) 0x00000102#32 = .ok (.txSend 1) ∧
    ({ withArgs c84 one with script := [.txd] } : State).sendBreaksDuty 0x00000102#32 = false := by decide

theorem witness_IllegalWordsChangeOnlyTheResult : c84.Accepting ∧ c84.interruptBusy = false ∧
    (opField 0x00000000#32).toNat = 0 ∧ 8 ≤ (opField 0x00000008#32).toNat ∧ 8 ≤ (opField 0x000000FF#32).toNat ∧
    resField 0x00010002#32 ≠ 0#16 ∧ (opField 0x00000103#32 ≠ 0x02#8 ∧ kField 0x00000103#32 ≠ 0#8) := by decide

theorem witness_OtherAccessesAreStuck : ¬(2 % 4 = 0 ∧ 32 = 32) ∧ ¬(0 % 4 = 0 ∧ 16 = 32) ∧
    ({ c84 with script := [.host (.write 2 32 0#32)] } : State).script = [.host (.write 2 32 0#32)] ∧
    ({ c84 with script := [.host (.read 0 16)] } : State).script = [.host (.read 0 16)] := by decide

theorem boot_canonical (counts cap : Word) : Canonical (boot counts cap) where
  data := by show Memory.wf []; decide
  args := by show List.Pairwise (· < ·) [0, 1, 2, 3]; decide
  span := by show Store.wf ([] : List (Nat × BitVec 16)); decide
  noZeroSpan := fun _ h => absurd h List.not_mem_nil
  pool := by show HandleSet.wf [0x101#32, 0x102#32, 0x103#32, 0x104#32, 0x105#32, 0x106#32]; decide
  router := List.Pairwise.nil

/-- CFG's legal operands. -/
def CfgLegal (s : State) : Prop := s.Accepting ∧ s.cfg.configured = false ∧ pow2 s.cfgTxCount = true ∧
  pow2 s.cfgRxCount = true ∧ s.cfgCapacity ≠ 0#16

/-- Rings of one slot, and the largest TX ring. -/
theorem witness_CfgBuildsBothRings :
    (CfgLegal (boot 0x00010001#32 1#32) ∧
      (boot 0x00010001#32 1#32).cfgRxCount.toNat ≤ (boot 0x00010001#32 1#32).env.pool.length) ∧
    (CfgLegal (boot 0x00048000#32 0xFFFF#32) ∧
      (boot 0x00048000#32 0xFFFF#32).cfgRxCount.toNat ≤ (boot 0x00048000#32 0xFFFF#32).env.pool.length) := by
  unfold CfgLegal
  decide

theorem witness_CfgErrorsInOrder : (c84.Accepting ∧ HandleSet.wf c84.env.pool ∧ c84.cfg.configured = true) ∧
    ((boot 0x00040006#32 1#32).Accepting ∧ (boot 0x00040006#32 1#32).cfg.configured = false ∧
      pow2 (boot 0x00040006#32 1#32).cfgTxCount = false) ∧
    pow2 (boot 0x00000008#32 1#32).cfgRxCount = false ∧ (boot 0x00040008#32 0xFFFF0000#32).cfgCapacity = 0#16 ∧
    (CfgLegal (boot 0x00080001#32 1#32) ∧
      (boot 0x00080001#32 1#32).env.pool.length < (boot 0x00080001#32 1#32).cfgRxCount.toNat) := by
  unfold CfgLegal
  decide

theorem witness_CfgFrame : exec .cfg (boot 0x00020004#32 4#32) = .next c42 := rfl

theorem witness_UnconfiguredCommandsAnswerNotConfigured : State.reset.Accepting ∧ State.reset.cfg.configured = false ∧
    State.reset.interruptBusy = false ∧ Instr.rxPoll.port = .worker ∧ Instr.rxPoll ≠ .cfg := by decide

theorem witness_IgnoredWrites : ({ c84 with port.w := .pollVisit 0 } : State).busy = true ∧
    ({ c84 with halt.fault := 1#4 } : State).halt.fault ≠ 0#4 := by decide

/-- `C42` at its wrap slot, with two fragments to send. -/
def atWrap : State := { withArgs c42 two with tx.current := 3#16, tx.release := 3#16, txd.idx := 3#16 }

/-- One fragment, and as many fragments as the ring has free slots behind the cursor, across the wrap slot. -/
theorem witness_SendFillsThenCommitsInReverse :
    ((withArgs c42 one).Ready ∧ (withArgs c42 one).sendError 1 = none ∧
      ∀ i < 1, ((withArgs c42 one).txAt ((withArgs c42 one).sendSlot i)).isFree = true) ∧
    (atWrap.Ready ∧ atWrap.sendError 2 = none ∧ ∀ i < 2, (atWrap.txAt (atWrap.sendSlot i)).isFree = true) := by decide

/-- `C42` with a slot in use where the second fragment would go. -/
def slot1Used : State := withArgs (c42.setTx 1 (txSlot 0x14#32 1#16 true true)) two

theorem witness_SendErrorsInOrder :
    (withArgs c42 one).Ready ∧
    (∃ i < 1, (withArgs c42 [(0, 0x11#32), (1, 5#32)]).cfg.cap.toNat <
      ((withArgs c42 [(0, 0x11#32), (1, 5#32)]).sendLen i).toNat) ∧
    (∃ i < 2, ∃ j < 2, i ≠ j ∧ (withArgs c42 [(0, 0x11#32), (1, 1#32), (2, 0x11#32), (3, 1#32)]).sendHandle i =
      (withArgs c42 [(0, 0x11#32), (1, 1#32), (2, 0x11#32), (3, 1#32)]).sendHandle j) ∧
    (∃ i < 1, ∃ d ∈ (withArgs c42 [(0, 0x101#32), (1, 1#32)]).rx.slots,
      d.buf = (withArgs c42 [(0, 0x101#32), (1, 1#32)]).sendHandle i) ∧
    ({ withArgs c42 [(0, 0x13#32), (1, 4#32)] with params.txAlignLog2 := 3 } : State).sendError 1 = some .unaligned ∧
    ({ withArgs c42 two with tx.slots := [TxSlot.free] } : State).sendError 2 = some .ringFull ∧
    (slot1Used.Ready ∧ slot1Used.sendError 2 = none ∧ 2 ≤ slot1Used.nTx ∧
      (∀ i < 2, (slot1Used.txAt (slot1Used.sendSlot i)).buf = 0#32 →
        (slot1Used.txAt (slot1Used.sendSlot i)).owned = false) ∧
      ∃ i < 2, (slot1Used.txAt (slot1Used.sendSlot i)).isFree = false) := by decide

/-- The TX ring after CFG is sound. -/
theorem c42_tx_sound (args : List (Nat × Word)) : TxSound (withArgs c42 args) 0 where
  size := ⟨2, by decide, by rfl⟩
  release_lt := by show 0 < 4; decide
  current_eq := rfl
  room := by show 0 + 0 ≤ 4; decide
  done_le := Nat.zero_le _
  idx_eq := rfl
  done_slots := fun _ h => absurd h (Nat.not_lt_zero _)
  sent_slots := fun _ _ h => absurd h (Nat.not_lt_zero _)
  filled_slots := fun _ h => absurd h (Nat.not_lt_zero _)
  free_slots := of_bounded (n := 4) (by show ∀ j < 4, 0 ≤ j → (c42.txFromRelease j).isFree = true; decide)
  last_closed := fun h => absurd h (Nat.not_lt_zero _)
  completing := fun h => nomatch h
  commit_lt := fun _ _ h => nomatch h
  visits_le := fun _ _ h => nomatch h

theorem c42_txRingOk (args : List (Nat × Word)) : TxRingOk (withArgs c42 args) :=
  (txRingOk_configured rfl).mpr ⟨0, c42_tx_sound args⟩

/-- `C42` with all four TX slots owned, each a frame of its own. -/
def full4 : State :=
  { withArgs c42 two with
    tx := { slots := [txSlot 0x15#32 1#16 true true, txSlot 0x16#32 1#16 true true, txSlot 0x17#32 1#16 true true,
              { txSlot 0x18#32 1#16 true true with wrap := true }],
            current := 0#16, release := 0#16, inUse := 4#17 } }

theorem full4_txRingOk : TxRingOk full4 :=
  (txRingOk_configured rfl).mpr ⟨0, {
    size := ⟨2, by decide, by rfl⟩
    release_lt := by show 0 < 4; decide
    current_eq := rfl
    room := by show 4 + 0 ≤ 4; decide
    done_le := Nat.zero_le _
    idx_eq := rfl
    done_slots := fun _ h => absurd h (Nat.not_lt_zero _)
    sent_slots := of_bounded (n := 4) (by decide)
    filled_slots := fun _ h => absurd h (Nat.not_lt_zero _)
    free_slots := fun j h h' => absurd h' (Nat.not_lt.mpr h)
    last_closed := fun _ => rfl
    completing := fun h => nomatch h
    commit_lt := fun _ _ h => nomatch h
    visits_le := fun _ _ h => nomatch h }⟩

/-- A send that fits and one that does not. -/
theorem witness_RingFullExactlyWhenNoRoom :
    ((withArgs c42 two).Ready ∧ TxRingOk (withArgs c42 two) ∧ (withArgs c42 two).sendError 2 = none) ∧
    (full4.Ready ∧ TxRingOk full4 ∧ full4.sendError 2 = none ∧ full4.nTx < full4.tx.inUse.toNat + 2) :=
  ⟨⟨by decide, c42_txRingOk two, by decide⟩, by decide, full4_txRingOk, by decide⟩

/-- `C42` with one completed slot and one owned slot in use. -/
def done1 : State :=
  { sent2 with
    tx.slots := [txSlot 0x11#32 4#16 false false, txSlot 0x12#32 1#16 true true, TxSlot.free,
      { TxSlot.free with wrap := true }] }

/-- An empty window, a window walked to its end, and one whose second slot is still owned. -/
theorem witness_ReclaimReleasesTheCompletedSlots :
    (c42.Ready ∧ IsRingSize c42.nTx ∧ c42.tx.release.toNat < c42.nTx ∧ c42.tx.inUse.toNat = 0) ∧
    (done2.Ready ∧ IsRingSize done2.nTx ∧ done2.tx.release.toNat < done2.nTx ∧ done2.tx.inUse.toNat = 2 ∧
      2 ≤ done2.nTx ∧ ∀ j < 2, (done2.txFromRelease j).buf ≠ 0#32 ∧ (done2.txFromRelease j).owned = false) ∧
    (done1.Ready ∧ IsRingSize done1.nTx ∧ done1.tx.release.toNat < done1.nTx ∧ done1.tx.inUse.toNat = 2 ∧
      (∀ j < 1, (done1.txFromRelease j).buf ≠ 0#32 ∧ (done1.txFromRelease j).owned = false) ∧
      (done1.txFromRelease 1).buf ≠ 0#32 ∧ (done1.txFromRelease 1).owned = true) :=
  ⟨⟨by decide, ⟨2, by decide, rfl⟩, by decide⟩, ⟨by decide, ⟨2, by decide, rfl⟩, by decide⟩,
    ⟨by decide, ⟨2, by decide, rfl⟩, by decide⟩⟩

theorem witness_ReclaimSkipsAnEmptySlot : c42.halted = false ∧ (c42.txFromRelease 0).buf = 0#32 ∧
    (c42.txFromRelease 0).owned = false ∧ ({ c42 with port.w := .reclaim 0 3 } : State).port.w = .reclaim 0 3 ∧
    ({ c42 with port.w := .reclaim 1 3 } : State).port.w = .reclaim (0 + 1) 3 := by decide

theorem witness_TxdSendsTheWholeFrame : sent2.DmaEnabled ∧ sent2.txd.state = .running ∧ 2 ≤ sent2.nTx ∧
    ∀ j < 2, (sent2.txAt (ringPos sent2.nTx sent2.txd.idx j)).owned = true ∧
      (sent2.txAt (ringPos sent2.nTx sent2.txd.idx j)).buf ≠ 0#32 ∧
      (sent2.txAt (ringPos sent2.nTx sent2.txd.idx j)).last = decide (j + 1 = 2) := by decide

/-- `C42` with TXD woken and nothing to send. -/
def woken : State := { c42 with txd.state := .running }

theorem witness_TxdStopsCompletesAndWakes :
    (woken.DmaEnabled ∧ woken.txd.state = .running ∧ (woken.txAt (ringPos woken.nTx woken.txd.idx 0)).owned = false) ∧
    (sent2.txdStep.DmaEnabled ∧ sent2.txdStep.txd.state = .completing ∧ 0 < sent2.txdStep.nTx ∧
      sent2.txdStep.txd.left ≠ 1#17 ∧ sent2.txdStep.txdStep.txd.state = .completing ∧
      sent2.txdStep.txdStep.txd.left = 1#17) ∧ c42.DmaEnabled := by decide

/-- A frame that fills the RX ring of `C42` exactly. -/
def frame8 : List Byte := [1#8, 2#8, 3#8, 4#8, 5#8, 6#8, 7#8, 8#8]

theorem witness_ReceivedFrameLiesInItsBuffers : c42.DmaEnabled ∧ c42.rxd.frame = none ∧ c42.rxAccepts frame8 = true ∧
    0 < frame8.length ∧ frame8.length ≤ 65535 ∧ 0 < c42.cfg.cap.toNat ∧
    2 = fragmentCount frame8.length c42.cfg.cap.toNat ∧ 2 ≤ c42.nRx ∧ c42.nRx = 2 ^ 1 ∧ c42.rxd.idx.toNat < c42.nRx ∧
    (∀ f < 2, (c42.rxAt (ringPos c42.nRx c42.rxd.idx f)).owned = true ∧
      (c42.rxAt (ringPos c42.nRx c42.rxd.idx f)).buf ≠ 0#32) ∧
    ∀ f < 2, ∀ g < 2, f ≠ g →
      (c42.rxAt (ringPos c42.nRx c42.rxd.idx f)).buf ≠ (c42.rxAt (ringPos c42.nRx c42.rxd.idx g)).buf := by decide

/-- `C42` with a frame of five bytes in both RX slots, written and not yet polled. -/
def written2 : State := (c42.offerFrame [1#8, 2#8, 3#8, 4#8, 5#8]).rxdStep.rxdStep

/-- `C42` with only the first fragment of that frame written. -/
def written1 : State := (c42.offerFrame [1#8, 2#8, 3#8, 4#8, 5#8]).rxdStep

/-- A frame of nine bytes for two slots of four, and a frame that meets an unarmed slot first. -/
theorem witness_OverflowDiscardsTheFrameWhole :
    (c42.DmaEnabled ∧ c42.rxd.frame = none ∧ c42.rxAccepts (0#8 :: frame8) = true ∧
      c42.nRx < fragmentCount (0#8 :: frame8).length c42.cfg.cap.toNat) ∧
    (written2.DmaEnabled ∧ written2.rxd.frame = none ∧ written2.rxAccepts frame8 = true ∧
      ∃ f < fragmentCount frame8.length written2.cfg.cap.toNat,
        (written2.rxAt (ringPos written2.nRx written2.rxd.idx f)).owned = false ∧
        ∀ g < f, (written2.rxAt (ringPos written2.nRx written2.rxd.idx g)).owned = true →
          (written2.rxAt (ringPos written2.nRx written2.rxd.idx g)).buf ≠ 0#32) := by decide

/-- The fourth case, a frame `RX_ACCEPT` refuses, is open: that parameter has no value in Lean. -/
theorem witness_FramesNotTakenAreLost : (boot 0#32 0#32).cfg.configured = false ∧
    ({ c42 with halt.fault := 2#4 } : State).halt.fault ≠ 0#4 ∧ written1.rxd.frame ≠ none := by decide

/-- That state is in canonical form with any free set in canonical form. -/
theorem written2_canonical (pool : List Handle) (hp : HandleSet.wf pool) :
    Canonical { written2 with env.pool := pool } where
  data := by
    show Memory.wf written2.buf.data
    decide
  args := by
    show List.Pairwise (· < ·) [0, 1, 2, 3]
    decide
  span := by
    show Store.wf ([] : List (Nat × BitVec 16))
    decide
  noZeroSpan := fun _ h => absurd h List.not_mem_nil
  pool := hp
  router := List.Pairwise.nil

theorem written2_frameReady (pool : List Handle) : FrameReady { written2 with env.pool := pool } 2 5#16 where
  size := ⟨1, by decide, rfl⟩
  current_lt := by show 0 < 2; decide
  chain_first := fun h => absurd rfl h
  k_pos := by decide
  k_le := by show 0 + 2 ≤ 2; decide
  slots := by
    show ∀ j < 2, (written2.rxFromCurrent j).owned = false ∧ (written2.rxFromCurrent j).buf ≠ 0#32 ∧
      (written2.rxFromCurrent j).eof = decide (j + 1 = 2)
    decide
  len_eq := rfl
  len_gt := by show (0 + 2 - 1) * 4 < 5; decide
  len_le := by show 5 ≤ (0 + 2) * 4; decide

/-- `C42` with the first fragment linked into the chain by an earlier RX_POLL and the second one written since. -/
def open1 : State :=
  { written2 with
    rx.slots := [rxSlot 0#32 4#16 true false false, { rxSlot 0x102#32 5#16 false true false with wrap := true }]
    rx.chain := [0x101#32], rx.current := 1#16 }

theorem open1_frameReady : FrameReady open1 1 5#16 where
  size := ⟨1, by decide, rfl⟩
  current_lt := by show 1 < 2; decide
  chain_first := fun _ => rfl
  k_pos := by decide
  k_le := by show 1 + 1 ≤ 2; decide
  slots := by decide
  len_eq := rfl
  len_gt := by show (1 + 1 - 1) * 4 < 5; decide
  len_le := by show 5 ≤ (1 + 1) * 4; decide

theorem open1_canonical : Canonical open1 where
  data := by
    show Memory.wf written2.buf.data
    decide
  args := by
    show List.Pairwise (· < ·) [0, 1, 2, 3]
    decide
  span := by
    show Store.wf ([] : List (Nat × BitVec 16))
    decide
  noZeroSpan := fun _ h => absurd h List.not_mem_nil
  pool := by decide
  router := List.Pairwise.nil

/-- A whole frame in the ring, and a frame whose first fragment is already in the chain. -/
theorem witness_PollDeliversACompleteFrame :
    (written2.Ready ∧ Canonical written2 ∧ FrameReady written2 2 5#16 ∧ ¬(written2.rx.chain.length + 2 < written2.nRx) ∧
      (written2.rx.chain ++ written2.nextHandles 2).Nodup ∧
      (∀ h ∈ written2.rx.chain ++ written2.nextHandles 2, h ∉ written2.env.pool) ∧
      written2.rx.chain.length + 2 ≤ written2.env.pool.length) ∧
    (open1.Ready ∧ Canonical open1 ∧ FrameReady open1 1 5#16 ∧ ¬(open1.rx.chain.length + 1 < open1.nRx) ∧
      (open1.rx.chain ++ open1.nextHandles 1).Nodup ∧
      (∀ h ∈ open1.rx.chain ++ open1.nextHandles 1, h ∉ open1.env.pool) ∧
      open1.rx.chain.length + 1 ≤ open1.env.pool.length) :=
  ⟨⟨by decide, written2_canonical _ (by decide), written2_frameReady _, by decide, by decide,
      List.forall_mem_iff_getElem.mpr (by decide), by decide⟩,
    by decide, open1_canonical, open1_frameReady, by decide, by decide,
    List.forall_mem_iff_getElem.mpr (by decide), by decide⟩

theorem witness_PollRecyclesWhenBuffersRunOut :
    ({ written2 with env.pool := [0x103#32] } : State).Ready ∧ Canonical { written2 with env.pool := [0x103#32] } ∧
    FrameReady { written2 with env.pool := [0x103#32] } 2 5#16 ∧ ¬(written2.rx.chain.length + 2 < written2.nRx) ∧
    ({ written2 with env.pool := [0x103#32] } : State).env.pool.length < written2.rx.chain.length + 2 :=
  ⟨by decide, written2_canonical _ (by decide), written2_frameReady _, by decide, by decide⟩

/-- No fragment, and one. -/
theorem witness_PollKeepsAnOpenChain :
    (c42.Ready ∧ c42.nRx = 2 ^ 1 ∧ c42.rx.current.toNat < c42.nRx ∧ 0 < c42.nRx ∧ (c42.rxFromCurrent 0).owned = true) ∧
    (written1.Ready ∧ written1.nRx = 2 ^ 1 ∧ written1.rx.current.toNat < written1.nRx ∧ 1 < written1.nRx ∧
      (∀ j < 1, (written1.rxFromCurrent j).owned = false ∧ (written1.rxFromCurrent j).buf ≠ 0#32 ∧
        (written1.rxFromCurrent j).eof = false) ∧ (written1.rxFromCurrent 1).owned = true) := by decide

/-- An RX_POLL about to visit an empty slot, and one about to visit an EOF slot with a length over its capacity. -/
def badPoll (buf : Handle) (len : BitVec 16) : State :=
  { c42.setRx 0 (rxSlot buf len true true false) with port.w := .pollVisit 0 }

theorem witness_PollFaults :
    ((badPoll 0#32 0#16).halt.fault = 0#4 ∧ (badPoll 0#32 0#16).port.w = .pollVisit 0 ∧
      (badPoll 0#32 0#16).rx.current.toNat < (badPoll 0#32 0#16).nRx ∧
      ((badPoll 0#32 0#16).rxFromCurrent 0).owned = false ∧ ((badPoll 0#32 0#16).rxFromCurrent 0).buf = 0#32) ∧
    (∀ len < 6, len = 0 ∨ len = 5 →
      ((badPoll 0x101#32 (BitVec.ofNat 16 len)).rxFromCurrent 0).owned = false ∧
      ((badPoll 0x101#32 (BitVec.ofNat 16 len)).rxFromCurrent 0).buf ≠ 0#32 ∧
      ((badPoll 0x101#32 (BitVec.ofNat 16 len)).rxFromCurrent 0).eof = true ∧
      ¬((badPoll 0x101#32 (BitVec.ofNat 16 len)).rx.chain.length * (badPoll 0x101#32 (BitVec.ofNat 16 len)).cfg.cap.toNat <
          ((badPoll 0x101#32 (BitVec.ofNat 16 len)).rxFromCurrent 0).len.toNat ∧
        ((badPoll 0x101#32 (BitVec.ofNat 16 len)).rxFromCurrent 0).len.toNat ≤
          ((badPoll 0x101#32 (BitVec.ofNat 16 len)).rx.chain.length + 1) *
            (badPoll 0x101#32 (BitVec.ofNat 16 len)).cfg.cap.toNat)) := by decide

/-- `C42` with the second TX slot owned and empty, two fragments to send. -/
def emptyOwned : State := withArgs (c42.setTx 1 { TxSlot.free with owned := true }) two

/-- `C42` with a first fragment owned and behind it an empty owned slot, TXD running. -/
def emptyBehind : State :=
  { (c42.setTx 0 (txSlot 0x11#32 1#16 false true)).setTx 1 { TxSlot.free with owned := true } with
    txd.state := .running }

/-- `C42` with its second RX slot owned and empty. -/
def emptyArmed : State := c42.setRx 1 (rxSlot 0#32 0#16 false false true)

theorem witness_EmptyOwnedSlotFaults :
    (emptyOwned.Ready ∧ emptyOwned.sendError 2 = none ∧
      (∀ j < 1, (emptyOwned.txAt (emptyOwned.sendSlot j)).isFree = true) ∧
      (emptyOwned.txAt (emptyOwned.sendSlot 1)).buf = 0#32 ∧
      (emptyOwned.txAt (emptyOwned.sendSlot 1)).owned = true) ∧
    (({ c42.setTx 0 { TxSlot.free with owned := true } with port.w := .reclaim 0 0 } : State).halt.fault = 0#4 ∧
      ((c42.setTx 0 { TxSlot.free with owned := true }).txFromRelease 0).buf = 0#32 ∧
      ((c42.setTx 0 { TxSlot.free with owned := true }).txFromRelease 0).owned = true) ∧
    (emptyBehind.DmaEnabled ∧ emptyBehind.txd.state = .running ∧ 1 < emptyBehind.nTx ∧
      (∀ i < 1, (emptyBehind.txAt (ringPos emptyBehind.nTx emptyBehind.txd.idx i)).owned = true ∧
        (emptyBehind.txAt (ringPos emptyBehind.nTx emptyBehind.txd.idx i)).buf ≠ 0#32 ∧
        (emptyBehind.txAt (ringPos emptyBehind.nTx emptyBehind.txd.idx i)).last = false) ∧
      (emptyBehind.txAt (ringPos emptyBehind.nTx emptyBehind.txd.idx 1)).owned = true ∧
      (emptyBehind.txAt (ringPos emptyBehind.nTx emptyBehind.txd.idx 1)).buf = 0#32) ∧
    (emptyArmed.DmaEnabled ∧ emptyArmed.rxd.frame = none ∧ emptyArmed.rxAccepts frame8 = true ∧
      fragmentCount frame8.length emptyArmed.cfg.cap.toNat ≤ emptyArmed.nRx ∧
      1 < fragmentCount frame8.length emptyArmed.cfg.cap.toNat ∧
      (∀ g < 1, (emptyArmed.rxAt (ringPos emptyArmed.nRx emptyArmed.rxd.idx g)).owned = true ∧
        (emptyArmed.rxAt (ringPos emptyArmed.nRx emptyArmed.rxd.idx g)).buf ≠ 0#32) ∧
      (emptyArmed.rxAt (ringPos emptyArmed.nRx emptyArmed.rxd.idx 1)).owned = true ∧
      (emptyArmed.rxAt (ringPos emptyArmed.nRx emptyArmed.rxd.idx 1)).buf = 0#32) := by decide

/-- `C42` with a first fragment owned and the slot behind it not owned, TXD running. -/
def brokenBehind : State := { c42.setTx 0 (txSlot 0x11#32 1#16 false true) with txd.state := .running }

/-- Four owned slots and no last fragment (V-TXD-7 on four slots). -/
def noLast : State :=
  { c42 with
    tx.slots := [txSlot 0x11#32 1#16 false true, txSlot 0x12#32 1#16 false true, txSlot 0x13#32 1#16 false true,
      { txSlot 0x14#32 1#16 false true with wrap := true }]
    txd.state := .running }

theorem witness_BrokenTxChainFaults :
    (brokenBehind.DmaEnabled ∧ brokenBehind.txd.state = .running ∧ 1 < brokenBehind.nTx ∧
      (∀ i < 1, (brokenBehind.txAt (ringPos brokenBehind.nTx brokenBehind.txd.idx i)).owned = true ∧
        (brokenBehind.txAt (ringPos brokenBehind.nTx brokenBehind.txd.idx i)).buf ≠ 0#32 ∧
        (brokenBehind.txAt (ringPos brokenBehind.nTx brokenBehind.txd.idx i)).last = false) ∧
      (brokenBehind.txAt (ringPos brokenBehind.nTx brokenBehind.txd.idx 1)).owned = false) ∧
    (noLast.DmaEnabled ∧ noLast.txd.state = .running ∧ 0 < noLast.nTx ∧
      ∀ i < 4, (noLast.txAt (ringPos noLast.nTx noLast.txd.idx i)).owned = true ∧
        (noLast.txAt (ringPos noLast.nTx noLast.txd.idx i)).buf ≠ 0#32 ∧
        (noLast.txAt (ringPos noLast.nTx noLast.txd.idx i)).last = false) := by decide

/-- A drain, a TX_RECLAIM and an RX_POLL about to return, and a TX_RECLAIM of an empty window. -/
theorem witness_DrainSwapsTheEventSet : c84.Ready ∧ ({ c84 with irq.evt := 3#2 } : State).irq.evt ≠ 0#2 ∧
    (∃ t, exec .evtDrain c84 = .next t) ∧
    (({ done2 with port.w := .reclaim 0 1 } : State).port.w.inReclaim = true ∧
      ({ done2 with port.w := .reclaim 0 1 } : State).workerStep.busy = false) ∧
    (({ c84 with port.w := .pollVisit 0 } : State).port.w.inPoll = true ∧
      ({ c84 with port.w := .pollVisit 0 } : State).workerStep.busy = false) ∧
    (∃ t, exec .txReclaim c84 = .next t) ∧ c84.tx.inUse = 0#17 ∧ ∃ t, exec .rxPoll c84 = .next t :=
  ⟨by decide, by decide, ⟨_, rfl⟩, by decide, by decide, ⟨_, rfl⟩, rfl, _, rfl⟩

theorem witness_IrqEntryCapturesThenMerges : c84.halted = false ∧ c84.interruptBusy = false := by decide

theorem witness_NestedEntryRunsAfterTheFirst : ({ c84 with irq.latch := some 2#2 } : State).halted = false ∧
    ({ c84 with irq.latch := some 2#2 } : State).irq.latch = some 2#2 ∧ c84.irq.queue = [] := by decide

/-- An EVT_DRAIN that clears two bits. -/
theorem witness_EventsLeaveOnlyThroughADrain :
    ∃ t, step { c84 with irq.evt := 3#2, irq.sig := true, script := [.host (issueMove (encode .evtDrain))] } = .next t ∧
      3#2 &&& ~~~t.irq.evt ≠ 0#2 := ⟨_, rfl, by decide⟩

/-- IRQ_ENTRY's capture, and a write of 1. -/
theorem witness_PendingInterruptStays :
    (∃ t, ({ c84 with irq.isr := 3#2 } : State).takeTurn (.host (issueMove (encode .irqEntry))) = .next t ∧
      3#2 &&& ~~~t.irq.isr ≠ 0#2) ∧
    ∃ t, ({ c84 with irq.isr := 3#2 } : State).takeTurn (.host (.write 0x014 32 1#32)) = .next t ∧
      3#2 &&& ~~~t.irq.isr ≠ 0#2 := ⟨⟨_, rfl, by decide⟩, _, rfl, by decide⟩

theorem mc36With_matches (n : BitVec 8) (hn : n = 0#8 ∨ n = 1#8 ∨ n = 255#8) : FilterMatchesCounts (mc36With n) := by
  rcases hn with rfl | rfl | rfl <;> · unfold FilterMatchesCounts; decide

theorem witness_JoinCountsAndSetsTheFilter : ((mc36With 1#8).Ready ∧ FilterMatchesCounts (mc36With 1#8) ∧
      (mc36With 1#8).mc.countOf (mc36With 1#8).argBucket ≠ 255#8) ∧
    ((mc36With 255#8).Ready ∧ FilterMatchesCounts (mc36With 255#8) ∧
      (mc36With 255#8).mc.countOf (mc36With 255#8).argBucket = 255#8) :=
  ⟨⟨by decide, mc36With_matches _ (by decide), by decide⟩, by decide, mc36With_matches _ (by decide), by decide⟩

theorem witness_LeaveCountsAndClearsTheFilter : ((mc36With 1#8).Ready ∧ FilterMatchesCounts (mc36With 1#8) ∧
      (mc36With 1#8).mc.countOf (mc36With 1#8).argBucket ≠ 0#8) ∧
    ((mc36With 0#8).Ready ∧ FilterMatchesCounts (mc36With 0#8) ∧
      (mc36With 0#8).mc.countOf (mc36With 0#8).argBucket = 0#8) :=
  ⟨⟨by decide, mc36With_matches _ (by decide), by decide⟩, by decide, mc36With_matches _ (by decide), by decide⟩

theorem witness_JoinLeaveRoundTrip : (c84.mc.countOf 5#6 = 0#8 ∧ c84.mc.filterBit 5#6 = false ∧ 255 ≤ 255) ∧
    FilterMatchesCounts (mc36With 1#8) ∧ (mc36With 1#8).mc.countOf 36#6 ≠ 255#8 :=
  ⟨by decide, mc36With_matches _ (by decide), by decide⟩

theorem witness_AtomicCommandsFrame : (∃ t, exec .evtDrain c84 = .next t) ∧ (∃ t, exec .mcJoin mc36 = .next t) ∧
    ∃ t, exec .mcLeave mc36 = .next t := ⟨⟨_, rfl⟩, ⟨_, rfl⟩, _, rfl⟩

/-- For each of the three commands its first step, and a further step of W. -/
theorem witness_RingCommandsFrame :
    ((∃ t, SendStep (withArgs c42 two) t) ∧
      (∃ t, SendStep { c42 with port.w := .txCommit 2 1 } t ∧ t.port.w = .txCommit 2 0)) ∧
    ((∃ t, ReclaimStep done2 t) ∧ ∃ t, ReclaimStep { done2 with port.w := .reclaim 1 0 } t ∧ t.port.w = .reclaim 0 1) ∧
    ((∃ t, PollStep written2 t) ∧
      ∃ t, PollStep { written2 with port.w := .pollVisit 0 } t ∧ t.port.w = .pollVisit 0) :=
  ⟨⟨⟨_, .inl ⟨2, rfl⟩⟩, _, .inr ⟨rfl, rfl⟩, rfl⟩, ⟨⟨_, .inl rfl⟩, _, .inr ⟨rfl, rfl⟩, by decide⟩,
    ⟨_, .inl rfl⟩, _, .inr ⟨rfl, rfl⟩, by decide⟩

theorem witness_DmaStepsFrame : sent2.txdStep = sent2.txdStep ∨ sent2.txdStep = sent2.rxdStep := .inl rfl

theorem witness_StatusRegistersRead : IsRingSize c84.nTx ∧ IsRingSize c84.nRx ∧ Unlisted 0x078 ∧ Unlisted 0x0FC ∧
    Unlisted 0x140 ∧ Unlisted 0xFFC :=
  ⟨⟨3, by decide, rfl⟩, ⟨2, by decide, rfl⟩, by decide⟩

/-- The first and the last register, an ISR write while a command runs, and an offset that takes no write. -/
theorem witness_RegisterAccess : (0x1FFC % 4 = 0 ∧ 0x1FFC % 0x2000 ≠ 0) ∧
    (({ c84 with port.w := .pollVisit 0 } : State).halted = false ∧
      ({ c84 with port.w := .pollVisit 0 } : State).busy = true) ∧
    (1023 < 1024 ∧ c84.Accepting) ∧
    (0x004 % 4 = 0 ∧ 0x004 < 0x1000 ∧ 0x004 ∉ [0x000, 0x014, 0x020, 0x024, 0x070, 0x074]) := by decide

theorem witness_RingBasesFreezeAtCfg : State.reset.cfg.configured = false ∧ c84.cfg.configured = true := by decide

/-- `C42` with a turn of W fixed, as the state before a step. -/
def turnW : State := { c42 with script := [.worker] }

theorem turnW_step : step turnW = .next c42 := rfl

theorem witness_EveryStepKeepsFilterAndCounts :
    FilterMatchesCounts { mc36With 1#8 with script := [.host (issueMove (encode .mcLeave))] } ∧
    ∃ t, step { mc36With 1#8 with script := [.host (issueMove (encode .mcLeave))] } = .next t :=
  ⟨mc36With_matches 1#8 (by decide), _, rfl⟩

theorem witness_EveryStepKeepsEventsSignalled : EventsSignalled turnW ∧ step turnW = .next c42 :=
  ⟨fun h => absurd rfl h, turnW_step⟩

theorem witness_EveryStepKeepsCanonicalForm : Canonical { written2 with script := [.rxd] } ∧
    ∃ t, step { written2 with script := [.rxd] } = .next t :=
  ⟨⟨(written2_canonical [] (by decide)).data, (written2_canonical [] (by decide)).args,
    (written2_canonical [] (by decide)).span, (written2_canonical [] (by decide)).noZeroSpan, by decide, by decide⟩, _, rfl⟩

theorem witness_RingShapeIsFixed : step turnW = .next c42 ∧ turnW.cfg.configured = true ∧ WrapAtEnd turnW :=
  ⟨turnW_step, rfl, by unfold WrapAtEnd; decide⟩

/-- On a configured block, and a base write on one that is not. -/
theorem witness_FaultsStickAndHalt : (({ turnW with halt.fault := 4#4 } : State).halt.fault ≠ 0#4 ∧
      turnW.cfg.configured = true ∧ ∃ t, step { turnW with halt.fault := 4#4 } = .next t) ∧
    ∃ t, step { State.reset with halt.fault := 4#4, script := [.host (.write 0x070 32 5#32)] } = .next t ∧
      t.cfg.txRingBase = 5#32 := ⟨⟨by decide, rfl, _, rfl⟩, _, rfl, rfl⟩

/-- A TX_SEND of two fragments before its doorbell. -/
def atDoorbell : State := (after (exec (.txSend 2) (withArgs c42 two))).runWorker 2

/-- A real handle, and the two handles of a TX_SEND that has written all ownership bits. -/
theorem witness_EveryStepKeepsHandlesExclusive : HandlesExclusive turnW ∧ step turnW = .next c42 ∧ 0x101#32 ≠ 0#32 ∧
    HandlesExclusive atDoorbell ∧ atDoorbell.halted = false ∧ atDoorbell.port.w = .txDoorbell 2 ∧
    0x11#32 ∈ atDoorbell.sending ∧ 0x12#32 ∈ atDoorbell.sending :=
  ⟨⟨by decide, fun _ h => absurd h List.not_mem_nil⟩, turnW_step, by decide, ⟨by decide, fun _ hh => by
    rw [show atDoorbell.sending = [0x11#32, 0x12#32] by decide, List.mem_cons, List.mem_singleton] at hh
    rcases hh with rfl | rfl <;> decide⟩, by decide⟩

/-- Between fill and OK the caller reads a buffer it sends, and does not write it or give it back; after OK it does not read it
(00_scope.md R33, 70_reset_and_hazards.md R472). -/
theorem test_sent_handle_is_the_callers_until_ok :
    (∃ t, atDoorbell.hostMove (.readBuffer 0x11#32 0 2) = .next t) ∧
    atDoorbell.hostMove (.fill 0x11#32 0 [0#8]) = .refused (.noSuchMove .fillsOwnBuffer) ∧
    atDoorbell.hostMove (.giveBack 0x11#32) = .refused (.noSuchMove .keepsSentHandle) ∧
    atDoorbell.workerStep.hostMove (.readBuffer 0x11#32 0 2) = .refused (.noSuchMove .readsOwnBuffer) :=
  ⟨⟨_, rfl⟩, rfl, rfl, rfl⟩

/-- A turn of another agent, and RXD's on another buffer. -/
theorem witness_HeldBuffersAreWrittenOnlyByRxd : (∃ t, written1.takeTurn .txd = .next t) ∧
    (∃ t, written1.takeTurn .rxd = .next t) ∧ written1.blockHolds 0x101#32 = true ∧
    0x101#32 ≠ (written1.rxAt (ringPos written1.nRx written1.rxd.idx 0)).buf := ⟨⟨_, rfl⟩, ⟨_, rfl⟩, by decide⟩

theorem turnW_txRingOk : TxRingOk turnW := by
  have h := c42_tx_sound c42.args
  exact (txRingOk_configured rfl).mpr ⟨0, ⟨h.size, h.release_lt, h.current_eq, h.room, h.done_le, h.idx_eq, h.done_slots, h.sent_slots,
    h.filled_slots, h.free_slots, h.last_closed, h.completing, h.commit_lt, h.visits_le⟩⟩

theorem witness_EveryStepKeepsTheTxRing : TxRingOk turnW ∧ step turnW = .next c42 ∧ TxdAwake turnW :=
  ⟨turnW_txRingOk, turnW_step, fun _ _ _ => by decide⟩

/-- `C42` with an RX_POLL before its first visit. -/
def polling : State := { c42 with port.w := .pollVisit 0 }

/-- `C42` with RXD before the first fragment of a frame of two. -/
def receiving : State := c42.offerFrame frame8

/-- The RX ring after CFG is sound, and stays so as an RX_POLL starts or RXD takes a frame. -/
theorem c42_rxRingOk (s : State) (hs : s = turnW ∨ s = polling ∨ s = receiving) : RxRingOk s := by
  rcases hs with rfl | rfl | rfl
  all_goals
    exact (rxRingOk_configured rfl).mpr ⟨0, {
      size := ⟨1, by decide, rfl⟩
      cap_pos := by show 0 < 4; decide
      current_lt := by show 0 < 2; decide
      idx_eq := rfl
      room := by show 0 + 0 ≤ 2; decide
      written_slots := fun _ h => absurd h (Nat.not_lt_zero _)
      armed_slots := by
        have h : ∀ j < 2, (turnW.rxFromCurrent j).buf ≠ 0#32 ∧ (turnW.rxFromCurrent j).owned = true := by decide
        exact fun j _ hj => h j hj
      empty_slots := fun j hj hj' => absurd hj (Nat.not_lt.mpr hj')
      chain_first := fun h => absurd rfl h
      chain_le := Nat.zero_le _
      chain_bufs := fun _ h => absurd h List.not_mem_nil
      pool_bufs := by
        have h : HandleSet.wf turnW.env.pool := by decide
        exact fun g hg h0 => h.2 (h0 ▸ hg)
      frames := rfl
      taken := fun _ h => by cases h <;> decide
      rearm := fun _ _ _ _ h => nomatch h
      recycle := fun _ _ h => nomatch h }⟩

theorem turnW_rxRingOk : RxRingOk turnW := c42_rxRingOk _ (.inl rfl)

theorem witness_EveryStepKeepsTheRxRing : RxRingOk turnW ∧ step turnW = .next c42 := ⟨turnW_rxRingOk, turnW_step⟩

theorem witness_NoFaultArises : TxRingOk turnW ∧ RxRingOk turnW ∧ turnW.halt.fault = 0#4 ∧ step turnW = .next c42 :=
  ⟨turnW_txRingOk, turnW_rxRingOk, rfl, turnW_step⟩

/-- `C42` in the middle of a TX_SEND of two fragments: filled, `j` ownership bits written. -/
def committing (j : Nat) : State := (after (exec (.txSend 2) (withArgs c42 two))).runWorker j

theorem committing_txRingOk (j : Nat) (hj : j = 0 ∨ j = 1) : TxRingOk (committing j) := by
  rcases hj with rfl | rfl
  all_goals
    exact (txRingOk_configured rfl).mpr ⟨0, {
      size := ⟨2, by decide, by rfl⟩
      release_lt := by decide
      current_eq := rfl
      room := by decide
      done_le := Nat.zero_le _
      idx_eq := rfl
      done_slots := fun _ h => absurd h (Nat.not_lt_zero _)
      sent_slots := fun _ _ h => absurd h (Nat.not_lt_zero _)
      filled_slots := by decide
      free_slots := of_bounded (n := 4) (by decide)
      last_closed := fun h => absurd h (Nat.not_lt_zero _)
      completing := fun h => nomatch h
      commit_lt := fun k i h => by cases h; decide
      visits_le := fun _ _ h => nomatch h }⟩

/-- Before the last ownership write and before the first one. -/
theorem witness_ChainIsSeenWholeOrNotAtAll :
    ((committing 0).cfg.configured = true ∧ TxRingOk (committing 0) ∧ (committing 0).port.w = .txCommit 2 1 ∧
      (committing 0).txd.idx.toNat = (committing 0).sendSlot 0) ∧
    ((committing 1).cfg.configured = true ∧ TxRingOk (committing 1) ∧ (committing 1).port.w = .txCommit 2 0 ∧
      (committing 1).halted = false) :=
  ⟨⟨rfl, committing_txRingOk 0 (.inl rfl), rfl, rfl⟩, rfl, committing_txRingOk 1 (.inr rfl), rfl, rfl⟩

theorem witness_AgentsWriteOnlyTheirSlots : TxRingOk turnW ∧ RxRingOk turnW ∧ (∃ t, exec .rxPoll turnW = .next t) :=
  ⟨turnW_txRingOk, turnW_rxRingOk, _, rfl⟩

/-- A schedule in which the block's agents take turns and ENV does nothing. -/
def roundRobin (n : Nat) : Agent :=
  match n % 4 with
  | 0 => .worker
  | 1 => .interrupt
  | 2 => .txd
  | _ => .rxd

/-- The run from `s` under that schedule. -/
def roundRobinRun (s : State) : Nat → State
  | 0 => s
  | n + 1 => after (step { roundRobinRun s n with script := [(roundRobin n).turn] })

/-- Every state begins a weakly fair run. -/
theorem roundRobin_fair (s : State) : FairRun (fun n => (roundRobin n).turn) (roundRobinRun s) where
  follows n := by
    have h : ∀ (s : State) (a : Agent), step { s with script := [a.turn] } = .next (after (step { s with script := [a.turn] })) :=
      fun _ a => by cases a <;> rfl
    exact h _ _
  fair a n _ := by
    cases a
    · exact ⟨4 * n, by omega, by simp [roundRobin]⟩
    · exact ⟨4 * n + 1, by omega, by simp [roundRobin, Nat.add_mod]⟩
    · exact ⟨4 * n + 2, by omega, by simp [roundRobin, Nat.add_mod]⟩
    · exact ⟨4 * n + 3, by omega, by simp [roundRobin, Nat.add_mod]⟩

/-- No step of that schedule is ENV's. -/
theorem roundRobin_no_offer (n : Nat) (frame : List Byte) : (roundRobin n).turn ≠ .host (.offer frame) := by
  cases roundRobin n <;> exact fun h => nomatch h

/-- Each clause has its start: a weakly fair run from a running TX_SEND, a running TX_RECLAIM, a running RX_POLL with no frame
offered, a captured event, TXD at a frame, TXD completing one, and RXD with one to write. -/
theorem witness_CommandsGoOn : ((committing 0).halted = false ∧ (committing 0).busy = true ∧
      (committing 0).port.w ≠ .stopped) ∧
    ((withArgs c42 two).Accepting ∧ ∃ t, exec (.txSend 2) (withArgs c42 two) = .next t) ∧
    (done2.Accepting ∧ ∃ t, exec .txReclaim done2 = .next t) ∧
    (sent2.enabled .txd = true ∧ ∃ t, sent2.takeTurn .worker = .next t) ∧
    (∀ s, FairRun (fun n => (roundRobin n).turn) (roundRobinRun s)) ∧
    (committing 0).port.w.inSend = true ∧
    ({ done2 with port.w := .reclaim 1 0 } : State).port.w.inReclaim = true ∧
    (polling.port.w.inPoll = true ∧ RxRingOk polling ∧ ∀ n frame, (roundRobin n).turn ≠ .host (.offer frame)) ∧
    ({ c84 with irq.latch := some 2#2 } : State).irq.latch = some 2#2 ∧
    (sent2.cfg.configured = true ∧ sent2.txd.state = .running ∧ sent2.walkFrame 0 sent2.nTx = .frame 2) ∧
    (sent2.txdStep.cfg.configured = true ∧ sent2.txdStep.txd.state = .completing ∧ 0 < sent2.txdStep.txd.left.toNat) ∧
    (receiving.rxd.frame ≠ none ∧ RxRingOk receiving) :=
  ⟨by decide, ⟨by decide, _, rfl⟩, ⟨by decide, _, rfl⟩, ⟨by decide, _, rfl⟩, roundRobin_fair, by decide, rfl,
    ⟨rfl, c42_rxRingOk _ (.inr (.inl rfl)), roundRobin_no_offer⟩, rfl, by decide, by decide, by decide,
    c42_rxRingOk _ (.inr (.inr rfl))⟩

/-- A frame put on the wire. -/
theorem witness_OutputsOnlyGrow : ∃ t, step { sent2 with script := [.txd] } = .next t ∧ t.env.wire ≠ sent2.env.wire :=
  ⟨_, rfl, by decide⟩

/-- A TX_SEND of one byte of buffer `h`, with the Frame Router owning 0x107. -/
def sending (h : Handle) : State :=
  { withArgs c42 [(0, h), (1, 1#32)] with params.bufAddr := [(0x105, 0#32), (0x107, 0#32)], env.router := [0x107#32] }

/-- `TX_SEND` is accepted of a free handle, and of one the Frame Router owns; and 0x11 is being sent. -/
theorem witness_DutyBreakingMovesDoNotExist : c42.envOwns 0x101#32 = false ∧ c42.envOwns 0x105#32 = false ∧
    0x101#32 ∉ c42.env.pool ∧ c42.blockHolds 0x101#32 = true ∧ c42.blockOwns 0x101#32 = true ∧ ([] : List Byte).length = 0 ∧
    decodeWorker 0x00000102#32 = .ok (.txSend 1) ∧
    ((sending 0x105#32).Ready ∧ (sending 0x105#32).sendError 1 = none ∧
      (∀ i < 1, ((sending 0x105#32).txAt ((sending 0x105#32).sendSlot i)).isFree = true) ∧
      ∃ i < 1, (sending 0x105#32).sendHandle i ∈ (sending 0x105#32).env.pool) ∧
    ((sending 0x107#32).Ready ∧ (sending 0x107#32).sendError 1 = none ∧
      (∀ i < 1, ((sending 0x107#32).txAt ((sending 0x107#32).sendSlot i)).isFree = true) ∧
      ∃ i < 1, (sending 0x107#32).sendHandle i ∈ (sending 0x107#32).env.router) ∧
    ((sending 0x107#32).envOwns 0x107#32 = true ∧ 0x107#32 ∉ (sending 0x107#32).sending ∧
      HandleSet.rising (sending 0x107#32).env.router) ∧
    (c42.blockHolds 0x11#32 = false ∧ 0 + 4 ≤ c42.bufferLimit) ∧
    (0x11#32 ∈ atDoorbell.sending ∧ 0x11#32 ∉ atDoorbell.env.pool ∧ 0 + 4 ≤ atDoorbell.bufferLimit) := by decide

theorem witness_AddressPacking : Store.get? mc36.args 0 = (addrWords 0x010000000001#48)[0]? ∧
    Store.get? mc36.args 1 = (addrWords 0x010000000001#48)[1]? := by decide

end Sys2Proof.Tests
end

/-! Family 00_scope: the command step, the ownership of handles, the output histories and the moves of ENV. -/

namespace Sys2Proof.Machine

/-! ### What the calls to the Buffer Provider give and take, in every state -/

/-- Up to `k` allocations move what they obtain out of the free set, and change only the free set, the history of calls and the
model's own draws; the free set need not be in canonical form (R31). -/
theorem State.allocateUpTo_perm (k : Nat) : ∀ s : State, ∃ got pool provider ds n,
    State.allocateUpTo k s =
      (got, { s with draws := ds, drawNo := n, env := { s.env with pool := pool, provider := provider } }) ∧
    (got ++ pool).Perm s.env.pool := by
  induction k with
  | zero => exact fun s => ⟨[], s.env.pool, s.env.provider, s.draws, s.drawNo, rfl, .refl _⟩
  | succ k ih =>
    intro s
    by_cases hp : s.env.pool = []
    · exact ⟨[], [], s.env.provider ++ [.allocate none], s.draws, s.drawNo,
        by simp [State.allocateUpTo, State.allocate_empty hp, hp], by simp [hp]⟩
    · obtain ⟨g, hg, ds, n, ha⟩ := State.allocate_some hp
      obtain ⟨got, pool, provider, ds', n', he, hperm⟩ := ih { s with
        draws := ds, drawNo := n
        env := { s.env with pool := HandleSet.remove s.env.pool g, provider := s.env.provider ++ [.allocate (some g)] } }
      refine ⟨g :: got, pool, provider, ds', n', by simp only [State.allocateUpTo, ha, he], ?_⟩
      rw [HandleSet.remove_eq_erase] at hperm
      exact (hperm.cons g).trans (List.perm_cons_erase hg).symm

/-- Releasing a list of handles adds them to the free set and changes besides only the history of calls (R31). -/
theorem State.releaseAll_insertAll (hs : List Handle) : ∀ s : State, ∃ provider,
    s.releaseAll hs =
      { s with env := { s.env with pool := HandleSet.insertAll s.env.pool hs, provider := provider } } := by
  induction hs with
  | nil => exact fun s => ⟨s.env.provider, rfl⟩
  | cons h hs ih =>
    intro s
    obtain ⟨provider, he⟩ := ih (s.releaseHandle h)
    exact ⟨provider, he⟩

/-- Adding a handle to a set names at most that handle once more. -/
theorem HandleSet.count_insert_le (l : List Handle) (g h : Handle) :
    (HandleSet.insert l g).count h ≤ l.count h + [g].count h := by
  induction l with
  | nil => exact Nat.le_add_left _ _
  | cons x l ih =>
    unfold HandleSet.insert
    split
    · rw [List.count_cons, List.count_singleton]
    split
    · exact Nat.le_add_right _ _
    · rw [List.count_cons, List.count_cons (l := l)]
      omega

/-- Adding handles to a set names at most those once more. -/
theorem HandleSet.count_insertAll_le (hs : List Handle) (h : Handle) :
    ∀ l : List Handle, (HandleSet.insertAll l hs).count h ≤ l.count h + hs.count h := by
  induction hs with
  | nil => exact fun l => Nat.le_refl _
  | cons g hs ih =>
    intro l
    have hrest := ih (HandleSet.insert l g)
    have hone := HandleSet.count_insert_le l g h
    rw [← List.singleton_append, List.count_append]
    exact hrest.trans (by omega)

/-! ### What CFG and the end of a frame can do -/

/-- CFG answers an error, or it has obtained buffers and constructs the rings or releases what it got (R210, R211). -/
theorem State.configure_cases (s : State) :
    (∃ code, s.configure = s.retErr code) ∨
    ∃ got pool provider ds n, (got ++ pool).Perm s.env.pool ∧
      (s.configure = (State.construct { s with
          draws := ds, drawNo := n, env := { s.env with pool := pool, provider := provider } } s.cfgTxCount got).retOk 0#32 ∨
        s.configure = State.retErr { s with
          draws := ds, drawNo := n
          env := { s.env with pool := HandleSet.insertAll pool got, provider := provider } } .outOfBuffers) := by
  unfold State.configure
  split
  · exact .inl ⟨_, rfl⟩
  split
  · exact .inl ⟨_, rfl⟩
  obtain ⟨got, pool, provider, ds, n, he, hperm⟩ := State.allocateUpTo_perm s.cfgRxCount.toNat s
  simp only [he]
  split
  · exact .inr ⟨got, pool, provider, ds, n, hperm, .inl rfl⟩
  · obtain ⟨provider', hr⟩ := State.releaseAll_insertAll got
      { s with draws := ds, drawNo := n, env := { s.env with pool := pool, provider := provider } }
    exact .inr ⟨got, pool, provider', ds, n, hperm, .inr (by rw [hr])⟩

/-- The construction of the rings calls nothing outside the block (R210). -/
@[simp] theorem State.construct_env (s : State) (t : BitVec 16) (got : List Handle) :
    (s.construct t got).env = s.env := by
  obtain ⟨sp, h⟩ := State.setSpans_spec got 0#16 s
  simp only [State.construct, h]

/-- The end of a frame raises the length fault, or it has obtained buffers and starts the refill with them, or it releases what it
got and starts to put the frame's own buffers back (R283, R284, R288). -/
theorem State.endOfFrame_cases (s : State) (delivered p : Nat) (len : BitVec 16) :
    s.endOfFrame delivered p len = s.raiseInCommand .rxLengthInconsistent .rx p ∨
    ∃ got pool provider buf ds n, (got ++ pool).Perm s.env.pool ∧
      (s.endOfFrame delivered p len = State.goOn { s with
          buf := buf, draws := ds, drawNo := n, env := { s.env with pool := pool, provider := provider } }
          (.pollRearm delivered 0 got len) ∨
        s.endOfFrame delivered p len = State.goOn { s with
          buf := buf, draws := ds, drawNo := n
          env := { s.env with pool := HandleSet.insertAll pool got, provider := provider } }
          (.pollRecycle delivered 0)) := by
  unfold State.endOfFrame
  simp only
  split
  · exact .inl rfl
  obtain ⟨sp, hs⟩ := s.spanChain_frame len
  rw [hs]
  obtain ⟨got, pool, provider, ds, n, he, hperm⟩ := State.allocateUpTo_perm s.rx.chain.length
    { s with buf := { s.buf with span := sp } }
  simp only [he]
  split
  · exact .inr ⟨got, pool, provider, _, ds, n, hperm, .inl rfl⟩
  · obtain ⟨provider', hr⟩ := State.releaseAll_insertAll got { s with
      buf := { s.buf with span := sp }, draws := ds, drawNo := n
      env := { s.env with pool := pool, provider := provider } }
    exact .inr ⟨got, pool, provider', _, ds, n, hperm, .inr (by rw [hr]; rfl)⟩

/-! ### What the smaller operations change -/

/-- W is refilling the slots of a frame, or putting their buffers back (R285, R288). -/
def WState.inRefill : WState → Bool
  | .pollRearm _ _ _ _ | .pollRecycle _ _ => true
  | .idle | .stopped | .txCommit _ _ | .txDoorbell _ | .reclaim _ _ | .pollVisit _ => false

/-- Waking TXD changes its state alone. -/
theorem State.wakeTxd_frame (s : State) : ∃ txd, s.wakeTxd = { s with txd := txd } := by
  unfold State.wakeTxd
  split
  · exact ⟨_, rfl⟩
  · exact ⟨s.txd, rfl⟩

/-- A doorbell of ENV changes TXD's state alone (R267). -/
theorem State.ringDoorbell_frame (s : State) : ∃ txd, s.ringDoorbell = { s with txd := txd } := by
  unfold State.ringDoorbell
  split
  · exact ⟨s.txd, rfl⟩
  · exact s.wakeTxd_frame

/-- After its visit TX_RECLAIM goes on or returns, which changes only the worker port and the gate's view (R245). -/
theorem State.reclaimNext_frame (s : State) (more count : Nat) : ∃ port service,
    s.reclaimNext more count = { s with port := port, service := service } ∧
    port.w.inRefill = false ∧ port.w.inSend = false := by
  cases more <;> exact ⟨_, _, rfl, rfl, rfl⟩

/-- TX_RECLAIM's first step goes on or returns (R240). -/
theorem State.reclaimStart_frame (s : State) : ∃ port service,
    s.reclaimStart = { s with port := port, service := service } ∧ port.w.inRefill = false ∧ port.w.inSend = false := by
  unfold State.reclaimStart
  split <;> exact ⟨_, _, rfl, rfl, rfl⟩

/-- MC_JOIN changes the multicast table and returns (R362, R364). -/
theorem State.joinBucket_frame (s : State) : ∃ port mc,
    s.joinBucket = { s with port := port, mc := mc } ∧ port.w.inRefill = false ∧ port.w.inSend = false := by
  unfold State.joinBucket
  split <;> exact ⟨_, _, rfl, rfl, rfl⟩

/-- MC_LEAVE changes the multicast table and returns (R365). -/
theorem State.leaveBucket_frame (s : State) : ∃ port mc,
    s.leaveBucket = { s with port := port, mc := mc } ∧ port.w.inRefill = false ∧ port.w.inSend = false := by
  unfold State.leaveBucket
  split <;> exact ⟨_, _, rfl, rfl, rfl⟩

/-- IRQ_ENTRY's first step, or its place in the queue, changes the gate's registers alone (R330, R335). -/
theorem execIrqEntry_frame (s : State) : ∃ irq, execIrqEntry s = .next { s with irq := irq } := by
  unfold execIrqEntry
  split
  · exact ⟨s.irq, rfl⟩
  split <;> exact ⟨_, rfl⟩

/-- An offered frame is taken by RXD, lost, counted, or raises a fault (R300 to R302). -/
theorem State.offerFrame_frame (s : State) (frame : List Byte) : ∃ halt rxd ctr,
    s.offerFrame frame = { s with halt := halt, rxd := rxd, ctr := ctr } := by
  unfold State.offerFrame State.rxdStart
  simp only
  split
  · split
    · exact ⟨s.halt, s.rxd, _, rfl⟩
    split
    · exact ⟨_, s.rxd, s.ctr, rfl⟩
    · exact ⟨s.halt, s.rxd, _, rfl⟩
    · exact ⟨s.halt, _, s.ctr, rfl⟩
  · exact ⟨s.halt, s.rxd, s.ctr, rfl⟩

/-! ### Counting the places a handle lies in

Ownership is exclusive when `placedHandles` names no handle twice, so each operation is described by how it changes the number of
times a handle is named. -/

/-- The real handles of a list (R9). -/
def realHandles (l : List Handle) : List Handle := l.filter (· ≠ 0#32)

theorem mem_realHandles {l : List Handle} {h : Handle} : h ∈ realHandles l ↔ h ∈ l ∧ h ≠ 0#32 := by
  simp [realHandles]

theorem count_realHandles_le (l : List Handle) (h : Handle) : (realHandles l).count h ≤ l.count h :=
  List.filter_sublist.count_le h

theorem count_realHandles_cons (x : Handle) (l : List Handle) (h : Handle) :
    (realHandles (x :: l)).count h = (realHandles [x]).count h + (realHandles l).count h := by
  rw [← List.count_append, realHandles, realHandles, realHandles, ← List.filter_append]
  rfl

/-- Writing `b` over an entry names at most `b` once more. -/
theorem count_realHandles_set_le (l : List Handle) (p : Nat) (b h : Handle) :
    (realHandles (l.set p b)).count h ≤ (realHandles l).count h + (realHandles [b]).count h := by
  have hp : (realHandles (l.getD p b :: l.set p b)).Perm (realHandles (b :: l)) :=
    (l.getD_set_perm_cons p b).filter _
  have hc := hp.count_eq h
  rw [count_realHandles_cons, count_realHandles_cons b l] at hc
  omega

/-- Clearing an entry that names `b` names it once less. -/
theorem count_realHandles_set_zero {l : List Handle} {p : Nat} {b : Handle} (hb : b ≠ 0#32) (hp : l.getD p 0#32 = b)
    (h : Handle) : (realHandles (l.set p 0#32)).count h + [b].count h = (realHandles l).count h := by
  have hperm : (realHandles (l.getD p 0#32 :: l.set p 0#32)).Perm (realHandles (0#32 :: l)) :=
    (l.getD_set_perm_cons p 0#32).filter _
  have hone : realHandles [b] = [b] := by simp [realHandles, hb]
  have hc := hperm.count_eq h
  rw [hp, count_realHandles_cons, hone] at hc
  exact (Nat.add_comm _ _).trans hc

/-- The real handles in the TX slots. -/
def State.txHandles (s : State) : List Handle := realHandles (s.tx.slots.map TxSlot.buf)

/-- The real handles in the RX slots. -/
def State.rxHandles (s : State) : List Handle := realHandles (s.rx.slots.map RxSlot.buf)

/-- How often a handle is named: the sum over the places of R33. -/
theorem count_placedHandles (s : State) (h : Handle) :
    s.placedHandles.count h = s.env.pool.count h + s.txHandles.count h + s.rxHandles.count h + s.chainHeld.count h +
      s.port.w.fresh.count h + s.env.router.count h := by
  simp only [State.placedHandles, List.count_append, State.txHandles, State.rxHandles, realHandles]

/-- The buffer in TX slot `p`. -/
theorem State.getD_txBufs (s : State) (p : Nat) : (s.tx.slots.map TxSlot.buf).getD p 0#32 = (s.txAt p).buf :=
  List.getD_map s.tx.slots TxSlot.free TxSlot.buf

/-- The buffer in RX slot `p`. -/
theorem State.getD_rxBufs (s : State) (p : Nat) : (s.rx.slots.map RxSlot.buf).getD p 0#32 = (s.rxAt p).buf :=
  List.getD_map s.rx.slots RxSlot.empty RxSlot.buf

/-- Writing an entry over itself changes nothing. -/
theorem set_getD_self {α : Type} (l : List α) (p : Nat) (x : α) : l.set p (l.getD p x) = l := by
  by_cases hp : p < l.length
  · rw [List.getD_eq_getElem _ _ hp, List.set_getElem_self]
  · exact List.set_eq_of_length_le (Nat.not_lt.mp hp)

/-- A write of a TX slot that keeps its buffer keeps the handles. -/
theorem State.txBufs_setTx {s : State} {p : Nat} {d : TxSlot} (hd : d.buf = (s.txAt p).buf) :
    (s.tx.slots.set p d).map TxSlot.buf = s.tx.slots.map TxSlot.buf := by
  rw [List.map_set, hd, ← s.getD_txBufs, set_getD_self]

theorem State.rxBufs_setRx {s : State} {p : Nat} {d : RxSlot} (hd : d.buf = (s.rxAt p).buf) :
    (s.rx.slots.set p d).map RxSlot.buf = s.rx.slots.map RxSlot.buf := by
  rw [List.map_set, hd, ← s.getD_rxBufs, set_getD_self]

/-! ### Steps that keep every handle in its place -/

/-- Outside a refill the Pending Frame Chain holds all of its handles. -/
theorem chainHeld_of_not_refill {s : State} (hw : s.port.w.inRefill = false) : s.chainHeld = s.rx.chain := by
  cases h : s.port.w <;> simp_all [State.chainHeld, WState.inRefill]

/-- Outside a refill W holds no buffer. -/
theorem fresh_of_not_refill {w : WState} (hw : w.inRefill = false) : w.fresh = [] := by
  cases w <;> simp_all [WState.fresh, WState.inRefill]

/-- How often a handle is named outside a refill. -/
theorem count_placed_of_not_refill {s : State} (hw : s.port.w.inRefill = false) (h : Handle) :
    s.placedHandles.count h = s.env.pool.count h + s.txHandles.count h + s.rxHandles.count h + s.rx.chain.count h +
      s.env.router.count h := by
  rw [count_placedHandles, chainHeld_of_not_refill hw, fresh_of_not_refill hw, List.count_nil, Nat.add_zero]

/-- The handles of the running TX_SEND are those of `ARG`, as many as W counts. -/
theorem sending_congr {s t : State} (ha : t.args = s.args) (hk : t.port.w.sendCount = s.port.w.sendCount) :
    t.sending = s.sending := by
  have harg : t.sendHandle = s.sendHandle := by
    funext i
    simp only [State.sendHandle, State.arg, ha]
  simp only [State.sending, State.sendHandles, hk, harg]

/-- Every handle lies where it lay. -/
structure SamePlaces (s t : State) : Prop where
  pool : t.env.pool = s.env.pool
  router : t.env.router = s.env.router
  tx : t.tx.slots.map TxSlot.buf = s.tx.slots.map TxSlot.buf
  rx : t.rx.slots.map RxSlot.buf = s.rx.slots.map RxSlot.buf
  chain : t.chainHeld = s.chainHeld
  fresh : t.port.w.fresh = s.port.w.fresh

/-- A step of another agent than W, which moves no handle. -/
theorem SamePlaces.of_port {s t : State} (hp : t.port = s.port) (hpool : t.env.pool = s.env.pool)
    (hrouter : t.env.router = s.env.router) (htx : t.tx.slots.map TxSlot.buf = s.tx.slots.map TxSlot.buf)
    (hrx : t.rx.slots.map RxSlot.buf = s.rx.slots.map RxSlot.buf) (hchain : t.rx.chain = s.rx.chain) : SamePlaces s t :=
  ⟨hpool, hrouter, htx, hrx, by simp only [State.chainHeld, hp, hchain], by rw [hp]⟩

/-- A step of W outside a refill, which moves no handle. -/
theorem SamePlaces.of_not_refill {s t : State} (hs : s.port.w.inRefill = false) (ht : t.port.w.inRefill = false)
    (henv : t.env = s.env) (htx : t.tx.slots.map TxSlot.buf = s.tx.slots.map TxSlot.buf) (hrx : t.rx = s.rx) :
    SamePlaces s t :=
  ⟨by rw [henv], by rw [henv], htx, by rw [hrx], by rw [chainHeld_of_not_refill hs, chainHeld_of_not_refill ht, hrx],
    by rw [fresh_of_not_refill hs, fresh_of_not_refill ht]⟩

/-- A step that names no handle more often, and after which no TX_SEND runs or the same one with its slots as they were, keeps
ownership exclusive. -/
theorem HandlesExclusive.of_count_le {s t : State} (hs : HandlesExclusive s)
    (hc : ∀ h, t.placedHandles.count h ≤ s.placedHandles.count h)
    (hsend : t.sending = [] ∨ (t.sending = s.sending ∧ t.tx.slots.map TxSlot.buf = s.tx.slots.map TxSlot.buf)) :
    HandlesExclusive t := by
  refine ⟨List.nodup_iff_count_le_one.mpr fun h => (hc h).trans (List.nodup_iff_count_le_one.mp hs.placed h), fun h hh => ?_⟩
  rcases hsend with hnone | ⟨hsame, htx⟩
  · exact absurd (hnone ▸ hh) List.not_mem_nil
  · exact htx ▸ hs.sending h (hsame ▸ hh)

theorem HandlesExclusive.of_same {s t : State} (hs : HandlesExclusive s) (hp : SamePlaces s t)
    (hsend : t.sending = [] ∨ t.sending = s.sending) : HandlesExclusive t := by
  refine hs.of_count_le (fun h => Nat.le_of_eq ?_) (hsend.imp_right fun h => ⟨h, hp.tx⟩)
  simp only [State.placedHandles, hp.pool, hp.router, hp.tx, hp.rx, hp.chain, hp.fresh]

/-- A step of another agent than W. -/
theorem HandlesExclusive.of_port {s t : State} (hs : HandlesExclusive s) (hp : t.port = s.port) (ha : t.args = s.args)
    (hpool : t.env.pool = s.env.pool) (hrouter : t.env.router = s.env.router)
    (htx : t.tx.slots.map TxSlot.buf = s.tx.slots.map TxSlot.buf)
    (hrx : t.rx.slots.map RxSlot.buf = s.rx.slots.map RxSlot.buf) (hchain : t.rx.chain = s.rx.chain) :
    HandlesExclusive t :=
  hs.of_same (.of_port hp hpool hrouter htx hrx hchain) (.inr (sending_congr ha (by rw [hp])))

/-- A step of W outside a refill and, from then on, outside a TX_SEND. -/
theorem HandlesExclusive.of_worker {s t : State} (hs : HandlesExclusive s) (hw : s.port.w.inRefill = false)
    (ht : t.port.w.inRefill = false) (hsend : t.port.w.inSend = false) (henv : t.env = s.env)
    (htx : t.tx.slots.map TxSlot.buf = s.tx.slots.map TxSlot.buf) (hrx : t.rx = s.rx) : HandlesExclusive t :=
  hs.of_same (.of_not_refill hw ht henv htx hrx) (.inl (sending_of_not_send hsend))

/-! ### W's steps on handles -/

/-- An ownership write of TX_SEND moves no handle (R230 step 4). -/
theorem HandlesExclusive.sendCommit {s : State} {k i : Nat} (hs : HandlesExclusive s) (hw : s.port.w = .txCommit k i) :
    HandlesExclusive (s.sendCommit k i) := by
  have hr : s.port.w.inRefill = false := by rw [hw]; rfl
  have hk : s.port.w.sendCount = k := by rw [hw]; rfl
  cases i <;>
    exact hs.of_same (.of_not_refill hr rfl rfl (State.txBufs_setTx rfl) rfl) (.inr (sending_congr rfl hk.symm))

/-- The doorbell step of TX_SEND moves no handle (R233). -/
theorem HandlesExclusive.sendDoorbell {s : State} {k : Nat} (hs : HandlesExclusive s) (hw : s.port.w = .txDoorbell k) :
    HandlesExclusive s.sendDoorbell := by
  obtain ⟨txd, h⟩ := s.wakeTxd_frame
  rw [State.sendDoorbell, h]
  exact hs.of_worker (by rw [hw]; rfl) rfl rfl rfl rfl rfl

/-- A visit of TX_RECLAIM moves at most one handle, from its slot to the free set (R240 to R243). -/
theorem HandlesExclusive.reclaimVisit {s : State} {more count : Nat} (hs : HandlesExclusive s)
    (hw : s.port.w = .reclaim more count) : HandlesExclusive (s.reclaimVisit more count) := by
  have hr : s.port.w.inRefill = false := by rw [hw]; rfl
  unfold State.reclaimVisit
  simp only
  split
  · split
    · exact hs.of_worker hr rfl rfl rfl rfl rfl
    · obtain ⟨port, service, h, h1, h2⟩ := s.advanceRelease.reclaimNext_frame more count
      exact h ▸ hs.of_worker hr h1 h2 rfl rfl rfl
  next hbuf =>
  split
  · exact hs.of_worker hr rfl rfl rfl rfl rfl
  generalize hp : ringPos s.nTx s.tx.release 0 = p at hbuf ⊢
  obtain ⟨port, service, h, h1, h2⟩ :=
    (((s.releaseHandle (s.txAt p).buf).setTx p (s.txAt p).clear).advanceRelease).reclaimNext_frame more (count + 1)
  rw [h]
  refine hs.of_count_le (fun g => ?_) (.inl (sending_of_not_send h2))
  have htx := count_realHandles_set_zero hbuf (s.getD_txBufs p) g
  have hpool := HandleSet.count_insert_le s.env.pool (s.txAt p).buf g
  have hslots : (s.tx.slots.set p (s.txAt p).clear).map TxSlot.buf = (s.tx.slots.map TxSlot.buf).set p 0#32 :=
    List.map_set
  rw [count_placed_of_not_refill hr, count_placed_of_not_refill h1]
  simp only [State.txHandles, State.rxHandles, State.advanceRelease_env, State.advanceRelease_tx, State.advanceRelease_rx,
    State.setTx_env, State.setTx_tx, State.setTx_rx, State.releaseHandle_env, State.releaseHandle_tx,
    State.releaseHandle_rx, hslots]
  omega

/-- Linking a slot moves its handle to the end of the chain (R281). -/
theorem HandlesExclusive.linkSlot {s : State} (hs : HandlesExclusive s) (hw : s.port.w.inRefill = false)
    (hsend : s.port.w.inSend = false) (hbuf : (s.rxAt (ringPos s.nRx s.rx.current 0)).buf ≠ 0#32) :
    HandlesExclusive s.linkSlot := by
  refine hs.of_count_le (fun g => ?_) (.inl (sending_of_not_send hsend))
  have hrx := count_realHandles_set_zero hbuf (s.getD_rxBufs _) g
  rw [count_placed_of_not_refill hw, count_placed_of_not_refill (s := s.linkSlot) hw]
  simp only [State.linkSlot, State.txHandles, State.rxHandles, State.setRx_env, State.setRx_tx, State.setRx_rx,
    List.map_set, List.count_append]
  omega

/-- Handles that move from the free set into W's hands, or back, are named as often as before. -/
theorem HandlesExclusive.endOfFrame {s : State} {delivered p : Nat} {len : BitVec 16} (hs : HandlesExclusive s)
    (hw : s.port.w.inRefill = false) : HandlesExclusive (s.endOfFrame delivered p len) := by
  rcases s.endOfFrame_cases delivered p len with h | ⟨got, pool, provider, buf, ds, n, hperm, h | h⟩ <;> rw [h]
  · exact hs.of_worker hw rfl rfl rfl rfl rfl
  · refine hs.of_count_le (fun g => ?_) (.inl (sending_of_not_send rfl))
    have hpool := hperm.count_eq g
    rw [List.count_append] at hpool
    rw [count_placed_of_not_refill hw, count_placedHandles]
    simp only [State.goOn, State.txHandles, State.rxHandles, State.chainHeld, WState.fresh]
    omega
  · refine hs.of_count_le (fun g => ?_) (.inl (sending_of_not_send rfl))
    have hpool := hperm.count_eq g
    have hback := HandleSet.count_insertAll_le got g pool
    rw [List.count_append] at hpool
    rw [count_placed_of_not_refill hw, count_placedHandles]
    simp only [State.goOn, State.txHandles, State.rxHandles, State.chainHeld, WState.fresh, List.drop_zero, List.count_nil]
    omega

/-- A visit of RX_POLL (R280). -/
theorem HandlesExclusive.pollVisit {s : State} {delivered : Nat} (hs : HandlesExclusive s)
    (hw : s.port.w = .pollVisit delivered) : HandlesExclusive (s.pollVisit delivered) := by
  have hr : s.port.w.inRefill = false := by rw [hw]; rfl
  unfold State.pollVisit
  simp only
  split
  · obtain ⟨ds, n, h⟩ := s.countValue_frame delivered
    simp only [State.pollReturn, h]
    exact hs.of_worker hr rfl rfl rfl rfl rfl
  split
  · exact hs.of_worker hr rfl rfl rfl rfl rfl
  next hbuf =>
  have hlink := hs.linkSlot hr (by rw [hw]; rfl) hbuf
  split
  · exact hlink.endOfFrame hr
  · exact hlink.of_worker hr rfl rfl rfl rfl rfl

/-- A step of a refill puts buffer `h` into slot `p`, out of the handles that the chain and W held. -/
theorem HandlesExclusive.of_arm {s t : State} (hs : HandlesExclusive s) (p : Nat) (h : Handle) (henv : t.env = s.env)
    (htx : t.tx = s.tx) (hrx : t.rx.slots = (s.armSlot p h).rx.slots) (hsend : t.port.w.inSend = false)
    (hheld : ∀ g, (realHandles [h]).count g + t.chainHeld.count g + t.port.w.fresh.count g ≤
      s.chainHeld.count g + s.port.w.fresh.count g) : HandlesExclusive t := by
  refine hs.of_count_le (fun g => ?_) (.inl (sending_of_not_send hsend))
  have hslot := count_realHandles_set_le (s.rx.slots.map RxSlot.buf) p h g
  have := hheld g
  rw [count_placedHandles, count_placedHandles]
  simp only [State.txHandles, State.rxHandles, henv, htx, hrx, State.armSlot_rx, State.setRx_rx, List.map_set]
  omega

/-- The delivery moves the chain's handles to the Frame Router (R285, R286, R290). -/
theorem HandlesExclusive.deliverChain {s : State} {delivered : Nat} {len : BitVec 16} (hs : HandlesExclusive s)
    (hchain : s.chainHeld = s.rx.chain) : HandlesExclusive (s.deliverChain delivered len) := by
  refine hs.of_count_le (fun g => ?_) (.inl (sending_of_not_send rfl))
  have hrouter := HandleSet.count_insertAll_le s.rx.chain g s.env.router
  rw [count_placedHandles s, hchain, count_placed_of_not_refill (s := s.deliverChain delivered len) rfl]
  simp only [State.deliverChain, State.txHandles, State.rxHandles, State.closeChain_env, State.closeChain_tx,
    State.closeChain_rx, State.deliver_env, State.deliver_tx, State.deliver_rx, State.chainFrame, List.count_nil]
  omega

/-- Dropping a frame whose buffers are back lets the chain go (R290, R292). -/
theorem HandlesExclusive.dropChain {s : State} {delivered : Nat} (hs : HandlesExclusive s) :
    HandlesExclusive (s.dropChain delivered) := by
  refine hs.of_count_le (fun g => ?_) (.inl (sending_of_not_send rfl))
  rw [count_placedHandles s, count_placed_of_not_refill (s := s.dropChain delivered) rfl]
  simp only [State.dropChain, State.txHandles, State.rxHandles, State.closeChain_env, State.closeChain_tx,
    State.closeChain_rx, List.count_nil]
  omega

/-- A re-arming write of RX_POLL moves a fresh buffer from W's hands into its slot, and the last one delivers the chain (R285). -/
theorem HandlesExclusive.pollRearm {s : State} {delivered f : Nat} {fresh : List Handle} {len : BitVec 16}
    (hs : HandlesExclusive s) (hw : s.port.w = .pollRearm delivered f fresh len) :
    HandlesExclusive (s.pollRearm delivered f fresh len) := by
  have hchain : s.chainHeld = s.rx.chain := by simp only [State.chainHeld, hw]
  cases fresh with
  | nil => exact hs.deliverChain hchain
  | cons h rest =>
    have harmed : HandlesExclusive ((s.armSlot (s.chainSlot f) h).goOn (.pollRearm delivered (f + 1) rest len)) := by
      refine hs.of_arm (s.chainSlot f) h rfl rfl rfl rfl fun g => ?_
      have hreal := count_realHandles_le [h] g
      rw [hchain, hw]
      simp only [State.chainHeld, State.goOn_port, State.goOn_rx, State.armSlot_rx, State.setRx_rx, WState.fresh]
      have hcons : (h :: rest).count g = [h].count g + rest.count g := List.count_append (l₁ := [h])
      omega
    unfold State.pollRearm
    simp only
    split
    · exact harmed.deliverChain rfl
    · exact harmed.of_port rfl rfl rfl rfl rfl rfl rfl

/-- Of the chain's part that is not back, the first handle goes into its slot and the rest stays. -/
theorem count_drop_next (l : List Handle) (f : Nat) (g : Handle) :
    (realHandles [l.getD f 0#32]).count g + (l.drop (f + 1)).count g ≤ (l.drop f).count g := by
  by_cases hf : f < l.length
  · rw [List.drop_eq_getElem_cons hf, List.getD_eq_getElem _ _ hf, ← List.singleton_append (l := l.drop (f + 1)),
      List.count_append]
    exact Nat.add_le_add_right (count_realHandles_le _ g) _
  · have hend : l.getD f 0#32 = 0#32 := List.getD_eq_default _ _ (Nat.not_lt.mp hf)
    have hnone : l.drop (f + 1) = [] := List.drop_eq_nil_of_le (by omega)
    rw [hend, hnone]
    exact Nat.zero_le _

/-- A write of a failed refill moves a buffer from the chain back into its slot (R288), and the last one closes the chain. -/
theorem HandlesExclusive.pollRecycle {s : State} {delivered f : Nat} (hs : HandlesExclusive s)
    (hw : s.port.w = .pollRecycle delivered f) : HandlesExclusive (s.pollRecycle delivered f) := by
  have hback : HandlesExclusive
      ((s.armSlot (s.chainSlot f) (s.rx.chain.getD f 0#32)).goOn (.pollRecycle delivered (f + 1))) := by
    refine hs.of_arm (s.chainSlot f) _ rfl rfl rfl rfl fun g => ?_
    have hchain : s.chainHeld = s.rx.chain.drop f := by simp only [State.chainHeld, hw]
    rw [hchain, hw]
    exact count_drop_next s.rx.chain f g
  unfold State.pollRecycle
  simp only
  split
  · exact hback.of_port rfl rfl rfl rfl rfl rfl rfl
  · exact hback.dropChain

/-- Every step of W keeps ownership exclusive. -/
theorem HandlesExclusive.workerStep {s : State} (hs : HandlesExclusive s) : HandlesExclusive s.workerStep := by
  unfold State.workerStep
  split
  · exact hs
  split
  · exact hs
  · exact hs
  · next hw => exact hs.sendCommit hw
  · next hw => exact hs.sendDoorbell hw
  · next hw => exact hs.reclaimVisit hw
  · next hw => exact hs.pollVisit hw
  · next hw => exact hs.pollRearm hw
  · next hw => exact hs.pollRecycle hw

/-! ### The DMA agents -/

/-- TXD changes no slot's buffer, and calls only the wire (R260 to R264). -/
theorem HandlesExclusive.txdStep {s : State} (hs : HandlesExclusive s) : HandlesExclusive s.txdStep := by
  unfold State.txdStep
  split
  · exact hs
  split
  · exact hs
  · split
    · unfold State.txdSend
      split <;> exact hs.of_port rfl rfl rfl rfl rfl rfl rfl
    · exact hs.of_port rfl rfl rfl rfl rfl rfl rfl
  · obtain ⟨ds, n, h⟩ := s.draw_spec
    unfold State.txdComplete
    simp only [h]
    split <;> exact hs.of_port rfl rfl rfl rfl (State.txBufs_setTx rfl) rfl rfl

/-- RXD changes no slot's buffer (R303). -/
theorem HandlesExclusive.rxdStep {s : State} (hs : HandlesExclusive s) : HandlesExclusive s.rxdStep := by
  unfold State.rxdStep
  split
  · exact hs
  split
  · exact hs
  · unfold State.rxdWrite
    simp only
    split <;> exact hs.of_port rfl rfl rfl rfl rfl (State.rxBufs_setRx rfl) rfl

/-! ### The commands' first steps -/

/-- BUSY is 0 only while W runs no command (R52). -/
theorem idle_of_not_busy {s : State} (hb : s.busy = false) : s.port.w = .idle := by
  simpa [State.busy] using hb

/-- What the fill step writes: TX slots alone, which name each of the command's handles at most once more (R230 steps 2 and 3). -/
theorem State.fillChain_handles (s : State) (k : Nat) : ∃ slots,
    s.fillChain k = { s with tx := { s.tx with slots := slots } } ∧
    ∀ g, (realHandles (slots.map TxSlot.buf)).count g ≤ s.txHandles.count g + (s.sendHandles k).count g := by
  suffices h : ∀ n, ∃ slots, (List.range n).foldl (fun s i => s.fillSlot k i) s =
      { s with tx := { s.tx with slots := slots } } ∧
      ∀ g, (realHandles (slots.map TxSlot.buf)).count g ≤ s.txHandles.count g + (s.sendHandles n).count g from h k
  intro n
  induction n with
  | zero => exact ⟨s.tx.slots, rfl, fun g => Nat.le_add_right _ _⟩
  | succ n ih =>
    obtain ⟨slots, he, hle⟩ := ih
    rw [List.range_succ, List.foldl_append, he]
    refine ⟨_, rfl, fun g => ?_⟩
    have hset := count_realHandles_set_le (slots.map TxSlot.buf) 
      (State.sendSlot { s with tx := { s.tx with slots := slots } } n) (s.sendHandle n) g
    have hone := count_realHandles_le [s.sendHandle n] g
    have := hle g
    have hlast : s.sendHandles (n + 1) = s.sendHandles n ++ [s.sendHandle n] := by
      simp [State.sendHandles, List.range_succ]
    rw [List.map_set, hlast, List.count_append]
    show (realHandles ((slots.map TxSlot.buf).set _ (s.sendHandle n))).count g ≤ _
    omega

/-- What a TX_SEND that passes its validation was handed: handles that are real, differ, and lie nowhere in the block's slots or
chain, and no more than the ring has slots (R231). -/
theorem State.sendError_none {s : State} {k : Nat} (h : s.sendError k = none) :
    (∀ g ∈ s.sendHandles k, g ≠ 0#32) ∧ (s.sendHandles k).Nodup ∧
    (∀ g ∈ s.sendHandles k, s.slotOrChainHolds g = false) ∧ k ≤ s.nTx := by
  unfold State.sendError at h
  split at h
  · cases h
  split at h
  · cases h
  next hbad =>
  split at h
  · cases h
  next hdup =>
  split at h
  · cases h
  next hheld =>
  split at h
  · cases h
  split at h
  · cases h
  next hroom =>
  refine ⟨fun g hg h0 => hbad ?_, by simpa using hdup, fun g hg => ?_, Nat.not_lt.mp hroom⟩
  · obtain ⟨i, hi, rfl⟩ := List.mem_map.mp hg
    exact List.any_eq_true.mpr ⟨i, hi, by simp [State.badFragment, h0]⟩
  · by_contra hno
    exact hheld (List.any_eq_true.mpr ⟨g, hg, by simpa using hno⟩)

/-- A handle lies in the block's slots or chain. -/
theorem slotOrChainHolds_iff {s : State} {h : Handle} :
    s.slotOrChainHolds h = true ↔
      h ∈ s.tx.slots.map TxSlot.buf ∨ h ∈ s.rx.slots.map RxSlot.buf ∨ h ∈ s.rx.chain := by
  simp only [State.slotOrChainHolds, Bool.or_eq_true, List.any_eq_true, beq_iff_eq, List.contains_iff_mem, List.mem_map,
    or_assoc]

/-- TX_SEND's fill step takes its handles from a caller, who owns them under ENV's duty, into free slots (R30, R230). -/
theorem HandlesExclusive.sendStart {s : State} {k : Nat} (hs : HandlesExclusive s) (hw : s.port.w = .idle)
    (duty : s.sendError k = none → s.checkFree (s.sendSlots k) = .allFree →
      ∀ h ∈ s.sendHandles k, h ∉ s.env.pool ∧ h ∉ s.env.router) : HandlesExclusive (s.sendStart k) := by
  have hr : s.port.w.inRefill = false := by rw [hw]; rfl
  unfold State.sendStart
  split
  · exact hs.of_worker hr rfl rfl rfl rfl rfl
  next herr =>
  split
  · exact hs.of_worker hr rfl rfl rfl rfl rfl
  · exact hs.of_worker hr rfl rfl rfl rfl rfl
  next hfree =>
  obtain ⟨hreal, hnodup, hheld, hk⟩ := State.sendError_none herr
  have hduty := duty herr hfree
  obtain ⟨slots, he, hcount⟩ := s.fillChain_handles k
  have hfilled : ∀ i < k, s.sendHandle i ∈ slots.map TxSlot.buf := fun i hi => by
    obtain ⟨slots', he', hlen, hin, -⟩ := s.fillChain_spec k hk
    obtain rfl : slots = slots' := congrArg (·.tx.slots) (he.symm.trans he')
    have hlt : s.sendSlot i < slots.length := hlen ▸ ringPos_lt (by omega) _ _
    have hslot := hin i hi
    rw [List.getD_eq_getElem _ _ hlt] at hslot
    exact List.mem_map.mpr ⟨_, List.getElem_mem hlt, by rw [hslot]⟩
  rw [he]
  refine ⟨List.nodup_iff_count_le_one.mpr fun g => ?_, fun g hg => ⟨hreal g hg, ?_⟩⟩
  · have hold := List.nodup_iff_count_le_one.mp hs.placed g
    rw [count_placed_of_not_refill hr] at hold
    rw [count_placed_of_not_refill rfl]
    show s.env.pool.count g + (realHandles (slots.map TxSlot.buf)).count g + s.rxHandles.count g + s.rx.chain.count g +
      s.env.router.count g ≤ 1
    have htx := hcount g
    by_cases hg : g ∈ s.sendHandles k
    · have hone := List.nodup_iff_count_le_one.mp hnodup g
      have hnew : g ∉ s.placedHandles := fun hmem => by
        have hnone := hheld g hg
        rw [Bool.eq_false_iff, ne_eq, slotOrChainHolds_iff] at hnone
        have := hduty g hg
        rw [mem_placedHandles (hreal g hg), chainHeld_of_not_refill hr, fresh_of_not_refill hr] at hmem
        simp only [List.not_mem_nil] at hmem
        tauto
      have hzero := List.count_eq_zero.mpr hnew
      rw [count_placed_of_not_refill hr] at hzero
      omega
    · have hzero := List.count_eq_zero.mpr hg
      omega
  · obtain ⟨i, hi, rfl⟩ := List.mem_map.mp hg
    exact hfilled i (List.mem_range.mp hi)

/-- CFG's TX slots hold no buffer (R210). -/
theorem realHandles_freeTxSlots (t : Nat) : realHandles ((freeTxSlots t).map TxSlot.buf) = [] := by
  refine List.filter_eq_nil_iff.mpr fun h hh => ?_
  obtain ⟨d, hd, rfl⟩ := List.mem_map.mp hh
  obtain ⟨i, -, rfl⟩ := List.mem_map.mp hd
  simp [TxSlot.free]

/-- CFG's RX slots hold the buffers it obtained, in order (R210). -/
theorem armedRxSlots_bufs (got : List Handle) : (armedRxSlots got).map RxSlot.buf = got := by
  induction got with
  | nil => rfl
  | cons h hs ih => rw [armedRxSlots, List.map_cons, ih]; rfl

/-- After the construction of the rings only the buffers that CFG obtained lie in the block (R210). -/
theorem State.count_placed_construct_le (s : State) (t : BitVec 16) (got : List Handle) (v : Word) (g : Handle) :
    ((s.construct t got).retOk v).placedHandles.count g ≤ s.env.pool.count g + got.count g + s.env.router.count g := by
  have htx : ((s.construct t got).retOk v).txHandles = [] := realHandles_freeTxSlots t.toNat
  have hrx : ((s.construct t got).retOk v).rxHandles = realHandles got := congrArg realHandles (armedRxSlots_bufs got)
  have hchain : ((s.construct t got).retOk v).rx.chain = [] := rfl
  have hreal := count_realHandles_le got g
  rw [count_placed_of_not_refill rfl, htx, hrx, hchain, State.retOk_env, State.construct_env]
  simp only [List.count_nil]
  omega

/-- CFG moves handles of the free set into the RX slots, or back (R210, R211). -/
theorem HandlesExclusive.configure {s : State} (hs : HandlesExclusive s) (hw : s.port.w = .idle) :
    HandlesExclusive s.configure := by
  have hr : s.port.w.inRefill = false := by rw [hw]; rfl
  rcases s.configure_cases with ⟨code, h⟩ | ⟨got, pool, provider, ds, n, hperm, h | h⟩ <;> rw [h]
  · exact hs.of_worker hr rfl rfl rfl rfl rfl
  · refine hs.of_count_le (fun g => ?_) (.inl (sending_of_not_send rfl))
    have hpool := hperm.count_eq g
    rw [List.count_append] at hpool
    refine (State.count_placed_construct_le _ _ _ _ g).trans ?_
    rw [count_placed_of_not_refill hr]
    simp only
    omega
  · refine hs.of_count_le (fun g => ?_) (.inl (sending_of_not_send rfl))
    have hpool := hperm.count_eq g
    have hback := HandleSet.count_insertAll_le got g pool
    rw [List.count_append] at hpool
    rw [count_placed_of_not_refill hr, count_placed_of_not_refill rfl]
    simp only [State.retErr_env, State.retErr_tx, State.retErr_rx, State.txHandles, State.rxHandles]
    omega

/-- A worker command that needs a configured block, whose own step from an idle W keeps ownership exclusive. -/
theorem HandlesExclusive.issueConfigured {s : State} {cmd : State → State} (hs : HandlesExclusive s)
    (hcmd : s.port.w = .idle → s.halted = false → s.cfg.configured = true → HandlesExclusive (cmd s)) :
    HandlesExclusive (s.issueConfigured cmd) := by
  rcases s.issueConfigured_cases cmd with h | ⟨-, hb, -, h⟩ | ⟨hh, hb, hc, h⟩ <;> rw [h]
  · exact hs
  · exact hs.of_worker (by rw [idle_of_not_busy hb]; rfl) rfl rfl rfl rfl rfl
  · exact hcmd (idle_of_not_busy hb) hh hc

/-- A command's first step keeps ownership exclusive when ENV sends only handles that are a caller's (R30, R33). -/
theorem HandlesExclusive.exec {s t : State} {i : Instr} (hs : HandlesExclusive s) (duty : SendsOwn s i)
    (h : exec i s = .next t) : HandlesExclusive t := by
  cases i <;> simp only [Machine.exec] at h
  case irqEntry =>
    obtain ⟨irq, he⟩ := execIrqEntry_frame s
    cases he.symm.trans h
    exact hs.of_port rfl rfl rfl rfl rfl rfl rfl
  all_goals cases h
  case cfg =>
    rcases s.issue_cases State.configure with h | ⟨-, hb, h⟩ <;> rw [h]
    · exact hs
    · exact hs.configure (idle_of_not_busy hb)
  case txSend k =>
    refine hs.issueConfigured fun hw hh hc => hs.sendStart hw fun herr hfree => duty k rfl ?_
    simp [State.sendAccepted, State.busy, hw, hh, hc, herr, hfree]
  case txReclaim =>
    refine hs.issueConfigured fun hw _ _ => ?_
    obtain ⟨port, service, h, h1, h2⟩ := s.reclaimStart_frame
    exact h ▸ hs.of_worker (by rw [hw]; rfl) h1 h2 rfl rfl rfl
  case rxPoll => exact hs.issueConfigured fun hw _ _ => hs.of_worker (by rw [hw]; rfl) rfl rfl rfl rfl rfl
  case evtDrain => exact hs.issueConfigured fun hw _ _ => hs.of_worker (by rw [hw]; rfl) rfl rfl rfl rfl rfl
  case mcJoin =>
    refine hs.issueConfigured fun hw _ _ => ?_
    obtain ⟨port, mc, h, h1, h2⟩ := s.joinBucket_frame
    exact h ▸ hs.of_worker (by rw [hw]; rfl) h1 h2 rfl rfl rfl
  case mcLeave =>
    refine hs.issueConfigured fun hw _ _ => ?_
    obtain ⟨port, mc, h, h1, h2⟩ := s.leaveBucket_frame
    exact h ▸ hs.of_worker (by rw [hw]; rfl) h1 h2 rfl rfl rfl

/-! ### ENV's moves, and all steps -/

/-- What a user outside the block owns (R33). -/
theorem envOwns_iff {s : State} {h : Handle} :
    s.envOwns h = true ↔ h ≠ 0#32 ∧ h ∉ s.env.pool ∧ s.blockOwns h = false := by
  simp [State.envOwns, and_assoc]

/-- A handle lies in the block when it lies in one of these places (R472). -/
theorem blockHolds_iff {s : State} {h : Handle} :
    s.blockHolds h = true ↔ h ∈ s.tx.slots.map TxSlot.buf ∨ h ∈ s.rx.slots.map RxSlot.buf ∨ h ∈ s.rx.chain ∨
      h ∈ s.port.w.fresh := by
  simp only [State.blockHolds, Bool.or_eq_true, slotOrChainHolds_iff, List.contains_iff_mem, or_assoc]

/-- A handle that lies in the block and is no running TX_SEND's is the block's (R33). -/
theorem not_blockHolds_of_not_owned {s : State} {h : Handle} (owns : s.blockOwns h = false) (kept : h ∉ s.sending) :
    ¬s.blockHolds h = true := by
  simpa [State.blockOwns, kept] using owns

/-- The handles of the chain that are not back in a slot are handles of the chain (R288). -/
theorem chainHeld_subset (s : State) : s.chainHeld ⊆ s.rx.chain := by
  unfold State.chainHeld
  split
  · exact List.drop_subset _ _
  · exact List.Subset.refl _

/-- A caller's or the Frame Router's handle that ENV gives back lies in the free set alone afterwards (R30, R31). -/
theorem HandlesExclusive.giveBack {s : State} {h : Handle} (hs : HandlesExclusive s) (own : s.envOwns h = true)
    (kept : h ∉ s.sending) : HandlesExclusive { s with
      env.pool := HandleSet.insert s.env.pool h
      env.router := HandleSet.remove s.env.router h } := by
  obtain ⟨h0, hfree, howned⟩ := envOwns_iff.mp own
  have hout := not_blockHolds_of_not_owned howned kept
  rw [blockHolds_iff] at hout
  have hnone : h ∉ s.txHandles ++ s.rxHandles ++ s.chainHeld ++ s.port.w.fresh := by
    simp only [State.txHandles, State.rxHandles, List.mem_append, mem_realHandles]
    have := @chainHeld_subset s h
    tauto
  refine ⟨List.nodup_iff_count_le_one.mpr fun g => ?_, hs.sending⟩
  have hold := List.nodup_iff_count_le_one.mp hs.placed g
  have hpool := HandleSet.count_insert_le s.env.pool h g
  rw [count_placedHandles] at hold ⊢
  rw [HandleSet.remove_eq_erase, List.count_erase]
  show (HandleSet.insert s.env.pool h).count g + s.txHandles.count g + s.rxHandles.count g + s.chainHeld.count g +
    s.port.w.fresh.count g + _ ≤ 1
  by_cases hg : h = g
  · subst hg
    have hzero := List.count_eq_zero.mpr hnone
    have hpool0 := List.count_eq_zero.mpr hfree
    simp only [List.count_append, List.count_singleton_self, beq_self_eq_true, if_true] at hzero hpool ⊢
    omega
  · have hother : [h].count g = 0 := List.count_eq_zero.mpr (by simpa using Ne.symm hg)
    omega

/-- Every move of ENV keeps ownership exclusive. -/
theorem HandlesExclusive.hostAnswer {s t : State} {m : HostMove} (hs : HandlesExclusive s) (h : HostAnswer s m t) :
    HandlesExclusive t := by
  cases h with
  | command i t h duty => exact hs.exec duty h
  | illegal =>
    rcases s.issue_cases (·.retErr .illegalCommand) with h | ⟨-, hb, h⟩ <;> rw [h]
    · exact hs
    · exact hs.of_worker (by rw [idle_of_not_busy hb]; rfl) rfl rfl rfl rfl rfl
  | doorbell =>
    obtain ⟨txd, h⟩ := s.ringDoorbell_frame
    exact h ▸ hs.of_port rfl rfl rfl rfl rfl rfl rfl
  | isr =>
    unfold State.writeIsr
    split
    · exact hs
    · exact hs.of_port rfl rfl rfl rfl rfl rfl rfl
  | arg a =>
    unfold State.writeArg
    split
    · exact hs
    · next hidle =>
      have hw : s.port.w = .idle := idle_of_not_busy (by simp_all)
      exact hs.of_same (.of_port rfl rfl rfl rfl rfl rfl) (.inl (sending_of_not_send (by simp [hw, WState.inSend])))
  | ignored => exact hs
  | offer frame h0 h1 =>
    obtain ⟨halt, rxd, ctr, h⟩ := s.offerFrame_frame frame
    exact h ▸ hs.of_port rfl rfl rfl rfl rfl rfl rfl
  | giveBack h own kept => exact hs.giveBack own kept
  | take h free =>
    refine hs.of_count_le (fun g => ?_) (.inr ⟨rfl, rfl⟩)
    have hpool := (List.erase_sublist (a := h) (l := s.env.pool)).count_le g
    rw [count_placedHandles, count_placedHandles, HandleSet.remove_eq_erase]
    simp only [State.txHandles, State.rxHandles, State.chainHeld]
    omega
  | intIllegal _ _ => exact hs.of_port rfl rfl rfl rfl rfl rfl rfl
  | intQueued _ _ => exact hs.of_port rfl rfl rfl rfl rfl rfl rfl
  | txBase _ => exact hs.of_port rfl rfl rfl rfl rfl rfl rfl
  | rxBase _ => exact hs.of_port rfl rfl rfl rfl rfl rfl rfl
  | read off width => exact hs.of_port rfl rfl rfl rfl rfl rfl rfl
  | fill h start bytes h0 held fits => exact hs.of_port rfl rfl rfl rfl rfl rfl rfl
  | readBuffer h start n h0 other fits => exact hs.of_port rfl rfl rfl rfl rfl rfl rfl

/-- Every turn keeps ownership exclusive. -/
theorem HandlesExclusive.turnAnswer {s t : State} {turn : Turn} (hs : HandlesExclusive s) (h : TurnAnswer s turn t) :
    HandlesExclusive t := by
  cases h with
  | worker => exact hs.workerStep
  | interrupt =>
    obtain ⟨irq, h⟩ := s.interruptStep_frame
    exact h ▸ hs.of_port rfl rfl rfl rfl rfl rfl rfl
  | txd => exact hs.txdStep
  | rxd => exact hs.rxdStep
  | host h => exact hs.hostAnswer h

/-! ### Who owns a handle -/

/-- No real handle has two owners: it is named once, and a running TX_SEND's is named by its TX slot (R33). -/
theorem HandlesExclusive.not_owns_other {s : State} (hs : HandlesExclusive s) {h : Handle} (h0 : h ≠ 0#32) {o o' : Owner}
    (hne : o ≠ o') (ho : s.owns h o) : ¬s.owns h o' := by
  have hone := List.nodup_iff_count_le_one.mp hs.placed h
  have hplaced : h ∈ s.placedHandles ↔ 0 < s.placedHandles.count h := List.count_pos_iff.symm
  have htx : h ∈ s.tx.slots.map TxSlot.buf ↔ 0 < s.txHandles.count h := by
    simp only [List.count_pos_iff, State.txHandles, mem_realHandles, h0, ne_eq, not_false_eq_true, and_true]
  have hrx : h ∈ s.rx.slots.map RxSlot.buf ↔ 0 < s.rxHandles.count h := by
    simp only [List.count_pos_iff, State.rxHandles, mem_realHandles, h0, ne_eq, not_false_eq_true, and_true]
  have hsent : 0 < s.sending.count h → 0 < s.txHandles.count h := fun hc =>
    htx.mp (hs.sending h (List.count_pos_iff.mp hc)).2
  rw [count_placedHandles] at hone hplaced
  intro ho'
  cases o <;> cases o' <;>
    simp only [State.owns, htx, hrx, hplaced, ← List.count_pos_iff (l := s.env.pool), ← List.count_pos_iff (l := s.chainHeld),
      ← List.count_pos_iff (l := s.port.w.fresh), ← List.count_pos_iff (l := s.env.router),
      ← List.count_pos_iff (l := s.sending), ne_eq, not_true_eq_false] at hne ho ho' <;>
    omega

/-- Every real handle has exactly one owner (R33). -/
theorem HandlesExclusive.existsUnique_owner {s : State} (hs : HandlesExclusive s) {h : Handle} (h0 : h ≠ 0#32) :
    ∃! o : Owner, s.owns h o := by
  refine existsUnique_of_exists_of_unique ?_ fun o o' ho ho' => by_contra fun hne => hs.not_owns_other h0 hne ho ho'
  by_cases hsent : h ∈ s.sending
  · exact ⟨.caller, .inl hsent⟩
  by_cases hplaced : h ∈ s.placedHandles
  · rcases (mem_placedHandles h0).mp hplaced with hp | htx | hrx | hc | hf | hr
    · exact ⟨.provider, hp⟩
    · exact ⟨.slot, .inl ⟨htx, hsent⟩⟩
    · exact ⟨.slot, .inr hrx⟩
    · exact ⟨.assembler, .inl hc⟩
    · exact ⟨.assembler, .inr hf⟩
    · exact ⟨.router, hr⟩
  · exact ⟨.caller, .inr hplaced⟩

/-- The step in which TX_SEND returns OK passes its handles to their slots (R33, R236). -/
theorem HandlesExclusive.doorbell_passes {s : State} {k : Nat} {h : Handle} (hs : HandlesExclusive s)
    (hh : s.halted = false) (hw : s.port.w = .txDoorbell k) (hsent : h ∈ s.sending) :
    s.workerStep.port = returned .ok 0#32 ∧ s.workerStep.owns h .slot ∧ ¬s.workerStep.owns h .caller := by
  obtain ⟨h0, htx⟩ := hs.sending h hsent
  obtain ⟨txd, hwake⟩ := s.wakeTxd_frame
  have hstep : s.workerStep = ({ s with txd := txd } : State).retOk 0#32 := by
    simp only [State.workerStep, hh, hw, State.sendDoorbell, hwake, Bool.false_eq_true, if_false]
  rw [hstep]
  have hnone : (({ s with txd := txd } : State).retOk 0#32).sending = [] := sending_of_not_send rfl
  have hnot : h ∉ (({ s with txd := txd } : State).retOk 0#32).sending := hnone ▸ List.not_mem_nil
  exact ⟨rfl, .inl ⟨htx, hnot⟩, not_or.mpr ⟨hnot, not_not.mpr ((mem_placedHandles h0).mpr (.inr (.inl htx)))⟩⟩

/-- Settles O50: each step of an agent and each move of ENV keeps the places of every handle apart, and the places decide the
owner. -/
theorem everyStepKeepsHandlesExclusive : Obligations.EveryStepKeepsHandlesExclusive := by
  refine ⟨fun s t hs h => step_keeps_of_answers (P := HandlesExclusive) ?_ (fun s turn t hs h => hs.turnAnswer h) hs h,
    fun s h hs h0 => hs.existsUnique_owner h0, fun s h hsent => .inl hsent,
    fun s k h hs hh hw hsent => hs.doorbell_passes hh hw hsent⟩
  exact fun s script turnNo hs => hs.of_port rfl rfl rfl rfl rfl rfl rfl

/-! ### The output histories -/

/-- A step that puts no frame on the wire and delivers none. -/
structure SameOutputs (s t : State) : Prop where
  wire : t.env.wire = s.env.wire
  delivered : t.env.delivered = s.env.delivered

/-- The end of a frame calls the Buffer Provider alone (R284). -/
theorem SameOutputs.endOfFrame (s : State) (delivered p : Nat) (len : BitVec 16) :
    SameOutputs s (s.endOfFrame delivered p len) := by
  rcases s.endOfFrame_cases delivered p len with h | ⟨got, pool, provider, buf, ds, n, -, h | h⟩ <;>
    exact h ▸ ⟨rfl, rfl⟩

/-- A visit of RX_POLL outputs nothing (R280). -/
theorem SameOutputs.pollVisit (s : State) (delivered : Nat) : SameOutputs s (s.pollVisit delivered) := by
  unfold State.pollVisit
  simp only
  split
  · obtain ⟨ds, n, h⟩ := s.countValue_frame delivered
    simp only [State.pollReturn, h]
    exact ⟨rfl, rfl⟩
  split
  · exact ⟨rfl, rfl⟩
  split
  · obtain ⟨hw, hd⟩ := SameOutputs.endOfFrame s.linkSlot delivered (ringPos s.nRx s.rx.current 0)
      (s.rxAt (ringPos s.nRx s.rx.current 0)).len
    exact ⟨hw, hd⟩
  · exact ⟨rfl, rfl⟩

/-- A visit of TX_RECLAIM calls the Buffer Provider alone (R240). -/
theorem SameOutputs.reclaimVisit (s : State) (more count : Nat) : SameOutputs s (s.reclaimVisit more count) := by
  unfold State.reclaimVisit
  simp only
  split
  · split
    · exact ⟨rfl, rfl⟩
    · obtain ⟨port, service, h, -⟩ := s.advanceRelease.reclaimNext_frame more count
      exact h ▸ ⟨rfl, rfl⟩
  split
  · exact ⟨rfl, rfl⟩
  · generalize hu : State.advanceRelease _ = u
    obtain ⟨port, service, h, -⟩ := u.reclaimNext_frame more (count + 1)
    rw [h, ← hu]
    exact ⟨rfl, rfl⟩

/-- A step of W delivers at most one frame, and puts none on the wire (R32, R286). -/
theorem State.workerStep_outputs (s : State) :
    SameOutputs s s.workerStep ∨
    ∃ f, s.workerStep.env.wire = s.env.wire ∧ s.workerStep.env.delivered = s.env.delivered ++ [f] := by
  unfold State.workerStep
  split
  · exact .inl ⟨rfl, rfl⟩
  split
  · exact .inl ⟨rfl, rfl⟩
  · exact .inl ⟨rfl, rfl⟩
  · next k i _ => cases i <;> exact .inl ⟨rfl, rfl⟩
  · obtain ⟨txd, h⟩ := s.wakeTxd_frame
    rw [State.sendDoorbell, h]
    exact .inl ⟨rfl, rfl⟩
  · exact .inl (.reclaimVisit s _ _)
  · exact .inl (.pollVisit s _)
  · next delivered f fresh len _ =>
    cases fresh with
    | nil => exact .inr ⟨s.chainFrame len, rfl, rfl⟩
    | cons h rest =>
      unfold State.pollRearm
      simp only
      split
      · exact .inr ⟨_, rfl, rfl⟩
      · exact .inl ⟨rfl, rfl⟩
  · unfold State.pollRecycle
    simp only
    split <;> exact .inl ⟨rfl, rfl⟩

/-- A step of TXD puts at most one frame on the wire, and delivers none (R34, R262). -/
theorem State.txdStep_outputs (s : State) :
    SameOutputs s s.txdStep ∨
    ∃ f, s.txdStep.env.wire = s.env.wire ++ [f] ∧ s.txdStep.env.delivered = s.env.delivered := by
  unfold State.txdStep
  split
  · exact .inl ⟨rfl, rfl⟩
  split
  · exact .inl ⟨rfl, rfl⟩
  · split
    · unfold State.txdSend
      split
      · exact .inl ⟨rfl, rfl⟩
      · exact .inr ⟨_, rfl, rfl⟩
    · exact .inl ⟨rfl, rfl⟩
  · obtain ⟨ds, n, h⟩ := s.draw_spec
    unfold State.txdComplete
    simp only [h]
    split <;> exact .inl ⟨rfl, rfl⟩

/-- A worker command that needs a configured block outputs what its own step does. -/
theorem SameOutputs.issueConfigured {s : State} {cmd : State → State} (h : SameOutputs s (cmd s)) :
    SameOutputs s (s.issueConfigured cmd) := by
  rcases s.issueConfigured_cases cmd with he | ⟨-, -, -, he⟩ | ⟨-, -, -, he⟩ <;> rw [he]
  · exact ⟨rfl, rfl⟩
  · exact ⟨rfl, rfl⟩
  · exact h

/-- No command's first step outputs a frame. -/
theorem SameOutputs.exec {s t : State} {i : Instr} (h : exec i s = .next t) : SameOutputs s t := by
  cases i <;> simp only [Machine.exec] at h
  case irqEntry =>
    obtain ⟨irq, he⟩ := execIrqEntry_frame s
    cases he.symm.trans h
    exact ⟨rfl, rfl⟩
  all_goals cases h
  case cfg =>
    rcases s.issue_cases State.configure with h | ⟨-, -, h⟩ <;> rw [h]
    · exact ⟨rfl, rfl⟩
    rcases s.configure_cases with ⟨code, h⟩ | ⟨got, pool, provider, ds, n, -, h | h⟩ <;> rw [h]
    · exact ⟨rfl, rfl⟩
    · constructor <;> rw [State.retOk_env, State.construct_env]
    · exact ⟨rfl, rfl⟩
  case txSend k =>
    refine .issueConfigured ?_
    obtain ⟨slots, h, -⟩ := s.fillChain_handles k
    unfold State.sendStart
    split
    · exact ⟨rfl, rfl⟩
    · split
      · exact ⟨rfl, rfl⟩
      · exact ⟨rfl, rfl⟩
      · exact h ▸ ⟨rfl, rfl⟩
  case txReclaim =>
    refine .issueConfigured ?_
    obtain ⟨port, service, h, -⟩ := s.reclaimStart_frame
    exact h ▸ ⟨rfl, rfl⟩
  case rxPoll => exact .issueConfigured ⟨rfl, rfl⟩
  case evtDrain => exact .issueConfigured ⟨rfl, rfl⟩
  case mcJoin =>
    refine .issueConfigured ?_
    obtain ⟨port, mc, h, -⟩ := s.joinBucket_frame
    exact h ▸ ⟨rfl, rfl⟩
  case mcLeave =>
    refine .issueConfigured ?_
    obtain ⟨port, mc, h, -⟩ := s.leaveBucket_frame
    exact h ▸ ⟨rfl, rfl⟩

/-- No move of ENV outputs a frame. -/
theorem SameOutputs.hostAnswer {s t : State} {m : HostMove} (h : HostAnswer s m t) : SameOutputs s t := by
  cases h with
  | command i t h duty => exact .exec h
  | illegal => rcases s.issue_cases (·.retErr .illegalCommand) with h | ⟨-, -, h⟩ <;> rw [h] <;> exact ⟨rfl, rfl⟩
  | doorbell =>
    obtain ⟨txd, h⟩ := s.ringDoorbell_frame
    exact h ▸ ⟨rfl, rfl⟩
  | isr => unfold State.writeIsr; split <;> exact ⟨rfl, rfl⟩
  | arg a => unfold State.writeArg; split <;> exact ⟨rfl, rfl⟩
  | offer frame h0 h1 =>
    obtain ⟨halt, rxd, ctr, h⟩ := s.offerFrame_frame frame
    exact h ▸ ⟨rfl, rfl⟩
  | intIllegal | intQueued | txBase | rxBase | ignored | read | giveBack | take | fill | readBuffer => exact ⟨rfl, rfl⟩

/-- The outputs of `t` are those of `s`, with at most one frame more, sent or delivered. -/
def OutputsGrow (s t : State) : Prop :=
  (t.env.wire = s.env.wire ∧ t.env.delivered = s.env.delivered) ∨
  (∃ f, t.env.wire = s.env.wire ++ [f] ∧ t.env.delivered = s.env.delivered) ∨
  (∃ f, t.env.wire = s.env.wire ∧ t.env.delivered = s.env.delivered ++ [f])

theorem SameOutputs.grow {s t : State} (h : SameOutputs s t) : OutputsGrow s t := .inl ⟨h.wire, h.delivered⟩

/-- Every turn outputs at most one frame. -/
theorem TurnAnswer.outputsGrow {s t : State} {turn : Turn} (h : TurnAnswer s turn t) : OutputsGrow s t := by
  cases h with
  | worker => exact s.workerStep_outputs.elim SameOutputs.grow fun h => .inr (.inr h)
  | interrupt =>
    obtain ⟨irq, h⟩ := s.interruptStep_frame
    exact h ▸ .inl ⟨rfl, rfl⟩
  | txd => exact s.txdStep_outputs.elim SameOutputs.grow fun h => .inr (.inl h)
  | rxd =>
    obtain ⟨isr, slots, rxd, data, -, h⟩ := s.rxdStep_frame
    exact h ▸ .inl ⟨rfl, rfl⟩
  | host h => exact (SameOutputs.hostAnswer h).grow

/-- Settles O58: only TXD's send step and RX_POLL's delivery output a frame, one each. -/
theorem outputsOnlyGrow : Obligations.OutputsOnlyGrow := by
  intro s t h
  rcases step_cases h with ⟨turn, rest, -, h⟩ | ⟨-, h⟩
  · exact (takeTurn_answer h).outputsGrow
  · exact (takeTurn_answer h).outputsGrow

/-! ### The step that writes a command word -/

/-- A command word that keeps ENV's duty and decodes on its port to a command runs that command when ENV writes it there (R42,
R112, R144). -/
theorem hostMove_issueMove {s : State} {w : Word} {i : Instr} (hd : decode (portOfWord w) w = .ok i)
    (duty : s.sendBreaksDuty w = false) : s.hostMove (issueMove w) = exec i s := by
  cases hp : portOfWord w with
  | worker =>
    rw [hp] at hd
    have hd : decodeWorker w = .ok i := hd
    simp [issueMove, hp, portOffset, State.hostMove, accessAdmitted, duty, State.writeAt, regAt, regTable, Store.get?,
      State.writeReg, State.writeCmd, hd]
  | interrupt =>
    rw [hp] at hd
    have hd : decodeInterrupt w = .ok i := hd
    simp [issueMove, hp, portOffset, State.hostMove, accessAdmitted, State.writeAt, regAt, regTable, Store.get?,
      State.writeReg, State.writeIntCmd, hd]

/-- Settles O3: the step takes the turn that the script fixes, which is the write. -/
theorem stepRunsTheDecodedCommand : Obligations.StepRunsTheDecodedCommand :=
  fun _ _ _ _ hscript hd duty => (step_of_script hscript).trans (hostMove_issueMove hd duty)

/-! ### The moves of ENV -/

/-- A TX_SEND's word is written to `CMD` (R141). -/
theorem portOfWord_txSend {w : Word} {k : Nat} (hd : decodeWorker w = .ok (.txSend k)) : portOfWord w = .worker := by
  have hne : w ≠ 0x00000008#32 := by
    rintro rfl
    cases hd
  simp [portOfWord, hne]

/-- A TX_SEND that passes its validation and finds its slots free is accepted (R230, R231). -/
theorem sendAccepted_of_free {s : State} {k : Nat} (hr : s.Ready) (herr : s.sendError k = none)
    (hfree : ∀ i < k, (s.txAt (s.sendSlot i)).isFree = true) : s.sendAccepted k = true := by
  have hcheck : s.checkFree (s.sendSlots k) = .allFree := by
    have hall : ∀ p ∈ s.sendSlots k, (s.txAt p).isFree = true := fun p hp => by
      obtain ⟨i, hi, rfl⟩ := List.mem_map.mp hp
      exact hfree i (List.mem_range.mp hi)
    have := s.checkFree_append hall []
    rwa [List.append_nil] at this
  obtain ⟨hh, hb, hc⟩ := hr
  simp [State.sendAccepted, hh, hb, hc, herr, hcheck]

/-- A handle that is free, or the Frame Router's, is no caller's (R33). -/
theorem notCallers_iff {s : State} {h : Handle} : s.notCallers h = true ↔ h ∈ s.env.pool ∨ h ∈ s.env.router := by
  simp [State.notCallers]

/-- ENV has no move that hands an accepted TX_SEND a handle that is no caller's (R30). -/
theorem hostMove_send_refused {s : State} {w : Word} {k : Nat} (hd : decodeWorker w = .ok (.txSend k))
    (hacc : s.sendAccepted k = true) (hbad : ∃ h ∈ s.sendHandles k, s.notCallers h = true) :
    s.hostMove (issueMove w) = .refused (.noSuchMove .sendsOwnHandles) := by
  have hduty : s.sendBreaksDuty w = true := by
    simp only [State.sendBreaksDuty, hd, hacc, Bool.true_and, List.any_eq_true]
    exact hbad
  simp [issueMove, portOfWord_txSend hd, portOffset, State.hostMove, accessAdmitted, hduty]

/-- The owner of a handle gives it back, unless a running TX_SEND has it (R30, R31). -/
theorem hostMove_giveBack {s : State} {h : Handle} (own : s.envOwns h = true) :
    s.hostMove (.giveBack h) = if h ∈ s.sending then .refused (.noSuchMove .keepsSentHandle)
      else .next { s with
        env.pool := HandleSet.insert s.env.pool h
        env.router := HandleSet.remove s.env.router h } := by
  simp [State.hostMove, own]

/-- ENV writes the bytes it may write (R100, R472). -/
theorem hostMove_fill {s : State} {h : Handle} {start : Nat} {bytes : List Byte}
    (hw : s.envWrites h start bytes.length = true) : s.hostMove (.fill h start bytes) =
      .next { s with buf.data := Memory.writeBytes s.buf.data h start bytes } := by
  simp [State.hostMove, hw]

/-- ENV reads the bytes it may read (R100). -/
theorem hostMove_readBuffer {s : State} {h : Handle} {start n : Nat} (hr : s.envReads h start n = true) :
    s.hostMove (.readBuffer h start n) =
      .next { s with env.readBytes := Memory.readBytes s.buf.data h start n } := by
  simp [State.hostMove, hr]

/-- What ENV writes into a buffer outside the block it reads back (R100). -/
theorem hostMove_fill_readBuffer {s : State} {h : Handle} {start : Nat} {bytes : List Byte} (h0 : h ≠ 0#32)
    (hout : s.blockHolds h = false) (hlim : start + bytes.length ≤ s.bufferLimit) :
    ∃ t, s.hostMove (.fill h start bytes) = .next t ∧
      t.hostMove (.readBuffer h start bytes.length) = .next { t with env := { t.env with readBytes := bytes } } := by
  refine ⟨_, hostMove_fill (envWrites_iff.mpr ⟨h0, hout, hlim⟩), ?_⟩
  rw [hostMove_readBuffer]
  · rw [Memory.readBytes_writeBytes _ h0]
  · exact envReads_iff.mpr ⟨h0, blockOwns_of_not_held hout, hlim⟩

/-- A handle that ENV gives back is free afterwards and no longer the Frame Router's (R30, R31). -/
theorem hostMove_giveBack_frees {s : State} {h : Handle} (own : s.envOwns h = true) (kept : h ∉ s.sending)
    (hrouter : HandleSet.rising s.env.router) :
    ∃ t, s.hostMove (.giveBack h) = .next t ∧ h ∈ t.env.pool ∧ h ∉ t.env.router := by
  refine ⟨_, (hostMove_giveBack own).trans (if_neg kept), (HandleSet.mem_insert _ _ _).mpr (.inl rfl), ?_⟩
  have hnodup : s.env.router.Nodup := List.Nodup.of_map _ (hrouter.imp Nat.ne_of_lt)
  show h ∉ HandleSet.remove s.env.router h
  rw [HandleSet.remove_eq_erase]
  exact hnodup.not_mem_erase

/-- Settles O59: each missing move fails the check that its duty makes, and each move that ENV has passes its own. -/
theorem dutyBreakingMovesDoNotExist : Obligations.DutyBreakingMovesDoNotExist := by
  intro s
  refine ⟨fun h hown => ?_, fun h hfree => ?_, fun h start bytes held => ?_, fun h start n hown => ?_, fun frame hlen => ?_,
    fun w k hd hr herr hfree hbad => ?_, fun h own kept hrouter => hostMove_giveBack_frees own kept hrouter,
    fun h start bytes h0 hout hlim => hostMove_fill_readBuffer h0 hout hlim,
    fun h hsent h0 hfree => ⟨?_, fun start n hlim => ?_⟩⟩
  · simp [State.hostMove, hown]
  · simp [State.hostMove, hfree]
  · simp [State.hostMove, State.envWrites, held]
  · simp [State.hostMove, State.envReads, hown]
  · simp only [State.hostMove, if_pos hlen]
  · refine hostMove_send_refused hd (sendAccepted_of_free hr herr hfree) ?_
    obtain ⟨i, hi, hbad⟩ := hbad
    exact ⟨s.sendHandle i, List.mem_map_of_mem (List.mem_range.mpr hi), notCallers_iff.mpr hbad⟩
  · have own := envOwns_iff.mpr ⟨h0, hfree, blockOwns_of_sending hsent⟩
    exact (hostMove_giveBack own).trans (if_pos hsent)
  · exact ⟨_, hostMove_readBuffer (envReads_iff.mpr ⟨h0, blockOwns_of_sending hsent, hlim⟩), rfl⟩

end Sys2Proof.Machine

/-! Family 10_state: the canonical forms, the RX ring, the interrupt bits, the register map, the ring's shape and the faults. -/

namespace Sys2Proof.Machine

/-! ### What CFG, the end of a frame and the DMA agents can do, in full -/

/-- CFG refuses, or its counts and capacity are legal and it has asked for its buffers: with all of them it constructs the rings,
else it releases what it got (R210, R211). -/
theorem State.configure_answers (s : State) :
    (∃ code, s.configure = s.retErr code) ∨
    s.cfg.configured = false ∧ pow2 s.cfgTxCount = true ∧ pow2 s.cfgRxCount = true ∧ s.cfgCapacity ≠ 0#16 ∧
      ∃ got u, s.allocateUpTo s.cfgRxCount.toNat = (got, u) ∧
        (got.length = s.cfgRxCount.toNat ∧ s.configure = (u.construct s.cfgTxCount got).retOk 0#32 ∨
          s.configure = (u.releaseAll got).retErr .outOfBuffers) := by
  unfold State.configure
  split
  · exact .inl ⟨_, rfl⟩
  next hc =>
  split
  · exact .inl ⟨_, rfl⟩
  next hlegal =>
  simp only [Bool.or_eq_true, Bool.not_eq_true', beq_iff_eq, not_or, Bool.not_eq_false] at hlegal
  obtain ⟨⟨htx, hrx⟩, hcap⟩ := hlegal
  obtain ⟨env, ds, n, hu⟩ := State.allocateUpTo_frame s.cfgRxCount.toNat s
  refine .inr ⟨by simpa using hc, htx, hrx, hcap, _, _, rfl, ?_⟩
  simp only [hu]
  split
  · next hlen => exact .inl ⟨hlen, rfl⟩
  · exact .inr rfl

/-- The end of a frame raises the length fault, or the length fits and W has asked for as many buffers as the chain has: with all of
them it starts the refill, else it releases what it got and starts to put the frame's own buffers back (R283, R284, R288). -/
theorem State.endOfFrame_answers (s : State) (delivered p : Nat) (len : BitVec 16) :
    (s.lengthFits s.rx.chain.length len = false ∧
      s.endOfFrame delivered p len = s.raiseInCommand .rxLengthInconsistent .rx p) ∨
    ∃ got u, (s.spanChain len).allocateUpTo s.rx.chain.length = (got, u) ∧
      (got.length = s.rx.chain.length ∧ s.endOfFrame delivered p len = u.rearmFrom delivered 0 got len ∨
        s.endOfFrame delivered p len = (u.releaseAll got).recycleFrom delivered 0) := by
  unfold State.endOfFrame
  simp only
  split
  · next hfit => exact .inl ⟨by simpa using hfit, rfl⟩
  · refine .inr ⟨_, _, rfl, ?_⟩
    split
    · next hlen => exact .inl ⟨hlen, rfl⟩
    · exact .inr rfl

/-- A visit of TX_RECLAIM raises the fault of an owned empty slot, returns at an owned one, or takes the slot out of the window,
whose buffer, if it has one, is free from then on (R240 to R243). -/
theorem State.reclaimVisit_answers (s : State) (more count : Nat) :
    s.reclaimVisit more count = s.raiseInCommand .emptySlotOwned .tx (ringPos s.nTx s.tx.release 0) ∨
    s.reclaimVisit more count = s.reclaimReturn count ∨
    ∃ port service, port.w.inRefill = false ∧
      (s.reclaimVisit more count = { s.advanceRelease with port := port, service := service } ∨
        ∃ p, (s.txAt p).buf ≠ 0#32 ∧ s.reclaimVisit more count =
          { ((s.releaseHandle (s.txAt p).buf).setTx p (s.txAt p).clear).advanceRelease with
            port := port, service := service }) := by
  unfold State.reclaimVisit
  simp only
  split
  · split
    · exact .inl rfl
    · obtain ⟨port, service, h, hw, -⟩ := s.advanceRelease.reclaimNext_frame more count
      exact .inr (.inr ⟨port, service, hw, .inl h⟩)
  next hbuf =>
  split
  · exact .inr (.inl rfl)
  · generalize ringPos s.nTx s.tx.release 0 = p at hbuf ⊢
    obtain ⟨port, service, h, hw, -⟩ :=
      (((s.releaseHandle (s.txAt p).buf).setTx p (s.txAt p).clear).advanceRelease).reclaimNext_frame more (count + 1)
    exact .inr (.inr ⟨port, service, hw, .inr ⟨p, hbuf, h⟩⟩)

/-- A visit of RX_POLL returns at an owned slot, raises the fault of an empty one, or links the slot and goes on with the end of the
frame or with the next visit (R280). -/
theorem State.pollVisit_answers (s : State) (n : Nat) :
    (∃ ds k v, s.pollVisit n = (State.endService { s with draws := ds, drawNo := k } receivedBit).retOk v) ∨
    s.pollVisit n = s.raiseInCommand .rxSlotEmpty .rx (ringPos s.nRx s.rx.current 0) ∨
    (s.rxFromCurrent 0).owned = false ∧ (s.rxFromCurrent 0).buf ≠ 0#32 ∧
      ((s.rxFromCurrent 0).eof = true ∧ s.pollVisit n =
          s.linkSlot.endOfFrame n (ringPos s.nRx s.rx.current 0) (s.rxFromCurrent 0).len ∨
        (s.rxFromCurrent 0).eof = false ∧ s.pollVisit n = s.linkSlot.goOn (.pollVisit n)) := by
  unfold State.pollVisit
  simp only
  split
  · obtain ⟨ds, k, h⟩ := s.countValue_frame n
    exact .inl ⟨ds, k, (s.countValue n).1, by simp only [State.pollReturn, h]⟩
  next hown =>
  split
  · exact .inr (.inl rfl)
  next hbuf =>
  refine .inr (.inr ⟨Bool.eq_false_of_not_eq_true hown, hbuf, ?_⟩)
  split
  · next heof => exact .inl ⟨heof, rfl⟩
  · next heof => exact .inr ⟨Bool.eq_false_of_not_eq_true heof, rfl⟩

/-- Allocations from a free set of real handles obtain real handles, leave real handles, and change besides only the history of
calls and the model's own draws (R31). -/
theorem State.allocateUpTo_bufs {s u : State} {k : Nat} {got : List Handle} (hu : s.allocateUpTo k = (got, u))
    (hreal : ∀ h ∈ s.env.pool, h ≠ 0#32) : (∀ h ∈ got, h ≠ 0#32) ∧ ∃ pool provider ds n, (∀ h ∈ pool, h ≠ 0#32) ∧
      u = { s with draws := ds, drawNo := n, env := { s.env with pool := pool, provider := provider } } := by
  obtain ⟨got', pool, provider, ds, n, hget, hperm⟩ := State.allocateUpTo_perm k s
  cases hget.symm.trans hu
  obtain ⟨hgot, hpool⟩ := List.forall_mem_append.mp fun h hh => hreal h (hperm.mem_iff.mp hh)
  exact ⟨hgot, pool, provider, ds, n, hpool, rfl⟩

/-- Releases of real handles leave real handles in the free set, and change besides only the history of calls (R31). -/
theorem State.releaseAll_bufs {s : State} {l : List Handle} (hl : ∀ h ∈ l, h ≠ 0#32) (hreal : ∀ h ∈ s.env.pool, h ≠ 0#32) :
    ∃ pool provider, (∀ h ∈ pool, h ≠ 0#32) ∧
      s.releaseAll l = { s with env := { s.env with pool := pool, provider := provider } } := by
  obtain ⟨provider, h⟩ := State.releaseAll_insertAll l s
  exact ⟨_, provider, fun g hg => ((HandleSet.mem_insertAll l g s.env.pool).mp hg).elim (hreal g) (hl g), h⟩

/-- The fault registers of `t` are those of `s`, or those after one `raise` (R405, R407). -/
def RaisesAtMostOne (s t : State) : Prop := t.halt = s.halt ∨ ∃ bit ring p, t.halt = (s.raise bit ring p).halt

/-- A write of a TX slot that keeps its wrap bit keeps all of them. -/
theorem State.txWraps_setTx {s : State} {p : Nat} {d : TxSlot} (hd : d.wrap = (s.txAt p).wrap) :
    (s.tx.slots.set p d).map TxSlot.wrap = s.tx.slots.map TxSlot.wrap := by
  have hp : (s.tx.slots.map TxSlot.wrap).getD p false = (s.txAt p).wrap :=
    List.getD_map s.tx.slots TxSlot.free TxSlot.wrap
  rw [List.map_set, hd, ← hp, set_getD_self]

/-- A write of an RX slot that keeps its wrap bit keeps all of them. -/
theorem State.rxWraps_setRx {s : State} {p : Nat} {d : RxSlot} (hd : d.wrap = (s.rxAt p).wrap) :
    (s.rx.slots.set p d).map RxSlot.wrap = s.rx.slots.map RxSlot.wrap := by
  have hp : (s.rx.slots.map RxSlot.wrap).getD p false = (s.rxAt p).wrap :=
    List.getD_map s.rx.slots RxSlot.empty RxSlot.wrap
  rw [List.map_set, hd, ← hp, set_getD_self]

/-- No bit of ISR is cleared from `a` to `b` (R82). -/
def BitsStay (a b : BitVec 2) : Prop := a &&& ~~~b = 0#2

theorem BitsStay.refl (a : BitVec 2) : BitsStay a a := BitVec.and_not_self a

theorem BitsStay.or (a b : BitVec 2) : BitsStay a (a ||| b) := by
  revert a b
  unfold BitsStay
  decide

/-- TXD's step: its own registers, TX slots whose wrap bits stay, new bits of ISR, the wire, draws, and at most one fault (R260 to
R264). -/
theorem State.txdStep_effect (s : State) : ∃ halt isr slots txd wire ds n, s.txdStep =
      { s with
        halt := halt, irq.isr := isr, tx.slots := slots, txd := txd, env.wire := wire, draws := ds, drawNo := n } ∧
    BitsStay s.irq.isr isr ∧ RaisesAtMostOne s s.txdStep ∧ slots.map TxSlot.wrap = s.tx.slots.map TxSlot.wrap := by
  unfold State.txdStep
  split
  · exact ⟨_, _, _, _, _, _, _, rfl, .refl _, .inl rfl, rfl⟩
  split
  · exact ⟨_, _, _, _, _, _, _, rfl, .refl _, .inl rfl, rfl⟩
  · split
    · unfold State.txdSend
      split
      · next bit p _ => exact ⟨_, _, _, _, _, _, _, rfl, .refl _, .inr ⟨bit, .tx, p, rfl⟩, rfl⟩
      · exact ⟨_, _, _, _, _, _, _, rfl, .refl _, .inl rfl, rfl⟩
    · exact ⟨_, _, _, _, _, _, _, rfl, .refl _, .inl rfl, rfl⟩
  · obtain ⟨ds, n, h⟩ := s.draw_spec
    unfold State.txdComplete
    simp only [h]
    split
    · exact ⟨_, _, _, _, _, _, _, rfl, .or _ _, .inl rfl, State.txWraps_setTx rfl⟩
    · exact ⟨_, _, _, _, _, _, _, rfl, .refl _, .inl rfl, State.txWraps_setTx rfl⟩

/-- RXD's step: its own registers, RX slots whose wrap bits stay, new bits of ISR, and bytes of one buffer (R300, R303). -/
theorem State.rxdStep_effect (s : State) : ∃ isr slots rxd h bytes, s.rxdStep =
      { s with
        irq.isr := isr, rx.slots := slots, rxd := rxd, buf.data := Memory.writeBytes s.buf.data h 0 bytes } ∧
    BitsStay s.irq.isr isr ∧ slots.map RxSlot.wrap = s.rx.slots.map RxSlot.wrap := by
  unfold State.rxdStep
  split
  · exact ⟨_, _, _, 0#32, [], rfl, .refl _, rfl⟩
  split
  · exact ⟨_, _, _, 0#32, [], rfl, .refl _, rfl⟩
  · unfold State.rxdWrite
    simp only
    split
    · exact ⟨_, _, _, _, _, rfl, .or _ _, State.rxWraps_setRx rfl⟩
    · exact ⟨_, _, _, _, _, rfl, .refl _, State.rxWraps_setRx rfl⟩

/-! ### The slots of the RX ring, counted from `rx.current` -/

/-- The slots depend on the ring and its cursor alone. -/
theorem State.rxFromCurrent_congr {s t : State} (hslots : t.rx.slots = s.rx.slots) (hcur : t.rx.current = s.rx.current)
    (j : Nat) : t.rxFromCurrent j = s.rxFromCurrent j := by
  simp only [State.rxFromCurrent, State.rxAt, State.nRx, hslots, hcur]

/-- A write of the slot `q` places on changes that slot alone. -/
theorem State.rxFromCurrent_setRx (s : State) {q j : Nat} (d : RxSlot) (hq : q < s.nRx) (hj : j < s.nRx) :
    (s.setRx (ringPos s.nRx s.rx.current q) d).rxFromCurrent j = if j = q then d else s.rxFromCurrent j := by
  have hpos : ringPos s.nRx s.rx.current q < s.nRx := Nat.mod_lt _ (by omega)
  simp only [State.rxFromCurrent, State.nRx_setRx]
  split
  · next h =>
    subst h
    exact s.rxAt_setRx_self d hpos
  · next h => exact s.rxAt_setRx_ne d fun e => h (ringPos_inj _ hj hq e)

/-- After the cursor has moved on by one, the slot `j` places on is the one that was `j + 1` places on. -/
theorem State.rxFromCurrent_advance {s t : State} (hsize : IsRingSize s.nRx) (hlt : s.rx.current.toNat < s.nRx)
    (hslots : t.rx.slots = s.rx.slots) (hcur : t.rx.current = adv s.nRx s.rx.current) (j : Nat) :
    t.rxFromCurrent j = s.rxFromCurrent (j + 1) := by
  have hpos : ringPos s.nRx t.rx.current j = ringPos s.nRx s.rx.current (1 + j) :=
    ringPos_add _ _ _ _ (hcur ▸ adv_eq_ringPos hsize _ hlt)
  have hn : t.nRx = s.nRx := congrArg List.length hslots
  rw [State.rxFromCurrent, hn, hpos, Nat.add_comm, State.rxAt, hslots]
  rfl

/-- Once around the ring is the same slot. -/
theorem State.rxFromCurrent_around (s : State) : s.rxFromCurrent s.nRx = s.rxFromCurrent 0 := by
  simp only [State.rxFromCurrent, ringPos, Nat.add_mod_right, Nat.add_zero]

/-- From `rx.current` on lie `a` written slots, then armed ones, then `e` empty ones: the part of `RxSound` that speaks of slots. -/
structure RxZones (s : State) (a e : Nat) : Prop where
  size : IsRingSize s.nRx
  current_lt : s.rx.current.toNat < s.nRx
  room : e + a ≤ s.nRx
  written : ∀ j < a, (s.rxFromCurrent j).buf ≠ 0#32 ∧ (s.rxFromCurrent j).owned = false
  armed : ∀ j, a ≤ j → j + e < s.nRx → (s.rxFromCurrent j).buf ≠ 0#32 ∧ (s.rxFromCurrent j).owned = true
  empty : ∀ j, j < s.nRx → s.nRx ≤ j + e → (s.rxFromCurrent j).buf = 0#32 ∧ (s.rxFromCurrent j).owned = false

theorem RxSound.zones {s : State} {a : Nat} (hs : RxSound s a) : RxZones s a s.emptySlots :=
  ⟨hs.size, hs.current_lt, hs.room, hs.written_slots, hs.armed_slots, hs.empty_slots⟩

theorem RxZones.congr {s t : State} {a e : Nat} (hs : RxZones s a e) (hslots : t.rx.slots = s.rx.slots)
    (hcur : t.rx.current = s.rx.current) : RxZones t a e := by
  have hn : t.nRx = s.nRx := congrArg List.length hslots
  have hfrom := State.rxFromCurrent_congr hslots hcur
  exact ⟨hn ▸ hs.size, by rw [hn, hcur]; exact hs.current_lt, hn ▸ hs.room, fun j => hfrom j ▸ hs.written j,
    fun j => hn ▸ hfrom j ▸ hs.armed j, fun j => hn ▸ hfrom j ▸ hs.empty j⟩

/-- The first empty slot is armed (R285, R288). -/
theorem RxZones.arm {s : State} {a e : Nat} (hs : RxZones s a (e + 1)) {d : RxSlot} (hbuf : d.buf ≠ 0#32)
    (hown : d.owned = true) : RxZones (s.setRx (ringPos s.nRx s.rx.current (s.nRx - (e + 1))) d) a e := by
  have hroom := hs.room
  have hfrom := fun j hj => s.rxFromCurrent_setRx (q := s.nRx - (e + 1)) (j := j) d (by omega) hj
  refine ⟨by simpa using hs.size, by simpa using hs.current_lt, by simp; omega, fun j hj => ?_, fun j h1 h2 => ?_,
    fun j h1 h2 => ?_⟩
  · rw [hfrom j (by omega), if_neg (by omega)]
    exact hs.written j hj
  · rw [State.nRx_setRx] at h2
    rw [hfrom j (by omega)]
    split
    · exact ⟨hbuf, hown⟩
    · exact hs.armed j h1 (by omega)
  · rw [State.nRx_setRx] at h1 h2
    rw [hfrom j h1, if_neg (by omega)]
    exact hs.empty j h1 (by omega)

/-- RXD writes the first armed slot and releases it (R303). -/
theorem RxZones.write {s : State} {a e : Nat} (hs : RxZones s a e) (hfree : a + e < s.nRx) {d : RxSlot} (hbuf : d.buf ≠ 0#32)
    (hown : d.owned = false) : RxZones (s.setRx (ringPos s.nRx s.rx.current a) d) (a + 1) e := by
  have hfrom := fun j hj => s.rxFromCurrent_setRx (q := a) (j := j) d (by omega) hj
  refine ⟨by simpa using hs.size, by simpa using hs.current_lt, by simp; omega, fun j hj => ?_, fun j h1 h2 => ?_,
    fun j h1 h2 => ?_⟩
  · rw [hfrom j (by omega)]
    split
    · exact ⟨hbuf, hown⟩
    · exact hs.written j (by omega)
  · rw [State.nRx_setRx] at h2
    rw [hfrom j (by omega), if_neg (by omega)]
    exact hs.armed j (by omega) h2
  · rw [State.nRx_setRx] at h1 h2
    rw [hfrom j h1, if_neg (by omega)]
    exact hs.empty j h1 h2

@[simp] theorem State.nRx_linkSlot (s : State) : s.linkSlot.nRx = s.nRx := s.nRx_setRx _ _

/-- A visit moves the cursor on by one (R280). -/
theorem State.linkSlot_current (s : State) : s.linkSlot.rx.current = adv s.nRx s.rx.current :=
  congrArg (adv · s.rx.current) (s.nRx_setRx _ _)

/-- A visited slot is empty and the last of the ring from the new cursor on (R281). -/
theorem State.rxFromCurrent_linkSlot {s : State} (hsize : IsRingSize s.nRx) (hlt : s.rx.current.toNat < s.nRx) {j : Nat}
    (hj : j < s.nRx) : s.linkSlot.rxFromCurrent j =
      if j + 1 = s.nRx then { s.rxFromCurrent 0 with buf := 0#32 } else s.rxFromCurrent (j + 1) := by
  have hadv := State.rxFromCurrent_advance (s := s.setRx (ringPos s.nRx s.rx.current 0) { s.rxFromCurrent 0 with buf := 0#32 })
    (t := s.linkSlot) (by simpa using hsize) (by simpa using hlt) rfl rfl j
  rw [hadv]
  split
  · next h =>
    have hn : j + 1 = (s.setRx (ringPos s.nRx s.rx.current 0) { s.rxFromCurrent 0 with buf := 0#32 }).nRx := by
      rw [State.nRx_setRx, h]
    rw [hn, State.rxFromCurrent_around, State.rxFromCurrent_setRx _ _ hsize.pos hsize.pos, if_pos rfl]
  · next h => rw [State.rxFromCurrent_setRx _ _ hsize.pos (by omega), if_neg (by omega)]

/-- RX_POLL links the first written slot (R281). -/
theorem RxZones.link {s : State} {a e : Nat} (hs : RxZones s (a + 1) e) : RxZones s.linkSlot a (e + 1) := by
  have hroom := hs.room
  have hfrom := fun j hj => State.rxFromCurrent_linkSlot (j := j) hs.size hs.current_lt hj
  have hcur : s.linkSlot.rx.current.toNat = ringPos s.nRx s.rx.current 1 :=
    s.linkSlot_current ▸ adv_eq_ringPos hs.size _ hs.current_lt
  refine ⟨by simpa using hs.size, by rw [hcur, State.nRx_linkSlot]; exact ringPos_lt hs.size.pos _ _, by simp; omega,
    fun j hj => ?_, fun j h1 h2 => ?_, fun j h1 h2 => ?_⟩
  · rw [hfrom j (by omega), if_neg (by omega)]
    exact hs.written (j + 1) (by omega)
  · rw [State.nRx_linkSlot] at h2
    rw [hfrom j (by omega), if_neg (by omega)]
    exact hs.armed (j + 1) (by omega) (by omega)
  · rw [State.nRx_linkSlot] at h1 h2
    rw [hfrom j h1]
    split
    · exact ⟨rfl, (hs.written 0 (by omega)).2⟩
    · exact hs.empty (j + 1) (by omega) (by omega)

/-! ### The frames in the written slots -/

/-- The frames that the written slots make up depend on the capacity and on what RXD has written of its own frame. -/
theorem framesFit_congr {s t : State} (hcap : t.cfg.cap = s.cfg.cap) (hw : t.rxd.written = s.rxd.written) (l : List RxSlot) :
    ∀ p, FramesFit t p l ↔ FramesFit s p l := by
  induction l with
  | nil => simp [FramesFit, hw]
  | cons d l ih => simp [FramesFit, ih, State.lengthFits, hcap]

/-- RXD writes one more slot: it ends the frame with a length that fits its fragments, or is one more fragment of it (R303). -/
theorem FramesFit.snoc {s t : State} (hcap : t.cfg.cap = s.cfg.cap) {d : RxSlot}
    (hlast : d.eof = true → s.lengthFits (s.rxd.written + 1) d.len = true ∧ t.rxd.written = 0)
    (hmore : d.eof = false → t.rxd.written = s.rxd.written + 1) (l : List RxSlot) :
    ∀ p, FramesFit s p l → FramesFit t p (l ++ [d]) := by
  induction l with
  | nil =>
    intro p hp
    obtain rfl : p = s.rxd.written := hp
    cases he : d.eof <;> simp_all [FramesFit, State.lengthFits]
  | cons x l ih =>
    intro p hp
    simp only [FramesFit, List.cons_append] at hp ⊢
    split at hp
    · next hx =>
      rw [if_pos hx]
      exact ⟨by simpa [State.lengthFits, hcap] using hp.1, ih _ hp.2⟩
    · next hx =>
      rw [if_neg hx]
      exact ih _ hp

/-! ### Steps that leave the RX ring as it is -/

/-- Outside a refill every slot of the Pending Frame Chain is empty. -/
theorem emptySlots_of_not_refill {s : State} (hw : s.port.w.inRefill = false) : s.emptySlots = s.rx.chain.length := by
  cases h : s.port.w <;> simp_all [State.emptySlots, WState.inRefill]

/-- Outside a refill the chain is the open frame. -/
theorem openFragments_of_not_refill {s : State} (hw : s.port.w.inRefill = false) :
    s.openFragments = s.rx.chain.length := by
  cases h : s.port.w <;> simp_all [State.openFragments, WState.inRefill]

/-- A step that leaves the receive side as it is, and W in its place or outside a refill, keeps the RX ring sound. -/
theorem RxSound.of_same {s t : State} {a : Nat} (hs : RxSound s a) (hcap : t.cfg.cap = s.cfg.cap) (hrx : t.rx = s.rx)
    (hrxd : t.rxd = s.rxd) (hw : t.port.w = s.port.w ∨ s.port.w.inRefill = false ∧ t.port.w.inRefill = false)
    (hpool : ∀ h ∈ t.env.pool, h ≠ 0#32) : RxSound t a := by
  have hn : t.nRx = s.nRx := by simp only [State.nRx, hrx]
  have hfrom : t.rxFromCurrent = s.rxFromCurrent :=
    funext (State.rxFromCurrent_congr (congrArg RxRing.slots hrx) (congrArg RxRing.current hrx))
  have hempty : t.emptySlots = s.emptySlots := by
    rcases hw with hw | ⟨h1, h2⟩
    · simp only [State.emptySlots, hw, hrx]
    · rw [emptySlots_of_not_refill h1, emptySlots_of_not_refill h2, hrx]
  have hopen : t.openFragments = s.openFragments := by
    rcases hw with hw | ⟨h1, h2⟩
    · simp only [State.openFragments, hw, hrx]
    · rw [openFragments_of_not_refill h1, openFragments_of_not_refill h2, hrx]
  have hz : RxZones t a t.emptySlots :=
    hempty ▸ hs.zones.congr (congrArg RxRing.slots hrx) (congrArg RxRing.current hrx)
  refine ⟨hz.size, hcap ▸ hs.cap_pos, hz.current_lt, by rw [hn, hrx, hrxd]; exact hs.idx_eq, hz.room, hz.written, hz.armed,
    hz.empty, by rw [hn, hrx]; exact hs.chain_first, by rw [hn, hrx]; exact hs.chain_le, hrx ▸ hs.chain_bufs, hpool, ?_,
    ?_, fun delivered f fresh len ht => ?_, fun delivered f ht => ?_⟩
  · rw [hopen, hfrom, framesFit_congr hcap (by rw [hrxd])]
    exact hs.frames
  · rw [hn, hrxd, hcap, hempty]
    exact hs.taken
  · rcases hw with hw | ⟨-, h2⟩
    · exact hrx ▸ hs.rearm delivered f fresh len (hw ▸ ht)
    · exact absurd (ht ▸ h2) (by simp [WState.inRefill])
  · rcases hw with hw | ⟨-, h2⟩
    · exact hrx ▸ hs.recycle delivered f (hw ▸ ht)
    · exact absurd (ht ▸ h2) (by simp [WState.inRefill])

/-! ### RX_POLL's visits -/

/-- A software-owned slot with a buffer at the cursor is a written one. -/
theorem RxZones.written_of_visited {s : State} {a e : Nat} (hs : RxZones s a e) (hown : (s.rxFromCurrent 0).owned = false)
    (hbuf : (s.rxFromCurrent 0).buf ≠ 0#32) : ∃ b, a = b + 1 := by
  refine Nat.exists_eq_succ_of_ne_zero fun h0 => ?_
  by_cases he : e < s.nRx
  · exact absurd (hs.armed 0 (by omega) (by omega)).2 (by simp [hown])
  · exact hbuf (hs.empty 0 hs.size.pos (by omega)).1

/-- After a visit the chain still ends at the cursor (R73). -/
theorem State.linkSlot_chainFirst {s : State} (hsize : IsRingSize s.nRx) (hlt : s.rx.current.toNat < s.nRx)
    (hfirst : s.rx.chain ≠ [] → s.rx.current.toNat = ringPos s.nRx s.rx.chainFirst s.rx.chain.length) :
    s.linkSlot.rx.current.toNat = ringPos s.nRx s.linkSlot.rx.chainFirst (s.rx.chain.length + 1) := by
  have hnext := adv_eq_ringPos hsize _ hlt
  rw [s.linkSlot_current, hnext]
  by_cases hc : s.rx.chain = []
  · have : s.linkSlot.rx.chainFirst = s.rx.current := by simp [State.linkSlot, hc]
    rw [this, hc]
    rfl
  · have : s.linkSlot.rx.chainFirst = s.rx.chainFirst := by simp [State.linkSlot, hc]
    rw [this]
    exact ringPos_add _ _ _ _ (hfirst hc)

/-- The frame that the visited slot ends has a length that fits, and the slots behind it make up frames again (R283). -/
theorem RxSound.frames_linkSlot {s : State} {a : Nat} (hs : RxSound s (a + 1)) (hw : s.port.w.inRefill = false) :
    ((s.rxFromCurrent 0).eof = true → s.lengthFits (s.rx.chain.length + 1) (s.rxFromCurrent 0).len = true) ∧
    FramesFit s (if (s.rxFromCurrent 0).eof then 0 else s.rx.chain.length + 1)
      ((List.range a).map s.linkSlot.rxFromCurrent) := by
  have hroom := hs.room
  have hlist : (List.range (a + 1)).map s.rxFromCurrent =
      s.rxFromCurrent 0 :: (List.range a).map s.linkSlot.rxFromCurrent := by
    rw [List.range_succ_eq_map, List.map_cons, List.map_map]
    refine congrArg _ (List.map_congr_left fun j hj => ?_)
    have hj := List.mem_range.mp hj
    rw [State.rxFromCurrent_linkSlot hs.size hs.current_lt (by omega), if_neg (by omega)]
    rfl
  have hframes := hs.frames
  rw [openFragments_of_not_refill hw, hlist] at hframes
  cases he : (s.rxFromCurrent 0).eof <;> simp_all [FramesFit]

/-- W's place after a visit that has linked its slot: the next visit, or after a frame's last slot its refill, with a buffer for
each slot of the chain or with the chain's own (R280, R285, R288). -/
def LinkedNext (s : State) (w : WState) : Prop :=
  (∃ n, w = .pollVisit n) ∧ (s.rxFromCurrent 0).eof = false ∨
  ((∃ n fresh len, w = .pollRearm n 0 fresh len ∧ fresh.length = s.rx.chain.length + 1 ∧ ∀ h ∈ fresh, h ≠ 0#32) ∨
    ∃ n, w = .pollRecycle n 0) ∧ (s.rxFromCurrent 0).eof = true

/-- A visit that links its slot keeps the ring sound: W goes on with the walk, or at the end of a frame with its refill. -/
theorem RxSound.linkSlot {s t : State} {a : Nat} (hs : RxSound s (a + 1)) (hw : s.port.w.inRefill = false)
    (hrx : t.rx = s.linkSlot.rx) (hrxd : t.rxd = s.rxd) (hcap : t.cfg.cap = s.cfg.cap)
    (hpool : ∀ h ∈ t.env.pool, h ≠ 0#32)
    (hnext : LinkedNext s t.port.w) : RxSound t a := by
  unfold LinkedNext at hnext
  have hn : t.nRx = s.nRx := by rw [State.nRx, hrx]; exact s.nRx_linkSlot
  have hchain : t.rx.chain = s.rx.chain ++ [(s.rxFromCurrent 0).buf] := by rw [hrx]; rfl
  have hlen : t.rx.chain.length = s.rx.chain.length + 1 := by simp [hchain]
  have hempty : t.emptySlots = s.rx.chain.length + 1 := by
    rcases hnext with ⟨⟨n, h⟩, -⟩ | ⟨⟨n, fresh, len, h, -⟩ | ⟨n, h⟩, -⟩ <;> simp [State.emptySlots, h, hlen]
  have hopen : t.openFragments = if (s.rxFromCurrent 0).eof then 0 else s.rx.chain.length + 1 := by
    rcases hnext with ⟨⟨n, h⟩, he⟩ | ⟨⟨n, fresh, len, h, -⟩ | ⟨n, h⟩, he⟩ <;> simp [State.openFragments, h, he, hlen]
  have hzs := hs.zones
  rw [emptySlots_of_not_refill hw] at hzs
  have hz : RxZones t a (s.rx.chain.length + 1) := hzs.link.congr (by rw [hrx]) (by rw [hrx])
  have hroom := hz.room
  rw [hn] at hroom
  have hfrom : t.rxFromCurrent = s.linkSlot.rxFromCurrent :=
    funext (State.rxFromCurrent_congr (by rw [hrx]) (by rw [hrx]))
  refine ⟨hz.size, hcap ▸ hs.cap_pos, hz.current_lt, ?_, hempty ▸ hz.room, hz.written, hempty ▸ hz.armed,
    hempty ▸ hz.empty, fun _ => ?_, by omega, ?_, hpool, ?_, fun frame hframe => ?_, fun n f fresh len ht => ?_,
    fun n f ht => ?_⟩
  · have hcur : t.rx.current.toNat = ringPos s.nRx s.rx.current 1 := by
      rw [hrx, s.linkSlot_current]
      exact adv_eq_ringPos hs.size _ hs.current_lt
    rw [hrxd, hs.idx_eq, hn, ringPos_add _ _ _ a hcur, Nat.add_comm]
  · rw [hlen, hn, hrx]
    exact State.linkSlot_chainFirst hs.size hs.current_lt hs.chain_first
  · rw [hchain]
    refine List.forall_mem_append.mpr ⟨hs.chain_bufs, List.forall_mem_singleton.mpr ?_⟩
    exact (hs.written_slots 0 (by omega)).1
  · rw [hopen, hfrom, framesFit_congr hcap (by rw [hrxd])]
    exact (hs.frames_linkSlot hw).2
  · obtain ⟨h1, h2, h3, h4, h5, h6⟩ := hs.taken frame (hrxd ▸ hframe)
    rw [emptySlots_of_not_refill hw] at h5
    rw [hrxd, hcap, hn, hempty]
    exact ⟨h1, h2, h3, h4, by omega, h6⟩
  · rw [hlen]
    rcases hnext with ⟨⟨n, h⟩, -⟩ | ⟨⟨n, fresh, len, h, hl, h0⟩ | ⟨n, h⟩, -⟩ <;> rw [h] at ht <;> cases ht
    exact ⟨by omega, by omega, h0⟩
  · rw [hlen]
    rcases hnext with ⟨⟨n, h⟩, -⟩ | ⟨⟨n, fresh, len, h, -⟩ | ⟨n, h⟩, -⟩ <;> rw [h] at ht <;> cases ht
    omega

/-! ### RX_POLL's refill -/

/-- W refills the chain's slots and is about to arm that of fragment `f`: the slots from it on are empty, and no frame is open
(R285, R288). -/
structure Refilling (s : State) (f : Nat) : Prop where
  lt : f < s.rx.chain.length
  empty : s.emptySlots = s.rx.chain.length - f
  closed : s.openFragments = 0

/-- `t` follows the arming of fragment `f`: the chain is closed after its last slot, or W goes on to the next one (R285, R288,
R290). -/
def RefillNext (s t : State) (f : Nat) : Prop :=
  (t.rx.chain = [] ∧ f + 1 = s.rx.chain.length ∧ ∃ n, t.port.w = .pollVisit n) ∨
  t.rx.chain = s.rx.chain ∧ t.rx.chainFirst = s.rx.chainFirst ∧ f + 1 < s.rx.chain.length ∧
    ((∃ n fresh len, t.port.w = .pollRearm n (f + 1) fresh len ∧ fresh.length = s.rx.chain.length - (f + 1) ∧
      ∀ g ∈ fresh, g ≠ 0#32) ∨ ∃ n, t.port.w = .pollRecycle n (f + 1))

/-- The slot of fragment `f` is the first empty slot when the `f` before it are armed again (R285, R288). -/
theorem RxSound.chainSlot_eq {s : State} {a f : Nat} (hs : RxSound s a) (hf : f < s.rx.chain.length) :
    s.chainSlot f = ringPos s.nRx s.rx.current (s.nRx - (s.rx.chain.length - f)) := by
  have hle := hs.chain_le
  have hne : s.rx.chain ≠ [] := List.ne_nil_of_length_pos (by omega)
  rw [ringPos_add _ _ _ _ (hs.chain_first hne), show s.rx.chain.length + (s.nRx - (s.rx.chain.length - f)) = f + s.nRx by omega,
    State.chainSlot, ringPos, ringPos, ← Nat.add_assoc, Nat.add_mod_right]

/-- A step of a refill keeps the ring sound (R285, R288, R290). -/
theorem RxSound.refill {s t : State} {a f : Nat} {h : Handle} (hs : RxSound s a) (hrefill : Refilling s f) (h0 : h ≠ 0#32)
    (hslots : t.rx.slots = (s.armSlot (s.chainSlot f) h).rx.slots) (hcur : t.rx.current = s.rx.current)
    (hrxd : t.rxd = s.rxd) (hcap : t.cfg.cap = s.cfg.cap) (hpool : t.env.pool = s.env.pool)
    (hnext : RefillNext s t f) : RxSound t a := by
  obtain ⟨hf, hempty, hopen⟩ := hrefill
  unfold RefillNext at hnext
  have hsucc : s.rx.chain.length - f = s.rx.chain.length - (f + 1) + 1 := (Nat.sub_add_cancel (Nat.sub_pos_of_lt hf)).symm
  have hzs := hs.zones
  rw [hempty, hsucc] at hzs
  have hz : RxZones t a (s.rx.chain.length - (f + 1)) := by
    refine (hzs.arm (d := { RxSlot.empty with buf := h, wrap := (s.rxAt (s.chainSlot f)).wrap, owned := true })
      h0 rfl).congr ?_ hcur
    rw [hslots, State.armSlot_rx, hs.chainSlot_eq hf, hsucc]
  have hn : t.nRx = s.nRx := by rw [State.nRx, hslots]; exact State.nRx_setRx _ _ _
  have hemptyt : t.emptySlots = s.rx.chain.length - (f + 1) := by
    rcases hnext with ⟨hc, hl, n, hw⟩ | ⟨hc, -, hl, ⟨n, fresh, len, hw, -⟩ | ⟨n, hw⟩⟩ <;>
      simp [State.emptySlots, hw, hc, hl]
  have hopent : t.openFragments = 0 := by
    rcases hnext with ⟨hc, hl, n, hw⟩ | ⟨hc, -, hl, ⟨n, fresh, len, hw, -⟩ | ⟨n, hw⟩⟩ <;>
      simp [State.openFragments, hw, hc]
  have hroom := hs.room
  have hwritten : (List.range a).map t.rxFromCurrent = (List.range a).map s.rxFromCurrent := by
    refine List.map_congr_left fun j hj => ?_
    have hj := List.mem_range.mp hj
    rw [State.rxFromCurrent_congr (s := s.armSlot (s.chainSlot f) h) hslots hcur, State.armSlot, hs.chainSlot_eq hf,
      State.rxFromCurrent_setRx _ _ (by have := hs.size.pos; omega) (by omega), if_neg (by omega)]
  have hsub : t.rx.chain = [] ∨ t.rx.chain = s.rx.chain ∧ t.rx.chainFirst = s.rx.chainFirst :=
    hnext.imp And.left fun h => ⟨h.1, h.2.1⟩
  refine ⟨hz.size, hcap ▸ hs.cap_pos, hz.current_lt, by rw [hn, hcur, hrxd]; exact hs.idx_eq, hemptyt ▸ hz.room, hz.written,
    hemptyt ▸ hz.armed, hemptyt ▸ hz.empty, ?_, ?_, ?_, hpool ▸ hs.pool_bufs, ?_, fun frame hframe => ?_,
    fun n g fresh len ht => ?_, fun n g ht => ?_⟩
  · rcases hsub with hc | ⟨hc, hfirst⟩
    · exact fun hne => absurd hc hne
    · rw [hc, hfirst, hn, hcur]
      exact hs.chain_first
  · rcases hsub with hc | ⟨hc, -⟩
    · simp [hc]
    · rw [hc, hn]
      exact hs.chain_le
  · rcases hsub with hc | ⟨hc, -⟩
    · simp [hc]
    · exact hc ▸ hs.chain_bufs
  · rw [hopent, hwritten, framesFit_congr hcap (by rw [hrxd]), ← hopen]
    exact hs.frames
  · obtain ⟨h1, h2, h3, h4, h5, h6⟩ := hs.taken frame (hrxd ▸ hframe)
    rw [hrxd, hcap, hn, hemptyt]
    exact ⟨h1, h2, h3, h4, by omega, h6⟩
  · rcases hnext with ⟨-, -, n, hw⟩ | ⟨hc, -, hl, ⟨n, fresh, len, hw, hlen, hg⟩ | ⟨n, hw⟩⟩ <;> rw [hw] at ht <;> cases ht
    rw [hc]
    exact ⟨hl, hlen, hg⟩
  · rcases hnext with ⟨-, -, n, hw⟩ | ⟨hc, -, hl, ⟨n, fresh, len, hw, -⟩ | ⟨n, hw⟩⟩ <;> rw [hw] at ht <;> cases ht
    rw [hc]
    exact hl

/-! ### W's steps on the RX ring -/

/-- The end of a frame, after its last slot is linked, keeps the RX ring sound: its length fits, so that W refills the slots of the
chain (R283, R284). -/
theorem RxSound.endOfFrame {s : State} {a n p : Nat} (hs : RxSound s (a + 1)) (hr : s.port.w.inRefill = false)
    (heof : (s.rxFromCurrent 0).eof = true) :
    RxSound (s.linkSlot.endOfFrame n p (s.rxFromCurrent 0).len) a := by
  have hlink : s.linkSlot.rx.chain.length = s.rx.chain.length + 1 := by simp [State.linkSlot]
  have hfit : s.linkSlot.lengthFits (s.rx.chain.length + 1) (s.rxFromCurrent 0).len = true :=
    (hs.frames_linkSlot hr).1 heof
  generalize (s.rxFromCurrent 0).len = len at hfit ⊢
  rcases s.linkSlot.endOfFrame_answers n p len with ⟨hno, -⟩ | ⟨got, u, hu, hans⟩
  · rw [hlink] at hno
    exact absurd hfit (Bool.eq_false_iff.mp hno)
  obtain ⟨sp, hsp⟩ := s.linkSlot.spanChain_frame len
  rw [hsp] at hu
  obtain ⟨hgot, pool, provider, ds, k, hpool, rfl⟩ := State.allocateUpTo_bufs hu hs.pool_bufs
  rcases hans with ⟨hlen, h⟩ | h
  · exact h ▸ hs.linkSlot hr rfl rfl rfl hpool (.inr ⟨.inl ⟨n, got, len, rfl, hlen.trans hlink, hgot⟩, heof⟩)
  · obtain ⟨pool', provider', hpool', hback⟩ := State.releaseAll_bufs (s := { s.linkSlot with
      buf := { s.linkSlot.buf with span := sp }, draws := ds, drawNo := k
      env := { s.linkSlot.env with pool := pool, provider := provider } }) hgot hpool
    rw [hback] at h
    exact h ▸ hs.linkSlot hr rfl rfl rfl hpool' (.inr ⟨.inr ⟨n, rfl⟩, heof⟩)

/-- A visit of RX_POLL keeps the RX ring sound (R280). -/
theorem RxSound.pollVisit {s : State} {a n : Nat} (hs : RxSound s a) (hw : s.port.w = .pollVisit n) :
    ∃ b, RxSound (s.pollVisit n) b := by
  have hr : s.port.w.inRefill = false := by rw [hw]; rfl
  rcases s.pollVisit_answers n with ⟨ds, k, v, h⟩ | h | ⟨hown, hbuf, hnext⟩
  · exact ⟨a, h ▸ hs.of_same rfl rfl rfl (.inr ⟨hr, rfl⟩) hs.pool_bufs⟩
  · exact ⟨a, h ▸ hs.of_same rfl rfl rfl (.inr ⟨hr, rfl⟩) hs.pool_bufs⟩
  · obtain ⟨b, rfl⟩ := hs.zones.written_of_visited hown hbuf
    rcases hnext with ⟨heof, h⟩ | ⟨heof, h⟩
    · exact ⟨b, h ▸ hs.endOfFrame hr heof⟩
    · exact ⟨b, h ▸ hs.linkSlot hr rfl rfl rfl hs.pool_bufs (.inl ⟨⟨n, rfl⟩, heof⟩)⟩

/-- A re-arming write of RX_POLL keeps the RX ring sound (R285). -/
theorem RxSound.pollRearm {s : State} {a n f : Nat} {fresh : List Handle} {len : BitVec 16} (hs : RxSound s a)
    (hw : s.port.w = .pollRearm n f fresh len) : RxSound (s.pollRearm n f fresh len) a := by
  obtain ⟨hf, hlen, h0⟩ := hs.rearm n f fresh len hw
  have hrefill : Refilling s f := ⟨hf, by simp only [State.emptySlots, hw], by simp only [State.openFragments, hw]⟩
  cases fresh with
  | nil =>
    rw [List.length_nil] at hlen
    omega
  | cons h rest =>
    obtain ⟨hh, hrest⟩ := List.forall_mem_cons.mp h0
    rw [List.length_cons] at hlen
    unfold State.pollRearm
    simp only
    split
    · next hlast =>
      have hnil : rest.length = 0 := by simpa using hlast
      exact hs.refill hrefill hh rfl rfl rfl rfl rfl (.inl ⟨rfl, by omega, _, rfl⟩)
    · next hmore =>
      have hpos : rest.length ≠ 0 := by simpa using hmore
      exact hs.refill hrefill hh rfl rfl rfl rfl rfl
        (.inr ⟨rfl, rfl, by omega, .inl ⟨_, rest, _, rfl, by omega, hrest⟩⟩)

/-- A write of a failed refill keeps the RX ring sound (R288). -/
theorem RxSound.pollRecycle {s : State} {a n f : Nat} (hs : RxSound s a) (hw : s.port.w = .pollRecycle n f) :
    RxSound (s.pollRecycle n f) a := by
  have hf := hs.recycle n f hw
  have hrefill : Refilling s f := ⟨hf, by simp only [State.emptySlots, hw], by simp only [State.openFragments, hw]⟩
  have hbuf : s.rx.chain.getD f 0#32 ≠ 0#32 := by
    rw [List.getD_eq_getElem _ _ hf]
    exact hs.chain_bufs _ (List.getElem_mem hf)
  unfold State.pollRecycle
  simp only
  split
  · next hmore => exact hs.refill hrefill hbuf rfl rfl rfl rfl rfl (.inr ⟨rfl, rfl, hmore, .inr ⟨_, rfl⟩⟩)
  · next hlast =>
    have hlast : ¬f + 1 < s.rx.chain.length := hlast
    exact hs.refill hrefill hbuf rfl rfl rfl rfl rfl (.inl ⟨rfl, by omega, _, rfl⟩)

/-- Every step of W on a configured block keeps the RX ring sound. -/
theorem RxSound.workerStep {s : State} {a : Nat} (hs : RxSound s a) : ∃ b, RxSound s.workerStep b := by
  unfold State.workerStep
  split
  · exact ⟨a, hs⟩
  split
  · exact ⟨a, hs⟩
  · exact ⟨a, hs⟩
  · next k i hw =>
    have hr : s.port.w.inRefill = false := by rw [hw]; rfl
    cases i <;> exact ⟨a, hs.of_same rfl rfl rfl (.inr ⟨hr, rfl⟩) hs.pool_bufs⟩
  · next k hw =>
    obtain ⟨txd, h⟩ := s.wakeTxd_frame
    rw [State.sendDoorbell, h]
    exact ⟨a, hs.of_same rfl rfl rfl (.inr ⟨by rw [hw]; rfl, rfl⟩) hs.pool_bufs⟩
  · next more count hw =>
    have hr : s.port.w.inRefill = false := by rw [hw]; rfl
    refine ⟨a, ?_⟩
    rcases s.reclaimVisit_answers more count with h | h | ⟨port, service, hw', h | ⟨p, hbuf, h⟩⟩ <;> rw [h]
    · exact hs.of_same rfl rfl rfl (.inr ⟨hr, rfl⟩) hs.pool_bufs
    · exact hs.of_same rfl rfl rfl (.inr ⟨hr, rfl⟩) hs.pool_bufs
    · exact hs.of_same rfl rfl rfl (.inr ⟨hr, hw'⟩) hs.pool_bufs
    · refine hs.of_same rfl rfl rfl (.inr ⟨hr, hw'⟩) fun g hg => ?_
      rcases (HandleSet.mem_insert s.env.pool (s.txAt p).buf g).mp hg with rfl | hg
      · exact hbuf
      · exact hs.pool_bufs g hg
  · next hw => exact hs.pollVisit hw
  · next hw => exact ⟨a, hs.pollRearm hw⟩
  · next hw => exact ⟨a, hs.pollRecycle hw⟩

/-! ### RXD's steps -/

/-- The slot that RXD's write step leaves at `rxd.idx` (R303). -/
def State.writtenSlot (s : State) (frame : List Byte) : RxSlot :=
  { s.rxAt (ringPos s.nRx s.rxd.idx 0) with
    sof := decide (s.rxd.frag.toNat = 0), eof := decide (s.rxd.frag.toNat + 1 = s.rxd.m.toNat), owned := false
    len := if s.rxd.frag.toNat + 1 = s.rxd.m.toNat then BitVec.ofNat 16 frame.length else s.cfg.cap }

/-- RXD's registers after its write step: after the last fragment it is free (R303, R304). -/
def State.writtenRxd (s : State) : Rxd :=
  { s.rxd with
    idx := adv s.nRx s.rxd.idx, frag := s.rxd.frag + 1#16
    frame := if s.rxd.frag.toNat + 1 = s.rxd.m.toNat then none else s.rxd.frame }

/-- RXD's write step on the RX side of the state. -/
theorem State.rxdWrite_frame (s : State) (frame : List Byte) : ∃ isr data, s.rxdWrite frame =
    { s.setRx (ringPos s.nRx s.rxd.idx 0) (s.writtenSlot frame) with
      irq.isr := isr, rxd := s.writtenRxd, buf.data := data } := by
  unfold State.rxdWrite State.writtenRxd State.writtenSlot
  by_cases hlast : s.rxd.frag.toNat + 1 = s.rxd.m.toNat
  · simp only [hlast, decide_true, if_true]
    exact ⟨_, _, by rw [adv, State.nRx_setRx]; rfl⟩
  · simp only [hlast, decide_false, if_false, Bool.false_eq_true]
    exact ⟨s.irq.isr, _, by rw [adv, State.nRx_setRx]; rfl⟩

/-- The fragments of a frame: the last one is not empty, and together they hold the frame (R301). -/
theorem fragmentCount_bounds {len cap m : Nat} (hcap : 0 < cap) (hlen : 0 < len) (hm : m = fragmentCount len cap) :
    0 < m ∧ (m - 1) * cap < len ∧ len ≤ m * cap := by
  subst hm
  unfold fragmentCount
  have hq := Nat.div_add_mod (len + (cap - 1)) cap
  have hr := Nat.mod_lt (len + (cap - 1)) hcap
  generalize (len + (cap - 1)) / cap = q at hq ⊢
  have hpos : 0 < q := Nat.pos_of_ne_zero fun h => by
    subst h
    omega
  obtain ⟨k, rfl⟩ := Nat.exists_eq_add_one.mpr hpos
  rw [Nat.mul_comm, Nat.add_one_mul] at hq
  rw [Nat.add_sub_cancel, Nat.add_one_mul]
  exact ⟨hpos, by omega, by omega⟩

/-- RXD's write step keeps the RX ring sound, with one slot written more (R299, R303, R307). -/
theorem RxSound.rxdWrite {s : State} {a : Nat} {frame : List Byte} (hs : RxSound s a) (hf : s.rxd.frame = some frame) :
    RxSound (s.rxdWrite frame) (a + 1) := by
  obtain ⟨isr, data, he⟩ := s.rxdWrite_frame frame
  obtain ⟨hm, hpos, hle, hlt, hroom, hmn⟩ := hs.taken frame hf
  have hsize := hs.size.le
  obtain ⟨-, hlow, hhigh⟩ := fragmentCount_bounds hs.cap_pos hpos hm
  have hidx : ringPos s.nRx s.rxd.idx 0 = ringPos s.nRx s.rx.current a := ringPos_add _ _ _ 0 hs.idx_eq
  have hslot : s.rxAt (ringPos s.nRx s.rxd.idx 0) = s.rxFromCurrent a := by rw [hidx]; rfl
  have hbuf : (s.writtenSlot frame).buf ≠ 0#32 := by
    show (s.rxAt (ringPos s.nRx s.rxd.idx 0)).buf ≠ 0#32
    rw [hslot]
    exact (hs.armed_slots a (le_refl a) (by omega)).1
  have hfrag : (s.rxd.frag + 1#16).toNat = s.rxd.frag.toNat + 1 := by
    rw [BitVec.toNat_add, BitVec.toNat_ofNat]
    omega
  have hwritten : s.rxd.written = s.rxd.frag.toNat := by simp [Rxd.written, hf]
  rw [he]
  generalize ht : ({ s.setRx (ringPos s.nRx s.rxd.idx 0) (s.writtenSlot frame) with
    irq.isr := isr, rxd := s.writtenRxd, buf.data := data } : State) = t
  have hn : t.nRx = s.nRx := by rw [← ht]; exact s.nRx_setRx _ _
  have hrxd : t.rxd = s.writtenRxd := by rw [← ht]
  have hcap : t.cfg.cap = s.cfg.cap := by rw [← ht]; rfl
  have hport : t.port = s.port := by rw [← ht]; rfl
  have hcur : t.rx.current = s.rx.current := by rw [← ht]; rfl
  have hchain : t.rx.chain = s.rx.chain := by rw [← ht]; rfl
  have hfirst : t.rx.chainFirst = s.rx.chainFirst := by rw [← ht]; rfl
  have hslots : t.rx.slots = (s.setRx (ringPos s.nRx s.rx.current a) (s.writtenSlot frame)).rx.slots := by
    rw [← ht, ← hidx]
  have hempty : t.emptySlots = s.emptySlots := by simp only [State.emptySlots, hport, hchain]
  have hopen : t.openFragments = s.openFragments := by simp only [State.openFragments, hport, hchain]
  have hz : RxZones t (a + 1) t.emptySlots :=
    hempty ▸ (hs.zones.write (d := s.writtenSlot frame) (by omega) hbuf rfl).congr hslots hcur
  have hnidx : s.rxd.idx.toNat < s.nRx := hs.idx_eq ▸ ringPos_lt hs.size.pos _ _
  refine ⟨hz.size, hcap ▸ hs.cap_pos, hz.current_lt, ?_, hz.room, hz.written, hz.armed, hz.empty,
    by rw [hn, hchain, hcur, hfirst]; exact hs.chain_first, by rw [hn, hchain]; exact hs.chain_le, hchain ▸ hs.chain_bufs,
    by rw [← ht]; exact hs.pool_bufs, ?_, fun frame' hf' => ?_, by rw [hport, hchain]; exact hs.rearm,
    by rw [hport, hchain]; exact hs.recycle⟩
  · rw [hn, hrxd, hcur]
    show (adv s.nRx s.rxd.idx).toNat = _
    rw [adv_eq_ringPos hs.size _ hnidx]
    exact ringPos_add _ _ _ _ hs.idx_eq
  · have hlist : (List.range (a + 1)).map t.rxFromCurrent =
        (List.range a).map s.rxFromCurrent ++ [s.writtenSlot frame] := by
      have hat : ∀ j < a + 1, t.rxFromCurrent j = if j = a then s.writtenSlot frame else s.rxFromCurrent j := fun j hj => by
        rw [State.rxFromCurrent_congr hslots hcur]
        exact s.rxFromCurrent_setRx _ (by omega) (by omega)
      rw [List.range_succ, List.map_append, List.map_singleton, hat a (by omega), if_pos rfl]
      refine congrArg (· ++ _) (List.map_congr_left fun j hj => ?_)
      have hj := List.mem_range.mp hj
      rw [hat j (by omega), if_neg (by omega)]
    rw [hopen, hlist]
    refine FramesFit.snoc hcap (fun heof => ?_) (fun hmore => ?_) _ _ hs.frames
    · have hlast : s.rxd.frag.toNat + 1 = s.rxd.m.toNat := of_decide_eq_true heof
      have hlen : ((s.writtenSlot frame).len).toNat = frame.length := by
        simp only [State.writtenSlot, hlast, if_true, BitVec.toNat_ofNat]
        omega
      refine ⟨?_, by simp [hrxd, State.writtenRxd, Rxd.written, hlast]⟩
      rw [hwritten, hlast, State.lengthFits, hlen]
      simp [hlow, hhigh]
    · have hmore : ¬s.rxd.frag.toNat + 1 = s.rxd.m.toNat := of_decide_eq_false hmore
      rw [hwritten, hrxd, Rxd.written, ← hfrag]
      simp [State.writtenRxd, hmore, hf]
  · rw [hrxd, State.writtenRxd] at hf'
    by_cases hlast : s.rxd.frag.toNat + 1 = s.rxd.m.toNat
    · simp [hlast] at hf'
    · simp only [hlast, if_false, hf, Option.some.injEq] at hf'
      subst hf'
      rw [hrxd, hcap, hn, hempty]
      show s.rxd.m.toNat = _ ∧ _ ∧ _ ∧ (s.rxd.frag + 1#16).toNat < s.rxd.m.toNat ∧
        s.rxd.m.toNat - (s.rxd.frag + 1#16).toNat + (a + 1) + s.emptySlots ≤ s.nRx ∧ s.rxd.m.toNat ≤ s.nRx
      rw [hfrag]
      exact ⟨hm, hpos, hle, by omega, by omega, hmn⟩

/-- The armed slots that RXD's start step has found lie before the empty ones (R301, R307). -/
theorem RxSound.room_of_armed {s : State} {a m : Nat} (hs : RxSound s a) (hm : m ≤ s.nRx)
    (harmed : ∀ i < m, (s.rxAt (ringPos s.nRx s.rxd.idx i)).owned = true) : m + a + s.emptySlots ≤ s.nRx := by
  have hroom := hs.room
  have hpos := hs.size.pos
  by_contra hno
  have hfound := harmed (s.nRx - s.emptySlots - a) (by omega)
  rw [ringPos_add _ _ _ _ hs.idx_eq, show a + (s.nRx - s.emptySlots - a) = s.nRx - s.emptySlots by omega] at hfound
  have hfound : (s.rxFromCurrent (s.nRx - s.emptySlots)).owned = true := hfound
  by_cases h0 : s.emptySlots = 0
  · rw [h0, Nat.sub_zero, State.rxFromCurrent_around, (hs.written_slots 0 (by omega)).2] at hfound
    exact absurd hfound (by decide)
  · rw [(hs.empty_slots _ (by omega) (by omega)).2] at hfound
    exact absurd hfound (by decide)

/-- An offered frame keeps the RX ring sound: RXD takes it only when its fragments fit the armed slots (R300 to R302, R307). -/
theorem RxSound.offerFrame {s : State} {a : Nat} {frame : List Byte} (hs : RxSound s a) (h0 : 0 < frame.length)
    (h1 : frame.length ≤ 65535) : RxSound (s.offerFrame frame) a := by
  unfold State.offerFrame
  split
  · next ha =>
    have hnone : s.rxd.frame = none := by
      simp only [Bool.and_eq_true, Option.isNone_iff_eq_none] at ha
      exact ha.1.2
    unfold State.rxdStart
    simp only
    split
    · exact hs.of_same rfl rfl rfl (.inl rfl) hs.pool_bufs
    next hm =>
    split
    · exact hs.of_same rfl rfl rfl (.inl rfl) hs.pool_bufs
    · exact hs.of_same rfl rfl rfl (.inl rfl) hs.pool_bufs
    next hall =>
    generalize hmdef : fragmentCount frame.length s.cfg.cap.toNat = m at hm hall ⊢
    have hsize := hs.size.le
    obtain ⟨hpos, -, -⟩ := fragmentCount_bounds hs.cap_pos h0 hmdef.symm
    have harmed : ∀ i < m, (s.rxAt (ringPos s.nRx s.rxd.idx i)).owned = true := fun i hi => by
      rcases s.checkArmed_cases ((List.range m).map (ringPos s.nRx s.rxd.idx)) with ⟨-, h⟩ | ⟨_, _, _, _, _, h⟩
      · exact (h _ (List.mem_map_of_mem (List.mem_range.mpr hi))).1
      · rcases h with ⟨h, -⟩ | ⟨h, -⟩ <;> rw [hall] at h <;> cases h
    have hroom := hs.room_of_armed (Nat.not_lt.mp hm) harmed
    have hmnat : (BitVec.ofNat 17 m).toNat = m := by
      rw [BitVec.toNat_ofNat]
      omega
    refine ⟨hs.size, hs.cap_pos, hs.current_lt, hs.idx_eq, hs.room, hs.written_slots, hs.armed_slots, hs.empty_slots,
      hs.chain_first, hs.chain_le, hs.chain_bufs, hs.pool_bufs, ?_, fun frame' hf => ?_, hs.rearm, hs.recycle⟩
    · refine (framesFit_congr (s := s)
        (t := { s with rxd.frame := some frame, rxd.m := BitVec.ofNat 17 m, rxd.frag := 0#16 }) rfl ?_ _ _).mpr hs.frames
      simp [Rxd.written, hnone]
    · cases hf
      show (BitVec.ofNat 17 m).toNat = _ ∧ _ ∧ _ ∧ 0 < (BitVec.ofNat 17 m).toNat ∧
        (BitVec.ofNat 17 m).toNat - 0 + a + s.emptySlots ≤ s.nRx ∧ (BitVec.ofNat 17 m).toNat ≤ s.nRx
      rw [hmnat]
      exact ⟨hmdef.symm, h0, h1, hpos, by omega, by omega⟩
  · exact hs

/-! ### CFG, and all steps -/

/-- CFG's RX slots: each is armed with its buffer (R210). -/
theorem armedRxSlots_length (got : List Handle) : (armedRxSlots got).length = got.length := by
  rw [← List.length_map (f := RxSlot.buf), armedRxSlots_bufs]

/-- Every one of CFG's RX slots is hardware-owned and holds one of the buffers obtained (R210). -/
theorem mem_armedRxSlots {got : List Handle} {d : RxSlot} (hd : d ∈ armedRxSlots got) : d.buf ∈ got ∧ d.owned = true := by
  induction got with
  | nil => exact absurd hd List.not_mem_nil
  | cons h hs ih =>
    rcases List.mem_cons.mp hd with rfl | hd
    · exact ⟨List.mem_cons_self, rfl⟩
    · exact ⟨List.mem_cons_of_mem _ (ih hd).1, (ih hd).2⟩

/-- The rings that CFG constructs have a sound RX ring: every slot is armed (R210). -/
theorem RxSound.construct {s : State} {t : BitVec 16} {got : List Handle} {v : Word} (hsize : IsRingSize got.length)
    (hcap : s.cfgCapacity ≠ 0#16) (hgot : ∀ h ∈ got, h ≠ 0#32) (hpool : ∀ h ∈ s.env.pool, h ≠ 0#32) :
    RxSound ((s.construct t got).retOk v) 0 := by
  have hcfg : ((s.construct t got).retOk v).cfg.cap = s.cfgCapacity := by
    obtain ⟨sp, h⟩ := State.setSpans_spec got 0#16 s
    rw [State.retOk_cfg, State.construct, h]
    rfl
  have hn : ((s.construct t got).retOk v).nRx = got.length := armedRxSlots_length got
  have hslot : ∀ j, ((s.construct t got).retOk v).rxFromCurrent j ∈ armedRxSlots got := fun j => by
    have hlt : ringPos ((s.construct t got).retOk v).nRx 0#16 j < (armedRxSlots got).length := by
      rw [hn, armedRxSlots_length]
      exact ringPos_lt hsize.pos _ _
    show (armedRxSlots got).getD (ringPos ((s.construct t got).retOk v).nRx 0#16 j) RxSlot.empty ∈ _
    rw [List.getD_eq_getElem _ _ hlt]
    exact List.getElem_mem hlt
  have hpos := hsize.pos
  refine ⟨hn ▸ hsize, ?_, hn ▸ hpos, ?_, Nat.zero_le _, fun j hj => absurd hj (Nat.not_lt_zero j),
    fun j _ _ => ⟨hgot _ (mem_armedRxSlots (hslot j)).1, (mem_armedRxSlots (hslot j)).2⟩,
    fun j h1 h2 => absurd (Nat.lt_of_lt_of_le h1 h2) (Nat.lt_irrefl _), fun h => absurd rfl h, Nat.zero_le _,
    fun h hh => absurd hh List.not_mem_nil, ?_, rfl, fun frame h => ?_, fun n f fresh len h => ?_, fun n f h => ?_⟩
  · rw [hcfg]
    exact Nat.pos_of_ne_zero fun h => hcap (BitVec.eq_of_toNat_eq h)
  · exact (Nat.zero_mod _).symm
  · rw [State.retOk_env, State.construct_env]
    exact hpool
  all_goals exact absurd h (by simp [State.retOk, State.construct])

/-- A step that leaves the receive side and W's port as they are keeps the RX ring sound. -/
theorem RxRingOk.of_port {s t : State} (hs : RxRingOk s) (hc : t.cfg.configured = s.cfg.configured)
    (hcap : t.cfg.cap = s.cfg.cap) (hrx : t.rx = s.rx) (hrxd : t.rxd = s.rxd) (hp : t.port = s.port)
    (hpool : ∀ h ∈ t.env.pool, h ≠ 0#32) : RxRingOk t := by
  cases hconf : s.cfg.configured
  · rw [rxRingOk_unconfigured hconf] at hs
    rw [rxRingOk_unconfigured (hc.trans hconf), hrx, hrxd, hp]
    exact ⟨hs.1, hs.2.1, hs.2.2.1, hs.2.2.2.1, hpool⟩
  · rw [rxRingOk_configured hconf] at hs
    obtain ⟨a, ha⟩ := hs
    exact (rxRingOk_configured (hc.trans hconf)).mpr ⟨a, ha.of_same hcap hrx hrxd (.inl (by rw [hp])) hpool⟩

/-- The free set holds real handles only (R9). -/
theorem RxRingOk.pool_bufs {s : State} (hs : RxRingOk s) : ∀ h ∈ s.env.pool, h ≠ 0#32 := by
  cases hconf : s.cfg.configured
  · rw [rxRingOk_unconfigured hconf] at hs
    exact hs.2.2.2.2
  · rw [rxRingOk_configured hconf] at hs
    obtain ⟨a, ha⟩ := hs
    exact ha.pool_bufs

/-- A command's first step that returns or goes on outside the refill keeps the RX ring sound; before CFG it must return. -/
theorem RxRingOk.of_command {s t : State} (hs : RxRingOk s) (hb : s.busy = false) (hc : t.cfg = s.cfg) (hrx : t.rx = s.rx)
    (hrxd : t.rxd = s.rxd) (hw : t.port.w.inRefill = false)
    (hout : s.cfg.configured = false → t.port.w.outside = true) (hpool : ∀ h ∈ t.env.pool, h ≠ 0#32) : RxRingOk t := by
  cases hconf : s.cfg.configured
  · rw [rxRingOk_unconfigured hconf] at hs
    rw [rxRingOk_unconfigured (by rw [hc, hconf]), hrx, hrxd]
    exact ⟨hs.1, hs.2.1, hs.2.2.1, hout hconf, hpool⟩
  · rw [rxRingOk_configured hconf] at hs
    obtain ⟨a, ha⟩ := hs
    refine (rxRingOk_configured (by rw [hc, hconf])).mpr ⟨a, ha.of_same (by rw [hc]) hrx hrxd (.inr ⟨?_, hw⟩) hpool⟩
    rw [idle_of_not_busy hb]
    rfl

/-- A worker command that returns an error leaves the RX ring as it is. -/
theorem RxRingOk.retErr {s : State} (hs : RxRingOk s) (hb : s.busy = false) (code : ResultCode) :
    RxRingOk (s.retErr code) :=
  hs.of_command hb rfl rfl rfl rfl (fun _ => rfl) hs.pool_bufs

/-- A command other than CFG, whose own step leaves the receive side as it is. -/
theorem RxRingOk.issueConfigured {s : State} {cmd : State → State} (hs : RxRingOk s) (hc : (cmd s).cfg = s.cfg)
    (hrx : (cmd s).rx = s.rx) (hrxd : (cmd s).rxd = s.rxd) (hw : (cmd s).port.w.inRefill = false)
    (hpool : (cmd s).env.pool = s.env.pool) : RxRingOk (s.issueConfigured cmd) := by
  rcases s.issueConfigured_cases cmd with h | ⟨-, hb, -, h⟩ | ⟨-, hb, hconf, h⟩ <;> rw [h]
  · exact hs
  · exact hs.retErr hb _
  · exact hs.of_command hb hc hrx hrxd hw (fun hno => absurd (hconf.symm.trans hno) (by decide)) (hpool ▸ hs.pool_bufs)

/-- CFG constructs a sound RX ring, or leaves the receive side as it is (R210, R211). -/
theorem RxRingOk.configure {s : State} (hs : RxRingOk s) (hb : s.busy = false) : RxRingOk s.configure := by
  rcases s.configure_answers with ⟨code, h⟩ | ⟨hc, -, hrx, hcap, got, u, hu, hans⟩
  · exact h ▸ hs.retErr hb code
  obtain ⟨hgot, pool, provider, ds, n, hpool, rfl⟩ := State.allocateUpTo_bufs hu hs.pool_bufs
  rcases hans with ⟨hlen, h⟩ | h
  · rw [h, rxRingOk_configured rfl]
    exact ⟨0, .construct (hlen ▸ (pow2_iff _).mp hrx) hcap hgot hpool⟩
  · obtain ⟨pool', provider', hpool', hback⟩ := State.releaseAll_bufs (s := { s with
      draws := ds, drawNo := n, env := { s.env with pool := pool, provider := provider } }) hgot hpool
    rw [h, hback]
    exact hs.of_command hb rfl rfl rfl rfl (fun _ => rfl) hpool'

/-- TX_SEND's first step on what is not the transmit side. -/
theorem State.sendStart_rest (s : State) (k : Nat) : ∃ slots halt port,
    s.sendStart k = { s with tx.slots := slots, halt := halt, port := port } ∧ port.w.inRefill = false := by
  obtain ⟨slots, h, -⟩ := s.fillChain_handles k
  unfold State.sendStart
  split
  · exact ⟨_, _, _, rfl, rfl⟩
  · split
    · exact ⟨_, _, _, rfl, rfl⟩
    · exact ⟨_, _, _, rfl, rfl⟩
    · exact h ▸ ⟨slots, s.halt, _, rfl, rfl⟩

/-- Every command's first step keeps the RX ring sound. -/
theorem RxRingOk.exec {s t : State} {i : Instr} (hs : RxRingOk s) (h : exec i s = .next t) : RxRingOk t := by
  cases i <;> simp only [Machine.exec] at h
  case irqEntry =>
    obtain ⟨irq, he⟩ := execIrqEntry_frame s
    cases he.symm.trans h
    exact hs.of_port rfl rfl rfl rfl rfl hs.pool_bufs
  all_goals cases h
  case cfg =>
    rcases s.issue_cases State.configure with h | ⟨-, hb, h⟩ <;> rw [h]
    · exact hs
    · exact hs.configure hb
  case txSend k =>
    obtain ⟨slots, halt, port, h, hw⟩ := s.sendStart_rest k
    apply hs.issueConfigured <;> rw [h]
    exact hw
  case txReclaim =>
    obtain ⟨port, service, h, hw, -⟩ := s.reclaimStart_frame
    apply hs.issueConfigured <;> rw [h]
    exact hw
  case rxPoll => exact hs.issueConfigured rfl rfl rfl rfl rfl
  case evtDrain => exact hs.issueConfigured rfl rfl rfl rfl rfl
  case mcJoin =>
    obtain ⟨port, mc, h, hw, -⟩ := s.joinBucket_frame
    apply hs.issueConfigured <;> rw [h]
    exact hw
  case mcLeave =>
    obtain ⟨port, mc, h, hw, -⟩ := s.leaveBucket_frame
    apply hs.issueConfigured <;> rw [h]
    exact hw

/-- Every move of ENV keeps the RX ring sound. -/
theorem RxRingOk.hostAnswer {s t : State} {m : HostMove} (hs : RxRingOk s) (h : HostAnswer s m t) : RxRingOk t := by
  cases h with
  | command i t h duty => exact hs.exec h
  | illegal =>
    rcases s.issue_cases (·.retErr .illegalCommand) with h | ⟨-, hb, h⟩ <;> rw [h]
    · exact hs
    · exact hs.retErr hb _
  | doorbell =>
    obtain ⟨txd, h⟩ := s.ringDoorbell_frame
    exact h ▸ hs.of_port rfl rfl rfl rfl rfl hs.pool_bufs
  | isr =>
    unfold State.writeIsr
    split
    · exact hs
    · exact hs.of_port rfl rfl rfl rfl rfl hs.pool_bufs
  | arg a =>
    unfold State.writeArg
    split
    · exact hs
    · exact hs.of_port rfl rfl rfl rfl rfl hs.pool_bufs
  | offer frame h0 h1 =>
    cases hconf : s.cfg.configured
    · have hsame : s.offerFrame frame = s := by simp [State.offerFrame, hconf]
      exact hsame.symm ▸ hs
    · obtain ⟨halt, rxd, ctr, hframe⟩ := s.offerFrame_frame frame
      obtain ⟨a, ha⟩ := (rxRingOk_configured hconf).mp hs
      exact (rxRingOk_configured (by rw [hframe, hconf])).mpr ⟨a, ha.offerFrame h0 h1⟩
  | giveBack h own kept =>
    refine hs.of_port rfl rfl rfl rfl rfl fun g hg => ?_
    rcases (HandleSet.mem_insert s.env.pool h g).mp hg with rfl | hg
    · exact (envOwns_iff.mp own).1
    · exact hs.pool_bufs g hg
  | take h free =>
    refine hs.of_port rfl rfl rfl rfl rfl fun g hg => hs.pool_bufs g ?_
    have hg : g ∈ HandleSet.remove s.env.pool h := hg
    rw [HandleSet.remove_eq_erase] at hg
    exact List.mem_of_mem_erase hg
  | ignored => exact hs
  | intIllegal | intQueued | txBase | rxBase | read | fill | readBuffer =>
    exact hs.of_port rfl rfl rfl rfl rfl hs.pool_bufs

/-- Every turn keeps the RX ring sound. -/
theorem RxRingOk.turnAnswer {s t : State} {turn : Turn} (hs : RxRingOk s) (h : TurnAnswer s turn t) : RxRingOk t := by
  cases h with
  | worker =>
    cases hconf : s.cfg.configured
    · have hout := ((rxRingOk_unconfigured hconf).mp hs).2.2.2.1
      have hsame : s.workerStep = s := by
        unfold State.workerStep
        cases hw : s.port.w <;> simp_all [WState.outside]
      exact hsame.symm ▸ hs
    · obtain ⟨a, ha⟩ := (rxRingOk_configured hconf).mp hs
      exact (rxRingOk_configured (by rw [s.workerStep_frame.cfg, hconf])).mpr ha.workerStep
  | interrupt =>
    obtain ⟨irq, h⟩ := s.interruptStep_frame
    exact h ▸ hs.of_port rfl rfl rfl rfl rfl hs.pool_bufs
  | txd =>
    obtain ⟨_, _, _, _, _, _, _, h, -⟩ := s.txdStep_effect
    exact h ▸ hs.of_port rfl rfl rfl rfl rfl hs.pool_bufs
  | rxd =>
    unfold State.rxdStep
    split
    · exact hs
    next hon =>
    split
    · exact hs
    next frame hf =>
    have hconf : s.cfg.configured = true := by simp_all
    obtain ⟨a, ha⟩ := (rxRingOk_configured hconf).mp hs
    obtain ⟨isr, data, h⟩ := s.rxdWrite_frame frame
    exact (rxRingOk_configured (by rw [h]; exact hconf)).mpr ⟨a + 1, ha.rxdWrite hf⟩
  | host h => exact hs.hostAnswer h

/-- Settles O53: every turn keeps the zones of written, armed and empty slots, the chain and the frames in step with the cursors of
RX_POLL and RXD. -/
theorem everyStepKeepsTheRxRing : Obligations.EveryStepKeepsTheRxRing := by
  intro s t hs h
  refine step_keeps_of_answers (P := RxRingOk) ?_ (fun s turn t hs h => hs.turnAnswer h) hs h
  exact fun s script turnNo hs => hs.of_port rfl rfl rfl rfl rfl hs.pool_bufs

/-! ### The canonical forms -/

/-- A step that changes none of the sparse data. -/
theorem Canonical.of_same {s t : State} (hs : Canonical s) (hbuf : t.buf = s.buf) (hargs : t.args = s.args)
    (hpool : t.env.pool = s.env.pool) (hrouter : t.env.router = s.env.router) : Canonical t :=
  ⟨hbuf ▸ hs.data, hargs ▸ hs.args, hbuf ▸ hs.span, hbuf ▸ hs.noZeroSpan, hpool ▸ hs.pool, hrouter ▸ hs.router⟩

/-- A step that changes the two sets of handles alone. -/
theorem Canonical.of_sets {s t : State} (hs : Canonical s) (hbuf : t.buf = s.buf) (hargs : t.args = s.args)
    (hpool : HandleSet.wf t.env.pool) (hrouter : HandleSet.rising t.env.router) : Canonical t :=
  ⟨hbuf ▸ hs.data, hargs ▸ hs.args, hbuf ▸ hs.span, hbuf ▸ hs.noZeroSpan, hpool, hrouter⟩

/-- A step that writes bytes of a buffer alone. -/
theorem Canonical.of_data {s t : State} (hs : Canonical s) (hdata : Memory.wf t.buf.data) (hspan : t.buf.span = s.buf.span)
    (hargs : t.args = s.args) (henv : t.env = s.env) : Canonical t :=
  ⟨hdata, hargs ▸ hs.args, hspan ▸ hs.span, hspan ▸ hs.noZeroSpan, henv ▸ hs.pool, henv ▸ hs.router⟩

theorem Canonical.setSpan {s : State} (hs : Canonical s) (h : Handle) (v : BitVec 16) : Canonical (s.setSpan h v) := by
  obtain ⟨hw, h0⟩ := State.setSpan_canonical hs.span hs.noZeroSpan h v
  exact ⟨hs.data, hs.args, hw, h0, hs.pool, hs.router⟩

theorem Canonical.setSpans {s : State} (hs : Canonical s) (l : List Handle) (v : BitVec 16) :
    Canonical (s.setSpans l v) := by
  obtain ⟨hw, h0⟩ := State.setSpans_canonical l v hs.span hs.noZeroSpan
  obtain ⟨sp, h⟩ := State.setSpans_spec l v s
  rw [h] at hw h0 ⊢
  exact ⟨hs.data, hs.args, hw, h0, hs.pool, hs.router⟩

theorem Canonical.spanChain {s : State} (hs : Canonical s) (len : BitVec 16) : Canonical (s.spanChain len) :=
  (hs.setSpans _ _).setSpan _ _

/-- Allocations keep the canonical forms and obtain real handles (R31). -/
theorem Canonical.allocateUpTo {s u : State} {k : Nat} {got : List Handle} (hs : Canonical s)
    (hu : s.allocateUpTo k = (got, u)) : Canonical u ∧ ∀ h ∈ got, h ≠ 0#32 := by
  obtain ⟨got', pool, calls, ds, n, he, -, -, hmem, hwf, -⟩ := State.allocateUpTo_spec k hs.pool
  cases he.symm.trans hu
  exact ⟨hs.of_sets rfl rfl hwf hs.router, fun h hh => HandleSet.ne_zero hs.pool (hmem h hh)⟩

/-- Releases of real handles keep the canonical forms (R31). -/
theorem Canonical.releaseAll {s : State} {l : List Handle} (hs : Canonical s) (h0 : ∀ h ∈ l, h ≠ 0#32) :
    Canonical (s.releaseAll l) := by
  obtain ⟨pool, he, hwf, -⟩ := State.releaseAll_spec l hs.pool h0
  exact he ▸ hs.of_sets rfl rfl hwf hs.router

/-- The end of a frame writes spans and allocates, and releases what it got when it is not enough (R284, R287). -/
theorem Canonical.endOfFrame {s : State} (hs : Canonical s) (delivered p : Nat) (len : BitVec 16) :
    Canonical (s.endOfFrame delivered p len) := by
  rcases s.endOfFrame_answers delivered p len with ⟨-, h⟩ | ⟨got, u, hu, hans⟩
  · exact h ▸ hs.of_same rfl rfl rfl rfl
  obtain ⟨hcu, h0⟩ := (hs.spanChain len).allocateUpTo hu
  rcases hans with ⟨-, h⟩ | h <;> rw [h]
  · exact (hcu.setSpan (got.headD 0#32) 0#16).of_same rfl rfl rfl rfl
  · exact ((hcu.releaseAll h0).setSpan ((u.releaseAll got).rx.chain.getD 0 0#32) 0#16).of_same rfl rfl rfl rfl

/-- CFG allocates and sets the spans of what it got to 0, or releases it (R210). -/
theorem Canonical.configure {s : State} (hs : Canonical s) : Canonical s.configure := by
  rcases s.configure_answers with ⟨code, h⟩ | ⟨-, -, -, -, got, u, hu, hans⟩
  · exact h ▸ hs.of_same rfl rfl rfl rfl
  obtain ⟨hcu, h0⟩ := hs.allocateUpTo hu
  rcases hans with ⟨-, h⟩ | h <;> rw [h]
  · exact (hcu.setSpans got 0#16).of_same rfl rfl rfl rfl
  · exact (hcu.releaseAll h0).of_same rfl rfl rfl rfl

/-- The delivery gives the chain's handles to the Frame Router (R33). -/
theorem Canonical.deliverChain {s : State} (hs : Canonical s) (delivered : Nat) (len : BitVec 16) :
    Canonical (s.deliverChain delivered len) :=
  hs.of_sets rfl rfl hs.pool (HandleSet.insertAll_rising s.rx.chain hs.router)

/-- Every step of W keeps the canonical forms. -/
theorem Canonical.workerStep {s : State} (hs : Canonical s) : Canonical s.workerStep := by
  unfold State.workerStep
  split
  · exact hs
  split
  · exact hs
  · exact hs
  · next k i _ => cases i <;> exact hs.of_same rfl rfl rfl rfl
  · obtain ⟨txd, h⟩ := s.wakeTxd_frame
    rw [State.sendDoorbell, h]
    exact hs.of_same rfl rfl rfl rfl
  · next more count _ =>
    rcases s.reclaimVisit_answers more count with h | h | ⟨port, service, -, h | ⟨p, hbuf, h⟩⟩ <;> rw [h]
    · exact hs.of_same rfl rfl rfl rfl
    · exact hs.of_same rfl rfl rfl rfl
    · exact hs.of_same rfl rfl rfl rfl
    · exact hs.of_sets rfl rfl (HandleSet.insert_wf hs.pool hbuf) hs.router
  · next n _ =>
    have hlink : Canonical s.linkSlot := hs.of_same rfl rfl rfl rfl
    rcases s.pollVisit_answers n with ⟨ds, k, v, h⟩ | h | ⟨-, -, ⟨-, h⟩ | ⟨-, h⟩⟩ <;> rw [h]
    · exact hs.of_same rfl rfl rfl rfl
    · exact hs.of_same rfl rfl rfl rfl
    · exact hlink.endOfFrame _ _ _
    · exact hlink.of_same rfl rfl rfl rfl
  · next n f fresh len _ =>
    cases fresh with
    | nil => exact hs.deliverChain n len
    | cons h rest =>
      have harm : Canonical (s.armSlot (s.chainSlot f) h) := hs.of_same rfl rfl rfl rfl
      unfold State.pollRearm
      simp only
      split
      · exact harm.deliverChain n len
      · exact (harm.setSpan (rest.headD 0#32) 0#16).of_same rfl rfl rfl rfl
  · next n f _ =>
    have harm : Canonical (s.armSlot (s.chainSlot f) (s.rx.chain.getD f 0#32)) := hs.of_same rfl rfl rfl rfl
    unfold State.pollRecycle
    simp only
    split
    · exact (harm.setSpan (s.rx.chain.getD (f + 1) 0#32) 0#16).of_same rfl rfl rfl rfl
    · exact harm.of_same rfl rfl rfl rfl

/-- A worker command that needs a configured block keeps the canonical forms when its own step does. -/
theorem Canonical.issueConfigured {s : State} {cmd : State → State} (hs : Canonical s) (hcmd : Canonical (cmd s)) :
    Canonical (s.issueConfigured cmd) := by
  rcases s.issueConfigured_cases cmd with h | ⟨-, -, -, h⟩ | ⟨-, -, -, h⟩ <;> rw [h]
  · exact hs
  · exact hs.of_same rfl rfl rfl rfl
  · exact hcmd

/-- Every command's first step keeps the canonical forms. -/
theorem Canonical.exec {s t : State} {i : Instr} (hs : Canonical s) (h : exec i s = .next t) : Canonical t := by
  cases i <;> simp only [Machine.exec] at h
  case irqEntry =>
    obtain ⟨irq, he⟩ := execIrqEntry_frame s
    cases he.symm.trans h
    exact hs.of_same rfl rfl rfl rfl
  all_goals cases h
  case cfg =>
    rcases s.issue_cases State.configure with h | ⟨-, -, h⟩ <;> rw [h]
    · exact hs
    · exact hs.configure
  case txSend k =>
    obtain ⟨slots, halt, port, h, -⟩ := s.sendStart_rest k
    exact hs.issueConfigured (h ▸ hs.of_same rfl rfl rfl rfl)
  case txReclaim =>
    obtain ⟨port, service, h, -⟩ := s.reclaimStart_frame
    exact hs.issueConfigured (h ▸ hs.of_same rfl rfl rfl rfl)
  case rxPoll => exact hs.issueConfigured (hs.of_same rfl rfl rfl rfl)
  case evtDrain => exact hs.issueConfigured (hs.of_same rfl rfl rfl rfl)
  case mcJoin =>
    obtain ⟨port, mc, h, -⟩ := s.joinBucket_frame
    exact hs.issueConfigured (h ▸ hs.of_same rfl rfl rfl rfl)
  case mcLeave =>
    obtain ⟨port, mc, h, -⟩ := s.leaveBucket_frame
    exact hs.issueConfigured (h ▸ hs.of_same rfl rfl rfl rfl)

/-- Every move of ENV keeps the canonical forms. -/
theorem Canonical.hostAnswer {s t : State} {m : HostMove} (hs : Canonical s) (h : HostAnswer s m t) : Canonical t := by
  cases h with
  | command i t h duty => exact hs.exec h
  | illegal =>
    rcases s.issue_cases (·.retErr .illegalCommand) with h | ⟨-, -, h⟩ <;> rw [h]
    · exact hs
    · exact hs.of_same rfl rfl rfl rfl
  | doorbell =>
    obtain ⟨txd, h⟩ := s.ringDoorbell_frame
    exact h ▸ hs.of_same rfl rfl rfl rfl
  | isr =>
    unfold State.writeIsr
    split
    · exact hs
    · exact hs.of_same rfl rfl rfl rfl
  | arg a =>
    unfold State.writeArg
    split
    · exact hs
    · exact ⟨hs.data, Store.put_wf hs.args _ _, hs.span, hs.noZeroSpan, hs.pool, hs.router⟩
  | ignored => exact hs
  | offer frame h0 h1 =>
    obtain ⟨halt, rxd, ctr, h⟩ := s.offerFrame_frame frame
    exact h ▸ hs.of_same rfl rfl rfl rfl
  | giveBack h own kept =>
    refine hs.of_sets rfl rfl (HandleSet.insert_wf hs.pool (envOwns_iff.mp own).1) ?_
    show HandleSet.rising (HandleSet.remove s.env.router h)
    rw [HandleSet.remove_eq_erase]
    exact List.Pairwise.sublist (List.erase_sublist.map _) hs.router
  | take h free => exact hs.of_sets rfl rfl (HandleSet.remove_wf hs.pool h) hs.router
  | fill h start bytes h0 held fits => exact hs.of_data (Memory.writeBytes_wf hs.data h start bytes) rfl rfl rfl
  | intIllegal | intQueued | txBase | rxBase | read | readBuffer => exact hs.of_same rfl rfl rfl rfl

/-- Every turn keeps the canonical forms. -/
theorem Canonical.turnAnswer {s t : State} {turn : Turn} (hs : Canonical s) (h : TurnAnswer s turn t) : Canonical t := by
  cases h with
  | worker => exact hs.workerStep
  | interrupt =>
    obtain ⟨irq, h⟩ := s.interruptStep_frame
    exact h ▸ hs.of_same rfl rfl rfl rfl
  | txd =>
    obtain ⟨_, _, _, _, _, _, _, h, -⟩ := s.txdStep_effect
    exact h ▸ hs.of_same rfl rfl rfl rfl
  | rxd =>
    obtain ⟨_, _, _, g, bytes, h, -⟩ := s.rxdStep_effect
    exact h ▸ hs.of_data (Memory.writeBytes_wf hs.data g 0 bytes) rfl rfl rfl
  | host h => exact hs.hostAnswer h

/-- Settles O47: every operation on buffer memory, arguments, spans and the two sets of handles keeps its canonical form, and the
handles that go into the free set are real ones. -/
theorem everyStepKeepsCanonicalForm : Obligations.EveryStepKeepsCanonicalForm := by
  intro s t hs h
  refine step_keeps_of_answers (P := Canonical) ?_ (fun s turn t hs h => hs.turnAnswer h) hs h
  exact fun s script turnNo hs => hs.of_same rfl rfl rfl rfl

/-! ### The owned slot with no buffer -/

/-- The first fault of the block is recorded with its slot (R405, R407). -/
theorem State.raise_first {s : State} (hh : s.halted = false) (bit : FaultBit) (ring : Ring) (p : Nat) :
    s.raise bit ring p = { s with halt := { fault := bit.mask, faultSlot := faultSlotWord ring p } } := by
  have h0 : s.halt.fault = 0#4 := by simpa [State.halted] using hh
  simp only [State.raise, hh, h0, BitVec.zero_or, Bool.false_eq_true, if_false]

/-- The block is halted exactly when a fault bit is set (R410). -/
theorem halted_eq_false_iff {s : State} : s.halted = false ↔ s.halt.fault = 0#4 := by
  simp [State.halted]

/-- A range runs up to `i`, then `i`, then the rest. -/
theorem range_split {i k : Nat} (h : i < k) : ∃ post, List.range k = List.range i ++ i :: post := by
  obtain ⟨m, rfl⟩ := Nat.exists_eq_add_of_lt h
  exact ⟨_, by rw [Nat.add_assoc, List.range_add, List.range_succ_eq_map, List.map_cons, Nat.add_zero]⟩

/-- TX_SEND's check stops at an owned slot with no buffer when those before it are free (R230 step 1). -/
theorem State.checkFree_broken {s : State} {k i : Nat} (hi : i < k)
    (hfree : ∀ j < i, (s.txAt (s.sendSlot j)).isFree = true) (hbuf : (s.txAt (s.sendSlot i)).buf = 0#32)
    (hown : (s.txAt (s.sendSlot i)).owned = true) : s.checkFree (s.sendSlots k) = .broken (s.sendSlot i) := by
  obtain ⟨post, hk⟩ := range_split hi
  have hpre : ∀ p ∈ (List.range i).map s.sendSlot, (s.txAt p).isFree = true := fun p hp => by
    obtain ⟨j, hj, rfl⟩ := List.mem_map.mp hp
    exact hfree j (List.mem_range.mp hj)
  rw [State.sendSlots, hk, List.map_append, List.map_cons, s.checkFree_append hpre]
  simp [State.checkFree, hbuf, hown]

/-- TXD's walk stops at an owned slot with no buffer when those before it are fragments of the frame (R262). -/
theorem State.walkFrame_empty {s : State} {j : Nat} (hj : j < s.nTx)
    (hpre : ∀ i < j, (s.txAt (ringPos s.nTx s.txd.idx i)).owned = true ∧ (s.txAt (ringPos s.nTx s.txd.idx i)).buf ≠ 0#32 ∧
      (s.txAt (ringPos s.nTx s.txd.idx i)).last = false)
    (hown : (s.txAt (ringPos s.nTx s.txd.idx j)).owned = true) (hbuf : (s.txAt (ringPos s.nTx s.txd.idx j)).buf = 0#32) :
    s.walkFrame 0 s.nTx = .fault .emptySlotOwned (ringPos s.nTx s.txd.idx j) := by
  obtain ⟨fuel, hfuel⟩ := Nat.exists_eq_add_of_lt hj
  have hskip := s.walkFrame_skip 0 j (fuel + 1) (by simpa using hpre)
  rw [Nat.zero_add, ← Nat.add_assoc, ← hfuel] at hskip
  rw [hskip]
  simp [State.walkFrame, hown, hbuf]

/-- RXD's start check stops at an owned slot with no buffer when those before it are armed (R301). -/
theorem State.checkArmed_broken {s : State} {m f : Nat} (hf : f < m)
    (hpre : ∀ g < f, (s.rxAt (ringPos s.nRx s.rxd.idx g)).owned = true ∧ (s.rxAt (ringPos s.nRx s.rxd.idx g)).buf ≠ 0#32)
    (hown : (s.rxAt (ringPos s.nRx s.rxd.idx f)).owned = true) (hbuf : (s.rxAt (ringPos s.nRx s.rxd.idx f)).buf = 0#32) :
    s.checkArmed ((List.range m).map (ringPos s.nRx s.rxd.idx)) = .broken (ringPos s.nRx s.rxd.idx f) := by
  obtain ⟨post, hm⟩ := range_split hf
  have hpre' : ∀ p ∈ (List.range f).map (ringPos s.nRx s.rxd.idx), (s.rxAt p).owned = true ∧ (s.rxAt p).buf ≠ 0#32 :=
    fun p hp => by
      obtain ⟨g, hg, rfl⟩ := List.mem_map.mp hp
      exact hpre g (List.mem_range.mp hg)
  rw [hm, List.map_append, List.map_cons, s.checkArmed_append hpre']
  simp [State.checkArmed, hbuf, hown]

/-- Settles O27: each of the four checks stops at the slot, and the fault it raises there is the block's first. -/
theorem emptyOwnedSlotFaults : Obligations.EmptyOwnedSlotFaults := by
  refine ⟨fun s k i hr herr hi hfree hbuf hown => ?_, fun s more count h0 hw hbuf hown => ?_,
    fun s j hd hrun hj hpre hown hbuf => ?_, fun s frame f hd hnone hacc hroom hf hpre hown hbuf => ?_⟩
  · obtain ⟨hh, hb, hc⟩ := hr
    have hstart : s.sendStart k = s.raiseInCommand .emptySlotOwned .tx (s.sendSlot i) := by
      simp only [State.sendStart, herr, State.checkFree_broken hi hfree hbuf hown]
    show Host.Outcome.next (s.issueConfigured (·.sendStart k)) = _
    rw [State.issueConfigured_run hh hb hc, hstart, State.raiseInCommand, State.raise_first hh]
    rfl
  · have hh := halted_eq_false_iff.mpr h0
    have hbuf : (s.txAt (ringPos s.nTx s.tx.release 0)).buf = 0#32 := hbuf
    have hown : (s.txAt (ringPos s.nTx s.tx.release 0)).owned = true := hown
    have hstep : s.workerStep = s.raiseInCommand .emptySlotOwned .tx (ringPos s.nTx s.tx.release 0) := by
      simp only [State.workerStep, hh, hw, State.reclaimVisit, hbuf, hown, if_true, Bool.false_eq_true, if_false]
    rw [hstep, State.raiseInCommand, State.raise_first hh]
    rfl
  · obtain ⟨hh, hc⟩ := hd
    have hfirst : (s.txAt (ringPos s.nTx s.txd.idx 0)).owned = true := by
      cases j with
      | zero => exact hown
      | succ j => exact (hpre 0 (Nat.succ_pos j)).1
    have hstep : s.txdStep = s.raise .emptySlotOwned .tx (ringPos s.nTx s.txd.idx j) := by
      simp [State.txdStep, hh, hc, hrun, hfirst, State.txdSend, State.walkFrame_empty hj hpre hown hbuf]
    rw [hstep, State.raise_first hh]
    rfl
  · obtain ⟨hh, hc⟩ := hd
    have hstep : s.offerFrame frame = s.raise .emptySlotOwned .rx (ringPos s.nRx s.rxd.idx f) := by
      simp [State.offerFrame, hh, hc, hnone, hacc, State.rxdStart, Nat.not_lt.mpr hroom,
        State.checkArmed_broken hf hpre hown hbuf]
    rw [hstep, State.raise_first hh]
    rfl

/-! ### The bits of ISR -/

/-- The bits of ISR stay, or IRQ_ENTRY's capture has taken them (R82, R331). -/
def IsrKept (s t : State) : Prop := BitsStay s.irq.isr t.irq.isr ∨ t.irq.latch = some s.irq.isr

theorem IsrKept.of_isr {s t : State} (h : t.irq.isr = s.irq.isr) : IsrKept s t := .inl (h ▸ .refl _)

/-- A command other than CFG, whose own step leaves ISR as it is. -/
theorem IsrKept.issueConfigured {s : State} {cmd : State → State} (h : (cmd s).irq.isr = s.irq.isr) :
    IsrKept s (s.issueConfigured cmd) := by
  rcases s.issueConfigured_cases cmd with he | ⟨-, -, -, he⟩ | ⟨-, -, -, he⟩ <;> rw [he]
  · exact .of_isr rfl
  · exact .of_isr rfl
  · exact .of_isr h

/-- An INTCMD word that is performed takes the bits of ISR or leaves them (R144, R330). -/
theorem State.performInt_isr (s : State) (w : Word) : IsrKept s (s.performInt w) := by
  unfold State.performInt
  split
  · exact .inr rfl
  · exact .of_isr rfl

/-- Agent I's step takes the bits of ISR or leaves them (R335). -/
theorem State.interruptStep_isr (s : State) : IsrKept s s.interruptStep := by
  unfold State.interruptStep
  split
  · exact .of_isr rfl
  split
  · exact .of_isr rfl
  split
  · exact .of_isr rfl
  · next w rest _ => exact ({ s with irq.queue := rest } : State).performInt_isr w

/-- Of the commands only IRQ_ENTRY takes the bits of ISR. -/
theorem exec_isr {s t : State} {i : Instr} (h : exec i s = .next t) : IsrKept s t := by
  cases i <;> simp only [exec] at h <;> cases h
  case cfg =>
    rcases s.issue_cases State.configure with h | ⟨-, -, h⟩ <;> rw [h]
    · exact .of_isr rfl
    rcases s.configure_cases with ⟨code, h⟩ | ⟨got, pool, provider, ds, n, -, h | h⟩ <;> rw [h]
    · exact .of_isr rfl
    · obtain ⟨sp, h⟩ := State.setSpans_spec got 0#16
        { s with draws := ds, drawNo := n, env := { s.env with pool := pool, provider := provider } }
      rw [State.construct, h]
      exact .of_isr rfl
    · exact .of_isr rfl
  case txSend k =>
    obtain ⟨slots, halt, port, h, -⟩ := s.sendStart_rest k
    exact .issueConfigured (by rw [h])
  case txReclaim =>
    obtain ⟨port, service, h, -⟩ := s.reclaimStart_frame
    exact .issueConfigured (by rw [h])
  case rxPoll => exact .issueConfigured rfl
  case evtDrain => exact .issueConfigured rfl
  case mcJoin =>
    obtain ⟨port, mc, h, -⟩ := s.joinBucket_frame
    exact .issueConfigured (by rw [h])
  case mcLeave =>
    obtain ⟨port, mc, h, -⟩ := s.leaveBucket_frame
    exact .issueConfigured (by rw [h])
  case irqEntry =>
    split
    · exact .of_isr rfl
    split
    · exact .of_isr rfl
    · exact .inr rfl

/-- A write to a register other than ISR takes the bits of ISR or leaves them. -/
theorem writeReg_isr {s t : State} {r : Reg} {v : Word} (hr : r ≠ .isr) (h : s.writeReg r v = .next t) : IsrKept s t := by
  cases r <;> simp only [State.writeReg] at h
  case isr => exact absurd rfl hr
  case cmd =>
    unfold State.writeCmd at h
    split at h
    · exact exec_isr h
    · cases h
      rcases s.issue_cases (·.retErr .illegalCommand) with h | ⟨-, -, h⟩ <;> rw [h] <;> exact .of_isr rfl
  case intCmd =>
    unfold State.writeIntCmd at h
    split at h
    · exact exec_isr h
    · cases h
      split
      · exact .of_isr rfl
      split <;> exact .of_isr rfl
  case txDoorbell =>
    cases h
    obtain ⟨txd, h⟩ := s.ringDoorbell_frame
    exact .of_isr (by rw [h])
  case arg a =>
    cases h
    unfold State.writeArg
    split <;> exact .of_isr rfl
  case txRingBase => cases h; split <;> exact .of_isr rfl
  case rxRingBase => cases h; split <;> exact .of_isr rfl
  all_goals cases h; exact .of_isr rfl

/-- ISR is at 0x014 (R42). -/
theorem regAt_isr {off : Nat} (h : regAt off = some .isr) : off = 0x014 := by
  unfold regAt at h
  split at h
  · cases h
  · split at h
    · cases h
    · simpa [regTable] using Store.mem_of_get? h

/-- A bus write that ENV may make is 32 bits wide, and acts on the register at its offset (R102). -/
theorem hostMove_write {s t : State} {off width : Nat} {v : Word} (h : s.hostMove (.write off width v) = .next t) :
    width = 32 ∧ s.writeAt off v = .next t := by
  simp only [State.hostMove] at h
  split at h
  · cases h
  next hadm =>
  split at h
  · cases h
  simp only [accessAdmitted, Bool.not_eq_true', Bool.not_eq_false, Bool.and_eq_true, beq_iff_eq] at hadm
  exact ⟨hadm.2, h⟩

/-- Settles O33: ISR is written by IRQ_ENTRY's capture, by ENV's write to it, and by the DMA agents, which only set bits. -/
theorem pendingInterruptStays : Obligations.PendingInterruptStays := by
  intro s t turn h hcleared
  have hkept : IsrKept s t → t.irq.latch = some s.irq.isr := fun hk => hk.resolve_left hcleared
  cases turn with
  | worker =>
    cases h
    exact .inl (hkept (.of_isr (by rw [s.workerStep_frame.irq])))
  | interrupt =>
    cases h
    exact .inl (hkept s.interruptStep_isr)
  | txd =>
    cases h
    obtain ⟨_, _, _, _, _, _, _, h, hstay, -⟩ := s.txdStep_effect
    exact .inl (hkept (.inl (h ▸ hstay)))
  | rxd =>
    cases h
    obtain ⟨_, _, _, _, _, h, hstay, -⟩ := s.rxdStep_effect
    exact .inl (hkept (.inl (h ▸ hstay)))
  | host m =>
    have h : s.hostMove m = .next t := h
    cases m with
    | write off width v =>
      obtain ⟨rfl, hw⟩ := hostMove_write h
      unfold State.writeAt at hw
      split at hw
      · next r hr =>
        by_cases hisr : r = .isr
        · subst hisr
          cases hw
          refine .inr ⟨off, v, rfl, regAt_isr hr, ?_⟩
          unfold State.writeIsr at hcleared ⊢
          split
          · next hh =>
            rw [if_pos hh] at hcleared
            exact absurd (BitsStay.refl s.irq.isr) hcleared
          · rfl
        · exact .inl (hkept (writeReg_isr hisr hw))
      · cases hw
        exact .inl (hkept (.of_isr rfl))
    | offer frame =>
      cases hostMove_answer h
      obtain ⟨halt, rxd, ctr, h⟩ := s.offerFrame_frame frame
      exact .inl (hkept (.of_isr (by rw [h])))
    | read off width => cases hostMove_answer h; exact .inl (hkept (.of_isr rfl))
    | giveBack g => cases hostMove_answer h; exact .inl (hkept (.of_isr rfl))
    | take g => cases hostMove_answer h; exact .inl (hkept (.of_isr rfl))
    | fill g start bytes => cases hostMove_answer h; exact .inl (hkept (.of_isr rfl))
    | readBuffer g start n => cases hostMove_answer h; exact .inl (hkept (.of_isr rfl))

/-! ### Writes that a fault or a running command makes ignored -/

/-- A word written to `CMD` decodes to a worker command (R141). -/
theorem decodeWorker_port {w : Word} {i : Instr} (h : decodeWorker w = .ok i) : i.port = .worker := by
  have hop : ∀ {op k : Nat} {j : Instr}, workerOp op k = some j → j.port = .worker := fun {op k j} hj => by
    unfold workerOp at hj
    split at hj <;> cases hj <;> rfl
  unfold decodeWorker at h
  split at h
  · cases h
  next j hj =>
  split at h
  · cases h
  split at h
  · cases h
  · cases h
    exact hop hj

/-- A worker command written while another one runs is ignored (R52). -/
theorem exec_of_busy {s : State} {i : Instr} (hb : s.busy = true) (hp : i.port = .worker) : exec i s = .next s := by
  have hign : ∀ cmd, s.issue cmd = s := s.issue_ignored (.inr hb)
  cases i
  case irqEntry => exact absurd hp (by decide)
  all_goals exact congrArg Host.Outcome.next (hign _)

/-- Every command is ignored once the block is halted (R410). -/
theorem exec_of_halted {s : State} (hh : s.halted = true) (i : Instr) : exec i s = .next s := by
  have hign : ∀ cmd, s.issue cmd = s := s.issue_ignored (.inl hh)
  cases i
  case irqEntry => exact congrArg Host.Outcome.next (if_pos hh)
  all_goals exact congrArg Host.Outcome.next (hign _)

/-- A write to `CMD` while a command runs changes nothing (R52). -/
theorem State.writeCmd_of_busy {s : State} (hb : s.busy = true) (w : Word) : s.writeCmd w = .next s := by
  unfold State.writeCmd
  split
  · next i hd => exact exec_of_busy hb (decodeWorker_port hd)
  · rw [State.issue_ignored (.inr hb)]

/-- The registers that take writes (R112). -/
def takesWrites : Reg → Bool
  | .cmd | .intCmd | .txDoorbell | .isr | .txRingBase | .rxRingBase | .arg _ => true
  | .result | .value | .status | .fault | .evt | .sig | .intResult | .mcHashLo | .mcHashHi | .rxDropCount | .rxOvfCount
  | .faultSlot | .txCurrent | .txRelease | .txInUse | .txHwIdx | .rxCurrent | .rxChainFirst | .rxChainLen | .rxHwIdx
  | .cfgCounts | .cfgCap | .linkAddrLo | .linkAddrHi | .mcCount _ => false

/-- A write to a read-only register changes nothing (R112). -/
theorem writeReg_of_readOnly {r : Reg} (h : takesWrites r = false) (s : State) (v : Word) : s.writeReg r v = .next s := by
  cases r <;> simp only [takesWrites, Bool.true_eq_false] at h <;> rfl

/-- Once the block is halted every write but those to the ring bases changes nothing (R410). -/
theorem writeReg_of_halted {s : State} (hh : s.halted = true) {r : Reg} (htx : r ≠ .txRingBase) (hrx : r ≠ .rxRingBase)
    (v : Word) : s.writeReg r v = .next s := by
  cases r
  case cmd =>
    show s.writeCmd v = _
    unfold State.writeCmd
    split
    · exact exec_of_halted hh _
    · rw [State.issue_ignored (.inl hh)]
  case intCmd =>
    show s.writeIntCmd v = _
    unfold State.writeIntCmd
    split
    · exact exec_of_halted hh _
    · rw [if_pos hh]
  case txDoorbell => simp [State.writeReg, State.ringDoorbell, hh]
  case isr => simp [State.writeReg, State.writeIsr, hh]
  case arg a => simp [State.writeReg, State.writeArg, hh]
  case txRingBase => exact absurd rfl htx
  case rxRingBase => exact absurd rfl hrx
  all_goals exact writeReg_of_readOnly rfl s v

/-- No agent of a halted block has an enabled step (R410). -/
theorem not_enabled_of_halted {s : State} (hh : s.halted = true) (a : Agent) : s.enabled a = false := by
  cases a <;> simp [State.enabled, hh]

/-- A turn of an agent of a halted block passes (R410). -/
theorem takeTurn_of_halted {s : State} (hh : s.halted = true) (a : Agent) : s.takeTurn a.turn = .next s :=
  takeTurn_of_not_enabled (not_enabled_of_halted hh a)

/-- A fault bit is set: the block is halted (R410). -/
theorem halted_of_fault {s : State} (h : s.halt.fault ≠ 0#4) : s.halted = true := by
  simpa [State.halted] using h

/-- Settles O12: a command or a write is ignored through the guard of its own definition. -/
theorem ignoredWrites : Obligations.IgnoredWrites := by
  refine ⟨fun s w a hb => ⟨State.writeCmd_of_busy hb w, ?_⟩, fun s w r a h => ?_⟩
  · simp [State.writeReg, State.writeArg, hb]
  · have hh := halted_of_fault h
    refine ⟨fun hr => writeReg_of_halted hh ?_ ?_ w, Host.Outcome.next.inj (takeTurn_of_halted hh .worker),
      Host.Outcome.next.inj (takeTurn_of_halted hh .interrupt), Host.Outcome.next.inj (takeTurn_of_halted hh .txd),
      Host.Outcome.next.inj (takeTurn_of_halted hh .rxd)⟩ <;>
    · rintro rfl
      simp at hr

/-- The event bits of captured interrupt status are its own bits (R332). -/
theorem eventBits_eq (captured : BitVec 2) : eventBits captured = captured := by
  revert captured
  decide

/-- Settles O31: the word waits in the queue, the next step merges, and the one after it performs the word. -/
theorem nestedEntryRunsAfterTheFirst : Obligations.NestedEntryRunsAfterTheFirst := by
  intro s captured hh hlatch hqueue
  have hbusy : s.interruptBusy = true := by simp [State.interruptBusy, hlatch]
  generalize hw : (0x00000008#32 : Word) = w
  have hentry : exec .irqEntry s = .next (s.enqueueInt w) := by
    simp only [exec, execIrqEntry, hh, hbusy, encode, hw, if_true, Bool.false_eq_true, if_false]
  have hmerge : (s.enqueueInt w).interruptStep = (s.enqueueInt w).irqMerge captured := by
    have hh' : (s.enqueueInt w).halted = false := hh
    simp [State.interruptStep, hh', hlatch]
  have hword : decodeInterrupt w = .ok .irqEntry := by simp [decodeInterrupt, ← hw]
  have hperform : ((s.enqueueInt w).irqMerge captured).interruptStep =
      State.irqCapture { (s.enqueueInt w).irqMerge captured with irq.queue := [] } := by
    have hh' : ((s.enqueueInt w).irqMerge captured).halted = false := hh
    simp [State.interruptStep, hh', hqueue, State.performInt, hword]
  refine ⟨_, hentry, by simp [hqueue], ?_⟩
  rw [hmerge, hperform]
  simp [eventBits_eq]

/-! ### The register map -/

/-- Settles O43: the guard of the two base registers is the one flag. -/
theorem ringBasesFreezeAtCfg : Obligations.RingBasesFreezeAtCfg :=
  fun s v => ⟨fun hc => by simp [State.writeReg, hc], fun hc => by simp [State.writeReg, hc]⟩

/-- A read of an offset that names a register reads it (R42, R101). -/
theorem readAt_of_reg (s : State) {off : Nat} {r : Reg} (h : regAt (off % 0x2000) = some r) : s.readAt off = s.readReg r := by
  simp only [State.readAt, h]

/-- A write at an offset that names a register writes it (R42, R101). -/
theorem writeAt_of_reg (s : State) {off : Nat} {r : Reg} (h : regAt (off % 0x2000) = some r) (v : Word) :
    s.writeAt off v = s.writeReg r v := by
  simp only [State.writeAt, h]

/-- `ARG[a]` of the map's 1024 words is at 0x1000 + 4a (R42). -/
theorem regAt_arg_mod {a : Nat} (ha : a < 1024) : regAt ((0x1000 + 4 * a) % 0x2000) = some (.arg a) := by
  rw [Nat.mod_eq_of_lt (by omega)]
  exact regAt_arg a

/-- STATUS, bit by bit (R51). -/
theorem State.statusWord_bits (s : State) (i : Nat) : s.statusWord.getLsbD i =
    (decide (i = 0) && s.cfg.configured || decide (i = 1) && s.txActive || decide (i = 2) && s.halted ||
      decide (i = 3) && s.busy) := by
  rw [State.statusWord, BitVec.getLsbD_setWidth]
  simp only [BitVec.getLsbD_append, flag]
  rcases i with _ | _ | _ | _ | i <;> simp

/-- The ring sizes fit the two halves of CFG_COUNTS (R42). -/
theorem State.cfgCountsWord_halves {s : State} (ht : IsRingSize s.nTx) (hr : IsRingSize s.nRx) :
    (s.cfgCountsWord.extractLsb' 0 16).toNat = s.nTx ∧ (s.cfgCountsWord.extractLsb' 16 16).toNat = s.nRx := by
  have htle := ht.le
  have hrle := hr.le
  unfold State.cfgCountsWord
  rw [BitVec.extractLsb'_append_eq_right, BitVec.extractLsb'_append_eq_left, BitVec.toNat_ofNat, BitVec.toNat_ofNat]
  omega

/-- The four bytes of a word that is written as their concatenation. -/
theorem extractByte_append (a b c d : BitVec 8) :
    (d ++ c ++ b ++ a).extractLsb' 0 8 = a ∧ (d ++ c ++ b ++ a).extractLsb' 8 8 = b ∧
      (d ++ c ++ b ++ a).extractLsb' 16 8 = c ∧ (d ++ c ++ b ++ a).extractLsb' 24 8 = d := by
  simp only [BitVec.extractLsb'_append_eq_ite]
  simp

/-- The count of bucket `b` is byte `b mod 4` of MC_COUNT[b / 4] (R42). -/
theorem State.mcCountWord_byte (s : State) (b : BitVec 6) :
    (s.mcCountWord (b.toNat / 4)).extractLsb' (8 * (b.toNat % 4)) 8 = s.mc.countOf b := by
  have hb := b.isLt
  have hcount : s.mc.countOf b = s.mc.count.toList.getD b.toNat 0#8 := by
    rw [List.getD_eq_getElem _ _ (by simpa using hb), Vector.getElem_toList]
    rfl
  obtain ⟨h0, h1, h2, h3⟩ := extractByte_append (s.mc.count.toList.getD (4 * (b.toNat / 4)) 0#8)
    (s.mc.count.toList.getD (4 * (b.toNat / 4) + 1) 0#8) (s.mc.count.toList.getD (4 * (b.toNat / 4) + 2) 0#8)
    (s.mc.count.toList.getD (4 * (b.toNat / 4) + 3) 0#8)
  have hsplit := Nat.div_add_mod b.toNat 4
  have hmod := Nat.mod_lt b.toNat (by decide : 4 > 0)
  rw [hcount]
  generalize b.toNat % 4 = r at hsplit hmod ⊢
  generalize b.toNat / 4 = q at hsplit h0 h1 h2 h3 ⊢
  rw [← hsplit]
  interval_cases r
  · exact h0
  · exact h1
  · exact h2
  · exact h3

/-- The filter bit of bucket `b` is in MC_HASH_LO for the buckets below 32 and in MC_HASH_HI for the others (R87). -/
theorem State.filterBit_hash (s : State) (b : BitVec 6) : s.mc.filterBit b =
    (if b.toNat < 32 then (s.mc.filter.extractLsb' 0 32).getLsbD b.toNat
      else (s.mc.filter.extractLsb' 32 32).getLsbD (b.toNat - 32)) := by
  have hb := b.isLt
  unfold Multicast.filterBit
  split
  · next h => simp [h]
  · next h =>
    have hlt : b.toNat - 32 < 32 := by omega
    simp [hlt, Nat.add_sub_cancel' (Nat.not_lt.mp h)]

/-- The registers that read as one field read it (R42). -/
theorem State.readAt_simpleRegisters (s : State) : ∀ e ∈ s.simpleRegisters, s.readAt e.1 = e.2 := by
  have hsig : (flag s.irq.sig).setWidth 32 = if s.irq.sig then 1#32 else 0#32 := by
    cases s.irq.sig <;> rfl
  have hlen : (BitVec.ofNat 17 s.rx.chain.length).setWidth 32 = BitVec.ofNat 32 (s.rx.chain.length % 2 ^ 17) := by
    refine BitVec.eq_of_toNat_eq ?_
    rw [BitVec.toNat_setWidth, BitVec.toNat_ofNat, BitVec.toNat_ofNat]
  simp only [State.simpleRegisters, List.forall_mem_cons]
  exact ⟨rfl, rfl, rfl, rfl, rfl, rfl, hsig, rfl, rfl, rfl, rfl, rfl, rfl, rfl, rfl, rfl, rfl, rfl, rfl, hlen, rfl, rfl,
    rfl, rfl, rfl, rfl, fun e he => absurd he List.not_mem_nil⟩

/-- Settles O41: the map names the register of each offset, and each register's view of the state is read field by field. -/
theorem statusRegistersRead : Obligations.StatusRegistersRead := by
  intro s
  refine ⟨fun i => ?_, fun ht hr => ?_, fun b => ?_, fun b => ?_, fun a ha => readAt_of_reg s (regAt_arg_mod ha),
    s.readAt_simpleRegisters, fun off h => ?_⟩
  · have hread : s.readAt 0x00C = s.statusWord := rfl
    rw [hread, s.statusWord_bits]
    simp only [State.txActive, State.halted, State.busy, bne, beq_eq_decide, ne_eq, decide_not]
  · exact State.cfgCountsWord_halves ht hr
  · exact s.filterBit_hash b
  · have hb := b.isLt
    have hreg : regAt ((0x100 + 4 * (b.toNat / 4)) % 0x2000) = some (.mcCount (b.toNat / 4)) := by
      rw [Nat.mod_eq_of_lt (by omega)]
      exact regAt_mcCount (by omega)
    rw [readAt_of_reg s hreg]
    exact (s.mcCountWord_byte b).symm
  · have hlt : off < 0x2000 := by
      rcases h with h | h <;> omega
    rw [State.readAt, Nat.mod_eq_of_lt hlt, regAt_unlisted h]

/-- Below 0x1000 the registers that take writes are at six offsets (R42, R112). -/
theorem readOnly_of_regAt {off : Nat} {r : Reg} (hoff : off < 0x1000)
    (hnot : off ∉ [0x000, 0x014, 0x020, 0x024, 0x070, 0x074]) (h : regAt off = some r) : takesWrites r = false := by
  unfold regAt at h
  rw [if_neg (Nat.not_le.mpr hoff)] at h
  split at h
  · cases h
    rfl
  · have htable : ∀ e ∈ regTable, e.1 ∉ [0x000, 0x014, 0x020, 0x024, 0x070, 0x074] → takesWrites e.2 = false := by
      decide
    exact htable _ (Store.mem_of_get? h) hnot

/-- A 32-bit access at a 4-aligned offset is admitted (R102). -/
theorem accessAdmitted_aligned {off : Nat} (h : off % 4 = 0) : accessAdmitted off 32 = true := by
  simp [accessAdmitted, h]

/-- A write of ISR clears the bits written as 1 and no other (R112). -/
theorem State.writeIsr_bits {s : State} (hh : s.halted = false) (v : Word) :
    s.writeIsr v = { s with irq := { s.irq with isr := (s.writeIsr v).irq.isr } } ∧
    ∀ i < 2, (s.writeIsr v).irq.isr.getLsbD i = (s.irq.isr.getLsbD i && !v.getLsbD i) := by
  have hwrite : s.writeIsr v = { s with irq.isr := s.irq.isr &&& ~~~(v.extractLsb' 0 2) } := by
    simp only [State.writeIsr, hh, Bool.false_eq_true, if_false]
  rw [hwrite]
  refine ⟨rfl, fun i hi => ?_⟩
  simp [hi]

/-- A write of an argument word is what the next read of it gives, and leaves the others (R54, R112). -/
theorem State.writeArg_arg {s : State} (hacc : s.Accepting) (a : Nat) (v : Word) :
    s.writeArg a v = { s with args := (s.writeArg a v).args } ∧ (s.writeArg a v).arg a = v ∧
    ∀ b, b ≠ a → (s.writeArg a v).arg b = s.arg b := by
  obtain ⟨hh, hb⟩ := hacc
  have hwrite : s.writeArg a v = { s with args := Store.put s.args a v } := by
    simp only [State.writeArg, hh, hb, Bool.or_self, Bool.false_eq_true, if_false]
  rw [hwrite]
  refine ⟨rfl, ?_, fun b hne => ?_⟩
  · simp only [State.arg, Store.get?_put_self, Option.getD_some]
  · simp only [State.arg, Store.get?_put_ne _ _ hne]

/-- Settles O42: a read is the move that stores what the map names, and a write reaches only the registers that take one. -/
theorem registerAccess : Obligations.RegisterAccess := by
  intro s
  refine ⟨fun off h4 => ⟨?_, ?_⟩, fun off v h4 h0 => ?_, fun off v => ?_, fun v hh => ?_, fun a ha v hacc => ?_,
    fun v => ⟨rfl, rfl, rfl, rfl, rfl⟩, fun off v _ hoff hnot => ?_⟩
  · simp [State.hostMove, accessAdmitted_aligned h4]
  · unfold State.readAt
    split
    · next r _ => cases r <;> rfl
    · rfl
  · simp [State.hostMove, accessAdmitted_aligned h4, h0]
  · simp only [State.readAt, State.writeAt, Nat.mod_mod, and_self]
  · obtain ⟨hframe, hbits⟩ := State.writeIsr_bits hh v
    exact ⟨_, rfl, hframe, hbits⟩
  · obtain ⟨hframe, hself, hother⟩ := State.writeArg_arg hacc a v
    refine ⟨_, writeAt_of_reg s (regAt_arg_mod ha) v, hframe, ?_, fun b hb hne => ?_⟩
    · exact (readAt_of_reg _ (regAt_arg_mod ha)).trans hself
    · rw [readAt_of_reg _ (regAt_arg_mod hb), readAt_of_reg _ (regAt_arg_mod hb)]
      exact hother b hne
  · unfold State.writeAt
    rw [Nat.mod_eq_of_lt (by omega)]
    split
    · next r hr => exact writeReg_of_readOnly (readOnly_of_regAt hoff hnot hr) s v
    · rfl

/-! ### Parameters, wrap bits and fault bits -/

/-- The wrap bits of both rings, and with them the ring sizes, are as before. -/
def SameWraps (s t : State) : Prop :=
  t.tx.slots.map TxSlot.wrap = s.tx.slots.map TxSlot.wrap ∧ t.rx.slots.map RxSlot.wrap = s.rx.slots.map RxSlot.wrap

theorem SameWraps.nTx {s t : State} (h : SameWraps s t) : t.nTx = s.nTx := by
  simpa [State.nTx] using congrArg List.length h.1

theorem SameWraps.nRx {s t : State} (h : SameWraps s t) : t.nRx = s.nRx := by
  simpa [State.nRx] using congrArg List.length h.2

theorem SameWraps.txAt {s t : State} (h : SameWraps s t) (p : Nat) : (t.txAt p).wrap = (s.txAt p).wrap := by
  have hget : ∀ u : State, (u.tx.slots.map TxSlot.wrap).getD p false = (u.txAt p).wrap := fun u =>
    List.getD_map u.tx.slots TxSlot.free TxSlot.wrap
  rw [← hget, ← hget, h.1]

theorem SameWraps.rxAt {s t : State} (h : SameWraps s t) (p : Nat) : (t.rxAt p).wrap = (s.rxAt p).wrap := by
  have hget : ∀ u : State, (u.rx.slots.map RxSlot.wrap).getD p false = (u.rxAt p).wrap := fun u =>
    List.getD_map u.rx.slots RxSlot.empty RxSlot.wrap
  rw [← hget, ← hget, h.2]

/-- Exactly the last slot of each ring stays marked. -/
theorem SameWraps.wrapAtEnd {s t : State} (h : SameWraps s t) (hs : WrapAtEnd s) : WrapAtEnd t := by
  unfold WrapAtEnd
  rw [h.nTx, h.nRx]
  exact ⟨fun p hp => (h.txAt p).trans (hs.1 p hp), fun p hp => (h.rxAt p).trans (hs.2 p hp)⟩

/-- What every step keeps: no parameter changes, at most one fault is raised, and the wrap bits stay, but that CFG makes new
rings whose last slot is marked. -/
structure ShapeKept (s t : State) : Prop where
  params : t.params = s.params
  halt : RaisesAtMostOne s t
  wraps : SameWraps s t ∨ s.cfg.configured = false ∧ WrapAtEnd t

/-- A step that writes no slot and raises no fault. -/
theorem ShapeKept.of_same {s t : State} (hp : t.params = s.params) (hh : t.halt = s.halt) (htx : t.tx.slots = s.tx.slots)
    (hrx : t.rx.slots = s.rx.slots) : ShapeKept s t :=
  ⟨hp, .inl hh, .inl ⟨by rw [htx], by rw [hrx]⟩⟩

/-- A step that raises a fault and writes no slot. -/
theorem ShapeKept.of_raise {s t : State} (bit : FaultBit) (ring : Ring) (p : Nat) (hp : t.params = s.params)
    (hh : t.halt = (s.raise bit ring p).halt) (htx : t.tx.slots = s.tx.slots) (hrx : t.rx.slots = s.rx.slots) :
    ShapeKept s t :=
  ⟨hp, .inr ⟨bit, ring, p, hh⟩, .inl ⟨by rw [htx], by rw [hrx]⟩⟩

/-- A step that writes TX slot `q` and keeps its wrap bit. -/
theorem ShapeKept.of_setTx {s t : State} (q : Nat) (d : TxSlot) (hp : t.params = s.params) (hh : t.halt = s.halt)
    (htx : t.tx.slots = s.tx.slots.set q d) (hd : d.wrap = (s.txAt q).wrap) (hrx : t.rx.slots = s.rx.slots) :
    ShapeKept s t :=
  ⟨hp, .inl hh, .inl ⟨htx ▸ State.txWraps_setTx hd, by rw [hrx]⟩⟩

/-- A step that writes RX slot `q`, keeps its wrap bit and raises at most one fault. -/
theorem ShapeKept.of_setRx {s t : State} (q : Nat) (d : RxSlot) (hp : t.params = s.params) (hh : RaisesAtMostOne s t)
    (htx : t.tx.slots = s.tx.slots) (hrx : t.rx.slots = s.rx.slots.set q d) (hd : d.wrap = (s.rxAt q).wrap) :
    ShapeKept s t :=
  ⟨hp, hh, .inl ⟨by rw [htx], hrx ▸ State.rxWraps_setRx hd⟩⟩

/-- The end of a frame raises at most the length fault, and writes no slot (R283). -/
theorem State.endOfFrame_shape (s : State) (delivered p : Nat) (len : BitVec 16) :
    (s.endOfFrame delivered p len).params = s.params ∧ RaisesAtMostOne s (s.endOfFrame delivered p len) ∧
    (s.endOfFrame delivered p len).tx = s.tx ∧ (s.endOfFrame delivered p len).rx = s.rx := by
  rcases s.endOfFrame_cases delivered p len with h | ⟨got, pool, provider, buf, ds, n, -, h | h⟩ <;> rw [h]
  · exact ⟨rfl, .inr ⟨_, _, _, rfl⟩, rfl, rfl⟩
  · exact ⟨rfl, .inl rfl, rfl, rfl⟩
  · exact ⟨rfl, .inl rfl, rfl, rfl⟩

/-- Every step of W keeps the shape. -/
theorem State.workerStep_shape (s : State) : ShapeKept s s.workerStep := by
  unfold State.workerStep
  split
  · exact .of_same rfl rfl rfl rfl
  split
  · exact .of_same rfl rfl rfl rfl
  · exact .of_same rfl rfl rfl rfl
  · next k i _ => cases i <;> exact .of_setTx _ _ rfl rfl rfl rfl rfl
  · obtain ⟨txd, h⟩ := s.wakeTxd_frame
    rw [State.sendDoorbell, h]
    exact .of_same rfl rfl rfl rfl
  · next more count _ =>
    rcases s.reclaimVisit_answers more count with h | h | ⟨port, service, -, h | ⟨p, -, h⟩⟩ <;> rw [h]
    · exact .of_raise _ _ _ rfl rfl rfl rfl
    · exact .of_same rfl rfl rfl rfl
    · exact .of_same rfl rfl rfl rfl
    · exact .of_setTx p (s.txAt p).clear rfl rfl rfl rfl rfl
  · next n _ =>
    rcases s.pollVisit_answers n with ⟨ds, k, v, h⟩ | h | ⟨-, -, ⟨-, h⟩ | ⟨-, h⟩⟩ <;> rw [h]
    · exact .of_same rfl rfl rfl rfl
    · exact .of_raise _ _ _ rfl rfl rfl rfl
    · obtain ⟨hparams, hhalt, htx, hrx⟩ :=
        s.linkSlot.endOfFrame_shape n (ringPos s.nRx s.rx.current 0) (s.rxFromCurrent 0).len
      exact .of_setRx _ _ hparams hhalt (congrArg TxRing.slots htx) (congrArg RxRing.slots hrx) rfl
    · exact .of_setRx _ _ rfl (.inl rfl) rfl rfl rfl
  · next n f fresh len _ =>
    cases fresh with
    | nil => exact .of_same rfl rfl rfl rfl
    | cons h rest =>
      unfold State.pollRearm
      simp only
      split <;> exact .of_setRx _ _ rfl (.inl rfl) rfl rfl rfl
  · unfold State.pollRecycle
    simp only
    split <;> exact .of_setRx _ _ rfl (.inl rfl) rfl rfl rfl

/-- The last of CFG's TX slots is marked (R210). -/
theorem wrap_freeTxSlots {n p : Nat} (hp : p < n) : ((freeTxSlots n).getD p TxSlot.free).wrap = decide (p + 1 = n) := by
  simp [freeTxSlots, List.getD, hp]

/-- The last of CFG's RX slots is marked (R210). -/
theorem wrap_armedRxSlots (got : List Handle) : ∀ p < got.length,
    ((armedRxSlots got).getD p RxSlot.empty).wrap = decide (p + 1 = got.length) := by
  induction got with
  | nil => exact fun p hp => absurd hp (Nat.not_lt_zero p)
  | cons h hs ih =>
    intro p hp
    cases p with
    | zero => cases hs <;> simp [armedRxSlots, RxSlot.armed]
    | succ p =>
      have := ih p (by simpa using hp)
      simpa [armedRxSlots] using this

/-- The rings that CFG constructs have their last slots marked (R65, R210). -/
theorem wrapAtEnd_construct (s : State) (t : BitVec 16) (got : List Handle) (v : Word) :
    WrapAtEnd ((s.construct t got).retOk v) := by
  have hn : ((s.construct t got).retOk v).nTx = t.toNat := by
    show (freeTxSlots t.toNat).length = _
    simp [freeTxSlots]
  have hr : ((s.construct t got).retOk v).nRx = got.length := armedRxSlots_length got
  unfold WrapAtEnd
  rw [hn, hr]
  exact ⟨fun p hp => wrap_freeTxSlots hp, fun p hp => wrap_armedRxSlots got p hp⟩

/-- CFG keeps the shape, or makes the rings anew (R210, R211). -/
theorem State.configure_shape (s : State) : ShapeKept s s.configure := by
  rcases s.configure_answers with ⟨code, h⟩ | ⟨hc, -, -, -, got, u, hu, hans⟩
  · exact h ▸ .of_same rfl rfl rfl rfl
  obtain ⟨env, ds, n, hframe⟩ := State.allocateUpTo_frame s.cfgRxCount.toNat s
  rw [hu] at hframe
  subst hframe
  rcases hans with ⟨-, h⟩ | h <;> rw [h]
  · have hrest : ∀ w : State, (w.construct s.cfgTxCount got).params = w.params ∧
        (w.construct s.cfgTxCount got).halt = w.halt := fun w => by
      obtain ⟨sp, h⟩ := State.setSpans_spec got 0#16 w
      rw [State.construct, h]
      exact ⟨rfl, rfl⟩
    obtain ⟨hparams, hhalt⟩ := hrest { s with draws := ds, drawNo := n, env := env }
    exact ⟨hparams, .inl hhalt, .inr ⟨hc, wrapAtEnd_construct _ _ _ _⟩⟩
  · obtain ⟨env', h⟩ := State.releaseAll_frame got { s with draws := ds, drawNo := n, env := env }
    rw [h]
    exact .of_same rfl rfl rfl rfl

/-- The fill step of TX_SEND keeps the wrap bits (R230). -/
theorem State.fillChain_shape (s : State) (k : Nat) : ∃ slots,
    s.fillChain k = { s with tx := { s.tx with slots := slots } } ∧
    slots.map TxSlot.wrap = s.tx.slots.map TxSlot.wrap := by
  suffices h : ∀ n, ∃ slots, (List.range n).foldl (fun s i => s.fillSlot k i) s =
      { s with tx := { s.tx with slots := slots } } ∧ slots.map TxSlot.wrap = s.tx.slots.map TxSlot.wrap from h k
  intro n
  induction n with
  | zero => exact ⟨s.tx.slots, rfl, rfl⟩
  | succ n ih =>
    obtain ⟨slots, he, hw⟩ := ih
    rw [List.range_succ, List.foldl_append, he]
    refine ⟨_, rfl, (State.txWraps_setTx (s := { s with tx := { s.tx with slots := slots } }) ?_).trans hw⟩
    rfl

/-- TX_SEND's first step keeps the shape (R230). -/
theorem State.sendStart_shape (s : State) (k : Nat) : ShapeKept s (s.sendStart k) := by
  unfold State.sendStart
  split
  · exact .of_same rfl rfl rfl rfl
  · split
    · exact .of_raise _ _ _ rfl rfl rfl rfl
    · exact .of_same rfl rfl rfl rfl
    · obtain ⟨slots, h, hw⟩ := s.fillChain_shape k
      rw [h]
      exact ⟨rfl, .inl rfl, .inl ⟨hw, rfl⟩⟩

/-- A command other than CFG keeps the shape when its own step does. -/
theorem ShapeKept.issueConfigured {s : State} {cmd : State → State} (h : ShapeKept s (cmd s)) :
    ShapeKept s (s.issueConfigured cmd) := by
  rcases s.issueConfigured_cases cmd with he | ⟨-, -, -, he⟩ | ⟨-, -, -, he⟩ <;> rw [he]
  · exact .of_same rfl rfl rfl rfl
  · exact .of_same rfl rfl rfl rfl
  · exact h

/-- Every command's first step keeps the shape. -/
theorem exec_shape {s t : State} {i : Instr} (h : exec i s = .next t) : ShapeKept s t := by
  cases i <;> simp only [exec] at h
  case irqEntry =>
    obtain ⟨irq, he⟩ := execIrqEntry_frame s
    cases he.symm.trans h
    exact .of_same rfl rfl rfl rfl
  all_goals cases h
  case cfg =>
    rcases s.issue_cases State.configure with h | ⟨-, -, h⟩ <;> rw [h]
    · exact .of_same rfl rfl rfl rfl
    · exact s.configure_shape
  case txSend k => exact .issueConfigured (s.sendStart_shape k)
  case txReclaim =>
    obtain ⟨port, service, h, -⟩ := s.reclaimStart_frame
    exact .issueConfigured (h ▸ .of_same rfl rfl rfl rfl)
  case rxPoll => exact .issueConfigured (.of_same rfl rfl rfl rfl)
  case evtDrain => exact .issueConfigured (.of_same rfl rfl rfl rfl)
  case mcJoin =>
    obtain ⟨port, mc, h, -⟩ := s.joinBucket_frame
    exact .issueConfigured (h ▸ .of_same rfl rfl rfl rfl)
  case mcLeave =>
    obtain ⟨port, mc, h, -⟩ := s.leaveBucket_frame
    exact .issueConfigured (h ▸ .of_same rfl rfl rfl rfl)

/-- An offered frame raises at most the fault of the start check (R301). -/
theorem State.offerFrame_shape (s : State) (frame : List Byte) : ShapeKept s (s.offerFrame frame) := by
  unfold State.offerFrame State.rxdStart
  simp only
  split
  · split
    · exact .of_same rfl rfl rfl rfl
    split
    · exact .of_raise _ _ _ rfl rfl rfl rfl
    · exact .of_same rfl rfl rfl rfl
    · exact .of_same rfl rfl rfl rfl
  · exact .of_same rfl rfl rfl rfl

/-- Every move of ENV keeps the shape. -/
theorem HostAnswer.shape {s t : State} {m : HostMove} (h : HostAnswer s m t) : ShapeKept s t := by
  cases h with
  | command i t h duty => exact exec_shape h
  | illegal =>
    rcases s.issue_cases (·.retErr .illegalCommand) with h | ⟨-, -, h⟩ <;> rw [h] <;> exact .of_same rfl rfl rfl rfl
  | doorbell =>
    obtain ⟨txd, h⟩ := s.ringDoorbell_frame
    exact h ▸ .of_same rfl rfl rfl rfl
  | isr => unfold State.writeIsr; split <;> exact .of_same rfl rfl rfl rfl
  | arg a => unfold State.writeArg; split <;> exact .of_same rfl rfl rfl rfl
  | offer frame h0 h1 => exact s.offerFrame_shape frame
  | intIllegal | intQueued | txBase | rxBase | ignored | read | giveBack | take | fill | readBuffer =>
    exact .of_same rfl rfl rfl rfl

/-- Every turn keeps the shape. -/
theorem TurnAnswer.shape {s t : State} {turn : Turn} (h : TurnAnswer s turn t) : ShapeKept s t := by
  cases h with
  | worker => exact s.workerStep_shape
  | interrupt =>
    obtain ⟨irq, h⟩ := s.interruptStep_frame
    exact h ▸ .of_same rfl rfl rfl rfl
  | txd =>
    obtain ⟨_, _, _, _, _, _, _, h, -, hhalt, hw⟩ := s.txdStep_effect
    rw [h] at hhalt ⊢
    exact ⟨rfl, hhalt, .inl ⟨hw, rfl⟩⟩
  | rxd =>
    obtain ⟨_, _, _, _, _, h, -, hw⟩ := s.rxdStep_effect
    exact h ▸ ⟨rfl, .inl rfl, .inl ⟨rfl, hw⟩⟩
  | host h => exact h.shape

/-- A step is a turn on the state with the turn taken from its schedule, which is no part of the block. -/
theorem step_takes_turn {s t : State} (h : step s = .next t) :
    ∃ script n turn, ({ s with script := script, turnNo := n } : State).takeTurn turn = .next t := by
  rcases step_cases h with ⟨turn, rest, -, h⟩ | ⟨-, h⟩
  · exact ⟨rest, s.turnNo, turn, h⟩
  · exact ⟨s.script, s.turnNo + 1, _, h⟩

/-- Settles O48: every slot is written with its own wrap bit, only CFG makes slots, and a configured block's CFG registers stay. -/
theorem ringShapeIsFixed : Obligations.RingShapeIsFixed := by
  intro s t h
  obtain ⟨script, n, turn, h⟩ := step_takes_turn h
  obtain ⟨hparams, -, hwraps⟩ := (takeTurn_answer h).shape
  refine ⟨hparams, fun hc => ?_, fun hend => ?_⟩
  · have hsame : SameWraps s t := hwraps.resolve_right fun hno => absurd (hc.symm.trans hno.1) (by decide)
    exact ⟨takeTurn_cfg (s := { s with script := script, turnNo := n }) h hc, hsame.nTx, hsame.nRx, hsame.txAt, hsame.rxAt⟩
  · rcases hwraps with hsame | ⟨-, hnew⟩
    · exact SameWraps.wrapAtEnd hsame hend
    · exact hnew

/-! ### After a fault -/

/-- A fault that is raised clears no fault bit (R91). -/
theorem RaisesAtMostOne.faults_stay {s t : State} (h : RaisesAtMostOne s t) : s.halt.fault &&& ~~~t.halt.fault = 0#4 := by
  have hor : ∀ a b : BitVec 4, a &&& ~~~(a ||| b) = 0#4 := by decide
  rcases h with h | ⟨bit, ring, p, h⟩ <;> rw [h]
  · exact BitVec.and_not_self _
  · exact hor _ _

/-- Nothing of the block changes: no slot, cursor, agent, register or command, but that an unconfigured block takes writes of its
ring bases (R410, assumption 25). -/
structure BlockStands (s t : State) : Prop where
  halt : t.halt = s.halt
  port : t.port = s.port
  irq : t.irq = s.irq
  args : t.args = s.args
  tx : t.tx = s.tx
  txd : t.txd = s.txd
  rx : t.rx = s.rx
  rxd : t.rxd = s.rxd
  ctr : t.ctr = s.ctr
  mc : t.mc = s.mc
  service : t.service = s.service
  span : t.buf.span = s.buf.span
  cfg : t.cfg = { s.cfg with txRingBase := t.cfg.txRingBase, rxRingBase := t.cfg.rxRingBase }

theorem BlockStands.refl (s : State) : BlockStands s s :=
  ⟨rfl, rfl, rfl, rfl, rfl, rfl, rfl, rfl, rfl, rfl, rfl, rfl, rfl⟩

/-- A halted block stands still in every turn (R410). -/
theorem TurnAnswer.blockStands {s t : State} {turn : Turn} (h : TurnAnswer s turn t) (hh : s.halted = true) :
    BlockStands s t := by
  have hagent : ∀ a : Agent, ∀ u, s.takeTurn a.turn = .next u → BlockStands s u := fun a u hu => by
    cases (takeTurn_of_halted hh a).symm.trans hu
    exact .refl s
  cases h with
  | worker => exact hagent .worker _ rfl
  | interrupt => exact hagent .interrupt _ rfl
  | txd => exact hagent .txd _ rfl
  | rxd => exact hagent .rxd _ rfl
  | host h =>
    cases h with
    | command i t h duty =>
      cases (exec_of_halted hh i).symm.trans h
      exact .refl s
    | illegal => exact (State.issue_ignored (.inl hh) _).symm ▸ .refl s
    | intIllegal hno | intQueued hno => exact absurd (hh.symm.trans hno) (by decide)
    | doorbell => simpa [State.ringDoorbell, hh] using BlockStands.refl s
    | isr => simpa [State.writeIsr, hh] using BlockStands.refl s
    | arg a => simpa [State.writeArg, hh] using BlockStands.refl s
    | offer frame => simpa [State.offerFrame, hh] using BlockStands.refl s
    | txBase | rxBase | ignored | read | giveBack | take | fill | readBuffer =>
      exact ⟨rfl, rfl, rfl, rfl, rfl, rfl, rfl, rfl, rfl, rfl, rfl, rfl, rfl⟩

/-- Settles O49: a fault is only ever raised, and once one is there every agent and every write but those to the ring bases is
guarded by it. -/
theorem faultsStickAndHalt : Obligations.FaultsStickAndHalt := by
  intro s t h
  obtain ⟨script, n, turn, h⟩ := step_takes_turn h
  have hans := takeTurn_answer h
  refine ⟨hans.shape.halt.faults_stay, fun hfault => ?_⟩
  obtain ⟨hhalt, hport, hirq, hargs, htx, htxd, hrx, hrxd, hctr, hmc, hservice, hspan, hcfg⟩ :=
    hans.blockStands (halted_of_fault hfault)
  exact ⟨hhalt, hport, hirq, hargs, htx, htxd, hrx, hrxd, hctr, hmc, hservice, hspan, hcfg,
    takeTurn_cfg (s := { s with script := script, turnNo := n }) h⟩

end Sys2Proof.Machine

/-! Family 20_memory: register accesses, addresses, what the DMA agents write, commit atomicity, the ownership of slots, and a
received frame's bytes. -/

namespace Sys2Proof.Machine

/-! ### Register accesses, and addresses in ARG -/

/-- Settles O5: ENV's move checks the width and the alignment of an access before anything else. -/
theorem otherAccessesAreStuck : Obligations.OtherAccessesAreStuck := by
  intro s off width v rest hbad
  have hno : accessAdmitted off width = false := by simpa [accessAdmitted] using hbad
  refine ⟨fun h => ?_, fun h => ?_⟩ <;>
    simp only [step_of_script h, State.takeTurn, State.hostMove, hno, Bool.not_false, if_true]

/-- The address that a command reads from the words `W0` and `W1` of `a` is `a` (R106). -/
theorem argAddr_of_addrWords {s : State} {a : MacAddr} (h0 : s.arg 0 = a.extractLsb' 0 32)
    (h1 : s.arg 1 = (a.extractLsb' 32 16).setWidth 32) : s.argAddr 0 = a := by
  rw [State.argAddr, h1, h0, BitVec.extractLsb'_setWidth_of_le (by decide), BitVec.extractLsb'_eq_self]
  exact BitVec.extractLsb'_append_extractLsb' (w := 16) (len := 32)

/-- An address written byte by byte is its upper two bytes in front of its lower four (R106). -/
theorem macAddr_eq_append (a0 a1 a2 a3 a4 a5 : Byte) :
    macAddr a0 a1 a2 a3 a4 a5 = (a5 ++ a4) ++ (a3 ++ a2 ++ a1 ++ a0) := by
  refine BitVec.eq_of_toNat_eq ?_
  unfold macAddr
  simp only [BitVec.toNat_append, Nat.shiftLeft_or_distrib, ← Nat.shiftLeft_add, Nat.lor_assoc]

/-- The words `W0` and `W1` of an address written byte by byte (R106, R160). -/
theorem addrWords_macAddr (a0 a1 a2 a3 a4 a5 : Byte) :
    addrWords (macAddr a0 a1 a2 a3 a4 a5) = [a3 ++ a2 ++ a1 ++ a0, 0#16 ++ a5 ++ a4] := by
  rw [addrWords, macAddr_eq_append]
  have hlow : ((a5 ++ a4) ++ (a3 ++ a2 ++ a1 ++ a0)).extractLsb' 0 32 = a3 ++ a2 ++ a1 ++ a0 :=
    BitVec.extractLsb'_append_eq_right
  have hhigh : ((a5 ++ a4) ++ (a3 ++ a2 ++ a1 ++ a0)).extractLsb' 32 16 = a5 ++ a4 :=
    BitVec.extractLsb'_append_eq_left
  have hzero : (a5 ++ a4).setWidth 32 = 0#16 ++ a5 ++ a4 := by
    rw [BitVec.setWidth_eq_append (by decide), BitVec.append_assoc]
  exact congrArg₂ (fun x y => [x, y]) hlow ((congrArg (·.setWidth 32) hhigh).trans hzero)

/-- Settles O60: `W0` is the lower four bytes and `W1` the upper two, and put together again they are the address. -/
theorem addressPacking : Obligations.AddressPacking := by
  refine ⟨fun s a h0 h1 => argAddr_of_addrWords ?_ ?_, addrWords_macAddr⟩
  · rw [State.arg, h0]
    rfl
  · rw [State.arg, h1]
    rfl

/-! ### What the DMA agents write -/

/-- Fragment `f` of a frame in buffers of `cap` bytes: `cap` bytes of it, or what is left (R303). -/
def frameFragment (cap : Nat) (frame : List Byte) (f : Nat) : List Byte := (frame.drop (f * cap)).take cap

/-- RXD's write step in full: the slot at `rxd.idx`, the bytes of its buffer, RXD's registers, and RX_DONE after the last fragment
(R303, R304). -/
theorem State.rxdWrite_eq (s : State) (frame : List Byte) : s.rxdWrite frame =
    { s.setRx (ringPos s.nRx s.rxd.idx 0) (s.writtenSlot frame) with
      irq.isr := if s.rxd.frag.toNat + 1 = s.rxd.m.toNat then s.irq.isr ||| rxDoneBit else s.irq.isr
      rxd := s.writtenRxd
      buf.data := Memory.writeBytes s.buf.data (s.rxAt (ringPos s.nRx s.rxd.idx 0)).buf 0
        (frameFragment s.cfg.cap.toNat frame s.rxd.frag.toNat) } := by
  unfold State.rxdWrite State.writtenRxd State.writtenSlot frameFragment
  by_cases hlast : s.rxd.frag.toNat + 1 = s.rxd.m.toNat
  · simp only [hlast, decide_true, if_true]
    rw [adv, State.nRx_setRx]
    rfl
  · simp only [hlast, decide_false, if_false, Bool.false_eq_true]
    rw [adv, State.nRx_setRx]
    rfl

/-- RXD's step: nothing, or the write of a fragment of the frame it has taken (R300, R303). -/
theorem State.rxdStep_cases (s : State) : s.rxdStep = s ∨
    ∃ frame, s.DmaEnabled ∧ s.rxd.frame = some frame ∧ s.rxdStep = s.rxdWrite frame := by
  unfold State.rxdStep
  split
  · exact .inl rfl
  next hon =>
  split
  · exact .inl rfl
  next frame hf => exact .inr ⟨frame, by simpa using hon, hf, rfl⟩

/-- TXD's step writes no slot, or, completing a frame, the slot at `txd.idx` (R262, R264). -/
theorem State.txdStep_slots (s : State) : s.txdStep.tx.slots = s.tx.slots ∨
    s.DmaEnabled ∧ s.txd.state = .completing ∧
      ∃ d, s.txdStep.tx.slots = s.tx.slots.set (ringPos s.nTx s.txd.idx 0) d := by
  unfold State.txdStep
  split
  · exact .inl rfl
  next hon =>
  split
  · exact .inl rfl
  · split
    · unfold State.txdSend
      split <;> exact .inl rfl
    · exact .inl rfl
  next hstate =>
  obtain ⟨ds, n, h⟩ := s.draw_spec
  refine .inr ⟨by simpa using hon, hstate, ?_⟩
  unfold State.txdComplete
  simp only [h]
  split <;> exact ⟨_, rfl⟩

/-- A write of one TX slot leaves the others. -/
theorem OtherTxSlotsSame.of_set {s t : State} {d : TxSlot} {i : Index}
    (h : t.tx.slots = s.tx.slots.set (ringPos s.nTx i 0) d) : OtherTxSlotsSame t s i 1 := by
  intro p hp
  rw [State.txAt, h]
  exact s.txAt_setTx_ne d (hp 0 Nat.one_pos)

/-- A write of one RX slot leaves the others. -/
theorem OtherRxSlotsSame.of_set {s t : State} {d : RxSlot} {i : Index}
    (h : t.rx.slots = s.rx.slots.set (ringPos s.nRx i 0) d) : OtherRxSlotsSame t s i 1 := by
  intro p hp
  rw [State.rxAt, h]
  exact s.rxAt_setRx_ne d (hp 0 Nat.one_pos)

/-- TXD's step leaves every TX slot but the one at `txd.idx` (R262, R264). -/
theorem State.txdStep_otherSlots (s : State) : OtherTxSlotsSame s.txdStep s s.txd.idx 1 := by
  rcases s.txdStep_slots with h | ⟨-, -, d, h⟩
  · intro p _
    simp only [State.txAt, h]
  · exact .of_set h

/-- RXD's step leaves every RX slot but the one at `rxd.idx` (R303). -/
theorem State.rxdStep_otherSlots (s : State) : OtherRxSlotsSame s.rxdStep s s.rxd.idx 1 := by
  rcases s.rxdStep_cases with h | ⟨frame, -, -, h⟩
  · exact fun p _ => by rw [h]
  · exact .of_set (by rw [h, State.rxdWrite_eq]; rfl)

/-- RXD's step leaves every byte but the first `CAP` of the buffer of the slot at `rxd.idx` (R303). -/
theorem State.rxdStep_otherBytes (s : State) {a : Nat}
    (ha : ∀ j < s.cfg.cap.toNat, a ≠ bufKey (s.rxAt (ringPos s.nRx s.rxd.idx 0)).buf j) :
    Memory.read s.rxdStep.buf.data a = Memory.read s.buf.data a := by
  rcases s.rxdStep_cases with h | ⟨frame, -, -, h⟩
  · rw [h]
  · rw [h, State.rxdWrite_eq]
    refine Memory.read_writeBytes_other _ _ _ _ _ fun i hi => ?_
    rw [Nat.zero_add]
    exact ha i (Nat.lt_of_lt_of_le hi (List.length_take_le _ _))

/-- Settles O40: the registers of the other agents are none of those that a DMA step writes, and of the slots and bytes each agent
writes only those at its own index. -/
theorem dmaStepsFrame : Obligations.DmaStepsFrame := by
  intro s
  obtain ⟨halt, isr, slots, txd, wire, ds, n, htx, -⟩ := s.txdStep_effect
  obtain ⟨isr', slots', rxd, h, bytes, hrx, -⟩ := s.rxdStep_effect
  refine ⟨fun t ht => ?_, by rw [htx], by rw [htx], by rw [htx], s.txdStep_otherSlots, by rw [hrx], by rw [hrx], by rw [hrx],
    by rw [hrx], by rw [hrx], s.rxdStep_otherSlots, fun a ha => s.rxdStep_otherBytes ha⟩
  rcases ht with rfl | rfl
  · rw [htx]
    exact ⟨rfl, rfl, rfl, rfl, rfl, rfl, rfl, rfl, rfl, rfl, rfl, rfl, rfl, rfl, rfl, rfl, rfl⟩
  · rw [hrx]
    exact ⟨rfl, rfl, rfl, rfl, rfl, rfl, rfl, rfl, rfl, rfl, rfl, rfl, rfl, rfl, rfl, rfl, rfl⟩

/-! ### Commit atomicity -/

/-- The slot of a TX_SEND's fragment `q` is `tx.in_use + q` places after `tx.release` (R204, R230). -/
theorem TxSound.sendSlot_eq {s : State} {d : Nat} (hs : TxSound s d) (q : Nat) :
    s.sendSlot q = ringPos s.nTx s.tx.release (s.tx.inUse.toNat + q) :=
  ringPos_add _ _ _ _ hs.current_eq

/-- Of the chain that a TX_SEND commits, fragment `q` is owned when its ownership bit is written: the commit goes from the last
fragment down (R232). -/
theorem TxSound.owned_sendSlot {s : State} {d k i q : Nat} (hs : TxSound s d) (hw : s.port.w = .txCommit k i) (hq : q < k) :
    (s.txAt (s.sendSlot q)).owned = decide (i < q) := by
  have hfilled := hs.filled_slots q (by rw [hw]; exact hq)
  rw [hw] at hfilled
  rw [hs.sendSlot_eq]
  exact hfilled.2.1

/-- TXD at the first slot of the chain being committed has completed all frames before it (R262, R264). -/
theorem TxSound.not_completing {s : State} {d k i : Nat} (hs : TxSound s d) (hw : s.port.w = .txCommit k i)
    (hidx : s.txd.idx.toNat = s.sendSlot 0) : s.txd.state ≠ .completing := by
  intro hstate
  obtain ⟨hpos, hle, -⟩ := hs.completing hstate
  have hroom := hs.room
  have hik := hs.commit_lt k i hw
  rw [hw, WState.filled] at hroom
  rw [hs.idx_eq, hs.sendSlot_eq] at hidx
  have := ringPos_inj s.tx.release (by omega) (by omega) hidx
  omega

/-- A running or idle TXD that finds its slot not owned goes IDLE (R261). -/
theorem State.txdStep_of_not_owned {s : State} (hc : s.cfg.configured = true) (hstate : s.txd.state ≠ .completing)
    (hown : (s.txAt (ringPos s.nTx s.txd.idx 0)).owned = false) :
    s.txdStep = if s.halted then s else { s with txd := { s.txd with state := .idle } } := by
  unfold State.txdStep
  cases hh : s.halted
  · cases ht : s.txd.state
    case idle =>
      simp only [hc, Bool.not_true, Bool.or_self, Bool.false_eq_true, if_false, ← ht]
    case running => simp [hc, hown]
    case completing => exact absurd ht hstate
  · rfl

/-- After the last ownership write every slot of the chain is owned (R230, R232). -/
theorem TxSound.owned_after_commit {s : State} {d k q : Nat} (hs : TxSound s d) (hw : s.port.w = .txCommit k 0) (hq : q < k)
    (hh : s.halted = false) : (s.workerStep.txAt (s.sendSlot q)).owned = true := by
  cases q with
  | zero =>
    have hlt : s.sendSlot 0 < s.nTx := ringPos_lt hs.size.pos _ _
    have hstep : s.workerStep = s.sendCommit k 0 := by simp [State.workerStep, hh, hw]
    rw [hstep]
    exact congrArg TxSlot.owned (s.txAt_setTx_self { s.txAt (s.sendSlot 0) with owned := true } hlt)
  | succ q =>
    have hown : (s.txAt (s.sendSlot (q + 1))).owned = true := by
      rw [hs.owned_sendSlot hw hq]
      exact decide_eq_true (Nat.succ_pos q)
    rw [s.workerStep_frame.owned _ hown]
    exact hown

/-- Settles O55: the committed fragments are those after the one written next, and TXD at the chain's first slot finds it not
owned. -/
theorem chainIsSeenWholeOrNotAtAll : Obligations.ChainIsSeenWholeOrNotAtAll := by
  intro s k i hc hs hw
  obtain ⟨d, hd⟩ := (txRingOk_configured hc).mp hs
  have hfirst : (s.txAt (s.sendSlot 0)).owned = false := by
    rw [hd.owned_sendSlot hw (Nat.lt_of_le_of_lt (Nat.zero_le i) (hd.commit_lt k i hw))]
    exact decide_eq_false (Nat.not_lt_zero i)
  refine ⟨fun q hq => hd.owned_sendSlot hw hq, hfirst, fun hidx => ?_, fun hi q hq hh => ?_⟩
  · have hslot : ringPos s.nTx s.txd.idx 0 = s.sendSlot 0 := ringPos_add _ _ _ 0 hidx
    have hstate := hd.not_completing hw hidx
    exact ⟨hstate, State.txdStep_of_not_owned hc hstate (hslot ▸ hfirst)⟩
  · subst hi
    exact hd.owned_after_commit hw hq hh

/-! ### The ownership protocol -/

/-- Every RX slot that is hardware-owned in `s` is the same in `t`. -/
def OwnedRxSlotsSame (s t : State) : Prop := ∀ p, (s.rxAt p).owned = true → t.rxAt p = s.rxAt p

theorem OwnedRxSlotsSame.of_same {s t : State} (h : t.rx.slots = s.rx.slots) : OwnedRxSlotsSame s t :=
  fun p _ => by simp only [State.rxAt, h]

/-- A write of a software-owned slot. -/
theorem OwnedRxSlotsSame.of_set {s t : State} {q : Nat} {d : RxSlot} (hq : (s.rxAt q).owned = false)
    (h : t.rx.slots = s.rx.slots.set q d) : OwnedRxSlotsSame s t := by
  intro p hp
  have hne : p ≠ q := fun e => absurd (hq.symm.trans (e ▸ hp)) (by decide)
  rw [State.rxAt, h]
  exact s.rxAt_setRx_ne d hne

/-- A visit of RX_POLL writes the slot at `rx.current` only if it is software-owned (R280, R281). -/
theorem OwnedRxSlotsSame.pollVisit (s : State) (n : Nat) : OwnedRxSlotsSame s (s.pollVisit n) := by
  rcases s.pollVisit_answers n with ⟨ds, k, v, h⟩ | h | ⟨hown, -, hnext⟩
  · exact h ▸ .of_same rfl
  · exact h ▸ .of_same rfl
  · have hlink : s.linkSlot.rx.slots =
        s.rx.slots.set (ringPos s.nRx s.rx.current 0) { s.rxFromCurrent 0 with buf := 0#32 } := rfl
    refine .of_set hown (Eq.trans ?_ hlink)
    rcases hnext with ⟨-, h⟩ | ⟨-, h⟩ <;> rw [h]
    · obtain ⟨-, -, -, hrx⟩ := s.linkSlot.endOfFrame_shape n (ringPos s.nRx s.rx.current 0) (s.rxFromCurrent 0).len
      rw [hrx]
    · rfl

/-- A slot of the chain that waits for its refill is software-owned (R285, R288). -/
theorem RxSound.chainSlot_not_owned {s : State} {a f : Nat} (hs : RxSound s a) (hrefill : Refilling s f) :
    (s.rxAt (s.chainSlot f)).owned = false := by
  obtain ⟨hf, hempty, -⟩ := hrefill
  have hle := hs.chain_le
  have hpos := hs.size.pos
  rw [hs.chainSlot_eq hf]
  exact (hs.empty_slots _ (by omega) (by omega)).2

/-- W's re-arming writes are to slots of the chain that wait for their refill (R285, R288). -/
theorem RxSound.refilling {s : State} {a f : Nat} (hs : RxSound s a)
    (hw : (∃ n fresh len, s.port.w = .pollRearm n f fresh len) ∨ ∃ n, s.port.w = .pollRecycle n f) : Refilling s f := by
  rcases hw with ⟨n, fresh, len, hw⟩ | ⟨n, hw⟩
  · exact ⟨(hs.rearm n f fresh len hw).1, by simp only [State.emptySlots, hw], by simp only [State.openFragments, hw]⟩
  · exact ⟨hs.recycle n f hw, by simp only [State.emptySlots, hw], by simp only [State.openFragments, hw]⟩

/-- On a sound RX ring W's step writes no hardware-owned RX slot (R118). -/
theorem RxSound.workerStep_ownedSlots {s : State} {a : Nat} (hs : RxSound s a) : OwnedRxSlotsSame s s.workerStep := by
  unfold State.workerStep
  split
  · exact .of_same rfl
  split
  · exact .of_same rfl
  · exact .of_same rfl
  · next k i _ => cases i <;> exact .of_same rfl
  · obtain ⟨txd, h⟩ := s.wakeTxd_frame
    rw [State.sendDoorbell, h]
    exact .of_same rfl
  · next more count _ =>
    rcases s.reclaimVisit_answers more count with h | h | ⟨port, service, -, h | ⟨p, -, h⟩⟩ <;> rw [h] <;>
      exact .of_same rfl
  · exact .pollVisit s _
  · next n f fresh len hw =>
    have hown := hs.chainSlot_not_owned (hs.refilling (.inl ⟨n, fresh, len, hw⟩))
    cases fresh with
    | nil => exact .of_same rfl
    | cons h rest =>
      simp only [State.pollRearm]
      split <;> exact .of_set hown rfl
  · next n f hw =>
    have hown := hs.chainSlot_not_owned (hs.refilling (.inr ⟨n, hw⟩))
    simp only [State.pollRecycle]
    split <;> exact .of_set hown rfl

/-- A command other than CFG, whose own step leaves the receive ring. -/
theorem State.issueConfigured_rx {s : State} {cmd : State → State} (h : (cmd s).rx = s.rx) :
    (s.issueConfigured cmd).rx = s.rx := by
  rcases s.issueConfigured_cases cmd with he | ⟨-, -, -, he⟩ | ⟨-, -, -, he⟩ <;> rw [he]
  · rfl
  · exact h

/-- On a configured block no command writes the receive ring in its first step. -/
theorem exec_rx {s t : State} {i : Instr} (hc : s.cfg.configured = true) (h : exec i s = .next t) : t.rx = s.rx := by
  cases i <;> simp only [exec] at h
  case irqEntry =>
    obtain ⟨irq, he⟩ := execIrqEntry_frame s
    cases he.symm.trans h
    rfl
  all_goals cases h
  case cfg =>
    rcases s.issue_cases State.configure with h | ⟨-, -, h⟩ <;> rw [h]
    rw [State.configure, if_pos hc]
    rfl
  case txSend k =>
    obtain ⟨slots, halt, port, h, -⟩ := s.sendStart_rest k
    exact State.issueConfigured_rx (by rw [h])
  case txReclaim =>
    obtain ⟨port, service, h, -⟩ := s.reclaimStart_frame
    exact State.issueConfigured_rx (by rw [h])
  case rxPoll => exact State.issueConfigured_rx rfl
  case evtDrain => exact State.issueConfigured_rx rfl
  case mcJoin =>
    obtain ⟨port, mc, h, -⟩ := s.joinBucket_frame
    exact State.issueConfigured_rx (by rw [h])
  case mcLeave =>
    obtain ⟨port, mc, h, -⟩ := s.leaveBucket_frame
    exact State.issueConfigured_rx (by rw [h])

/-- Without a TX ring no TX slot is hardware-owned. -/
theorem State.txAt_of_no_slots {s : State} (h : s.tx.slots = []) (p : Nat) : (s.txAt p).owned = false := by
  rw [State.txAt, h]
  rfl

/-- Without an RX ring no RX slot is hardware-owned. -/
theorem State.rxAt_of_no_slots {s : State} (h : s.rx.slots = []) (p : Nat) : (s.rxAt p).owned = false := by
  rw [State.rxAt, h]
  rfl

/-- On sound rings W changes no hardware-owned slot, neither in a command's first step nor in a further one (R118). -/
theorem worker_keeps_owned_slots {s t : State} (htx : TxRingOk s) (hrx : RxRingOk s)
    (ht : t = s.workerStep ∨ ∃ i, exec i s = .next t) (p : Nat) :
    ((s.txAt p).owned = true → t.txAt p = s.txAt p) ∧ ((s.rxAt p).owned = true → t.rxAt p = s.rxAt p) := by
  cases hc : s.cfg.configured with
  | false =>
    have hno := State.txAt_of_no_slots ((txRingOk_unconfigured hc).mp htx).1 p
    have hno' := State.rxAt_of_no_slots ((rxRingOk_unconfigured hc).mp hrx).1 p
    exact ⟨fun h => absurd (hno.symm.trans h) (by decide), fun h => absurd (hno'.symm.trans h) (by decide)⟩
  | true =>
    obtain ⟨a, ha⟩ := (rxRingOk_configured hc).mp hrx
    rcases ht with rfl | ⟨i, h⟩
    · exact ⟨s.workerStep_frame.owned p, ha.workerStep_ownedSlots p⟩
    · exact ⟨(exec_frame h).owned hc p, fun _ => by simp only [State.rxAt, exec_rx hc h]⟩

/-- TXD completes a frame in a slot that it owns (R262, R264). -/
theorem TxSound.owned_of_completing {s : State} {d : Nat} (hs : TxSound s d) (hstate : s.txd.state = .completing) :
    (s.txAt (ringPos s.nTx s.txd.idx 0)).owned = true := by
  obtain ⟨hpos, hle, -⟩ := hs.completing hstate
  rw [ringPos_add _ _ _ 0 hs.idx_eq]
  exact (hs.sent_slots d (Nat.le_refl d) (by omega)).2

/-- RXD writes the fragments of a frame to slots that it owns (R301, R307). -/
theorem RxSound.owned_of_taken {s : State} {a : Nat} {frame : List Byte} (hs : RxSound s a) (hf : s.rxd.frame = some frame) :
    (s.rxAt (ringPos s.nRx s.rxd.idx 0)).owned = true := by
  obtain ⟨-, -, -, hlt, hroom, -⟩ := hs.taken frame hf
  rw [ringPos_add _ _ _ 0 hs.idx_eq]
  exact (hs.armed_slots a (Nat.le_refl a) (by omega)).2

/-- On a sound TX ring TXD changes only slots that it owns (R118). -/
theorem txdStep_keeps_not_owned {s : State} (hs : TxRingOk s) {p : Nat} (hp : (s.txAt p).owned = false) :
    s.txdStep.txAt p = s.txAt p := by
  rcases s.txdStep_slots with h | ⟨⟨-, hc⟩, hstate, -⟩
  · simp only [State.txAt, h]
  · obtain ⟨d, hd⟩ := (txRingOk_configured hc).mp hs
    have hown := hd.owned_of_completing hstate
    refine s.txdStep_otherSlots p fun j hj e => ?_
    obtain rfl := Nat.lt_one_iff.mp hj
    exact absurd (hp.symm.trans (e ▸ hown)) (by decide)

/-- On a sound RX ring RXD changes only slots that it owns (R118, R305). -/
theorem rxdStep_keeps_not_owned {s : State} (hs : RxRingOk s) {p : Nat} (hp : (s.rxAt p).owned = false) :
    s.rxdStep.rxAt p = s.rxAt p := by
  rcases s.rxdStep_cases with h | ⟨frame, ⟨-, hc⟩, hf, -⟩
  · rw [h]
  · obtain ⟨a, ha⟩ := (rxRingOk_configured hc).mp hs
    have hown := ha.owned_of_taken hf
    refine s.rxdStep_otherSlots p fun j hj e => ?_
    obtain rfl := Nat.lt_one_iff.mp hj
    exact absurd (hp.symm.trans (e ▸ hown)) (by decide)

/-- Settles O56: W writes slots outside the owned zones of both rings, and TXD and RXD write the slot at their own index, which
they own, and no slot of the other ring. -/
theorem agentsWriteOnlyTheirSlots : Obligations.AgentsWriteOnlyTheirSlots := by
  refine fun s t htx hrx => ⟨fun ht p => worker_keeps_owned_slots htx hrx ht p, fun ht p => ?_⟩
  rcases ht with rfl | rfl
  · obtain ⟨_, _, _, _, _, _, _, h, -⟩ := s.txdStep_effect
    exact ⟨fun hp => txdStep_keeps_not_owned htx hp, fun _ => by rw [h]; rfl⟩
  · obtain ⟨_, _, _, _, _, h, -⟩ := s.rxdStep_effect
    exact ⟨fun _ => by rw [h]; rfl, fun hp => rxdStep_keeps_not_owned hrx hp⟩

/-! ### A received frame's bytes -/

/-- RXD is free and `frame` arrives: it needs `m` fragments, no more than the ring has slots, and the `m` slots from `rxd.idx` on
are armed with distinct buffers (R300, R301). -/
structure FrameArrives (s : State) (frame : List Byte) (m : Nat) : Prop where
  enabled : s.DmaEnabled
  free : s.rxd.frame = none
  accepted : s.rxAccepts frame = true
  length_pos : 0 < frame.length
  cap_pos : 0 < s.cfg.cap.toNat
  count : m = fragmentCount frame.length s.cfg.cap.toNat
  room : m ≤ s.nRx
  size : IsRingSize s.nRx
  idx_lt : s.rxd.idx.toNat < s.nRx
  armed : ∀ f < m, (s.rxAt (ringPos s.nRx s.rxd.idx f)).owned = true ∧ (s.rxAt (ringPos s.nRx s.rxd.idx f)).buf ≠ 0#32
  distinct : ∀ f < m, ∀ g < m, f ≠ g →
    (s.rxAt (ringPos s.nRx s.rxd.idx f)).buf ≠ (s.rxAt (ringPos s.nRx s.rxd.idx g)).buf

/-- The slot of the frame's fragment `f`, before RXD has written it. -/
def State.fragmentSlot (s : State) (f : Nat) : RxSlot := s.rxAt (ringPos s.nRx s.rxd.idx f)

/-- The slot of the frame's fragment `f` of `m` after RXD has written it (R303, R304). -/
def State.receivedSlot (s : State) (frame : List Byte) (m f : Nat) : RxSlot :=
  { buf := (s.fragmentSlot f).buf
    len := if f + 1 = m then BitVec.ofNat 16 frame.length else s.cfg.cap
    sof := decide (f = 0), eof := decide (f + 1 = m)
    wrap := (s.fragmentSlot f).wrap, owned := false }

/-- The address of byte `i` of the buffer of the frame's fragment `f`. -/
def State.fragmentKey (s : State) (f i : Nat) : Nat := bufKey (s.fragmentSlot f).buf i

/-- Buffer memory `data` holds the first `n` fragments of `frame` in their buffers, and is otherwise that of `s` (R303). -/
structure BytesReceived (s : State) (frame : List Byte) (n : Nat) (data : List Host.Cell) : Prop where
  bytes : ∀ f < n, ∀ i < s.cfg.cap.toNat, f * s.cfg.cap.toNat + i < frame.length →
    some (Memory.read data (s.fragmentKey f i)) = frame[f * s.cfg.cap.toNat + i]?
  others : ∀ a, (∀ f < n, ∀ i < s.cfg.cap.toNat, f * s.cfg.cap.toNat + i < frame.length → a ≠ s.fragmentKey f i) →
    Memory.read data a = Memory.read s.buf.data a

/-- `u` follows `s` when RXD has taken `frame` and written the first `n` of its `m` fragments (R303, R304). -/
structure Received (s : State) (frame : List Byte) (m n : Nat) (u : State) : Prop where
  rest : ∃ isr slots rxd data, u = { s with irq.isr := isr, rx.slots := slots, rxd := rxd, buf.data := data }
  nRx : u.nRx = s.nRx
  isr : u.irq.isr = if n = m then s.irq.isr ||| rxDoneBit else s.irq.isr
  taken : u.rxd.frame = if n = m then none else some frame
  frag : u.rxd.frag.toNat = n
  count : u.rxd.m.toNat = m
  idx : u.rxd.idx.toNat = ringPos s.nRx s.rxd.idx n
  written : ∀ f < n, u.rxAt (ringPos s.nRx s.rxd.idx f) = s.receivedSlot frame m f
  others : OtherRxSlotsSame u s s.rxd.idx n
  bytes : BytesReceived s frame n u.buf.data

/-- RXD takes a frame whose slots are armed (R301). -/
theorem FrameArrives.offerFrame {s : State} {frame : List Byte} {m : Nat} (ha : FrameArrives s frame m) :
    s.offerFrame frame = { s with rxd.frame := some frame, rxd.m := BitVec.ofNat 17 m, rxd.frag := 0#16 } := by
  have hall : s.checkArmed ((List.range m).map (ringPos s.nRx s.rxd.idx)) = .allArmed := by
    have harmed : ∀ p ∈ (List.range m).map (ringPos s.nRx s.rxd.idx), (s.rxAt p).owned = true ∧ (s.rxAt p).buf ≠ 0#32 :=
      fun p hp => by
        obtain ⟨f, hf, rfl⟩ := List.mem_map.mp hp
        exact ha.armed f (List.mem_range.mp hf)
    have := s.checkArmed_append harmed []
    rwa [List.append_nil] at this
  obtain ⟨hh, hc⟩ := ha.enabled
  simp only [State.offerFrame, hc, hh, ha.free, ha.accepted, Option.isNone_none, Bool.not_false, Bool.and_self, if_true,
    State.rxdStart, ← ha.count, Nat.not_lt.mpr ha.room, if_false, hall]

/-- The frame has a fragment, and its fragments' buffers have room for it (R301). -/
theorem FrameArrives.bounds {s : State} {frame : List Byte} {m : Nat} (ha : FrameArrives s frame m) :
    0 < m ∧ frame.length ≤ m * s.cfg.cap.toNat := by
  obtain ⟨hpos, -, hle⟩ := fragmentCount_bounds ha.cap_pos ha.length_pos ha.count
  exact ⟨hpos, hle⟩

/-- Before its first write step RXD has written nothing. -/
theorem FrameArrives.received_zero {s : State} {frame : List Byte} {m : Nat} (ha : FrameArrives s frame m) :
    Received s frame m 0 (s.offerFrame frame) := by
  obtain ⟨hpos, -⟩ := ha.bounds
  have hle := ha.size.le
  have hroom := ha.room
  have h0 : ¬0 = m := by omega
  rw [ha.offerFrame]
  refine ⟨⟨_, _, _, _, rfl⟩, rfl, (if_neg h0).symm, (if_neg h0).symm, rfl, ?_, (Nat.mod_eq_of_lt ha.idx_lt).symm,
    fun f hf => absurd hf (Nat.not_lt_zero f), fun _ _ => rfl,
    ⟨fun f hf => absurd hf (Nat.not_lt_zero f), fun _ _ => rfl⟩⟩
  rw [BitVec.toNat_ofNat]
  omega

/-- Two bytes of the frame lie at two addresses: in two buffers, or at two places of one. -/
theorem FrameArrives.fragmentKey_ne {s : State} {frame : List Byte} {m f g i j : Nat} (ha : FrameArrives s frame m)
    (hf : f < m) (hg : g < m) (hfg : f ≠ g) (hi : i < s.cfg.cap.toNat) (hj : j < s.cfg.cap.toNat) :
    s.fragmentKey f i ≠ s.fragmentKey g j := by
  have hne : (s.fragmentSlot f).buf.toNat ≠ (s.fragmentSlot g).buf.toNat :=
    fun e => ha.distinct f hf g hg hfg (BitVec.eq_of_toNat_eq e)
  have hcap := s.cfg.cap.isLt
  simp only [State.fragmentKey, bufKey]
  omega

/-- Byte `i` of fragment `f` is byte `f * CAP + i` of the frame (R303). -/
theorem getElem?_frameFragment {cap f i : Nat} (frame : List Byte) (hi : i < cap) :
    (frameFragment cap frame f)[i]? = frame[f * cap + i]? := by
  rw [frameFragment, List.getElem?_take_of_lt hi, List.getElem?_drop]

/-- A byte of a fragment is a byte of the frame. -/
theorem lt_frameFragment_length {cap f i : Nat} {frame : List Byte} :
    i < (frameFragment cap frame f).length ↔ i < cap ∧ f * cap + i < frame.length := by
  simp only [frameFragment, List.length_take, List.length_drop]
  omega

/-- The write of the next fragment. -/
theorem FrameArrives.bytes_succ {s : State} {frame : List Byte} {m n : Nat} {data : List Host.Cell}
    (ha : FrameArrives s frame m) (hn : n < m) (hd : BytesReceived s frame n data) :
    BytesReceived s frame (n + 1)
      (Memory.writeBytes data (s.fragmentSlot n).buf 0 (frameFragment s.cfg.cap.toNat frame n)) := by
  refine ⟨fun f hf i hi hlen => ?_, fun a hother => ?_⟩
  · rcases Nat.lt_succ_iff_lt_or_eq.mp hf with hf | rfl
    · rw [Memory.read_writeBytes_other, hd.bytes f hf i hi hlen]
      intro j hj
      rw [Nat.zero_add]
      exact ha.fragmentKey_ne (by omega) hn (by omega) hi (lt_frameFragment_length.mp hj).1
    · have hin := lt_frameFragment_length.mpr ⟨hi, hlen⟩
      have hread := Memory.read_writeBytes_same data (ha.armed f hn).2 0 _ i hin
      rw [Nat.zero_add] at hread
      rw [State.fragmentKey, State.fragmentSlot, hread, ← List.getElem?_eq_getElem hin, getElem?_frameFragment frame hi]
  · rw [Memory.read_writeBytes_other, hd.others a fun f hf => hother f (by omega)]
    intro i hi
    obtain ⟨hcap, hlen⟩ := lt_frameFragment_length.mp hi
    rw [Nat.zero_add]
    exact hother n (Nat.lt_succ_self n) i hcap hlen

/-- RXD's write step writes the next fragment. -/
theorem FrameArrives.received_succ {s u : State} {frame : List Byte} {m n : Nat} (ha : FrameArrives s frame m)
    (hn : n < m) (hu : Received s frame m n u) : Received s frame m (n + 1) u.rxdStep := by
  have hm := ha.room
  have hsize := ha.size.le
  have hframe : u.rxd.frame = some frame := hu.taken.trans (if_neg (by omega))
  have hisr : u.irq.isr = s.irq.isr := hu.isr.trans (if_neg (by omega))
  have hpos : ringPos u.nRx u.rxd.idx 0 = ringPos s.nRx s.rxd.idx n := by
    rw [hu.nRx]
    exact ringPos_add _ _ _ 0 hu.idx
  have hfresh : ∀ f < n, ringPos s.nRx s.rxd.idx n ≠ ringPos s.nRx s.rxd.idx f := fun f hf e => by
    have := ringPos_inj s.rxd.idx (by omega) (by omega) e
    omega
  have hslot : u.rxAt (ringPos s.nRx s.rxd.idx n) = s.fragmentSlot n := hu.others _ hfresh
  have hcfg : u.cfg = s.cfg := by
    obtain ⟨_, _, _, _, h⟩ := hu.rest
    rw [h]
  have hstep : u.rxdStep = u.rxdWrite frame := by
    obtain ⟨_, _, _, _, h⟩ := hu.rest
    obtain ⟨hh, hc⟩ := ha.enabled
    have hh' : u.halted = false := by rw [h]; exact hh
    simp [State.rxdStep, hh', hcfg, hc, hframe]
  have hwritten : u.writtenSlot frame = s.receivedSlot frame m n := by
    simp only [State.writtenSlot, State.receivedSlot, hpos, hslot, hu.frag, hu.count, hcfg]
  have hlt : ringPos s.nRx s.rxd.idx n < u.nRx := hu.nRx ▸ ringPos_lt ha.size.pos _ _
  rw [hstep, State.rxdWrite_eq, hpos, hwritten, hslot, hu.frag, hu.count, hisr, hcfg]
  refine ⟨?_, (u.nRx_setRx _ _).trans hu.nRx, rfl, ?_, ?_, hu.count, ?_, fun f hf => ?_, fun p hp => ?_,
    ha.bytes_succ hn hu.bytes⟩
  · obtain ⟨_, _, _, _, h⟩ := hu.rest
    rw [h]
    exact ⟨_, _, _, _, rfl⟩
  · simp only [State.writtenRxd, hu.frag, hu.count, hframe]
  · show (u.rxd.frag + 1#16).toNat = n + 1
    rw [BitVec.toNat_add, hu.frag, BitVec.toNat_ofNat]
    omega
  · show (adv u.nRx u.rxd.idx).toNat = _
    rw [hu.nRx, adv_eq_ringPos ha.size _ (hu.idx ▸ ringPos_lt ha.size.pos _ _)]
    exact ringPos_add _ _ _ _ hu.idx
  · rcases Nat.lt_succ_iff_lt_or_eq.mp hf with hf | rfl
    · exact (u.rxAt_setRx_ne _ (hfresh f hf).symm).trans (hu.written f hf)
    · exact u.rxAt_setRx_self _ hlt
  · exact (u.rxAt_setRx_ne _ (hp n (Nat.lt_succ_self n))).trans (hu.others p fun f hf => hp f (by omega))

/-- After `n` write steps RXD has written `n` fragments. -/
theorem FrameArrives.received {s : State} {frame : List Byte} {m n : Nat} (ha : FrameArrives s frame m) (hn : n ≤ m) :
    Received s frame m n (State.rxdStep^[n] (s.offerFrame frame)) := by
  induction n with
  | zero => exact ha.received_zero
  | succ n ih =>
    rw [Function.iterate_succ_apply']
    exact ha.received_succ hn (ih (by omega))

/-- Settles O20: by induction on the write steps, each of which writes one fragment, its slot and no other. -/
theorem receivedFrameLiesInItsBuffers : Obligations.ReceivedFrameLiesInItsBuffers := by
  intro s frame m hon hfree hacc hpos _ hcap hm hroom hsize hidx harmed hdistinct
  have ha : FrameArrives s frame m := ⟨hon, hfree, hacc, hpos, hcap, hm, hroom, hsize, hidx, harmed, hdistinct⟩
  have hu := ha.received (Nat.le_refl m)
  obtain ⟨isr, slots, rxd, data, hrest⟩ := hu.rest
  refine ⟨_, rfl, fun j hj => ?_, fun a hother => hu.bytes.others a fun f _ i hi hlen => ?_, hu.written, hu.others,
    hu.taken.trans (if_pos rfl), hu.idx, hu.isr.trans (if_pos rfl), ?_⟩
  · have hf : j / s.cfg.cap.toNat < m := Nat.div_lt_of_lt_mul (Nat.mul_comm _ _ ▸ Nat.lt_of_lt_of_le hj ha.bounds.2)
    have hjoin : j / s.cfg.cap.toNat * s.cfg.cap.toNat + j % s.cfg.cap.toNat = j := Nat.div_add_mod' _ _
    have hbyte := hu.bytes.bytes _ hf _ (Nat.mod_lt j hcap) (hjoin.symm ▸ hj)
    rwa [hjoin] at hbyte
  · have hother := hother _ hlen
    rw [Nat.mul_comm, Nat.mul_add_div hcap, Nat.div_eq_of_lt hi, Nat.mul_add_mod, Nat.mod_eq_of_lt hi] at hother
    exact hother
  · rw [hrest]
    exact ⟨rfl, rfl, rfl, rfl, rfl, rfl, rfl, rfl, rfl⟩

end Sys2Proof.Machine

/-! Family 30_encoding: the command words of the two ports, illegal words, and the descriptor images. -/

namespace Sys2Proof.Machine

/-! ### Command words -/

/-- A word is its fields `RES`, `K` and `OP` (R140). -/
theorem append_fields (w : Word) : resField w ++ kField w ++ opField w = w := by
  have hhigh : resField w ++ kField w = w.extractLsb' 8 24 := BitVec.extractLsb'_append_extractLsb'_eq_extractLsb' rfl
  rw [hhigh]
  exact BitVec.extractLsb'_append_extractLsb' (w := 24) (len := 8)

/-- TX_SEND's word, field by field (R140, R143). -/
theorem encode_txSend (k : Nat) : encode (.txSend k) = 0#16 ++ BitVec.ofNat 8 k ++ 0x02#8 := by
  rw [← append_fields (encode (.txSend k)), resField_txSend, kField_txSend, opField_txSend]

/-- The worker commands are the OPs 0x01 to 0x07 (R141). -/
theorem workerOp_range {op k : Nat} {i : Instr} (h : workerOp op k = some i) : 0 < op ∧ op < 8 := by
  unfold workerOp at h
  split at h <;> cases h <;> decide

/-- A command read from an eight-bit `K` is well-formed (R143). -/
theorem workerOp_wf {op k : Nat} {i : Instr} (h : workerOp op k = some i) (hk : k ≤ maxChain) : i.wf = true := by
  unfold workerOp at h
  split at h <;> cases h
  case h_2 => exact decide_eq_true hk
  all_goals rfl

/-- The word of a worker command has the OP and the `K` that the command is read from, and `RES` 0 (R140, R141). -/
theorem encode_of_workerOp {op : Nat} {k : BitVec 8} {i : Instr} (h : workerOp op k.toNat = some i)
    (hk : op = 0x02 ∨ k = 0#8) : encode i = 0#16 ++ k ++ BitVec.ofNat 8 op := by
  unfold workerOp at h
  split at h <;> cases h
  case h_2 => rw [encode_txSend, BitVec.ofNat_toNat, BitVec.setWidth_eq]
  all_goals
    rw [hk.resolve_left (by decide)]
    rfl

/-- A word is legal on `CMD` if and only if its OP is a worker command's, `RES` is 0, and `K` is 0 but for TX_SEND (R144). -/
theorem decodeWorker_eq_ok_iff {w : Word} {i : Instr} : decodeWorker w = .ok i ↔
    workerOp (opField w).toNat (kField w).toNat = some i ∧ resField w = 0#16 ∧ (opField w = 0x02#8 ∨ kField w = 0#8) := by
  have hstray : ¬(opField w ≠ 0x02#8 ∧ kField w ≠ 0#8) ↔ opField w = 0x02#8 ∨ kField w = 0#8 := by tauto
  unfold decodeWorker
  rw [← hstray]
  cases workerOp (opField w).toNat (kField w).toNat with
  | none => simp
  | some j =>
    by_cases hres : resField w = 0#16
    · by_cases hk : opField w ≠ 0x02#8 ∧ kField w ≠ 0#8 <;> simp [hres, hk]
    · simp [hres]

/-- The one word that is legal on `INTCMD` is IRQ_ENTRY's (R144). -/
theorem decodeInterrupt_eq_ok_iff {w : Word} {i : Instr} :
    decodeInterrupt w = .ok i ↔ w = 0x00000008#32 ∧ i = .irqEntry := by
  unfold decodeInterrupt
  by_cases h : w = 0x00000008#32
  · simp [h, eq_comm]
  · rw [if_neg h]
    split
    · simp [h]
    · split <;> simp [h]

/-- The word of a well-formed command is read back on its port (R140, R144). -/
theorem decode_encode {i : Instr} (hwf : i.wf = true) : decode i.port (encode i) = .ok i := by
  cases i
  case txSend k =>
    have hk : k ≤ maxChain := of_decide_eq_true hwf
    have hkField : (BitVec.ofNat 8 k).toNat = k := Nat.mod_eq_of_lt (Nat.lt_succ_of_le hk)
    refine decodeWorker_eq_ok_iff.mpr ⟨?_, resField_txSend k, .inl (opField_txSend k)⟩
    rw [opField_txSend, kField_txSend, hkField]
    rfl
  all_goals rfl

/-- A word that is legal on `CMD` is the word of a well-formed command (R140, R144). -/
theorem encode_of_decodeWorker {w : Word} {i : Instr} (h : decodeWorker w = .ok i) : encode i = w ∧ i.wf = true := by
  obtain ⟨hop, hres, hk⟩ := decodeWorker_eq_ok_iff.mp h
  refine ⟨?_, workerOp_wf hop (Nat.le_of_lt_succ (kField w).isLt)⟩
  have hk' : (opField w).toNat = 0x02 ∨ kField w = 0#8 := hk.imp_left (congrArg BitVec.toNat)
  calc encode i = 0#16 ++ kField w ++ BitVec.ofNat 8 (opField w).toNat := encode_of_workerOp hop hk'
    _ = resField w ++ kField w ++ opField w := by rw [hres, BitVec.ofNat_toNat, BitVec.setWidth_eq]
    _ = w := append_fields w

/-- Settles O1: on each port, what is legal is known field by field, and the encoder writes those fields. -/
theorem decodeAndEncodeAgree : Obligations.DecodeAndEncodeAgree := by
  refine ⟨fun i hwf => decode_encode hwf, fun p w i h => ?_⟩
  cases p with
  | worker =>
    obtain ⟨hw, hwf⟩ := encode_of_decodeWorker h
    exact ⟨hw, decodeWorker_port h, hwf⟩
  | interrupt =>
    obtain ⟨rfl, rfl⟩ := decodeInterrupt_eq_ok_iff.mp h
    exact ⟨rfl, rfl, rfl⟩

/-- Settles O2: each clause decodes one word. -/
theorem sampleWordsDecode : Obligations.SampleWordsDecode := by
  unfold Obligations.SampleWordsDecode
  decide

/-! ### Illegal words -/

/-- On `CMD` a word is illegal if its OP is no worker command's, its `RES` is not 0, or its `K` is not 0 without being TX_SEND's
(R145). -/
theorem decodeWorker_of_illegal {w : Word} (h : (opField w).toNat = 0 ∨ 8 ≤ (opField w).toNat ∨ resField w ≠ 0#16 ∨
    (opField w ≠ 0x02#8 ∧ kField w ≠ 0#8)) : ∃ r, decodeWorker w = .error r := by
  cases hd : decodeWorker w with
  | error r => exact ⟨r, rfl⟩
  | ok i =>
    obtain ⟨hop, hres, hk⟩ := decodeWorker_eq_ok_iff.mp hd
    obtain ⟨hpos, hlt⟩ := workerOp_range hop
    rcases h with h | h | h | ⟨hsend, hk0⟩
    · omega
    · omega
    · exact absurd hres h
    · exact absurd hk (not_or.mpr ⟨hsend, hk0⟩)

/-- On `INTCMD` every word but IRQ_ENTRY's is illegal (R144). -/
theorem decodeInterrupt_of_ne {w : Word} (h : w ≠ 0x00000008#32) : ∃ r, decodeInterrupt w = .error r := by
  cases hd : decodeInterrupt w with
  | error r => exact ⟨r, rfl⟩
  | ok i => exact absurd (decodeInterrupt_eq_ok_iff.mp hd).1 h

/-- Settles O4: a rejected word runs no command, and the answer is the port's result register. -/
theorem illegalWordsChangeOnlyTheResult : Obligations.IllegalWordsChangeOnlyTheResult := by
  refine ⟨fun s w ⟨hh, hb⟩ hbad => ?_, fun s w hh hb hne => ?_⟩
  · obtain ⟨r, hd⟩ := decodeWorker_of_illegal hbad
    simp only [State.writeCmd, hd, State.issue_run hh hb]
    rfl
  · obtain ⟨r, hd⟩ := decodeInterrupt_of_ne hne
    simp only [State.writeIntCmd, hd, hh, hb, Bool.false_eq_true, if_false]
    rfl

/-! ### Descriptor images -/

/-- A flag read from a word is its one-bit field. -/
theorem flag_getLsbD (w : Word) (i : Nat) : flag (w.getLsbD i) = w.extractLsb' i 1 := by
  ext j hj
  obtain rfl : j = 0 := by omega
  simp [flag]

/-- A word is its fields of R151, with the reserved field [28:24]. -/
theorem append_txFields (w : Word) : w.extractLsb' 31 1 ++ w.extractLsb' 30 1 ++ w.extractLsb' 29 1 ++ w.extractLsb' 24 5 ++
    w.extractLsb' 16 8 ++ w.extractLsb' 0 16 = w := by
  simp only [BitVec.extractLsb'_append_extractLsb'_eq_extractLsb']
  exact BitVec.extractLsb'_eq_self

/-- A word is its fields of R152, with the reserved field [27:16]. -/
theorem append_rxFields (w : Word) : w.extractLsb' 31 1 ++ w.extractLsb' 30 1 ++ w.extractLsb' 29 1 ++ w.extractLsb' 28 1 ++
    w.extractLsb' 16 12 ++ w.extractLsb' 0 16 = w := by
  simp only [BitVec.extractLsb'_append_extractLsb'_eq_extractLsb']
  exact BitVec.extractLsb'_eq_self

/-- The mask of the fields of R151 clears the reserved field and keeps the others (R154). -/
theorem append_and_txMask (owned wrap last : BitVec 1) (res : BitVec 5) (err : BitVec 8) (len : BitVec 16) :
    (owned ++ wrap ++ last ++ res ++ err ++ len) &&& 0xE0FFFFFF#(1 + 1 + 1 + 5 + 8 + 16) =
      owned ++ wrap ++ last ++ 0#5 ++ err ++ len := by
  have hmask : 0xE0FFFFFF#(1 + 1 + 1 + 5 + 8 + 16) = BitVec.allOnes 1 ++ BitVec.allOnes 1 ++ BitVec.allOnes 1 ++ 0#5 ++
    BitVec.allOnes 8 ++ BitVec.allOnes 16 := by decide
  simp only [hmask, BitVec.and_append, BitVec.and_allOnes, BitVec.and_zero]

/-- The mask of the fields of R152 clears the reserved field and keeps the others (R154). -/
theorem append_and_rxMask (owned wrap eof sof : BitVec 1) (res : BitVec 12) (len : BitVec 16) :
    (owned ++ wrap ++ eof ++ sof ++ res ++ len) &&& 0xF000FFFF#(1 + 1 + 1 + 1 + 12 + 16) =
      owned ++ wrap ++ eof ++ sof ++ 0#12 ++ len := by
  have hmask : 0xF000FFFF#(1 + 1 + 1 + 1 + 12 + 16) = BitVec.allOnes 1 ++ BitVec.allOnes 1 ++ BitVec.allOnes 1 ++
    BitVec.allOnes 1 ++ 0#12 ++ BitVec.allOnes 16 := by decide
  simp only [hmask, BitVec.and_append, BitVec.and_allOnes, BitVec.and_zero]

/-- A TX slot read from a word and written again is that word with the reserved bits 0 (R151, R154). -/
theorem TxSlot.word0_ofWords (w0 w1 : Word) : (TxSlot.ofWords w0 w1).word0 = w0 &&& 0xE0FFFFFF#32 := by
  rw [TxSlot.word0, TxSlot.ofWords, flag_getLsbD, flag_getLsbD, flag_getLsbD]
  exact (append_and_txMask ..).symm.trans (congrArg (· &&& 0xE0FFFFFF#32) (append_txFields w0))

/-- An RX slot read from a word and written again is that word with the reserved bits 0 (R152, R154). -/
theorem RxSlot.word0_ofWords (w0 w1 : Word) : (RxSlot.ofWords w0 w1).word0 = w0 &&& 0xF000FFFF#32 := by
  rw [RxSlot.word0, RxSlot.ofWords, flag_getLsbD, flag_getLsbD, flag_getLsbD, flag_getLsbD]
  exact (append_and_rxMask ..).symm.trans (congrArg (· &&& 0xF000FFFF#32) (append_rxFields w0))

/-- A TX slot is read back from its image (R151, R153). -/
theorem TxSlot.ofWords_word0 (d : TxSlot) : TxSlot.ofWords d.word0 d.buf = d := by
  have hlen : d.word0.extractLsb' 0 16 = d.len := BitVec.extractLsb'_append_eq_right
  have herr : d.word0.extractLsb' 16 8 = d.err := by
    rw [TxSlot.word0, BitVec.extractLsb'_append_eq_of_le (by decide)]
    exact BitVec.extractLsb'_append_eq_right
  have hflags : d.word0.getLsbD 29 = d.last ∧ d.word0.getLsbD 30 = d.wrap ∧ d.word0.getLsbD 31 = d.owned := by
    simp only [TxSlot.word0, flag, BitVec.getLsbD_append]
    simp
  obtain ⟨hlast, hwrap, howned⟩ := hflags
  rw [TxSlot.ofWords, hlen, herr, hlast, hwrap, howned]

/-- An RX slot is read back from its image (R152, R153). -/
theorem RxSlot.ofWords_word0 (d : RxSlot) : RxSlot.ofWords d.word0 d.buf = d := by
  have hlen : d.word0.extractLsb' 0 16 = d.len := BitVec.extractLsb'_append_eq_right
  have hflags : d.word0.getLsbD 28 = d.sof ∧ d.word0.getLsbD 29 = d.eof ∧ d.word0.getLsbD 30 = d.wrap ∧
      d.word0.getLsbD 31 = d.owned := by
    simp only [RxSlot.word0, flag, BitVec.getLsbD_append]
    simp
  obtain ⟨hsof, heof, hwrap, howned⟩ := hflags
  rw [RxSlot.ofWords, hlen, hsof, heof, hwrap, howned]

/-- Settles O44: reading a written slot gives the slot, writing a read word clears its reserved bits, and the clauses on
reserved bits follow from the two. -/
theorem descriptorImageRoundTrip : Obligations.DescriptorImageRoundTrip := by
  refine ⟨fun d => ⟨d.ofWords_word0, ?_⟩, fun d => ⟨d.ofWords_word0, ?_⟩,
    fun w0 w1 => ⟨?_, TxSlot.word0_ofWords w0 w1⟩, fun w0 w1 => ⟨?_, RxSlot.word0_ofWords w0 w1⟩⟩
  · rw [← d.ofWords_word0, TxSlot.word0_ofWords, BitVec.and_assoc]
    exact BitVec.and_zero
  · rw [← d.ofWords_word0, RxSlot.word0_ofWords, BitVec.and_assoc]
    exact BitVec.and_zero
  · rw [← TxSlot.word0_ofWords w0 w1]
    exact (TxSlot.ofWords w0 w1).ofWords_word0
  · rw [← RxSlot.word0_ofWords w0 w1]
    exact (RxSlot.ofWords w0 w1).ofWords_word0

end Sys2Proof.Machine

/-! Family 40_ring: the TX ring in every step, CFG, and the frames that RXD does not take. -/

namespace Sys2Proof.Machine

/-! ### The zones of the TX ring

From `tx.release` on lie the completed slots, the slots TXD owns, the slots a running TX_SEND has filled, and the free slots. The
zones are said by which slots hold a buffer and which are owned, so that a write of one slot moves one bound. -/

/-- The slot `j` places after the ring's `release`. -/
def TxRing.slot (r : TxRing) (j : Nat) : TxSlot := r.slots.getD (ringPos r.slots.length r.release j) TxSlot.free

/-- The ring with `d` written `q` places after its `release`. -/
def TxRing.put (r : TxRing) (q : Nat) (d : TxSlot) : TxRing :=
  { r with slots := r.slots.set (ringPos r.slots.length r.release q) d }

/-- The ring with its first slot out of the in-use window (R240). -/
def TxRing.advance (r : TxRing) : TxRing :=
  { r with release := adv r.slots.length r.release, inUse := r.inUse - 1#17 }

@[simp] theorem TxRing.put_length (r : TxRing) (q : Nat) (d : TxSlot) : (r.put q d).slots.length = r.slots.length :=
  List.length_set

/-- A write of the slot `q` places on changes that slot alone. -/
theorem TxRing.slot_put (r : TxRing) {q j : Nat} (d : TxSlot) (hq : q < r.slots.length) (hj : j < r.slots.length) :
    (r.put q d).slot j = if j = q then d else r.slot j := by
  have hpos : ringPos r.slots.length r.release q < r.slots.length := Nat.mod_lt _ (by omega)
  simp only [TxRing.slot, TxRing.put, List.length_set]
  split
  · next h =>
    subst h
    simp [List.getD, hpos]
  · next h =>
    have hne : ringPos r.slots.length r.release q ≠ ringPos r.slots.length r.release j :=
      fun e => h (ringPos_inj _ hq hj e).symm
    simp [List.getD, hne]

/-- Once around the ring is the same slot. -/
theorem TxRing.slot_around (r : TxRing) : r.slot r.slots.length = r.slot 0 := by
  simp only [TxRing.slot, ringPos, Nat.add_mod_right, Nat.add_zero]

/-- After `release` has moved on by one, the slot `j` places on is the one that was `j + 1` places on. -/
theorem TxRing.slot_advance {r : TxRing} (hsize : IsRingSize r.slots.length) (hlt : r.release.toNat < r.slots.length)
    (j : Nat) : r.advance.slot j = r.slot (j + 1) := by
  have hpos := ringPos_add r.release r.advance.release 1 j (adv_eq_ringPos hsize _ hlt)
  rw [Nat.add_comm] at hpos
  exact congrArg (r.slots.getD · TxSlot.free) hpos

/-- A frame of `n` slots lies `d` places after `release`, inside the in-use window (R262). -/
def FrameAhead (r : TxRing) (d n : Nat) : Prop := 0 < n ∧ d + n ≤ r.inUse.toNat ∧ (r.slot (d + n - 1)).last = true

/-- The TX ring and TXD with `d` completed slots: the first `m` slots from `release` on hold a buffer, and owned are those
from `d` to `in_use` and, of the chain a TX_SEND commits, those from `e` to `m` (R204, R119, R262). -/
structure TxZones (r : TxRing) (x : Txd) (d m e : Nat) : Prop where
  size : IsRingSize r.slots.length
  release_lt : r.release.toNat < r.slots.length
  current_eq : r.current.toNat = ringPos r.slots.length r.release r.inUse.toNat
  idx_eq : x.idx.toNat = ringPos r.slots.length r.release d
  done_le : d ≤ r.inUse.toNat
  inUse_le : r.inUse.toNat ≤ m
  room : m ≤ r.slots.length
  next_ge : r.inUse.toNat ≤ e
  next_gt : r.inUse.toNat < m → r.inUse.toNat < e
  held : ∀ j < r.slots.length, ((r.slot j).buf ≠ 0#32 ↔ j < m)
  owned : ∀ j < r.slots.length, ((r.slot j).owned = true ↔ d ≤ j ∧ j < r.inUse.toNat ∨ e ≤ j ∧ j < m)
  chain_last : ∀ j, r.inUse.toNat ≤ j → j < m → (r.slot j).last = decide (j + 1 = m)
  closed : d < r.inUse.toNat → (r.slot (r.inUse.toNat - 1)).last = true
  completing : x.state = .completing → FrameAhead r d x.left.toNat

/-- How many fragments of a running TX_SEND, from the first on, have no ownership bit written yet (R232). -/
def WState.uncommitted : WState → Nat
  | .txCommit _ i => i + 1
  | _ => 0

/-- A free slot is not owned and holds no buffer (R202). -/
theorem isFree_iff {d : TxSlot} : d.isFree = true ↔ d.owned = false ∧ d.buf = 0#32 := by
  simp [TxSlot.isFree]

/-- Fragment `q` is committed when it is not among the first ones that are uncommitted. -/
theorem committed_iff {w : WState} {q : Nat} (hq : q < w.filled) : w.committed q = true ↔ w.uncommitted ≤ q := by
  cases w <;> simp_all [WState.filled, WState.committed, WState.uncommitted]

/-- While a TX_SEND commits, its first fragment is uncommitted. -/
theorem uncommitted_pos {w : WState} (hw : 0 < w.filled) : 0 < w.uncommitted := by
  cases w <;> simp_all [WState.filled, WState.uncommitted]

/-- A sound TX ring has its zones. -/
theorem TxSound.zones {s : State} {d : Nat} (hs : TxSound s d) :
    TxZones s.tx s.txd d (s.tx.inUse.toNat + s.port.w.filled) (s.tx.inUse.toNat + s.port.w.uncommitted) := by
  have hdone := hs.done_le
  have hslot : ∀ j < s.nTx, ((s.tx.slot j).buf ≠ 0#32 ↔ j < s.tx.inUse.toNat + s.port.w.filled) ∧
      ((s.tx.slot j).owned = true ↔ d ≤ j ∧ j < s.tx.inUse.toNat ∨
        s.tx.inUse.toNat + s.port.w.uncommitted ≤ j ∧ j < s.tx.inUse.toNat + s.port.w.filled) := by
    intro j hj
    by_cases h1 : j < d
    · obtain ⟨hbuf, hown⟩ := hs.done_slots j h1
      exact ⟨iff_of_true hbuf (by omega), iff_of_false (Bool.eq_false_iff.mp hown) (by omega)⟩
    by_cases h2 : j < s.tx.inUse.toNat
    · obtain ⟨hbuf, hown⟩ := hs.sent_slots j (by omega) h2
      exact ⟨iff_of_true hbuf (by omega), iff_of_true hown (by omega)⟩
    by_cases h3 : j < s.tx.inUse.toNat + s.port.w.filled
    · obtain ⟨q, rfl⟩ := Nat.exists_eq_add_of_le (Nat.not_lt.mp h2)
      obtain ⟨hbuf, hown, -⟩ := hs.filled_slots q (by omega)
      have hcommitted := committed_iff (w := s.port.w) (q := q) (by omega)
      rw [← hown] at hcommitted
      exact ⟨iff_of_true hbuf h3, hcommitted.trans (by omega)⟩
    · obtain ⟨hown, hbuf⟩ := isFree_iff.mp (hs.free_slots j (by omega) hj)
      exact ⟨iff_of_false (not_not.mpr hbuf) h3, iff_of_false (Bool.eq_false_iff.mp hown) (by omega)⟩
  refine ⟨hs.size, hs.release_lt, hs.current_eq, hs.idx_eq, hdone, Nat.le_add_right _ _, hs.room, Nat.le_add_right _ _,
    fun h => ?_, fun j hj => (hslot j hj).1, fun j hj => (hslot j hj).2, fun j h1 h2 => ?_, hs.last_closed, hs.completing⟩
  · have := uncommitted_pos (w := s.port.w) (by omega)
    omega
  · obtain ⟨q, rfl⟩ := Nat.exists_eq_add_of_le h1
    rw [show s.tx.slot (s.tx.inUse.toNat + q) = s.txFromRelease (s.tx.inUse.toNat + q) from rfl,
      (hs.filled_slots q (by omega)).2.2]
    exact decide_eq_decide.mpr (by omega)

/-- A ring with its zones is sound when W's command fits it. -/
theorem TxZones.sound {s : State} {d : Nat}
    (hz : TxZones s.tx s.txd d (s.tx.inUse.toNat + s.port.w.filled) (s.tx.inUse.toNat + s.port.w.uncommitted))
    (hcommit : ∀ k i, s.port.w = .txCommit k i → i < k)
    (hvisits : ∀ more count, s.port.w = .reclaim more count → more < s.tx.inUse.toNat) : TxSound s d := by
  have hdone := hz.done_le
  have hroom := hz.room
  have hnot : ∀ j < s.tx.slots.length, ¬(d ≤ j ∧ j < s.tx.inUse.toNat ∨ s.tx.inUse.toNat + s.port.w.uncommitted ≤ j ∧
      j < s.tx.inUse.toNat + s.port.w.filled) → (s.txFromRelease j).owned = false :=
    fun j hj hno => Bool.eq_false_iff.mpr (mt (hz.owned j hj).mp hno)
  refine ⟨hz.size, hz.release_lt, hz.current_eq, hroom, hdone, hz.idx_eq, fun j hj => ?_, fun j h1 h2 => ?_, fun q hq => ?_,
    fun j h1 h2 => ?_, hz.closed, hz.completing, hcommit, hvisits⟩
  · exact ⟨(hz.held j (by omega)).mpr (by omega), hnot j (by omega) (by omega)⟩
  · exact ⟨(hz.held j (by omega)).mpr (by omega), (hz.owned j (by omega)).mpr (by omega)⟩
  · refine ⟨(hz.held _ (by omega)).mpr (by omega), ?_, ?_⟩
    · rw [Bool.eq_iff_iff, committed_iff hq]
      exact (hz.owned _ (by omega)).trans (by omega)
    · exact (hz.chain_last _ (by omega) (by omega)).trans (decide_eq_decide.mpr (by omega))
  · have hbuf := mt (hz.held j h2).mp (by omega)
    exact isFree_iff.mpr ⟨hnot j h2 (by omega), not_not.mp hbuf⟩

/-! ### How each write moves the zones -/

/-- A write that keeps a slot's buffer and its last-fragment bit changes only who owns that slot. -/
theorem TxRing.slot_put_keeps (r : TxRing) {q : Nat} {b : TxSlot} (hq : q < r.slots.length) (hbuf : b.buf = (r.slot q).buf)
    (hlast : b.last = (r.slot q).last) : ∀ j < r.slots.length, ((r.put q b).slot j).buf = (r.slot j).buf ∧
      ((r.put q b).slot j).last = (r.slot j).last ∧
      ((r.put q b).slot j).owned = if j = q then b.owned else (r.slot j).owned := by
  intro j hj
  rw [r.slot_put b hq hj]
  split
  · next h => exact h ▸ ⟨hbuf, hlast, rfl⟩
  · exact ⟨rfl, rfl, rfl⟩

/-- The slots from the cursor on, counted from `release` (R204). -/
theorem TxZones.current_add {r : TxRing} {x : Txd} {d m e : Nat} (hz : TxZones r x d m e) (i : Nat) :
    ringPos r.slots.length r.current i = ringPos r.slots.length r.release (r.inUse.toNat + i) :=
  ringPos_add _ _ _ _ hz.current_eq

/-- Free slots from the cursor on lie outside the in-use window: around the ring comes a slot that holds a buffer (R204). -/
theorem TxZones.room_of_free {r : TxRing} {x : Txd} {d e k : Nat} (hz : TxZones r x d r.inUse.toNat e)
    (hk : k ≤ r.slots.length)
    (hfree : ∀ i < k, (r.slots.getD (ringPos r.slots.length r.current i) TxSlot.free).isFree = true) :
    r.inUse.toNat + k ≤ r.slots.length := by
  have hroom := hz.room
  by_contra hno
  have hwrap := hfree (r.slots.length - r.inUse.toNat) (by omega)
  rw [hz.current_add, Nat.add_sub_cancel' hroom] at hwrap
  have h0 : (r.slot 0).buf = 0#32 := r.slot_around ▸ (isFree_iff.mp hwrap).2
  have hnone := mt (hz.held 0 hz.size.pos).mpr (not_not.mpr h0)
  omega

/-- TX_SEND fills a chain of free slots behind the in-use window, all uncommitted (R230 steps 2 and 3). -/
theorem TxZones.fill {r : TxRing} {x : Txd} {d e k : Nat} {slots : List TxSlot} (hz : TxZones r x d r.inUse.toNat e)
    (hk : 0 < k) (hfits : r.inUse.toNat + k ≤ r.slots.length) (hlen : slots.length = r.slots.length)
    (hin : ∀ i < k, (slots.getD (ringPos r.slots.length r.current i) TxSlot.free).buf ≠ 0#32 ∧
      (slots.getD (ringPos r.slots.length r.current i) TxSlot.free).owned = false ∧
      (slots.getD (ringPos r.slots.length r.current i) TxSlot.free).last = decide (i + 1 = k))
    (hout : ∀ p, (∀ i < k, p ≠ ringPos r.slots.length r.current i) →
      slots.getD p TxSlot.free = r.slots.getD p TxSlot.free) :
    TxZones { r with slots := slots } x d (r.inUse.toNat + k) (r.inUse.toNat + k) := by
  have hdone := hz.done_le
  have hnext := hz.next_ge
  have hold : ∀ j < r.slots.length, (j < r.inUse.toNat ∨ r.inUse.toNat + k ≤ j) →
      ({ r with slots := slots } : TxRing).slot j = r.slot j := fun j hj hside => by
    rw [TxRing.slot, hlen]
    refine hout _ fun i hi e => ?_
    rw [hz.current_add] at e
    have := ringPos_inj _ hj (by omega) e
    omega
  have hnew : ∀ i < k, (({ r with slots := slots } : TxRing).slot (r.inUse.toNat + i)).buf ≠ 0#32 ∧
      (({ r with slots := slots } : TxRing).slot (r.inUse.toNat + i)).owned = false ∧
      (({ r with slots := slots } : TxRing).slot (r.inUse.toNat + i)).last = decide (i + 1 = k) := fun i hi => by
    rw [TxRing.slot, hlen]
    exact hz.current_add i ▸ hin i hi
  refine ⟨hlen ▸ hz.size, hlen ▸ hz.release_lt, hlen ▸ hz.current_eq, hlen ▸ hz.idx_eq, hdone, Nat.le_add_right _ _,
    hlen ▸ hfits, Nat.le_add_right _ _, fun _ => Nat.lt_add_of_pos_right hk, fun j hj => ?_, fun j hj => ?_,
    fun j h1 h2 => ?_, fun h => ?_, fun h => ?_⟩
  · have hj : j < r.slots.length := hlen ▸ hj
    by_cases hside : j < r.inUse.toNat ∨ r.inUse.toNat + k ≤ j
    · rw [hold j hj hside]
      exact (hz.held j hj).trans (by omega)
    · obtain ⟨i, rfl⟩ := Nat.exists_eq_add_of_le (show r.inUse.toNat ≤ j by omega)
      exact iff_of_true (hnew i (by omega)).1 (by omega)
  · have hj : j < r.slots.length := hlen ▸ hj
    show (TxRing.slot { r with slots := slots } j).owned = true ↔ d ≤ j ∧ j < r.inUse.toNat ∨ _
    by_cases hside : j < r.inUse.toNat ∨ r.inUse.toNat + k ≤ j
    · rw [hold j hj hside]
      exact (hz.owned j hj).trans (by omega)
    · obtain ⟨i, rfl⟩ := Nat.exists_eq_add_of_le (show r.inUse.toNat ≤ j by omega)
      exact iff_of_false (Bool.eq_false_iff.mp (hnew i (by omega)).2.1) (by omega)
  · obtain ⟨i, rfl⟩ := Nat.exists_eq_add_of_le (show r.inUse.toNat ≤ j from h1)
    exact (hnew i (by omega)).2.2.trans (decide_eq_decide.mpr (by omega))
  · have h : d < r.inUse.toNat := h
    exact (congrArg TxSlot.last (hold (r.inUse.toNat - 1) (by omega) (by omega))).trans (hz.closed h)
  · obtain ⟨h1, h2, h3⟩ := hz.completing h
    exact ⟨h1, h2, (congrArg TxSlot.last (hold (d + x.left.toNat - 1) (by omega) (by omega))).trans h3⟩

/-- An ownership write of TX_SEND's commit, but for the last one (R232). -/
theorem TxZones.commit {r : TxRing} {x : Txd} {d m e : Nat} {b : TxSlot} (hz : TxZones r x d m (e + 1))
    (hin : r.inUse.toNat < e) (he : e < m) (hbuf : b.buf = (r.slot e).buf) (hlast : b.last = (r.slot e).last)
    (hown : b.owned = true) : TxZones (r.put e b) x d m e := by
  have hroom := hz.room
  have hlen := r.put_length e b
  have hslot := r.slot_put_keeps (Nat.lt_of_lt_of_le he hroom) hbuf hlast
  refine ⟨hlen ▸ hz.size, hlen ▸ hz.release_lt, hlen ▸ hz.current_eq, hlen ▸ hz.idx_eq, hz.done_le, hz.inUse_le,
    hlen ▸ hroom, Nat.le_of_lt hin, fun _ => hin, ?_, ?_, fun j h1 h2 => ?_, fun h => ?_, fun h => ?_⟩
  · rw [hlen]
    exact fun j hj => (hslot j hj).1 ▸ hz.held j hj
  · rw [hlen]
    intro j hj
    show _ ↔ d ≤ j ∧ j < r.inUse.toNat ∨ _
    rw [(hslot j hj).2.2]
    split
    · next h => exact iff_of_true hown (by omega)
    · exact (hz.owned j hj).trans (by omega)
  · exact (hslot j (by omega)).2.1.trans (hz.chain_last j h1 h2)
  · exact (hslot (r.inUse.toNat - 1) (by omega)).2.1.trans (hz.closed h)
  · obtain ⟨h1, h2, h3⟩ := hz.completing h
    exact ⟨h1, h2, (hslot (d + x.left.toNat - 1) (by omega)).2.1.trans h3⟩

/-- The last ownership write of a TX_SEND, with which its chain joins the in-use window (R230 step 5, R232). -/
theorem TxZones.commit_last {r : TxRing} {x : Txd} {d m : Nat} {b : TxSlot} {current : Index} {inUse : BitVec 17}
    (hz : TxZones r x d m (r.inUse.toNat + 1)) (hm : r.inUse.toNat < m) (hbuf : b.buf = (r.slot r.inUse.toNat).buf)
    (hlast : b.last = (r.slot r.inUse.toNat).last) (hown : b.owned = true) (huse : inUse.toNat = m)
    (hcur : current.toNat = ringPos r.slots.length r.release m) :
    TxZones { r.put r.inUse.toNat b with current := current, inUse := inUse } x d m m := by
  have hroom := hz.room
  have hdone := hz.done_le
  have hlen := r.put_length r.inUse.toNat b
  have hslot := r.slot_put_keeps (Nat.lt_of_lt_of_le hm hroom) hbuf hlast
  have hmend := hz.chain_last (m - 1) (by omega) (by omega)
  subst huse
  refine ⟨hlen ▸ hz.size, hlen ▸ hz.release_lt, hlen ▸ hcur, hlen ▸ hz.idx_eq, Nat.le_of_lt (Nat.lt_of_le_of_lt hdone hm),
    le_rfl, hlen ▸ hroom, le_rfl, id, ?_, ?_, fun j h1 h2 => absurd h1 (Nat.not_le_of_lt h2), fun _ => ?_, fun h => ?_⟩
  · rw [hlen]
    exact fun j hj => (hslot j hj).1 ▸ hz.held j hj
  · rw [hlen]
    intro j hj
    show ((r.put r.inUse.toNat b).slot j).owned = true ↔ d ≤ j ∧ j < inUse.toNat ∨ _
    rw [(hslot j hj).2.2]
    split
    · next h => exact iff_of_true hown (by omega)
    · exact (hz.owned j hj).trans (by omega)
  · exact (hslot (inUse.toNat - 1) (by omega)).2.1.trans (hmend.trans (decide_eq_true (by omega)))
  · obtain ⟨h1, h2, h3⟩ := hz.completing h
    exact ⟨h1, Nat.le_of_lt (Nat.lt_of_le_of_lt h2 hm), (hslot (d + x.left.toNat - 1) (by omega)).2.1.trans h3⟩

/-- TX_RECLAIM takes the first completed slot, cleared, out of the in-use window (R240 to R243). -/
theorem TxZones.reclaim {r : TxRing} {x : Txd} {d e : Nat} {b : TxSlot} (hz : TxZones r x (d + 1) r.inUse.toNat e)
    (hbuf : b.buf = 0#32) (hown : b.owned = false) :
    TxZones (r.put 0 b).advance x d (r.put 0 b).advance.inUse.toNat (r.put 0 b).advance.inUse.toNat := by
  have hroom := hz.room
  have hdone := hz.done_le
  have hnext := hz.next_ge
  have hput := r.put_length 0 b
  have hslot : ∀ j < r.slots.length,
      (r.put 0 b).advance.slot j = if j + 1 = r.slots.length then b else r.slot (j + 1) := fun j hj => by
    rw [TxRing.slot_advance (hput ▸ hz.size) (hput ▸ hz.release_lt)]
    split
    · next h => rw [h, ← hput, TxRing.slot_around, TxRing.slot_put _ _ hz.size.pos hz.size.pos, if_pos rfl]
    · rw [TxRing.slot_put _ _ hz.size.pos (by omega), if_neg (by omega)]
  have hrel : (r.put 0 b).advance.release.toNat = ringPos r.slots.length r.release 1 := by
    rw [← adv_eq_ringPos hz.size _ hz.release_lt, ← hput]
    rfl
  have huse : (r.put 0 b).advance.inUse.toNat = r.inUse.toNat - 1 := by
    show (r.inUse - 1#17).toNat = _
    bv_omega
  have hcur : (r.put 0 b).advance.current = r.current := rfl
  have hlen : (r.put 0 b).advance.slots.length = r.slots.length := hput
  generalize (r.put 0 b).advance = t at hslot hrel huse hcur hlen ⊢
  refine ⟨hlen ▸ hz.size, ?_, ?_, ?_, by omega, le_rfl, by omega, le_rfl, id, ?_, ?_, fun j _ _ => by omega,
    fun h => ?_, fun h => ?_⟩
  · rw [hrel, hlen]
    exact ringPos_lt hz.size.pos _ _
  · rw [hcur, hlen, huse, ringPos_add _ _ _ _ hrel, hz.current_eq]
    congr 1
    omega
  · rw [hlen, ringPos_add _ _ _ _ hrel, hz.idx_eq, Nat.add_comm]
  · rw [hlen]
    intro j hj
    rw [hslot j hj]
    split
    · exact iff_of_false (not_not.mpr hbuf) (by omega)
    · exact (hz.held (j + 1) (by omega)).trans (by omega)
  · rw [hlen]
    intro j hj
    rw [hslot j hj]
    split
    · exact iff_of_false (Bool.eq_false_iff.mp hown) (by omega)
    · exact (hz.owned (j + 1) (by omega)).trans (by omega)
  · rw [hslot _ (by omega), if_neg (by omega), show t.inUse.toNat - 1 + 1 = r.inUse.toNat - 1 by omega]
    exact hz.closed (by omega)
  · obtain ⟨h1, h2, h3⟩ := hz.completing h
    refine ⟨h1, by omega, ?_⟩
    rw [hslot _ (by omega), if_neg (by omega), show d + x.left.toNat - 1 + 1 = d + 1 + x.left.toNat - 1 by omega]
    exact h3

/-- TXD moves from state to state at its slot (R260 to R262, R267). -/
theorem TxZones.with_txd {r : TxRing} {x y : Txd} {d m e : Nat} (hz : TxZones r x d m e) (hidx : y.idx = x.idx)
    (hahead : y.state = .completing → FrameAhead r d y.left.toNat) : TxZones r y d m e :=
  { hz with idx_eq := hidx ▸ hz.idx_eq, completing := hahead }

/-- TXD releases the first of its slots (R264). -/
theorem TxZones.complete {r : TxRing} {x y : Txd} {d m e : Nat} {b : TxSlot} (hz : TxZones r x d m e)
    (hahead : FrameAhead r d x.left.toNat) (hbuf : b.buf = (r.slot d).buf) (hlast : b.last = (r.slot d).last)
    (hown : b.owned = false) (hidx : y.idx = adv r.slots.length x.idx) (hleft : y.left = x.left - 1#17)
    (hstate : y.state = .completing → y.left ≠ 0#17) : TxZones (r.put d b) y (d + 1) m e := by
  obtain ⟨hpos, hin, hend⟩ := hahead
  have hroom := hz.room
  have hinUse := hz.inUse_le
  have hnext := hz.next_ge
  have hlen := r.put_length d b
  have hslot := r.slot_put_keeps (by omega) hbuf hlast
  have hlt : x.idx.toNat < r.slots.length := hz.idx_eq ▸ ringPos_lt hz.size.pos _ _
  have hnat : y.left.toNat = x.left.toNat - 1 := by
    rw [hleft]
    bv_omega
  refine ⟨hlen ▸ hz.size, hlen ▸ hz.release_lt, hlen ▸ hz.current_eq, ?_, Nat.le_trans (by omega) hin, hinUse,
    hlen ▸ hroom, hnext, hz.next_gt, ?_, ?_, fun j h1 h2 => ?_, fun h => ?_, fun h => ?_⟩
  · rw [hlen, hidx, adv_eq_ringPos hz.size _ hlt]
    exact ringPos_add _ _ _ _ hz.idx_eq
  · rw [hlen]
    exact fun j hj => (hslot j hj).1 ▸ hz.held j hj
  · rw [hlen]
    intro j hj
    show _ ↔ d + 1 ≤ j ∧ j < r.inUse.toNat ∨ _
    rw [(hslot j hj).2.2]
    split
    · exact iff_of_false (Bool.eq_false_iff.mp hown) (by omega)
    · exact (hz.owned j hj).trans (by omega)
  · exact (hslot j (by omega)).2.1.trans (hz.chain_last j h1 h2)
  · have h : d + 1 < r.inUse.toNat := h
    exact (hslot (r.inUse.toNat - 1) (by omega)).2.1.trans (hz.closed (by omega))
  · have hne := hstate h
    have hmore : y.left.toNat ≠ 0 := fun h0 => hne (BitVec.eq_of_toNat_eq h0)
    refine ⟨by omega, Nat.le_trans (by omega) hin, ?_⟩
    rw [show d + 1 + y.left.toNat - 1 = d + x.left.toNat - 1 by omega]
    exact (hslot _ (by omega)).2.1.trans hend

/-- Slots that TXD owns from its index on lie inside the in-use window: behind it comes a slot it does not own (R262). -/
theorem TxZones.window_of_owned {r : TxRing} {x : Txd} {d m e n : Nat} (hz : TxZones r x d m e) (hn : n ≤ r.slots.length)
    (hown : ∀ i < n, (r.slot (d + i)).owned = true) : d + n ≤ r.inUse.toNat := by
  have hdone := hz.done_le
  have hin := hz.inUse_le
  have hroom := hz.room
  have hnext := hz.next_ge
  have hgap := hz.next_gt
  by_contra hno
  have hbehind := hown (r.inUse.toNat - d) (by omega)
  rw [Nat.add_sub_cancel' hdone] at hbehind
  by_cases hfull : r.inUse.toNat = r.slots.length
  · rw [hfull, TxRing.slot_around] at hbehind
    have := (hz.owned 0 hz.size.pos).mp hbehind
    omega
  · have := (hz.owned _ (by omega)).mp hbehind
    omega

/-- CFG's TX slots: all free, the last one marked (R210). -/
theorem getD_freeTxSlots {n p : Nat} (hp : p < n) :
    (freeTxSlots n).getD p TxSlot.free = { TxSlot.free with wrap := decide (p + 1 = n) } := by
  simp [freeTxSlots, List.getD, hp]

theorem freeTxSlots_length (n : Nat) : (freeTxSlots n).length = n := by
  simp [freeTxSlots]

/-- The ring that CFG constructs: all slots are free, and all cursors are 0 (R210). -/
theorem TxZones.start {n : Nat} (hn : IsRingSize n) :
    TxZones { slots := freeTxSlots n, current := 0#16, release := 0#16, inUse := 0#17 }
      { idx := 0#16, state := .idle, left := 0#17 } 0 0 0 := by
  have hlen := freeTxSlots_length n
  have hfree : ∀ j < n, TxRing.slot { slots := freeTxSlots n, current := 0#16, release := 0#16, inUse := 0#17 } j =
      { TxSlot.free with wrap := decide (j + 1 = n) } := fun j hj => by
    have hpos : ringPos n 0#16 j = j := by simp [ringPos, Nat.mod_eq_of_lt hj]
    rw [TxRing.slot, hlen, hpos, getD_freeTxSlots hj]
  have hpos := hn.pos
  refine ⟨hlen.symm ▸ hn, hlen.symm ▸ hpos, (Nat.zero_mod _).symm, (Nat.zero_mod _).symm, le_rfl, le_rfl, Nat.zero_le _,
    le_rfl, id, ?_, ?_, fun j _ h => absurd h (Nat.not_lt_zero j), fun h => absurd h (Nat.lt_irrefl 0), fun h => nomatch h⟩
  · rw [hlen]
    intro j hj
    simp [hfree j hj, TxSlot.free]
  · rw [hlen]
    intro j hj
    simp [hfree j hj, TxSlot.free]

/-! ### Steps that leave the TX ring as it is -/

/-- Outside a TX_SEND no slot is filled and not yet counted. -/
theorem filled_of_not_send {w : WState} (hw : w.inSend = false) : w.filled = 0 ∧ w.uncommitted = 0 := by
  cases w <;> simp_all [WState.inSend, WState.filled, WState.uncommitted]

/-- A step that leaves the TX ring, TXD and the fragments of W's command as they are keeps the ring sound. -/
theorem TxSound.of_same {s t : State} {d : Nat} (hs : TxSound s d) (htx : t.tx = s.tx) (hx : t.txd = s.txd)
    (hf : t.port.w.filled = s.port.w.filled) (hu : t.port.w.uncommitted = s.port.w.uncommitted)
    (hcommit : ∀ k i, t.port.w = .txCommit k i → i < k)
    (hvisits : ∀ more count, t.port.w = .reclaim more count → more < s.tx.inUse.toNat) : TxSound t d := by
  have hz := hs.zones
  rw [← htx, ← hx, ← hf, ← hu] at hz
  exact hz.sound hcommit (htx ▸ hvisits)

/-- TXD, if awake, stays so where its slot keeps its owner and no TX_SEND passes its doorbell. -/
theorem TxdAwake.of_same {s t : State} (ha : TxdAwake s) (hc : t.cfg.configured = s.cfg.configured) (hx : t.txd = s.txd)
    (hn : t.nTx = s.nTx)
    (hown : (t.txAt (ringPos s.nTx s.txd.idx 0)).owned = (s.txAt (ringPos s.nTx s.txd.idx 0)).owned)
    (hw : ∀ k, s.port.w = .txDoorbell k → t.port.w = .txDoorbell k) : TxdAwake t := by
  intro hconf hidle hbell
  rw [hx] at hidle ⊢
  rw [hn, hown]
  exact ha (hc ▸ hconf) hidle fun k h => hbell k (hw k h)

/-- What every step keeps: the TX ring invariant and, with it, that TXD is awake. -/
structure KeepsTxRing (s t : State) : Prop where
  ring : TxRingOk t
  awake : TxdAwake s → TxdAwake t

theorem KeepsTxRing.refl {s : State} (hs : TxRingOk s) : KeepsTxRing s s := ⟨hs, id⟩

/-- A step on a configured block after which the ring is sound. -/
theorem KeepsTxRing.of_sound {s t : State} {d : Nat} (hc : t.cfg.configured = true) (hs : TxSound t d)
    (ha : TxdAwake s → TxdAwake t) : KeepsTxRing s t :=
  ⟨(txRingOk_configured hc).mpr ⟨d, hs⟩, ha⟩

/-- A step that leaves the TX ring, TXD and W's place as they are. -/
theorem KeepsTxRing.of_port {s t : State} (hs : TxRingOk s) (hc : t.cfg.configured = s.cfg.configured) (htx : t.tx = s.tx)
    (hx : t.txd = s.txd) (hw : t.port.w = s.port.w) : KeepsTxRing s t := by
  refine ⟨?_, fun ha => ha.of_same hc hx (by simp only [State.nTx, htx]) (by simp only [State.txAt, htx])
    fun k h => hw.trans h⟩
  cases hconf : s.cfg.configured
  · rw [txRingOk_unconfigured (hc.trans hconf), htx, hx, hw]
    exact (txRingOk_unconfigured hconf).mp hs
  · obtain ⟨d, hd⟩ := (txRingOk_configured hconf).mp hs
    exact (txRingOk_configured (hc.trans hconf)).mpr ⟨d, hd.of_same htx hx (by rw [hw]) (by rw [hw])
      (fun k i h => hd.commit_lt k i (hw ▸ h)) fun more count h => hd.visits_le more count (hw ▸ h)⟩

/-- A step of W outside a TX_SEND that leaves the TX ring and TXD as they are: it returns, goes on with no more visits of
TX_RECLAIM than the window has slots, or with a command that is not on the TX ring. -/
theorem KeepsTxRing.of_worker {s t : State} (hs : TxRingOk s) (hc : t.cfg.configured = s.cfg.configured) (htx : t.tx = s.tx)
    (hx : t.txd = s.txd) (hsend : s.port.w.inSend = false) (hsend' : t.port.w.inSend = false)
    (hvisits : ∀ more count, t.port.w = .reclaim more count → more < s.tx.inUse.toNat)
    (hout : s.cfg.configured = false → t.port.w.outside = true) : KeepsTxRing s t := by
  obtain ⟨hf, hu⟩ := filled_of_not_send hsend
  obtain ⟨hf', hu'⟩ := filled_of_not_send hsend'
  refine ⟨?_, fun ha => ha.of_same hc hx (by simp only [State.nTx, htx]) (by simp only [State.txAt, htx])
    fun k h => absurd hsend (by simp [h, WState.inSend])⟩
  cases hconf : s.cfg.configured
  · obtain ⟨hslots, hidle, -⟩ := (txRingOk_unconfigured hconf).mp hs
    rw [txRingOk_unconfigured (hc.trans hconf), htx, hx]
    exact ⟨hslots, hidle, hout hconf⟩
  · obtain ⟨d, hd⟩ := (txRingOk_configured hconf).mp hs
    exact (txRingOk_configured (hc.trans hconf)).mpr ⟨d, hd.of_same htx hx (by rw [hf, hf']) (by rw [hu, hu'])
      (fun k i h => absurd hsend' (by simp [h, WState.inSend])) hvisits⟩

/-- Such a step on a configured block. -/
theorem KeepsTxRing.of_configured {s t : State} (hs : TxRingOk s) (hconf : s.cfg.configured = true) (hc : t.cfg = s.cfg)
    (htx : t.tx = s.tx) (hx : t.txd = s.txd) (hsend : s.port.w.inSend = false) (hsend' : t.port.w.inSend = false)
    (hvisits : ∀ more count, t.port.w = .reclaim more count → more < s.tx.inUse.toNat) : KeepsTxRing s t :=
  .of_worker hs (by rw [hc]) htx hx hsend hsend' hvisits fun h => absurd (hconf.symm.trans h) (by decide)

/-- W at rest is in no TX_SEND. -/
theorem not_inSend_of_idle {w : WState} (hw : w = .idle) : w.inSend = false := by
  rw [hw]
  rfl

/-- A worker command that returns an error. -/
theorem KeepsTxRing.retErr {s : State} (hs : TxRingOk s) (hw : s.port.w = .idle) (code : ResultCode) :
    KeepsTxRing s (s.retErr code) :=
  .of_worker hs rfl rfl rfl (not_inSend_of_idle hw) rfl nofun fun _ => rfl

/-! ### TX_SEND's steps on the TX ring -/

/-- The slot of a TX_SEND's fragment `q`, counted from `release`. -/
theorem TxSound.txAt_sendSlot {s : State} {d : Nat} (hs : TxSound s d) (q : Nat) :
    s.txAt (s.sendSlot q) = s.tx.slot (s.tx.inUse.toNat + q) := by
  rw [hs.sendSlot_eq]
  rfl

/-- A write of the slot of a TX_SEND's fragment `q`, counted from `release`. -/
theorem TxSound.setTx_sendSlot {s : State} {d : Nat} (hs : TxSound s d) (q : Nat) (b : TxSlot) :
    (s.setTx (s.sendSlot q) b).tx = s.tx.put (s.tx.inUse.toNat + q) b := by
  rw [hs.sendSlot_eq]
  rfl

/-- An ownership write, but for the last one, keeps the TX ring sound (R232). -/
theorem TxSound.sendCommit_succ {s : State} {d k i : Nat} (hs : TxSound s d) (hw : s.port.w = .txCommit k (i + 1)) :
    TxSound (s.sendCommit k (i + 1)) d := by
  have hik := hs.commit_lt k (i + 1) hw
  have hbuf := congrArg TxSlot.buf (hs.txAt_sendSlot (i + 1))
  have hlast := congrArg TxSlot.last (hs.txAt_sendSlot (i + 1))
  have hz := hs.zones
  rw [hw] at hz
  refine TxZones.sound ?_ (fun k' i' h => ?_) nofun
  · show TxZones (s.setTx (s.sendSlot (i + 1)) { s.txAt (s.sendSlot (i + 1)) with owned := true }).tx s.txd d
      (s.tx.inUse.toNat + k) (s.tx.inUse.toNat + (i + 1))
    rw [hs.setTx_sendSlot]
    exact hz.commit (e := s.tx.inUse.toNat + (i + 1)) (by omega) (Nat.add_lt_add_left hik _) hbuf hlast rfl
  · cases h
    exact Nat.lt_of_succ_lt hik

/-- The TX ring after the last ownership write: the cursor and the counter have moved on by the chain (R230 step 5). -/
theorem State.sendCommit_zero_tx (s : State) (k : Nat) : (s.sendCommit k 0).tx =
    { (s.setTx (s.sendSlot 0) { s.txAt (s.sendSlot 0) with owned := true }).tx with
      current := BitVec.ofNat 16 (s.sendSlot k), inUse := s.tx.inUse + BitVec.ofNat 17 k } := by
  have hslot : (s.setTxOwned (s.sendSlot 0) true).sendSlot k = s.sendSlot k := by
    rw [State.sendSlot, State.setTxOwned, State.nTx_setTx]
    rfl
  rw [← hslot]
  rfl

/-- The last ownership write keeps the TX ring sound: the chain joins the in-use window (R230, R232). -/
theorem TxSound.sendCommit_zero {s : State} {d k : Nat} (hs : TxSound s d) (hw : s.port.w = .txCommit k 0) :
    TxSound (s.sendCommit k 0) d := by
  have hk := hs.commit_lt k 0 hw
  have hbuf := congrArg TxSlot.buf (hs.txAt_sendSlot 0)
  have hlast := congrArg TxSlot.last (hs.txAt_sendSlot 0)
  have hz := hs.zones
  rw [hw] at hz
  have hroom : s.tx.inUse.toNat + k ≤ s.nTx := hz.room
  have hsize := hs.size.le
  have hsum : (s.tx.inUse + BitVec.ofNat 17 k).toNat = s.tx.inUse.toNat + k := by
    rw [BitVec.toNat_add, BitVec.toNat_ofNat]
    omega
  have hcur : (BitVec.ofNat 16 (s.sendSlot k)).toNat = ringPos s.nTx s.tx.release (s.tx.inUse.toNat + k) := by
    rw [hs.sendSlot_eq, ringPos_ofNat hs.size]
  have hnext : TxZones (s.sendCommit k 0).tx s.txd d (s.tx.inUse.toNat + k) (s.tx.inUse.toNat + k) := by
    rw [s.sendCommit_zero_tx, hs.setTx_sendSlot]
    exact hz.commit_last (Nat.lt_add_of_pos_right hk) hbuf hlast rfl hsum hcur
  refine TxZones.sound ?_ nofun nofun
  show TxZones (s.sendCommit k 0).tx s.txd d ((s.tx.inUse + BitVec.ofNat 17 k).toNat + 0)
    ((s.tx.inUse + BitVec.ofNat 17 k).toNat + 0)
  rw [hsum]
  exact hnext

/-- A TXD that is woken stands at its slot, and a ring is as sound as before (R233, R267). -/
theorem TxSound.wakeTxd {s : State} {d : Nat} (hs : TxSound s d) : TxSound s.wakeTxd d := by
  unfold State.wakeTxd
  split
  · exact (hs.zones.with_txd (y := { s.txd with state := .running }) rfl nofun).sound hs.commit_lt hs.visits_le
  · exact hs

/-- A TXD that is woken is not IDLE. -/
theorem State.wakeTxd_state (s : State) : s.wakeTxd.txd.state ≠ .idle := by
  unfold State.wakeTxd
  split
  · exact nofun
  · assumption

/-- A step after which TXD is not IDLE needs no wake-up. -/
theorem TxdAwake.of_not_idle {s : State} (h : s.txd.state ≠ .idle) : TxdAwake s := fun _ hidle => absurd hidle h

/-- An ownership write of a TX_SEND keeps the TX ring: it is to a slot behind the one where TXD stands, and after the last one the
doorbell is due (R232, R233). -/
theorem TxSound.keeps_sendCommit {s : State} {d k i : Nat} (hs : TxSound s d) (hc : s.cfg.configured = true)
    (hw : s.port.w = .txCommit k i) : KeepsTxRing s (s.sendCommit k i) := by
  cases i with
  | zero => exact .of_sound hc (hs.sendCommit_zero hw) fun _ _ _ hbell => absurd rfl (hbell k)
  | succ i =>
    have hne : ringPos s.nTx s.txd.idx 0 ≠ s.sendSlot (i + 1) := fun e => by
      have hik := hs.commit_lt k (i + 1) hw
      have hdone := hs.done_le
      have hroom : s.tx.inUse.toNat + k ≤ s.nTx := by simpa only [hw, WState.filled] using hs.room
      rw [ringPos_add _ _ _ 0 hs.idx_eq, hs.sendSlot_eq] at e
      have := ringPos_inj _ (by omega) (by omega) e
      omega
    have hslot := s.txAt_setTx_ne { s.txAt (s.sendSlot (i + 1)) with owned := true } hne
    exact .of_sound hc (hs.sendCommit_succ hw) fun ha => ha.of_same rfl rfl (s.nTx_setTx _ _) (congrArg TxSlot.owned hslot)
      (by simp [hw])

/-- The doorbell of a TX_SEND keeps the TX ring, and wakes TXD (R233). -/
theorem TxSound.keeps_sendDoorbell {s : State} {d k : Nat} (hs : TxSound s d) (hc : s.cfg.configured = true)
    (hw : s.port.w = .txDoorbell k) : KeepsTxRing s s.sendDoorbell := by
  obtain ⟨txd, he⟩ := s.wakeTxd_frame
  have hw' : s.wakeTxd.port.w = .txDoorbell k := by rw [he, hw]
  refine .of_sound (by rw [State.sendDoorbell, State.retOk_cfg, he, hc]) (hs.wakeTxd.of_same (t := s.sendDoorbell) rfl rfl ?_ ?_
    nofun nofun) fun _ => .of_not_idle s.wakeTxd_state
  · rw [hw']
    rfl
  · rw [hw']
    rfl

/-- A TX_SEND that passes its validation has a fragment (R231). -/
theorem State.sendError_none_pos {s : State} {k : Nat} (h : s.sendError k = none) : 0 < k := by
  refine Nat.pos_of_ne_zero fun h0 => ?_
  subst h0
  cases h

/-- TX_SEND's first step keeps the TX ring: it refuses, or fills free slots and leaves them software-owned (R230,
R231, R234). -/
theorem TxSound.keeps_sendStart {s : State} {d k : Nat} (hs : TxSound s d) (hc : s.cfg.configured = true)
    (hw : s.port.w = .idle) : KeepsTxRing s (s.sendStart k) := by
  have hok : TxRingOk s := (txRingOk_configured hc).mpr ⟨d, hs⟩
  unfold State.sendStart
  split
  · exact .retErr hok hw _
  next herr =>
  split
  · exact .of_configured hok hc rfl rfl rfl (not_inSend_of_idle hw) rfl nofun
  · exact .retErr hok hw _
  next hcheck =>
  have hfree : ∀ i < k, (s.txAt (s.sendSlot i)).isFree = true := fun i hi => by
    rcases s.checkFree_cases (s.sendSlots k) with ⟨-, hall⟩ | ⟨_, _, _, _, _, _, h⟩
    · exact hall _ (List.mem_map_of_mem (List.mem_range.mpr hi))
    · rcases h with ⟨h, -⟩ | ⟨h, -⟩ <;> rw [hcheck] at h <;> cases h
  obtain ⟨hreal, -, -, hk⟩ := State.sendError_none herr
  have hpos := State.sendError_none_pos herr
  obtain ⟨slots, hfill, hlen, hin, hout⟩ := s.fillChain_spec k hk
  have hz := hs.zones
  rw [hw] at hz
  have hnext : TxZones { s.tx with slots := slots } s.txd d (s.tx.inUse.toNat + k) (s.tx.inUse.toNat + k) := by
    refine hz.fill hpos (hz.room_of_free hk hfree) hlen (fun i hi => ?_) hout
    show (slots.getD (s.sendSlot i) TxSlot.free).buf ≠ 0#32 ∧ (slots.getD (s.sendSlot i) TxSlot.free).owned = false ∧
      (slots.getD (s.sendSlot i) TxSlot.free).last = _
    rw [hin i hi]
    exact ⟨hreal _ (List.mem_map_of_mem (List.mem_range.mpr hi)), (isFree_iff.mp (hfree i hi)).1, rfl⟩
  rw [hfill]
  refine .of_sound hc (TxZones.sound (d := d) ?_ (fun k' i h => ?_) nofun) fun ha => ha.of_same rfl rfl hlen ?_
    (by simp [hw])
  · show TxZones { s.tx with slots := slots } s.txd d (s.tx.inUse.toNat + k) (s.tx.inUse.toNat + (k - 1 + 1))
    rwa [Nat.sub_add_cancel hpos]
  · cases h
    exact Nat.sub_lt hpos Nat.one_pos
  · generalize ringPos s.nTx s.txd.idx 0 = p
    show (slots.getD p TxSlot.free).owned = _
    by_cases hp : ∃ i < k, p = s.sendSlot i
    · obtain ⟨i, hi, rfl⟩ := hp
      rw [hin i hi]
    · rw [hout p fun i hi e => hp ⟨i, hi, e⟩]

/-! ### TX_RECLAIM's steps on the TX ring -/

/-- After its visit TX_RECLAIM returns or goes on, with a visit less to do than it had. -/
theorem State.reclaimNext_answers (s : State) (more count : Nat) : ∃ port service,
    s.reclaimNext more count = { s with port := port, service := service } ∧ port.w.inSend = false ∧
      ∀ more' count', port.w = .reclaim more' count' → more' < more := by
  cases more with
  | zero => exact ⟨_, _, rfl, rfl, nofun⟩
  | succ more =>
    refine ⟨_, s.service, rfl, rfl, fun more' count' h => ?_⟩
    cases h
    exact Nat.lt_succ_self more

/-- A visit of TX_RECLAIM keeps the TX ring: the slot at `release` holds a buffer, and if TXD does not own it, it is completed and
leaves the window (R240 to R243). -/
theorem TxSound.keeps_reclaimVisit {s : State} {d more count : Nat} (hs : TxSound s d) (hc : s.cfg.configured = true)
    (hw : s.port.w = .reclaim more count) : KeepsTxRing s (s.reclaimVisit more count) := by
  have hok : TxRingOk s := (txRingOk_configured hc).mpr ⟨d, hs⟩
  have hmore := hs.visits_le more count hw
  have hz := hs.zones
  rw [hw] at hz
  have hheld : (s.txAt (ringPos s.nTx s.tx.release 0)).buf ≠ 0#32 :=
    (hz.held 0 hs.size.pos).mpr (Nat.zero_lt_of_lt hmore)
  have hown := hz.owned 0 hs.size.pos
  unfold State.reclaimVisit
  simp only
  rw [if_neg hheld]
  split
  · exact .of_configured hok hc rfl rfl rfl (by rw [hw]; rfl) rfl nofun
  next hdone =>
  have hd : d ≠ 0 := fun h0 => hdone (hown.mpr (.inl ⟨Nat.le_of_eq h0, Nat.zero_lt_of_lt hmore⟩))
  obtain ⟨d, rfl⟩ := Nat.exists_eq_succ_of_ne_zero hd
  generalize hb : s.txAt (ringPos s.nTx s.tx.release 0) = b at hheld hdone ⊢
  have hnext := hz.reclaim (b := b.clear) rfl (Bool.eq_false_iff.mpr hdone)
  have huse : (s.tx.inUse - 1#17).toNat = s.tx.inUse.toNat - 1 := by bv_omega
  obtain ⟨port, service, he, hsend, hvisits⟩ := State.reclaimNext_answers
    ((s.releaseHandle b.buf).setTx (ringPos s.nTx s.tx.release 0) b.clear).advanceRelease more (count + 1)
  obtain ⟨hf, hu⟩ := filled_of_not_send hsend
  rw [he]
  refine .of_sound hc (TxZones.sound (d := d) ?_ (fun k i h => ?_) fun more' count' h => ?_) fun ha => ha.of_same rfl rfl
    (s.nTx_setTx _ _) ?_ (by simp [hw])
  · show TxZones (s.tx.put 0 b.clear).advance s.txd d (_ + port.w.filled) (_ + port.w.uncommitted)
    rw [hf, hu]
    exact hnext
  · exact absurd hsend (by simp [show port.w = _ from h, WState.inSend])
  · have := hvisits more' count' h
    show more' < (s.tx.inUse - 1#17).toNat
    omega
  · show ((s.setTx (ringPos s.nTx s.tx.release 0) b.clear).txAt _).owned = _
    by_cases hp : ringPos s.nTx s.txd.idx 0 = ringPos s.nTx s.tx.release 0
    · rw [hp, s.txAt_setTx_self _ (ringPos_lt hs.size.pos _ _), hb]
      rfl
    · rw [s.txAt_setTx_ne _ hp]

/-! ### TXD's steps -/

/-- A frame that TXD's walk finds from fragment `j` on is a run of owned slots that ends in a last fragment (R262). -/
theorem State.walkFrame_frame {s : State} {n : Nat} : ∀ fuel j, s.walkFrame j fuel = .frame n →
    j < n ∧ n ≤ j + fuel ∧ (∀ i, j ≤ i → i < n → (s.txAt (ringPos s.nTx s.txd.idx i)).owned = true) ∧
      (s.txAt (ringPos s.nTx s.txd.idx (n - 1))).last = true := by
  intro fuel
  induction fuel with
  | zero => exact fun j h => nomatch h
  | succ fuel ih =>
    intro j h
    simp only [State.walkFrame] at h
    split at h
    · cases h
    next hown =>
    have hown : (s.txAt (ringPos s.nTx s.txd.idx j)).owned = true := by simpa using hown
    split at h
    · cases h
    split at h
    · next hlast =>
      cases h
      refine ⟨Nat.lt_succ_self j, by omega, fun i h1 h2 => ?_, hlast⟩
      obtain rfl : i = j := by omega
      exact hown
    · obtain ⟨hlt, hle, hall, hlast⟩ := ih _ h
      refine ⟨by omega, by omega, fun i h1 h2 => ?_, hlast⟩
      by_cases hij : i = j
      · exact hij ▸ hown
      · exact hall i (by omega) h2

/-- TXD's slots, counted from `release`. -/
theorem TxSound.txAt_idx {s : State} {d : Nat} (hs : TxSound s d) (i : Nat) :
    s.txAt (ringPos s.nTx s.txd.idx i) = s.tx.slot (d + i) := by
  rw [ringPos_add _ _ _ _ hs.idx_eq]
  rfl

/-- TXD's send step keeps the TX ring: the frame it takes lies inside the in-use window (R262). -/
theorem TxSound.keeps_txdSend {s : State} {d : Nat} (hs : TxSound s d) (hc : s.cfg.configured = true) :
    KeepsTxRing s s.txdSend := by
  have hok : TxRingOk s := (txRingOk_configured hc).mpr ⟨d, hs⟩
  have hsize := hs.size.le
  unfold State.txdSend
  split
  · exact .of_port hok rfl rfl rfl rfl
  next n hwalk =>
  obtain ⟨hpos, hle, hown, hlast⟩ := State.walkFrame_frame _ _ hwalk
  have hwindow := hs.zones.window_of_owned (Nat.zero_add s.tx.slots.length ▸ hle) fun i hi =>
    hs.txAt_idx i ▸ hown i (Nat.zero_le i) hi
  have hnat : (BitVec.ofNat 17 n).toNat = n := by
    rw [BitVec.toNat_ofNat]
    omega
  have hahead : FrameAhead s.tx d (BitVec.ofNat 17 n).toNat := by
    rw [hnat]
    refine ⟨hpos, hwindow, ?_⟩
    rw [Nat.add_sub_assoc hpos, ← hs.txAt_idx]
    exact hlast
  exact .of_sound hc (TxZones.sound (hs.zones.with_txd rfl fun _ => hahead) hs.commit_lt hs.visits_le)
    fun _ => .of_not_idle nofun

/-- TXD's registers after a completion step: after the frame's last slot it is RUNNING (R264). -/
def State.completedTxd (s : State) : Txd :=
  { idx := adv s.nTx s.txd.idx, left := s.txd.left - 1#17,
    state := if s.txd.left - 1#17 = 0#17 then .running else s.txd.state }

/-- TXD's completion step on the transmit side of the state. -/
theorem State.txdComplete_frame (s : State) : ∃ err ds n isr, s.txdComplete =
    { s.setTx (ringPos s.nTx s.txd.idx 0) { s.txAt (ringPos s.nTx s.txd.idx 0) with err := err, owned := false } with
      draws := ds, drawNo := n, irq.isr := isr, txd := s.completedTxd } := by
  obtain ⟨ds, n, hdraw⟩ := s.draw_spec
  unfold State.txdComplete State.completedTxd
  simp only [hdraw]
  split
  · next hend =>
    rw [if_pos (show s.txd.left - 1#17 = 0#17 from hend)]
    exact ⟨_, ds, n, _, by rw [adv, State.nTx_setTx]; rfl⟩
  · next hend =>
    rw [if_neg (show ¬s.txd.left - 1#17 = 0#17 from hend)]
    exact ⟨_, ds, n, s.irq.isr, by rw [adv, State.nTx_setTx]; rfl⟩

/-- TXD's completion step keeps the TX ring, with one slot completed more (R264). -/
theorem TxSound.keeps_txdComplete {s : State} {d : Nat} (hs : TxSound s d) (hc : s.cfg.configured = true)
    (hstate : s.txd.state = .completing) : KeepsTxRing s s.txdComplete := by
  obtain ⟨err, ds, n, isr, he⟩ := s.txdComplete_frame
  have hbuf := congrArg TxSlot.buf (hs.txAt_idx 0)
  have hlast := congrArg TxSlot.last (hs.txAt_idx 0)
  have hpos : ringPos s.nTx s.txd.idx 0 = ringPos s.nTx s.tx.release d := ringPos_add _ _ _ 0 hs.idx_eq
  have hnext := hs.zones.complete (y := s.completedTxd)
    (b := { s.txAt (ringPos s.nTx s.txd.idx 0) with err := err, owned := false }) (hs.completing hstate) hbuf hlast rfl rfl rfl
    fun h hend => by simp [State.completedTxd, show s.txd.left - 1#17 = 0#17 from hend] at h
  rw [he, hpos]
  refine .of_sound hc (TxZones.sound (d := d + 1) ?_ hs.commit_lt hs.visits_le) fun _ => .of_not_idle ?_
  · rw [hpos] at hnext
    exact hnext
  · simp only [State.completedTxd]
    split
    · exact nofun
    · rw [hstate]
      exact nofun

/-! ### Every step on the TX ring -/

/-- A visit of RX_POLL leaves the TX ring (R280). -/
theorem KeepsTxRing.pollVisit {s : State} {n : Nat} (hs : TxRingOk s) (hc : s.cfg.configured = true)
    (hw : s.port.w = .pollVisit n) : KeepsTxRing s (s.pollVisit n) := by
  have hsend : s.port.w.inSend = false := by rw [hw]; rfl
  rcases s.pollVisit_answers n with ⟨ds, k, v, h⟩ | h | ⟨-, -, ⟨-, h⟩ | ⟨-, h⟩⟩
  · exact h ▸ .of_configured hs hc rfl rfl rfl hsend rfl nofun
  · exact h ▸ .of_configured hs hc rfl rfl rfl hsend rfl nofun
  · rcases s.linkSlot.endOfFrame_cases n (ringPos s.nRx s.rx.current 0) (s.rxFromCurrent 0).len with
      he | ⟨_, _, _, _, _, _, -, he | he⟩ <;> rw [h, he] <;>
      exact .of_configured hs hc rfl rfl rfl hsend rfl nofun
  · exact h ▸ .of_configured hs hc rfl rfl rfl hsend rfl nofun

/-- Every step of W keeps the TX ring. -/
theorem KeepsTxRing.workerStep {s : State} (hs : TxRingOk s) : KeepsTxRing s s.workerStep := by
  cases hc : s.cfg.configured with
  | false =>
    have hout := ((txRingOk_unconfigured hc).mp hs).2.2
    have hsame : s.workerStep = s := by
      unfold State.workerStep
      cases hw : s.port.w <;> simp_all [WState.outside]
    exact hsame.symm ▸ .refl hs
  | true =>
    obtain ⟨d, hd⟩ := (txRingOk_configured hc).mp hs
    unfold State.workerStep
    split
    · exact .refl hs
    split
    · exact .refl hs
    · exact .refl hs
    · next hw => exact hd.keeps_sendCommit hc hw
    · next hw => exact hd.keeps_sendDoorbell hc hw
    · next hw => exact hd.keeps_reclaimVisit hc hw
    · next hw => exact .pollVisit hs hc hw
    · next hw =>
      have hsend : s.port.w.inSend = false := by rw [hw]; rfl
      unfold State.pollRearm
      split
      · exact .of_configured hs hc rfl rfl rfl hsend rfl nofun
      · simp only
        split <;> exact .of_configured hs hc rfl rfl rfl hsend rfl nofun
    · next hw =>
      have hsend : s.port.w.inSend = false := by rw [hw]; rfl
      unfold State.pollRecycle
      simp only
      split <;> exact .of_configured hs hc rfl rfl rfl hsend rfl nofun

/-- Every step of TXD keeps the TX ring; TXD goes IDLE only at a slot that it does not own (R261). -/
theorem KeepsTxRing.txdStep {s : State} (hs : TxRingOk s) : KeepsTxRing s s.txdStep := by
  unfold State.txdStep
  split
  · exact .refl hs
  next hon =>
  have hc : s.cfg.configured = true := by simp_all
  obtain ⟨d, hd⟩ := (txRingOk_configured hc).mp hs
  split
  · exact .refl hs
  · split
    · exact hd.keeps_txdSend hc
    · next hown =>
      have hidle := hd.zones.with_txd (y := { s.txd with state := .idle }) rfl nofun
      exact .of_sound hc (TxZones.sound hidle hd.commit_lt hd.visits_le) fun _ _ _ _ => Bool.eq_false_iff.mpr hown
  · next hstate => exact hd.keeps_txdComplete hc hstate

/-- A doorbell of ENV keeps the TX ring (R267). -/
theorem KeepsTxRing.ringDoorbell {s : State} (hs : TxRingOk s) : KeepsTxRing s s.ringDoorbell := by
  unfold State.ringDoorbell
  split
  · exact .refl hs
  next hon =>
  have hc : s.cfg.configured = true := by simp_all
  obtain ⟨d, hd⟩ := (txRingOk_configured hc).mp hs
  obtain ⟨txd, he⟩ := s.wakeTxd_frame
  exact .of_sound (by rw [he, hc]) hd.wakeTxd fun _ => .of_not_idle s.wakeTxd_state

/-- The TX ring that CFG constructs is sound, and its TXD is at a free slot (R210). -/
theorem KeepsTxRing.construct {s u : State} {t : BitVec 16} {got : List Handle} {v : Word} (ht : IsRingSize t.toNat) :
    KeepsTxRing s ((u.construct t got).retOk v) := by
  have hstart := TxZones.start ht
  refine .of_sound rfl (TxZones.sound hstart nofun nofun) fun _ _ _ _ => ?_
  exact Bool.eq_false_iff.mpr (mt (hstart.owned 0 hstart.size.pos).mp (by simp))

/-- CFG constructs a sound TX ring, or leaves the transmit side as it is (R210, R211). -/
theorem KeepsTxRing.configure {s : State} (hs : TxRingOk s) (hw : s.port.w = .idle) : KeepsTxRing s s.configure := by
  rcases s.configure_answers with ⟨code, h⟩ | ⟨-, htx, -, -, got, u, hu, hans⟩
  · exact h ▸ .retErr hs hw code
  rcases hans with ⟨-, h⟩ | h
  · exact h ▸ .construct ((pow2_iff _).mp htx)
  · obtain ⟨env, ds, n, hframe⟩ := State.allocateUpTo_frame s.cfgRxCount.toNat s
    obtain ⟨env', hback⟩ := u.releaseAll_frame got
    obtain rfl : u = _ := (congrArg Prod.snd hu).symm.trans hframe
    rw [h, hback]
    exact .of_worker hs rfl rfl rfl (not_inSend_of_idle hw) rfl nofun fun _ => rfl

/-- A command other than CFG keeps the TX ring when its own step does on a configured block. -/
theorem KeepsTxRing.issueConfigured {s : State} {cmd : State → State} (hs : TxRingOk s)
    (h : s.cfg.configured = true → s.port.w = .idle → KeepsTxRing s (cmd s)) : KeepsTxRing s (s.issueConfigured cmd) := by
  rcases s.issueConfigured_cases cmd with he | ⟨-, hb, -, he⟩ | ⟨-, hb, hc, he⟩ <;> rw [he]
  · exact .refl hs
  · exact .retErr hs (idle_of_not_busy hb) _
  · exact h hc (idle_of_not_busy hb)

/-- Every command's first step keeps the TX ring. -/
theorem KeepsTxRing.exec {s t : State} {i : Instr} (hs : TxRingOk s) (h : exec i s = .next t) : KeepsTxRing s t := by
  cases i <;> simp only [Machine.exec] at h
  case irqEntry =>
    obtain ⟨irq, he⟩ := execIrqEntry_frame s
    cases he.symm.trans h
    exact .of_port hs rfl rfl rfl rfl
  all_goals cases h
  case cfg =>
    rcases s.issue_cases State.configure with h | ⟨-, hb, h⟩ <;> rw [h]
    · exact .refl hs
    · exact .configure hs (idle_of_not_busy hb)
  case txSend k =>
    refine .issueConfigured hs fun hc hw => ?_
    obtain ⟨d, hd⟩ := (txRingOk_configured hc).mp hs
    exact hd.keeps_sendStart hc hw
  case txReclaim =>
    refine .issueConfigured hs fun hc hw => ?_
    unfold State.reclaimStart
    split
    · exact .of_configured hs hc rfl rfl rfl (not_inSend_of_idle hw) rfl nofun
    · next more hmore =>
      refine .of_configured hs hc rfl rfl rfl (not_inSend_of_idle hw) rfl fun more' count h => ?_
      cases h
      rw [hmore]
      exact Nat.lt_succ_self more
  case rxPoll => exact .issueConfigured hs fun hc hw => .of_configured hs hc rfl rfl rfl (not_inSend_of_idle hw) rfl nofun
  case evtDrain => exact .issueConfigured hs fun hc hw => .of_configured hs hc rfl rfl rfl (not_inSend_of_idle hw) rfl nofun
  case mcJoin =>
    refine .issueConfigured hs fun hc hw => ?_
    unfold State.joinBucket
    split <;> exact .of_configured hs hc rfl rfl rfl (not_inSend_of_idle hw) rfl nofun
  case mcLeave =>
    refine .issueConfigured hs fun hc hw => ?_
    unfold State.leaveBucket
    split <;> exact .of_configured hs hc rfl rfl rfl (not_inSend_of_idle hw) rfl nofun

/-- Every move of ENV keeps the TX ring. -/
theorem KeepsTxRing.hostAnswer {s t : State} {m : HostMove} (hs : TxRingOk s) (h : HostAnswer s m t) : KeepsTxRing s t := by
  cases h with
  | command i t h duty => exact .exec hs h
  | illegal =>
    rcases s.issue_cases (·.retErr .illegalCommand) with h | ⟨-, hb, h⟩ <;> rw [h]
    · exact .refl hs
    · exact .retErr hs (idle_of_not_busy hb) _
  | doorbell => exact .ringDoorbell hs
  | isr =>
    unfold State.writeIsr
    split
    · exact .refl hs
    · exact .of_port hs rfl rfl rfl rfl
  | arg a =>
    unfold State.writeArg
    split
    · exact .refl hs
    · exact .of_port hs rfl rfl rfl rfl
  | offer frame h0 h1 =>
    obtain ⟨halt, rxd, ctr, h⟩ := s.offerFrame_frame frame
    exact h ▸ .of_port hs rfl rfl rfl rfl
  | ignored => exact .refl hs
  | intIllegal | intQueued | txBase | rxBase | read | giveBack | take | fill | readBuffer =>
    exact .of_port hs rfl rfl rfl rfl

/-- Every turn keeps the TX ring. -/
theorem KeepsTxRing.turnAnswer {s t : State} {turn : Turn} (hs : TxRingOk s) (h : TurnAnswer s turn t) : KeepsTxRing s t := by
  cases h with
  | worker => exact .workerStep hs
  | interrupt =>
    obtain ⟨irq, h⟩ := s.interruptStep_frame
    exact h ▸ .of_port hs rfl rfl rfl rfl
  | txd => exact .txdStep hs
  | rxd =>
    obtain ⟨_, _, _, _, _, h, -⟩ := s.rxdStep_effect
    exact h ▸ .of_port hs rfl rfl rfl rfl
  | host h => exact .hostAnswer hs h

/-- Settles O52: every turn keeps the zones of completed, sent, filled and free slots in step with the cursors and TXD, and writes
an ownership bit where an IDLE TXD stands only when the doorbell is due. -/
theorem everyStepKeepsTheTxRing : Obligations.EveryStepKeepsTheTxRing := by
  intro s t hs h
  obtain ⟨script, n, turn, hturn⟩ := step_takes_turn h
  have hpop : KeepsTxRing s { s with script := script, turnNo := n } := .of_port hs rfl rfl rfl rfl
  have hkeeps := KeepsTxRing.turnAnswer hpop.ring (takeTurn_answer hturn)
  exact ⟨hkeeps.ring, fun ha => hkeeps.awake (hpop.awake ha)⟩

/-! ### CFG -/

/-- CFG on a port that takes commands. -/
theorem exec_cfg {s : State} (hacc : s.Accepting) : exec .cfg s = .next s.configure :=
  congrArg Host.Outcome.next (State.issue_run hacc.1 hacc.2 _)

/-- CFG with legal operands asks for its buffers (R210). -/
theorem State.configure_legal {s : State} (hc : s.cfg.configured = false) (htx : pow2 s.cfgTxCount = true)
    (hrx : pow2 s.cfgRxCount = true) (hcap : s.cfgCapacity ≠ 0#16) {got : List Handle} {u : State}
    (hu : s.allocateUpTo s.cfgRxCount.toNat = (got, u)) :
    s.configure = if got.length = s.cfgRxCount.toNat then (u.construct s.cfgTxCount got).retOk 0#32
      else (u.releaseAll got).retErr .outOfBuffers := by
  obtain ⟨env, ds, n, hframe⟩ := State.allocateUpTo_frame s.cfgRxCount.toNat s
  obtain rfl : u = _ := (congrArg Prod.snd hu).symm.trans hframe
  have hlegal : (!pow2 s.cfgTxCount || !pow2 s.cfgRxCount || s.cfgCapacity == 0#16) = false := by simp [htx, hrx, hcap]
  rw [State.configure, if_neg (by simp [hc]), if_neg (by simp [hlegal]), hu]
  rfl

/-- CFG's RX slots: each armed with its buffer, the last one marked (R210). -/
theorem getD_armedRxSlots (got : List Handle) : ∀ p < got.length, (armedRxSlots got).getD p RxSlot.empty =
    { RxSlot.empty with buf := got.getD p 0#32, wrap := decide (p + 1 = got.length), owned := true } := by
  induction got with
  | nil => exact fun p hp => absurd hp (Nat.not_lt_zero p)
  | cons h hs ih =>
    intro p hp
    cases p with
    | zero => cases hs <;> simp [armedRxSlots, RxSlot.armed]
    | succ p =>
      have := ih p (by simpa using hp)
      simpa [armedRxSlots] using this

/-- Settles O8: with enough free buffers CFG obtains one for each RX slot, each once, and constructs the rings with them. -/
theorem cfgBuildsBothRings : Obligations.CfgBuildsBothRings := by
  intro s hacc hc hcan htx hrx hcap henough
  obtain ⟨got, pool, calls, ds, n, hu, hlen, hnodup, hfree, -, hleft⟩ :=
    State.allocateUpTo_spec s.cfgRxCount.toNat hcan.pool
  rw [Nat.min_eq_left henough] at hlen
  generalize hw : ({ s with
    draws := ds, drawNo := n, env := { s.env with pool := pool, provider := s.env.provider ++ calls } } : State) = u at hu
  obtain ⟨sp, hsp⟩ := State.setSpans_spec got 0#16 u
  have hrun : exec .cfg s = .next ((u.construct s.cfgTxCount got).retOk 0#32) := by
    rw [exec_cfg hacc, State.configure_legal hc htx hrx hcap hu, if_pos hlen]
  have htn : ((u.construct s.cfgTxCount got).retOk 0#32).nTx = s.cfgTxCount.toNat :=
    freeTxSlots_length _
  have hrn : ((u.construct s.cfgTxCount got).retOk 0#32).nRx = got.length := armedRxSlots_length got
  refine ⟨_, got, hrun, rfl, ?_, htn, hrn.trans hlen, ?_, ?_, hrn.symm, hnodup, fun h hh => ?_, ?_, rfl, rfl, rfl, rfl, rfl,
    rfl, rfl, rfl⟩
  · rw [State.retOk_cfg, State.construct, hsp, ← hw]
    rfl
  · rw [htn]
    intro p hp
    have hslot : ((u.construct s.cfgTxCount got).retOk 0#32).txAt p = _ := getD_freeTxSlots hp
    rw [hslot]
    exact ⟨rfl, rfl⟩
  · rw [hrn]
    exact getD_armedRxSlots got
  · refine ⟨HandleSet.ne_zero hcan.pool (hfree h hh), hfree h hh, ?_⟩
    have hspan := State.span_setSpans got 0#16 (s := u) (hw ▸ hcan.span) (hw ▸ hcan.noZeroSpan) h
    rw [if_pos hh] at hspan
    exact hspan
  · rw [State.retOk_env, State.construct_env, ← hw]
    exact hleft

/-- Settles O9: the first check that fails answers; without enough free buffers CFG releases what it obtained, which restores the
free set. -/
theorem cfgErrorsInOrder : Obligations.CfgErrorsInOrder := by
  intro s hacc hpool
  refine ⟨fun hc => ?_, fun hc hbad => ?_, fun hc htx hrx hcap hfew => ?_⟩ <;> rw [exec_cfg hacc]
  · rw [State.configure, if_pos hc]
    rfl
  · have hillegal : (!pow2 s.cfgTxCount || !pow2 s.cfgRxCount || s.cfgCapacity == 0#16) = true := by
      rcases hbad with h | h | h <;> simp [h]
    rw [State.configure, if_neg (by simp [hc]), if_pos hillegal]
    rfl
  · obtain ⟨got, pool, calls, ds, n, hu, hlen, -, hfree, hwf, hleft⟩ :=
      State.allocateUpTo_spec s.cfgRxCount.toNat hpool
    have hshort : got.length ≠ s.cfgRxCount.toNat := by omega
    obtain ⟨pool', hback, hwf', hall⟩ := State.releaseAll_spec got (s := { s with
      draws := ds, drawNo := n, env := { s.env with pool := pool, provider := s.env.provider ++ calls } }) hwf
      fun h hh => HandleSet.ne_zero hpool (hfree h hh)
    have hsame : pool' = s.env.pool := HandleSet.ext hwf' hpool fun h => by
      have := hfree h
      rw [hall h, show h ∈ pool ↔ _ from hleft h]
      tauto
    refine ⟨_, rfl, ?_⟩
    rw [State.configure_legal hc htx hrx hcap hu, if_neg hshort, hback]
    exact ⟨rfl, ⟨hacc.1, rfl⟩, rfl, rfl, rfl, rfl, rfl, hsame, rfl, rfl, rfl, rfl, rfl, rfl, rfl, rfl, rfl, rfl⟩

/-- What CFG writes, whatever it answers: its own registers, the port, the rings, the DMA agents' registers, spans, the free set
with the history of calls, and the model's own draws (R210). -/
theorem exec_cfg_effect {s t : State} (h : exec .cfg s = .next t) :
    ∃ configured cap linkAddr port tx txd rx rxd span pool provider ds n, t = { s with
      cfg := { s.cfg with configured := configured, cap := cap, linkAddr := linkAddr }
      port := port, tx := tx, txd := txd, rx := rx, rxd := rxd, buf.span := span
      env := { s.env with pool := pool, provider := provider }, draws := ds, drawNo := n } := by
  cases h
  rcases s.issue_cases State.configure with h | ⟨-, -, h⟩
  · exact ⟨_, _, _, _, _, _, _, _, _, _, _, _, _, h⟩
  rcases s.configure_cases with ⟨code, hans⟩ | ⟨got, pool, provider, ds, n, -, hans | hans⟩ <;> rw [h, hans]
  · exact ⟨_, _, _, _, _, _, _, _, _, _, _, _, _, rfl⟩
  · obtain ⟨sp, hsp⟩ := State.setSpans_spec got 0#16 { s with
      draws := ds, drawNo := n, env := { s.env with pool := pool, provider := provider } }
    rw [State.construct, hsp]
    exact ⟨_, _, _, _, _, _, _, _, _, _, _, _, _, rfl⟩
  · exact ⟨_, _, _, _, _, _, _, _, _, _, _, _, _, rfl⟩

/-- Settles O10: nothing that the statement names is among what CFG writes. -/
theorem cfgFrame : Obligations.CfgFrame := by
  intro s t h
  obtain ⟨_, _, _, _, _, _, _, _, _, _, _, _, _, rfl⟩ := exec_cfg_effect h
  exact ⟨rfl, rfl, rfl, rfl, rfl, rfl, rfl, rfl, rfl, rfl, rfl, rfl, rfl, rfl, fun _ => rfl⟩

/-! ### Offered frames -/

/-- Settles O22: RXD takes a frame only when all four of its conditions hold (R213, R300). -/
theorem framesNotTakenAreLost : Obligations.FramesNotTakenAreLost := by
  intro s frame h
  have hno : (s.cfg.configured && !s.halted && s.rxd.frame.isNone && s.rxAccepts frame) = false := by
    rcases h with h | h | h | h
    · simp [h]
    · simp [halted_of_fault h]
    · simp [h]
    · simp [h]
  rw [State.offerFrame, hno]
  rfl

end Sys2Proof.Machine

/-! Family 41_transmit: sound rings raise no fault, TX_SEND, TX_RECLAIM and TXD's steps. -/

namespace Sys2Proof.Machine

/-! ### What the walks find on sound rings -/

/-- Every slot of a ring is some number of places after any index. -/
theorem ringPos_surj {n p : Nat} (i : Index) (hp : p < n) : ∃ j < n, ringPos n i j = p := by
  have hpos : 0 < n := Nat.zero_lt_of_lt hp
  refine ⟨(p + (n - i.toNat % n)) % n, Nat.mod_lt _ hpos, ?_⟩
  have hlt := Nat.mod_lt i.toNat hpos
  have hdiv := Nat.div_add_mod i.toNat n
  have hsum : i.toNat + (p + (n - i.toNat % n)) = p + n * (i.toNat / n + 1) := by
    rw [Nat.mul_add_one]
    omega
  rw [ringPos, Nat.add_mod_mod, hsum, Nat.add_mul_mod_self_left, Nat.mod_eq_of_lt hp]

/-- A TX slot that TXD owns lies in the ring. -/
theorem State.lt_nTx_of_owned {s : State} {p : Nat} (h : (s.txAt p).owned = true) : p < s.nTx := by
  by_contra hno
  rw [State.txAt, List.getD_eq_default _ _ (Nat.not_lt.mp hno)] at h
  cases h

/-- An RX slot that RXD owns lies in the ring. -/
theorem State.lt_nRx_of_owned {s : State} {p : Nat} (h : (s.rxAt p).owned = true) : p < s.nRx := by
  by_contra hno
  rw [State.rxAt, List.getD_eq_default _ _ (Nat.not_lt.mp hno)] at h
  cases h

/-- On a sound TX ring every owned slot holds a buffer (R64). -/
theorem TxSound.buf_of_owned {s : State} {d p : Nat} (hs : TxSound s d) (h : (s.txAt p).owned = true) :
    (s.txAt p).buf ≠ 0#32 := by
  obtain ⟨j, hj, rfl⟩ := ringPos_surj s.tx.release (State.lt_nTx_of_owned h)
  have hz := hs.zones
  have hinUse := hz.inUse_le
  have hown := (hz.owned j hj).mp h
  exact (hz.held j hj).mpr (by omega)

/-- On a sound RX ring every owned slot holds a buffer (R64). -/
theorem RxSound.buf_of_owned {s : State} {a p : Nat} (hs : RxSound s a) (h : (s.rxAt p).owned = true) :
    (s.rxAt p).buf ≠ 0#32 := by
  obtain ⟨j, hj, rfl⟩ := ringPos_surj s.rx.current (State.lt_nRx_of_owned h)
  by_cases hwritten : j < a
  · exact (hs.written_slots j hwritten).1
  by_cases harmed : j + s.emptySlots < s.nRx
  · exact (hs.armed_slots j (Nat.not_lt.mp hwritten) harmed).1
  · exact absurd ((hs.empty_slots j hj (Nat.not_lt.mp harmed)).2.symm.trans h) (by decide)

/-- TX_SEND's check finds no fault on a sound TX ring (R230 step 1). -/
theorem TxSound.checkFree_ne_broken {s : State} {d : Nat} (hs : TxSound s d) (ps : List Nat) (p : Nat) :
    s.checkFree ps ≠ .broken p := by
  intro h
  rcases s.checkFree_cases ps with ⟨hfree, -⟩ | ⟨_, q, _, _, _, _, ⟨hfull, -⟩ | ⟨-, hbuf, hown⟩⟩
  · cases hfree.symm.trans h
  · cases hfull.symm.trans h
  · exact hs.buf_of_owned hown hbuf

/-- RXD's start check finds no fault on a sound RX ring (R301). -/
theorem RxSound.checkArmed_ne_broken {s : State} {a : Nat} (hs : RxSound s a) (ps : List Nat) (p : Nat) :
    s.checkArmed ps ≠ .broken p := by
  intro h
  rcases s.checkArmed_cases ps with ⟨hall, -⟩ | ⟨_, q, _, _, _, ⟨hnot, -⟩ | ⟨-, hown, hbuf⟩⟩
  · cases hall.symm.trans h
  · cases hnot.symm.trans h
  · exact hs.buf_of_owned hown hbuf

/-- TXD's walk finds a frame when owned slots with a buffer lead up to a last fragment (R262). -/
theorem State.walkFrame_finds {s : State} {k : Nat} (hlast : (s.txAt (ringPos s.nTx s.txd.idx k)).last = true) :
    ∀ fuel j, j ≤ k → k < j + fuel →
      (∀ i, j ≤ i → i ≤ k → (s.txAt (ringPos s.nTx s.txd.idx i)).owned = true ∧
        (s.txAt (ringPos s.nTx s.txd.idx i)).buf ≠ 0#32) →
      ∃ n, s.walkFrame j fuel = .frame n := by
  intro fuel
  induction fuel with
  | zero => exact fun j h1 h2 => absurd h2 (Nat.not_lt.mpr h1)
  | succ fuel ih =>
    intro j hjk hfuel hslots
    obtain ⟨hown, hbuf⟩ := hslots j le_rfl hjk
    cases hl : (s.txAt (ringPos s.nTx s.txd.idx j)).last with
    | true => exact ⟨j + 1, by simp [State.walkFrame, hown, hbuf, hl]⟩
    | false =>
      have hne : j ≠ k := fun e => absurd (hlast.symm.trans (e ▸ hl)) (by decide)
      obtain ⟨n, hn⟩ := ih (j + 1) (by omega) (by omega) fun i h1 h2 => hslots i (Nat.le_of_succ_le h1) h2
      exact ⟨n, by simpa [State.walkFrame, hown, hbuf, hl] using hn⟩

/-- On a sound TX ring TXD, at a slot that it owns, finds a whole frame: the in-use window ends in a last fragment (R262). -/
theorem TxSound.finds_frame {s : State} {d : Nat} (hs : TxSound s d)
    (hown : (s.txAt (ringPos s.nTx s.txd.idx 0)).owned = true) : ∃ n, s.walkFrame 0 s.nTx = .frame n := by
  have hwindow : d + 1 ≤ s.tx.inUse.toNat := hs.zones.window_of_owned hs.size.pos fun i hi => by
    obtain rfl := Nat.lt_one_iff.mp hi
    exact hs.txAt_idx 0 ▸ hown
  have hinUse : s.tx.inUse.toNat ≤ s.nTx := Nat.le_trans (Nat.le_add_right _ _) hs.room
  refine State.walkFrame_finds (k := s.tx.inUse.toNat - 1 - d) ?_ _ 0 (Nat.zero_le _) (by omega) fun i _ hi => ?_
  · rw [hs.txAt_idx, Nat.add_sub_cancel' (by omega)]
    exact hs.last_closed hwindow
  · rw [hs.txAt_idx]
    exact (hs.sent_slots (d + i) (Nat.le_add_right _ _) (by omega)).symm

/-- A slot that RX_POLL visits and that RXD does not own holds a buffer: the open frame alone never fills the ring (R280, R307). -/
theorem RxSound.buf_of_visited {s : State} {a : Nat} (hs : RxSound s a) (hr : s.port.w.inRefill = false)
    (hown : (s.rxFromCurrent 0).owned = false) : (s.rxFromCurrent 0).buf ≠ 0#32 := by
  cases a with
  | succ a => exact (hs.written_slots 0 (Nat.succ_pos a)).1
  | zero =>
    have hopen : s.rx.chain.length = s.rxd.written := openFragments_of_not_refill hr ▸ hs.frames
    have hwritten : s.rxd.written < s.nRx := by
      cases hf : s.rxd.frame with
      | none => simpa [Rxd.written, hf] using hs.size.pos
      | some frame =>
        obtain ⟨-, -, -, hlt, -, hle⟩ := hs.taken frame hf
        simpa [Rxd.written, hf] using Nat.lt_of_lt_of_le hlt hle
    have hempty := emptySlots_of_not_refill hr
    have harmed := (hs.armed_slots 0 le_rfl (by omega)).2
    exact absurd (hown.symm.trans harmed) (by decide)

/-! ### No step on sound rings raises a fault -/

/-- TX_SEND's first step on a sound TX ring raises no fault (R230). -/
theorem TxSound.sendStart_halt {s : State} {d : Nat} (hs : TxSound s d) (k : Nat) : (s.sendStart k).halt = s.halt := by
  unfold State.sendStart
  split
  · rfl
  split
  · next p h => exact absurd h (hs.checkFree_ne_broken _ p)
  · rfl
  · obtain ⟨slots, h, -⟩ := s.fillChain_handles k
    rw [h]
    rfl

/-- A visit of TX_RECLAIM on a sound TX ring raises no fault (R240). -/
theorem TxSound.reclaimVisit_halt {s : State} {d more count : Nat} (hs : TxSound s d)
    (hw : s.port.w = .reclaim more count) : (s.reclaimVisit more count).halt = s.halt := by
  have hmore := hs.visits_le more count hw
  have hz := hs.zones
  have hinUse := hz.inUse_le
  have hheld : (s.txAt (ringPos s.nTx s.tx.release 0)).buf ≠ 0#32 := (hz.held 0 hs.size.pos).mpr (by omega)
  unfold State.reclaimVisit
  simp only
  rw [if_neg hheld]
  split
  · rfl
  · generalize s.txAt (ringPos s.nTx s.tx.release 0) = b
    obtain ⟨port, service, h, -⟩ := State.reclaimNext_answers
      ((s.releaseHandle b.buf).setTx (ringPos s.nTx s.tx.release 0) b.clear).advanceRelease more (count + 1)
    rw [h]
    rfl

/-- The end of a frame whose length fits its fragments raises no fault (R283). -/
theorem State.endOfFrame_halt {s : State} {len : BitVec 16} (hfit : s.lengthFits s.rx.chain.length len = true) (n p : Nat) :
    (s.endOfFrame n p len).halt = s.halt := by
  rcases s.endOfFrame_answers n p len with ⟨hno, -⟩ | ⟨got, u, hu, hans⟩
  · exact absurd (hno.symm.trans hfit) (by decide)
  obtain ⟨sp, hsp⟩ := s.spanChain_frame len
  obtain ⟨env, ds, k, hframe⟩ := State.allocateUpTo_frame s.rx.chain.length (s.spanChain len)
  obtain rfl : u = _ := (congrArg Prod.snd hu).symm.trans hframe
  have hhalt : (s.spanChain len).halt = s.halt := by rw [hsp]
  rcases hans with ⟨-, h⟩ | h <;> rw [h]
  · exact hhalt
  · obtain ⟨env', hback⟩ := State.releaseAll_frame got { s.spanChain len with draws := ds, drawNo := k, env := env }
    rw [hback]
    exact hhalt

/-- A visit of RX_POLL on a sound RX ring raises no fault (R280, R283). -/
theorem RxSound.pollVisit_halt {s : State} {a n : Nat} (hs : RxSound s a) (hw : s.port.w = .pollVisit n) :
    (s.pollVisit n).halt = s.halt := by
  have hr : s.port.w.inRefill = false := by rw [hw]; rfl
  unfold State.pollVisit
  simp only
  split
  · obtain ⟨ds, k, h⟩ := s.countValue_frame n
    simp only [State.pollReturn, h]
    rfl
  next hown =>
  have hbuf : (s.rxAt (ringPos s.nRx s.rx.current 0)).buf ≠ 0#32 := hs.buf_of_visited hr (Bool.eq_false_iff.mpr hown)
  rw [if_neg hbuf]
  split
  · next heof =>
    obtain ⟨b, rfl⟩ := hs.zones.written_of_visited (Bool.eq_false_iff.mpr hown) hbuf
    have hlen : s.linkSlot.rx.chain.length = s.rx.chain.length + 1 := by simp [State.linkSlot]
    exact State.endOfFrame_halt (hlen ▸ (hs.frames_linkSlot hr).1 heof) _ _
  · rfl

/-- W does nothing while no command runs (R52, R408). -/
theorem State.workerStep_of_outside {s : State} (h : s.port.w.outside = true) : s.workerStep = s := by
  unfold State.workerStep
  cases hw : s.port.w <;> simp_all [WState.outside]

/-- W's step on sound rings raises no fault. -/
theorem workerStep_halt {s : State} (htx : TxRingOk s) (hrx : RxRingOk s) : s.workerStep.halt = s.halt := by
  cases hc : s.cfg.configured with
  | false =>
    obtain ⟨-, -, hout⟩ := (txRingOk_unconfigured hc).mp htx
    rw [State.workerStep_of_outside hout]
  | true =>
    obtain ⟨d, hd⟩ := (txRingOk_configured hc).mp htx
    obtain ⟨a, ha⟩ := (rxRingOk_configured hc).mp hrx
    unfold State.workerStep
    split
    · rfl
    split
    · rfl
    · rfl
    · next k i _ => cases i <;> rfl
    · obtain ⟨txd, h⟩ := s.wakeTxd_frame
      rw [State.sendDoorbell, h]
      rfl
    · next hw => exact hd.reclaimVisit_halt hw
    · next hw => exact ha.pollVisit_halt hw
    · unfold State.pollRearm
      split
      · rfl
      · simp only
        split <;> rfl
    · unfold State.pollRecycle
      simp only
      split <;> rfl

/-- TXD's step on a sound TX ring raises no fault: at a slot that it owns it finds a whole frame (R262). -/
theorem txdStep_halt {s : State} (hs : TxRingOk s) : s.txdStep.halt = s.halt := by
  unfold State.txdStep
  split
  · rfl
  next hon =>
  have hc : s.cfg.configured = true := by simp_all
  obtain ⟨d, hd⟩ := (txRingOk_configured hc).mp hs
  split
  · rfl
  · split
    · next hown =>
      obtain ⟨n, hn⟩ := hd.finds_frame hown
      unfold State.txdSend
      rw [hn]
      rfl
    · rfl
  · obtain ⟨err, ds, n, isr, h⟩ := s.txdComplete_frame
    rw [h]
    rfl

/-- RXD's start step on a sound RX ring raises no fault (R301). -/
theorem offerFrame_halt {s : State} (hs : RxRingOk s) (frame : List Byte) : (s.offerFrame frame).halt = s.halt := by
  unfold State.offerFrame
  split
  · next hon =>
    have hc : s.cfg.configured = true := by simp_all
    obtain ⟨a, ha⟩ := (rxRingOk_configured hc).mp hs
    unfold State.rxdStart
    simp only
    split
    · rfl
    split
    · next p h => exact absurd h (ha.checkArmed_ne_broken _ p)
    · rfl
    · rfl
  · rfl

/-- A command other than CFG, whose own step on a configured block raises no fault. -/
theorem State.issueConfigured_halt {s : State} {cmd : State → State}
    (h : s.cfg.configured = true → (cmd s).halt = s.halt) : (s.issueConfigured cmd).halt = s.halt := by
  rcases s.issueConfigured_cases cmd with he | ⟨-, -, -, he⟩ | ⟨-, -, hc, he⟩ <;> rw [he]
  · rfl
  · exact h hc

/-- A command's first step on a sound TX ring raises no fault. -/
theorem exec_halt {s t : State} {i : Instr} (hs : TxRingOk s) (h : exec i s = .next t) : t.halt = s.halt := by
  cases i
  case cfg =>
    obtain ⟨_, _, _, _, _, _, _, _, _, _, _, _, _, rfl⟩ := exec_cfg_effect h
    rfl
  case irqEntry =>
    obtain ⟨irq, he⟩ := execIrqEntry_frame s
    cases he.symm.trans h
    rfl
  all_goals cases h
  case txSend k =>
    refine State.issueConfigured_halt fun hc => ?_
    obtain ⟨d, hd⟩ := (txRingOk_configured hc).mp hs
    exact hd.sendStart_halt k
  case txReclaim =>
    obtain ⟨port, service, h, -⟩ := s.reclaimStart_frame
    exact State.issueConfigured_halt fun _ => by rw [h]
  case rxPoll => exact State.issueConfigured_halt fun _ => rfl
  case evtDrain => exact State.issueConfigured_halt fun _ => rfl
  case mcJoin =>
    obtain ⟨port, mc, h, -⟩ := s.joinBucket_frame
    exact State.issueConfigured_halt fun _ => by rw [h]
  case mcLeave =>
    obtain ⟨port, mc, h, -⟩ := s.leaveBucket_frame
    exact State.issueConfigured_halt fun _ => by rw [h]

/-- A move of ENV on sound rings raises no fault. -/
theorem HostAnswer.halt {s t : State} {m : HostMove} (h : HostAnswer s m t) (htx : TxRingOk s) (hrx : RxRingOk s) :
    t.halt = s.halt := by
  cases h with
  | command i t h duty => exact exec_halt htx h
  | illegal => rcases s.issue_cases (·.retErr .illegalCommand) with h | ⟨-, -, h⟩ <;> rw [h]; rfl
  | doorbell =>
    obtain ⟨txd, h⟩ := s.ringDoorbell_frame
    rw [h]
  | isr => unfold State.writeIsr; split <;> rfl
  | arg a => unfold State.writeArg; split <;> rfl
  | offer frame h0 h1 => exact offerFrame_halt hrx frame
  | intIllegal | intQueued | txBase | rxBase | ignored | read | giveBack | take | fill | readBuffer => rfl

/-- No turn on sound rings raises a fault (R262, R307, R405). -/
theorem TurnAnswer.halt {s t : State} {turn : Turn} (h : TurnAnswer s turn t) (htx : TxRingOk s) (hrx : RxRingOk s) :
    t.halt = s.halt := by
  cases h with
  | worker => exact workerStep_halt htx hrx
  | interrupt =>
    obtain ⟨irq, h⟩ := s.interruptStep_frame
    rw [h]
  | txd => exact txdStep_halt htx
  | rxd =>
    obtain ⟨_, _, _, _, _, h, -⟩ := s.rxdStep_effect
    rw [h]
  | host h => exact h.halt htx hrx

/-- No step on sound rings raises a fault. -/
theorem step_halt {s t : State} (htx : TxRingOk s) (hrx : RxRingOk s) (h : step s = .next t) : t.halt = s.halt := by
  obtain ⟨script, n, turn, hturn⟩ := step_takes_turn h
  have hpop : KeepsTxRing s { s with script := script, turnNo := n } := .of_port htx rfl rfl rfl rfl
  exact (takeTurn_answer hturn).halt hpop.ring (hrx.of_port rfl rfl rfl rfl rfl hrx.pool_bufs)

/-- What every step keeps holds at the end of a run. -/
theorem run_keeps {P : State → Prop} (hstep : ∀ s t, P s → step s = .next t → P t) :
    ∀ n s t, P s → Sys2Proof.core.run n s = .next t → P t := by
  intro n
  induction n with
  | zero =>
    intro s t hs h
    cases h
    exact hs
  | succ n ih =>
    intro s t hs h
    simp only [Host.Core.run, core] at h
    split at h
    · next u hu => exact ih u t (hstep s u hs hu) h
    · cases h
    · cases h

/-- Both rings are sound and the block has no fault. -/
structure FaultFree (s : State) : Prop where
  tx : TxRingOk s
  rx : RxRingOk s
  fault : s.halt.fault = 0#4

/-- After reset there are no rings, W is idle, and the free set holds real handles (R450). -/
theorem FaultFree.reset (script : List Turn) (draws : List Nat) (params : Params) :
    FaultFree { State.reset with script := script, draws := draws, params := params } :=
  ⟨(txRingOk_unconfigured rfl).mpr ⟨rfl, rfl, rfl⟩,
    (rxRingOk_unconfigured rfl).mpr ⟨rfl, rfl, rfl, rfl, fun _ => HandleSet.ne_zero (HandleSet.ofList_wf Config.pool)⟩, rfl⟩

/-- Every step of a block with sound rings and no fault keeps it so. -/
theorem FaultFree.step {s t : State} (hs : FaultFree s) (h : step s = .next t) : FaultFree t :=
  ⟨(everyStepKeepsTheTxRing s t hs.tx h).1, everyStepKeepsTheRxRing s t hs.rx h, by
    rw [step_halt hs.tx hs.rx h]
    exact hs.fault⟩

/-- Settles O54: on sound rings every check that could raise a fault passes, and every state of a run from reset has sound rings. -/
theorem noFaultArises : Obligations.NoFaultArises :=
  ⟨fun _ _ htx hrx hfault h => (FaultFree.step ⟨htx, hrx, hfault⟩ h).fault,
    fun script draws params n t h =>
      (run_keeps (fun _ _ => FaultFree.step) n _ t (.reset script draws params) h).fault⟩


/-! ### TX_SEND's validation and first step -/

/-- TX_SEND on a configured block whose port takes commands. -/
theorem exec_txSend {s : State} (hr : s.Ready) (k : Nat) : exec (.txSend k) s = .next (s.sendStart k) := by
  obtain ⟨hh, hb, hc⟩ := hr
  exact congrArg Host.Outcome.next (State.issueConfigured_run hh hb hc _)

/-- The four checks of R231 that answer `BadChain`, as one condition. -/
def State.chainBad (s : State) (k : Nat) : Bool :=
  decide (k = 0) || (List.range k).any s.badFragment || !decide (s.sendHandles k).Nodup ||
    (s.sendHandles k).any s.slotOrChainHolds

/-- The alignment check of R231. -/
def State.chainMisaligned (s : State) (k : Nat) : Bool :=
  (List.range k).any fun i => (s.bufAddr (s.sendHandle i)).toNat % s.txAlign != 0

/-- TX_SEND's validation in three checks: the chain, its alignment, and the size of the ring (R231). -/
theorem State.sendError_eq (s : State) (k : Nat) : s.sendError k =
    if s.chainBad k then some .badChain else if s.chainMisaligned k then some .unaligned
    else if s.nTx < k then some .ringFull else none := by
  unfold State.sendError State.chainBad State.chainMisaligned
  by_cases hcount : k = 0
  · simp only [hcount, decide_true, Bool.true_or, if_true]
  cases hfragment : (List.range k).any s.badFragment
  · cases hrepeated : !decide (s.sendHandles k).Nodup
    · cases hheld : (s.sendHandles k).any s.slotOrChainHolds
      all_goals simp only [hcount, decide_false, Bool.or_false, Bool.or_true, Bool.false_eq_true, if_false, if_true]
    · simp only [hcount, decide_false, Bool.or_true, Bool.true_or, Bool.false_eq_true, if_false, if_true]
  · simp only [hcount, decide_false, Bool.or_true, Bool.true_or, if_false, if_true]

/-- Two fragments have one handle when the handles repeat (R231). -/
theorem State.sendHandles_repeat_iff (s : State) (k : Nat) :
    ¬(s.sendHandles k).Nodup ↔ ∃ i < k, ∃ j < k, i ≠ j ∧ s.sendHandle i = s.sendHandle j := by
  rw [State.sendHandles, List.nodup_map_iff_inj_on List.nodup_range]
  simp only [List.mem_range]
  push Not
  exact ⟨fun ⟨i, hi, j, hj, he, hne⟩ => ⟨i, hi, j, hj, hne, he⟩, fun ⟨i, hi, j, hj, hne, he⟩ => ⟨i, hi, j, hj, he, hne⟩⟩

/-- What makes a chain bad, in the order of R231. -/
theorem State.chainBad_iff (s : State) (k : Nat) : s.chainBad k = true ↔
    k = 0 ∨ (∃ i < k, s.sendHandle i = 0#32 ∨ s.sendLen i = 0#16 ∨ s.cfg.cap.toNat < (s.sendLen i).toNat) ∨
    (∃ i < k, ∃ j < k, i ≠ j ∧ s.sendHandle i = s.sendHandle j) ∨
    ∃ i < k, (∃ d ∈ s.tx.slots, d.buf = s.sendHandle i) ∨ (∃ d ∈ s.rx.slots, d.buf = s.sendHandle i) ∨
      s.sendHandle i ∈ s.rx.chain := by
  rw [← s.sendHandles_repeat_iff k]
  simp only [State.chainBad, Bool.or_eq_true, decide_eq_true_eq, Bool.not_eq_true', decide_eq_false_iff_not, or_assoc]
  simp only [List.any_eq_true, List.mem_range, State.badFragment, Bool.or_eq_true, beq_iff_eq, decide_eq_true_eq, or_assoc,
    State.sendHandles, List.any_map, Function.comp_apply, slotOrChainHolds_iff, List.mem_map]

/-- What makes a chain misaligned (R231, R234). -/
theorem State.chainMisaligned_iff (s : State) (k : Nat) : s.chainMisaligned k = true ↔
    ∃ i < k, (s.bufAddr (s.sendHandle i)).toNat % s.txAlign ≠ 0 := by
  simp only [State.chainMisaligned, List.any_eq_true, List.mem_range, bne_iff_ne]

/-- TX_SEND's check passes when the slots of all fragments are free (R230 step 1). -/
theorem State.checkFree_sendSlots {s : State} {k : Nat} (hfree : ∀ i < k, (s.txAt (s.sendSlot i)).isFree = true) :
    s.checkFree (s.sendSlots k) = .allFree := by
  have hall : ∀ p ∈ s.sendSlots k, (s.txAt p).isFree = true := fun p hp => by
    obtain ⟨i, hi, rfl⟩ := List.mem_map.mp hp
    exact hfree i (List.mem_range.mp hi)
  rw [← List.append_nil (s.sendSlots k), s.checkFree_append hall]
  rfl

/-- TX_SEND on free slots fills them (R230 steps 1 to 3). -/
theorem State.sendStart_of_free {s : State} {k : Nat} (herr : s.sendError k = none)
    (hfree : ∀ i < k, (s.txAt (s.sendSlot i)).isFree = true) :
    s.sendStart k = (s.fillChain k).goOn (.txCommit k (k - 1)) := by
  simp only [State.sendStart, herr, State.checkFree_sendSlots hfree]

/-- TX_SEND at a slot that is not free answers `RingFull` where no slot is owned and empty (R230 step 1). -/
theorem State.sendStart_of_used {s : State} {k : Nat} (herr : s.sendError k = none)
    (hsound : ∀ i < k, (s.txAt (s.sendSlot i)).buf = 0#32 → (s.txAt (s.sendSlot i)).owned = false)
    (hused : ∃ i < k, (s.txAt (s.sendSlot i)).isFree = false) : s.sendStart k = s.retErr .ringFull := by
  have hcheck : s.checkFree (s.sendSlots k) = .full := by
    rcases s.checkFree_cases (s.sendSlots k) with ⟨-, hall⟩ | ⟨pre, p, post, hsplit, -, -, ⟨h, -⟩ | ⟨-, hbuf, hown⟩⟩
    · obtain ⟨i, hi, hno⟩ := hused
      exact absurd ((hall _ (List.mem_map_of_mem (List.mem_range.mpr hi))).symm.trans hno) (by decide)
    · exact h
    · have hp : p ∈ s.sendSlots k := hsplit ▸ List.mem_append_right _ List.mem_cons_self
      obtain ⟨i, hi, rfl⟩ := List.mem_map.mp hp
      exact absurd ((hsound i (List.mem_range.mp hi) hbuf).symm.trans hown) (by decide)
  simp only [State.sendStart, herr, hcheck]

/-- TX_SEND returns the error that its validation finds (R231). -/
theorem State.sendStart_of_error {s : State} {k : Nat} {code : ResultCode} (h : s.sendError k = some code) :
    s.sendStart k = s.retErr code := by
  simp only [State.sendStart, h]

/-- Settles O14: the validation's checks in their order, then the free-slot check, each of which returns its error. -/
theorem sendErrorsInOrder : Obligations.SendErrorsInOrder := by
  intro s k hr badCount badFragment repeated held misaligned answers
  have hanswers : ∀ code, s.sendStart k = s.retErr code → answers code := fun code h => by
    show exec (.txSend k) s = _
    rw [exec_txSend hr, h]
    rfl
  have hgood : ¬(badCount ∨ badFragment ∨ repeated ∨ held) → s.chainBad k = false := fun h =>
    Bool.eq_false_iff.mpr (mt (s.chainBad_iff k).mp h)
  have haligned : ¬misaligned → s.chainMisaligned k = false := fun h =>
    Bool.eq_false_iff.mpr (mt (s.chainMisaligned_iff k).mp h)
  have heq := s.sendError_eq k
  refine ⟨fun hbad => ?_, fun hok hmis => ?_, fun hok hmis hroom => ?_, fun hok hmis hroom hsound hused => ?_⟩ <;>
    apply hanswers
  · rw [(s.chainBad_iff k).mpr hbad] at heq
    exact State.sendStart_of_error heq
  · rw [hgood hok, (s.chainMisaligned_iff k).mpr hmis] at heq
    exact State.sendStart_of_error heq
  · rw [hgood hok, haligned hmis, if_pos hroom] at heq
    exact State.sendStart_of_error heq
  · rw [hgood hok, haligned hmis, if_neg (Nat.not_lt.mpr hroom)] at heq
    exact State.sendStart_of_used heq hsound hused

/-- On a sound TX ring with no TX_SEND running, the slots behind the cursor are free as far as the ring has room (R204). -/
theorem TxSound.free_iff_room {s : State} {d k : Nat} (hs : TxSound s d) (hw : s.port.w = .idle) (hk : k ≤ s.nTx) :
    (∀ i < k, (s.txAt (s.sendSlot i)).isFree = true) ↔ s.tx.inUse.toNat + k ≤ s.nTx := by
  have hz := hs.zones
  rw [hw] at hz
  refine ⟨hz.room_of_free hk, fun hroom i hi => ?_⟩
  rw [hs.sendSlot_eq]
  exact hs.free_slots _ (by rw [hw]; exact Nat.le_add_right _ _) (by omega)

/-- Settles O15: the slots that TX_SEND asks for are free exactly when the ring has room for them, and none is owned and empty. -/
theorem ringFullExactlyWhenNoRoom : Obligations.RingFullExactlyWhenNoRoom := by
  intro s k hr hring herr
  have hw := idle_of_not_busy hr.2.1
  obtain ⟨d, hd⟩ := (txRingOk_configured hr.2.2).mp hring
  obtain ⟨-, -, -, hk⟩ := State.sendError_none herr
  have hroom := hd.free_iff_room hw hk
  rw [exec_txSend hr]
  constructor
  · intro h
    by_contra hno
    have hfill := State.sendStart_of_free herr (hroom.mpr (Nat.not_lt.mp hno))
    have hport := congrArg (·.port.w) (hfill.symm.trans (Host.Outcome.next.inj h))
    cases hport
  · intro hfull
    have hused : ∃ i < k, (s.txAt (s.sendSlot i)).isFree = false := by
      simpa using mt hroom.mp (Nat.not_le.mpr hfull)
    have hsound : ∀ i < k, (s.txAt (s.sendSlot i)).buf = 0#32 → (s.txAt (s.sendSlot i)).owned = false := fun i _ hbuf =>
      Bool.eq_false_iff.mpr fun hown => hd.buf_of_owned hown hbuf
    rw [State.sendStart_of_used herr hsound hused]
    rfl

/-! ### TX_SEND's fill, commit and doorbell -/

/-- The slot of fragment `i` of a TX_SEND of `k` fragments, filled, with its ownership bit (R230 steps 2 to 4). -/
def State.sentSlot (s : State) (k i : Nat) (owned : Bool) : TxSlot :=
  { buf := s.sendHandle i, len := s.sendLen i, last := decide (i + 1 = k), wrap := (s.txAt (s.sendSlot i)).wrap,
    owned := owned, err := 0#8 }

/-- In `t` the `k` fragments that a TX_SEND in `s` sends are filled in, the last `j` of them are owned, and no other slot has
changed (R230, R232). -/
structure ChainWritten (s t : State) (k j : Nat) : Prop where
  size : t.nTx = s.nTx
  chain : ∀ i < k, t.txAt (s.sendSlot i) = s.sentSlot k i (decide (k - j ≤ i))
  others : OtherTxSlotsSame t s s.tx.current k

/-- The fill step writes all fragments and leaves them software-owned (R230 steps 2 and 3). -/
theorem ChainWritten.fill {s : State} {k : Nat} (hk : k ≤ s.nTx) (hfree : ∀ i < k, (s.txAt (s.sendSlot i)).isFree = true) :
    ∃ slots, s.fillChain k = { s with tx.slots := slots } ∧ ChainWritten s { s with tx.slots := slots } k 0 := by
  obtain ⟨slots, he, hlen, hin, hout⟩ := s.fillChain_spec k hk
  refine ⟨slots, he, hlen, fun i hi => (hin i hi).trans ?_, hout⟩
  have hown := (isFree_iff.mp (hfree i hi)).1
  simp [State.sentSlot, hown, hi]

/-- An ownership write of the commit: the one before the last `j` fragments is owned from then on (R232). -/
theorem ChainWritten.commit {s t u : State} {k j : Nat} (h : ChainWritten s t k j) (hk : k ≤ s.nTx) (hj : j < k)
    (hu : u.tx.slots = (t.setTxOwned (s.sendSlot (k - 1 - j)) true).tx.slots) : ChainWritten s u k (j + 1) := by
  have hlt : s.sendSlot (k - 1 - j) < t.nTx := h.size ▸ ringPos_lt (by omega) _ _
  have hat : ∀ p, u.txAt p = (t.setTxOwned (s.sendSlot (k - 1 - j)) true).txAt p := fun p => by
    simp only [State.txAt, hu]
  refine ⟨?_, fun i hi => ?_, fun p hp => ?_⟩
  · rw [State.nTx, hu, ← h.size]
    exact t.nTx_setTx _ _
  · rw [hat, State.setTxOwned]
    by_cases hij : i = k - 1 - j
    · rw [← hij] at hlt ⊢
      rw [t.txAt_setTx_self _ hlt, h.chain i hi, State.sentSlot, decide_eq_true (show k - (j + 1) ≤ i by omega)]
      rfl
    · have hne : s.sendSlot i ≠ s.sendSlot (k - 1 - j) := fun e =>
        hij (ringPos_inj _ (Nat.lt_of_lt_of_le hi hk) (by omega) e)
      rw [t.txAt_setTx_ne _ hne, h.chain i hi]
      congr 1
      exact decide_eq_decide.mpr (by omega)
  · rw [hat]
    exact (t.txAt_setTx_ne _ (hp (k - 1 - j) (by omega))).trans (h.others p hp)

/-- W's step in a TX_SEND that commits. -/
theorem State.workerStep_txCommit {s : State} {k i : Nat} (hh : s.halted = false) (hw : s.port.w = .txCommit k i) :
    s.workerStep = s.sendCommit k i := by
  simp only [State.workerStep, hh, hw, Bool.false_eq_true, if_false]

/-- W's last step in a TX_SEND. -/
theorem State.workerStep_txDoorbell {s : State} {k : Nat} (hh : s.halted = false) (hw : s.port.w = .txDoorbell k) :
    s.workerStep = s.sendDoorbell := by
  simp only [State.workerStep, hh, hw, Bool.false_eq_true, if_false]

/-- The state after `j` ownership writes, fewer than all, of the TX_SEND that starts in `s` (R230, R232). -/
theorem State.runWorker_sendStart {s : State} {k : Nat} (hh : s.halted = false) (herr : s.sendError k = none)
    (hfree : ∀ i < k, (s.txAt (s.sendSlot i)).isFree = true) : ∀ j < k, ∃ slots,
      (s.sendStart k).runWorker j = { s with tx.slots := slots, port.w := .txCommit k (k - 1 - j) } ∧
      ChainWritten s ((s.sendStart k).runWorker j) k j := by
  obtain ⟨-, -, -, hk⟩ := State.sendError_none herr
  intro j
  induction j with
  | zero =>
    intro _
    obtain ⟨slots, he, hsize, hchain, hothers⟩ := ChainWritten.fill hk hfree
    have hstart : (s.sendStart k).runWorker 0 = { s with tx.slots := slots, port.w := .txCommit k (k - 1) } := by
      rw [State.runWorker, State.sendStart_of_free herr hfree, he]
      rfl
    exact ⟨slots, hstart, hstart ▸ ⟨hsize, hchain, hothers⟩⟩
  | succ j ih =>
    intro hj
    obtain ⟨slots, he, hwritten⟩ := ih (Nat.lt_of_succ_lt hj)
    have hnext : k - 1 - j = k - 1 - (j + 1) + 1 := by omega
    rw [State.runWorker_succ]
    generalize hu : (s.sendStart k).runWorker j = u at he hwritten
    have hslot : u.sendSlot (k - 1 - j) = s.sendSlot (k - 1 - j) := by
      rw [State.sendSlot, hwritten.size, he]
      rfl
    have hstep : u.workerStep = (u.setTxOwned (s.sendSlot (k - 1 - j)) true).goOn (.txCommit k (k - 1 - (j + 1))) := by
      rw [State.workerStep_txCommit (by rw [he]; exact hh) (by rw [he]), hnext, State.sendCommit, ← hnext, hslot]
    rw [hstep]
    exact ⟨_, by rw [he]; rfl, hwritten.commit hk (Nat.lt_of_succ_lt hj) rfl⟩

/-- The state after all ownership writes of the TX_SEND that starts in `s`: the cursor and the counter have moved on by `k`, and the
doorbell is due (R230 step 5, R233). -/
theorem State.runWorker_committed {s : State} {k : Nat} (hh : s.halted = false) (herr : s.sendError k = none)
    (hfree : ∀ i < k, (s.txAt (s.sendSlot i)).isFree = true) : ∃ slots,
      (s.sendStart k).runWorker k = { s with
        tx := {
          slots := slots, current := BitVec.ofNat 16 (s.sendSlot k), release := s.tx.release
          inUse := s.tx.inUse + BitVec.ofNat 17 k }
        port.w := .txDoorbell k } ∧
      ChainWritten s ((s.sendStart k).runWorker k) k k := by
  obtain ⟨-, -, -, hk⟩ := State.sendError_none herr
  obtain ⟨j, rfl⟩ := Nat.exists_eq_add_one.mpr (State.sendError_none_pos herr)
  obtain ⟨slots, he, hwritten⟩ := State.runWorker_sendStart hh herr hfree j (Nat.lt_succ_self j)
  rw [State.runWorker_succ]
  generalize hu : (s.sendStart (j + 1)).runWorker j = u at he hwritten
  have hslot : ∀ i, u.sendSlot i = s.sendSlot i := fun i => by
    rw [State.sendSlot, hwritten.size, he]
    rfl
  have hstep : u.workerStep = u.sendCommit (j + 1) 0 :=
    State.workerStep_txCommit (by rw [he]; exact hh) (by rw [he, Nat.add_sub_cancel, Nat.sub_self])
  have hring := u.sendCommit_zero_tx (j + 1)
  rw [hslot, hslot] at hring
  have hlast : u.sendCommit (j + 1) 0 = { u with tx := (u.sendCommit (j + 1) 0).tx, port.w := .txDoorbell (j + 1) } := rfl
  rw [hstep]
  refine ⟨(u.sendCommit (j + 1) 0).tx.slots, ?_, hwritten.commit hk (Nat.lt_succ_self j) ?_⟩
  · rw [hlast, hring, he]
    rfl
  · rw [hring, Nat.add_sub_cancel, Nat.sub_self]
    rfl

/-- A doorbell on a configured block makes an IDLE TXD RUNNING (R233, R267). -/
theorem State.wakeTxd_eq (s : State) : s.wakeTxd =
    { s with txd := { s.txd with state := if s.txd.state = .idle then .running else s.txd.state } } := by
  unfold State.wakeTxd
  split <;> rfl

/-- The last step of a TX_SEND on free slots is its doorbell (R233). -/
theorem State.runWorker_sent {s : State} {k : Nat} (hh : s.halted = false) (herr : s.sendError k = none)
    (hfree : ∀ i < k, (s.txAt (s.sendSlot i)).isFree = true) :
    (s.sendStart k).runWorker (k + 1) = ((s.sendStart k).runWorker k).sendDoorbell := by
  obtain ⟨slots, he, -⟩ := State.runWorker_committed hh herr hfree
  rw [State.runWorker_succ, State.workerStep_txDoorbell (k := k) (by rw [he]; exact hh) (by rw [he])]

/-- Settles O13: the state after each of TX_SEND's steps, read off the ring that the step leaves. -/
theorem sendFillsThenCommitsInReverse : Obligations.SendFillsThenCommitsInReverse := by
  intro s k hr herr hfree
  have hh := hr.1
  have hlast := State.runWorker_sent hh herr hfree
  obtain ⟨slots, hdone, hall⟩ := State.runWorker_committed hh herr hfree
  refine ⟨s.sendStart k, exec_txSend hr k, fun j hj => ?_, ?_, ?_, ?_, ?_⟩
  · rcases Nat.lt_or_eq_of_le hj with hlt | rfl
    · obtain ⟨slots, he, hwritten⟩ := State.runWorker_sendStart hh herr hfree j hlt
      exact ⟨hwritten.chain, by rw [he]; rfl, hwritten.others⟩
    · exact ⟨hall.chain, by rw [hdone]; rfl, hall.others⟩
  all_goals
    rw [hlast, hdone, State.sendDoorbell, State.wakeTxd_eq]
    rfl


/-! ### TX_RECLAIM -/

/-- TX_RECLAIM on a configured block whose port takes commands. -/
theorem exec_txReclaim {s : State} (hr : s.Ready) : exec .txReclaim s = .next s.reclaimStart := by
  obtain ⟨hh, hb, hc⟩ := hr
  exact congrArg Host.Outcome.next (State.issueConfigured_run hh hb hc _)

/-- W's step in a TX_RECLAIM. -/
theorem State.workerStep_reclaim {s : State} {more count : Nat} (hh : s.halted = false) (hw : s.port.w = .reclaim more count) :
    s.workerStep = s.reclaimVisit more count := by
  simp only [State.workerStep, hh, hw, Bool.false_eq_true, if_false]

/-- A visit to an empty slot that TXD does not own moves past it (R241). -/
theorem State.reclaimVisit_empty {s : State} (more count : Nat) (hbuf : (s.txFromRelease 0).buf = 0#32)
    (hown : (s.txFromRelease 0).owned = false) : s.reclaimVisit more count = s.advanceRelease.reclaimNext more count := by
  unfold State.txFromRelease at hbuf hown
  simp only [State.reclaimVisit, hbuf, hown, if_true, Bool.false_eq_true, if_false]

/-- A visit to a slot that TXD owns ends the command (R240). -/
theorem State.reclaimVisit_owned {s : State} (more count : Nat) (hbuf : (s.txFromRelease 0).buf ≠ 0#32)
    (hown : (s.txFromRelease 0).owned = true) : s.reclaimVisit more count = s.reclaimReturn count := by
  unfold State.txFromRelease at hbuf hown
  simp only [State.reclaimVisit, hbuf, hown, if_true, if_false]

/-- The first slot of the in-use window leaves it: its buffer is free, and the slot is cleared (R240, R243). -/
def State.reclaimSlot (s : State) : State :=
  ((s.releaseHandle (s.txFromRelease 0).buf).setTx (ringPos s.nTx s.tx.release 0) (s.txFromRelease 0).clear).advanceRelease

/-- A visit to a completed slot releases its buffer and counts it (R240, R242, R243). -/
theorem State.reclaimVisit_completed {s : State} (more count : Nat) (hbuf : (s.txFromRelease 0).buf ≠ 0#32)
    (hown : (s.txFromRelease 0).owned = false) : s.reclaimVisit more count = s.reclaimSlot.reclaimNext more (count + 1) := by
  unfold State.txFromRelease at hbuf hown
  simp only [State.reclaimVisit, hbuf, hown, if_false, Bool.false_eq_true]
  rfl

/-- Settles O17: the visit advances the window and goes on with the count as it was. -/
theorem reclaimSkipsAnEmptySlot : Obligations.ReclaimSkipsAnEmptySlot := by
  intro s more count hh hw hbuf hown
  rw [State.workerStep_reclaim hh hw, State.reclaimVisit_empty more count hbuf hown]
  cases more with
  | zero => exact ⟨rfl, rfl, fun _ => rfl, nofun⟩
  | succ more =>
    refine ⟨rfl, rfl, nofun, fun m hm => ?_⟩
    cases hm
    rfl

/-- TX_RECLAIM has counted `count` slots and may visit `rest` more: W is about to visit the next one, or has returned (R245). -/
def ReclaimAt (u : State) (rest count : Nat) : Prop :=
  (rest = 0 → u.port = returned .ok (BitVec.ofNat 32 count)) ∧
  ∀ more, rest = more + 1 → u.port.w = .reclaim more count

/-- After a visit TX_RECLAIM goes on or returns (R245). -/
theorem State.reclaimNext_at (s : State) (rest count : Nat) : ReclaimAt (s.reclaimNext rest count) rest count := by
  cases rest with
  | zero => exact ⟨fun _ => rfl, nofun⟩
  | succ more =>
    refine ⟨nofun, fun m hm => ?_⟩
    cases hm
    rfl

/-- In `u` the first `j` slots of the in-use window of `s` are reclaimed, and no other slot has changed (R240 to R243). -/
structure Reclaimed (s u : State) (j : Nat) : Prop where
  halt : u.halt = s.halt
  size : u.nTx = s.nTx
  current : u.tx.current = s.tx.current
  release : u.tx.release.toNat = ringPos s.nTx s.tx.release j
  inUse : u.tx.inUse.toNat = s.tx.inUse.toNat - j
  cleared : ∀ i < j, u.txAt (ringPos s.nTx s.tx.release i) = (s.txFromRelease i).clear
  others : OtherTxSlotsSame u s s.tx.release j
  provider : u.env.provider = s.env.provider ++ (List.range j).map fun i => .release (s.txFromRelease i).buf
  pool : ∀ h, h ∈ u.env.pool ↔ h ∈ s.env.pool ∨ ∃ i < j, h = (s.txFromRelease i).buf

/-- What is reclaimed depends on the TX ring and ENV alone. -/
theorem Reclaimed.of_same {s u v : State} {j : Nat} (h : Reclaimed s u j) (hhalt : v.halt = u.halt) (htx : v.tx = u.tx)
    (henv : v.env = u.env) : Reclaimed s v j := by
  have hat : v.txAt = u.txAt := by
    funext p
    simp only [State.txAt, htx]
  exact ⟨hhalt.trans h.halt, by rw [State.nTx, htx]; exact h.size, htx ▸ h.current, htx ▸ h.release, htx ▸ h.inUse,
    hat ▸ h.cleared, fun p hp => hat ▸ h.others p hp, henv ▸ h.provider, henv ▸ h.pool⟩

/-- Before the first visit nothing is reclaimed. -/
theorem Reclaimed.refl {s : State} (hlt : s.tx.release.toNat < s.nTx) : Reclaimed s s 0 :=
  ⟨rfl, rfl, rfl, (Nat.mod_eq_of_lt hlt).symm, rfl, fun i hi => absurd hi (Nat.not_lt_zero i), fun _ _ => rfl,
    (List.append_nil _).symm, fun h => by simp⟩

/-- The next slot that TX_RECLAIM visits is `j` places on. -/
theorem Reclaimed.next_pos {s u : State} {j : Nat} (h : Reclaimed s u j) :
    ringPos u.nTx u.tx.release 0 = ringPos s.nTx s.tx.release j := by
  rw [h.size]
  exact ringPos_add _ _ _ 0 h.release

/-- The next slot that TX_RECLAIM visits is as it was before the command. -/
theorem Reclaimed.next_slot {s u : State} {j : Nat} (h : Reclaimed s u j) (hj : j < s.nTx) :
    u.txFromRelease 0 = s.txFromRelease j := by
  rw [State.txFromRelease, h.next_pos]
  refine h.others _ fun i hi e => ?_
  have := ringPos_inj _ hj (Nat.lt_trans hi hj) e
  omega

/-- One more slot is reclaimed (R240 to R243). -/
theorem Reclaimed.reclaimSlot {s u : State} {j : Nat} (h : Reclaimed s u j) (hsize : IsRingSize s.nTx)
    (hj : j < s.tx.inUse.toNat) (hfit : s.tx.inUse.toNat ≤ s.nTx) : Reclaimed s u.reclaimSlot (j + 1) := by
  have hjn : j < s.nTx := Nat.lt_of_lt_of_le hj hfit
  have hslot := h.next_slot hjn
  have hpos := h.next_pos
  have hat : ∀ p, u.reclaimSlot.txAt p = (u.setTx (ringPos s.nTx s.tx.release j) (s.txFromRelease j).clear).txAt p :=
    fun p => by rw [← hpos, ← hslot]; rfl
  have hlt : ringPos s.nTx s.tx.release j < u.nTx := h.size ▸ ringPos_lt hsize.pos _ _
  have huse := h.inUse
  refine ⟨h.halt, (u.nTx_setTx _ _).trans h.size, h.current, ?_, ?_, fun i hi => ?_, fun p hp => ?_, ?_, fun g => ?_⟩
  · show (adv (u.setTx _ _).nTx u.tx.release).toNat = _
    rw [u.nTx_setTx, h.size, adv_eq_ringPos hsize _ (h.release ▸ ringPos_lt hsize.pos _ _)]
    exact ringPos_add _ _ _ _ h.release
  · show (u.tx.inUse - 1#17).toNat = _
    bv_omega
  · rw [hat]
    by_cases hij : i = j
    · rw [hij, u.txAt_setTx_self _ hlt]
    · have hne : ringPos s.nTx s.tx.release i ≠ ringPos s.nTx s.tx.release j := fun e =>
        hij (ringPos_inj _ (by omega) hjn e)
      rw [u.txAt_setTx_ne _ hne]
      exact h.cleared i (by omega)
  · rw [hat, u.txAt_setTx_ne _ (hp j (Nat.lt_succ_self j))]
    exact h.others p fun i hi => hp i (Nat.lt_succ_of_lt hi)
  · show u.env.provider ++ [.release (u.txFromRelease 0).buf] = _
    rw [h.provider, hslot, List.range_succ, List.map_append, List.append_assoc]
    rfl
  · show g ∈ HandleSet.insert u.env.pool (u.txFromRelease 0).buf ↔ _
    rw [HandleSet.mem_insert, h.pool, hslot]
    simp only [Nat.lt_succ_iff_lt_or_eq, or_and_right, exists_or, exists_eq_left]
    exact or_comm.trans or_assoc

/-- TX_RECLAIM's first step reclaims nothing yet, and starts the walk of the in-use window (R240, R245). -/
theorem State.reclaimStart_at {s : State} (hlt : s.tx.release.toNat < s.nTx) :
    Reclaimed s s.reclaimStart 0 ∧ ReclaimAt s.reclaimStart s.tx.inUse.toNat 0 := by
  have hnone := Reclaimed.refl hlt
  unfold State.reclaimStart
  split
  · next h => exact ⟨hnone.of_same rfl rfl rfl, fun _ => rfl, fun m hm => by omega⟩
  · next more h =>
    refine ⟨hnone.of_same rfl rfl rfl, fun h0 => by omega, fun m hm => ?_⟩
    obtain rfl : more = m := by omega
    rfl

/-- After as many visits as there are completed slots these are reclaimed and counted (R240 to R245). -/
theorem State.runWorker_reclaimStart {s : State} (hh : s.halted = false) (hsize : IsRingSize s.nTx)
    (hlt : s.tx.release.toNat < s.nTx) (hfit : s.tx.inUse.toNat ≤ s.nTx) : ∀ c ≤ s.tx.inUse.toNat,
    (∀ j < c, (s.txFromRelease j).buf ≠ 0#32 ∧ (s.txFromRelease j).owned = false) →
    Reclaimed s (s.reclaimStart.runWorker c) c ∧ ReclaimAt (s.reclaimStart.runWorker c) (s.tx.inUse.toNat - c) c := by
  intro c
  induction c with
  | zero => exact fun _ _ => State.reclaimStart_at hlt
  | succ c ih =>
    intro hc hdone
    obtain ⟨hrec, hat⟩ := ih (Nat.le_of_succ_le hc) fun j hj => hdone j (Nat.lt_succ_of_lt hj)
    rw [State.runWorker_succ]
    generalize s.reclaimStart.runWorker c = u at hrec hat
    have hw := hat.2 (s.tx.inUse.toNat - (c + 1)) (by omega)
    have hslot := hrec.next_slot (Nat.lt_of_lt_of_le hc hfit)
    obtain ⟨hbuf, hown⟩ := hdone c (Nat.lt_succ_self c)
    rw [State.workerStep_reclaim (by rw [State.halted, hrec.halt]; exact hh) hw,
      State.reclaimVisit_completed _ _ (hslot ▸ hbuf) (hslot ▸ hown)]
    refine ⟨(hrec.reclaimSlot hsize hc hfit).of_same ?_ ?_ ?_, State.reclaimNext_at _ _ _⟩ <;>
      obtain ⟨port, service, h, -⟩ := u.reclaimSlot.reclaimNext_frame (s.tx.inUse.toNat - (c + 1)) (c + 1) <;> rw [h]

/-- TX_RECLAIM ends with its count at the first slot that TXD owns, or at the end of the window (R245). -/
theorem State.runWorker_reclaimed {s : State} {c : Nat} (hh : s.halted = false) (hsize : IsRingSize s.nTx)
    (hlt : s.tx.release.toNat < s.nTx) (hfit : s.tx.inUse.toNat ≤ s.nTx) (hc : c ≤ s.tx.inUse.toNat)
    (hdone : ∀ j < c, (s.txFromRelease j).buf ≠ 0#32 ∧ (s.txFromRelease j).owned = false)
    (hnext : c < s.tx.inUse.toNat → (s.txFromRelease c).buf ≠ 0#32 ∧ (s.txFromRelease c).owned = true) :
    Reclaimed s (s.reclaimStart.runWorker (min (c + 1) s.tx.inUse.toNat)) c ∧
      (s.reclaimStart.runWorker (min (c + 1) s.tx.inUse.toNat)).port = returned .ok (BitVec.ofNat 32 c) := by
  obtain ⟨hrec, hat⟩ := State.runWorker_reclaimStart hh hsize hlt hfit c hc hdone
  rcases Nat.lt_or_eq_of_le hc with hmore | hend
  · rw [Nat.min_eq_left hmore, State.runWorker_succ]
    generalize s.reclaimStart.runWorker c = u at hrec hat
    have hw := hat.2 (s.tx.inUse.toNat - c - 1) (by omega)
    have hslot := hrec.next_slot (Nat.lt_of_lt_of_le hmore hfit)
    obtain ⟨hbuf, hown⟩ := hnext hmore
    rw [State.workerStep_reclaim (by rw [State.halted, hrec.halt]; exact hh) hw,
      State.reclaimVisit_owned _ _ (hslot ▸ hbuf) (hslot ▸ hown)]
    exact ⟨hrec.of_same rfl rfl rfl, rfl⟩
  · rw [Nat.min_eq_right (by omega), ← hend]
    exact ⟨hrec, hat.1 (by omega)⟩

/-- Settles O16: by induction on the visits the completed slots are reclaimed one by one, and the next visit or the end of the window
returns their count. -/
theorem reclaimReleasesTheCompletedSlots : Obligations.ReclaimReleasesTheCompletedSlots := by
  intro s c hr hsize hlt hfit hc hdone hnext
  obtain ⟨hrec, hport⟩ := State.runWorker_reclaimed hr.1 hsize hlt hfit hc hdone hnext
  refine ⟨_, _, exec_txReclaim hr, rfl, hport, hrec.current, hrec.release, hrec.inUse, fun j hj => ?_, hrec.others,
    hrec.provider, hrec.pool⟩
  rw [hrec.cleared j hj, TxSlot.clear, (hdone j hj).2]

/-! ### TXD -/

/-- TXD, RUNNING at a slot that it owns, takes its send step (R262). -/
theorem State.txdStep_send {s : State} (hd : s.DmaEnabled) (hrun : s.txd.state = .running)
    (hown : (s.txAt (ringPos s.nTx s.txd.idx 0)).owned = true) : s.txdStep = s.txdSend := by
  obtain ⟨hh, hc⟩ := hd
  simp [State.txdStep, hh, hc, hrun, hown]

/-- TXD's send step raises the first fault of the block where its walk ends in one (R262, R405, R407). -/
theorem State.txdStep_fault {s : State} {bit : FaultBit} {p : Nat} (hd : s.DmaEnabled) (hrun : s.txd.state = .running)
    (hown : (s.txAt (ringPos s.nTx s.txd.idx 0)).owned = true) (hwalk : s.walkFrame 0 s.nTx = .fault bit p) :
    s.txdStep = { s with halt := { fault := bit.mask, faultSlot := faultSlotWord .tx p } } := by
  rw [State.txdStep_send hd hrun hown, State.txdSend, hwalk]
  exact State.raise_first hd.1 bit .tx p

/-- TXD's walk stops at a slot that it does not own when those before it are fragments of the frame (R262). -/
theorem State.walkFrame_broken {s : State} {j : Nat} (hj : j < s.nTx)
    (hpre : ∀ i < j, (s.txAt (ringPos s.nTx s.txd.idx i)).owned = true ∧ (s.txAt (ringPos s.nTx s.txd.idx i)).buf ≠ 0#32 ∧
      (s.txAt (ringPos s.nTx s.txd.idx i)).last = false)
    (hown : (s.txAt (ringPos s.nTx s.txd.idx j)).owned = false) :
    s.walkFrame 0 s.nTx = .fault .txChainBroken (ringPos s.nTx s.txd.idx j) := by
  obtain ⟨fuel, hfuel⟩ := Nat.exists_eq_add_of_lt hj
  have hskip := s.walkFrame_skip 0 j (fuel + 1) (by simpa using hpre)
  rw [Nat.zero_add, ← Nat.add_assoc, ← hfuel] at hskip
  rw [hskip]
  simp [State.walkFrame, hown]

/-- TXD's walk goes once around the ring where no slot is a last fragment (R262). -/
theorem State.walkFrame_endless {s : State}
    (hall : ∀ i < s.nTx, (s.txAt (ringPos s.nTx s.txd.idx i)).owned = true ∧
      (s.txAt (ringPos s.nTx s.txd.idx i)).buf ≠ 0#32 ∧ (s.txAt (ringPos s.nTx s.txd.idx i)).last = false) :
    s.walkFrame 0 s.nTx = .fault .txChainBroken s.txd.idx.toNat :=
  s.walkFrame_skip 0 s.nTx 0 (by simpa using hall)

/-- TXD's walk finds the frame of `n` slots whose last and only last one is marked (R262). -/
theorem State.walkFrame_whole {s : State} {n : Nat} (hn : n < s.nTx)
    (hpre : ∀ i < n, (s.txAt (ringPos s.nTx s.txd.idx i)).owned = true ∧ (s.txAt (ringPos s.nTx s.txd.idx i)).buf ≠ 0#32 ∧
      (s.txAt (ringPos s.nTx s.txd.idx i)).last = false)
    (hend : (s.txAt (ringPos s.nTx s.txd.idx n)).owned = true ∧ (s.txAt (ringPos s.nTx s.txd.idx n)).buf ≠ 0#32 ∧
      (s.txAt (ringPos s.nTx s.txd.idx n)).last = true) : s.walkFrame 0 s.nTx = .frame (n + 1) := by
  obtain ⟨fuel, hfuel⟩ := Nat.exists_eq_add_of_lt hn
  have hskip := s.walkFrame_skip 0 n (fuel + 1) (by simpa using hpre)
  rw [Nat.zero_add, ← Nat.add_assoc, ← hfuel] at hskip
  rw [hskip]
  simp [State.walkFrame, hend]

/-- Settles O28: TXD's walk ends in the fault, which is the block's first. -/
theorem brokenTxChainFaults : Obligations.BrokenTxChainFaults := by
  intro s hd hrun
  refine ⟨fun j hpos hj hpre hown => ?_, fun hpos hall => ?_⟩
  · exact State.txdStep_fault hd hrun (hpre 0 hpos).1 (State.walkFrame_broken hj hpre hown)
  · rw [State.txdStep_fault hd hrun (hall 0 hpos).1 (State.walkFrame_endless hall), faultSlotWord, BitVec.ofNat_toNat,
      BitVec.setWidth_eq]
    rfl

/-- Settles O18: TXD's walk finds the whole frame, and its bytes are those of the fragments' buffers. -/
theorem txdSendsTheWholeFrame : Obligations.TxdSendsTheWholeFrame := by
  intro s n hd hrun hpos hn hslots
  obtain ⟨k, rfl⟩ := Nat.exists_eq_add_one.mpr hpos
  have hwalk : s.walkFrame 0 s.nTx = .frame (k + 1) := by
    refine State.walkFrame_whole hn (fun i hi => ?_) ?_
    · obtain ⟨hown, hbuf, hlast⟩ := hslots i (Nat.lt_succ_of_lt hi)
      exact ⟨hown, hbuf, hlast.trans (decide_eq_false (by omega))⟩
    · obtain ⟨hown, hbuf, hlast⟩ := hslots k (Nat.lt_succ_self k)
      exact ⟨hown, hbuf, hlast.trans (decide_eq_true rfl)⟩
  rw [State.txdStep_send hd hrun (hslots 0 hpos).1, State.txdSend, hwalk]
  simp only [State.wireTx, State.frameBytes, State.fragmentBytes, Memory.readBytes, Nat.zero_add]

/-- TXD's completion step in full: the slot at `txd.idx`, whose error flags are a draw, TXD's registers, and TX_DONE after the
frame's last slot (R264, R266). -/
theorem State.txdComplete_eq (s : State) : ∃ err ds n, s.txdComplete =
    { s.setTx (ringPos s.nTx s.txd.idx 0) { s.txAt (ringPos s.nTx s.txd.idx 0) with err := err, owned := false } with
      draws := ds, drawNo := n, txd := s.completedTxd
      irq.isr := if s.txd.left - 1#17 = 0#17 then s.irq.isr ||| txDoneBit else s.irq.isr } := by
  obtain ⟨ds, n, hdraw⟩ := s.draw_spec
  refine ⟨BitVec.ofNat 8 s.draw.1, ds, n, ?_⟩
  unfold State.txdComplete State.completedTxd
  simp only [hdraw]
  split
  · next hend =>
    have hend : s.txd.left - 1#17 = 0#17 := hend
    rw [if_pos hend, if_pos hend, adv, State.nTx_setTx]
    rfl
  · next hmore =>
    have hmore : ¬s.txd.left - 1#17 = 0#17 := hmore
    rw [if_neg hmore, if_neg hmore, adv, State.nTx_setTx]
    rfl

/-- Settles O19: TXD's steps and the doorbell, each on the state it is enabled in. -/
theorem txdStopsCompletesAndWakes : Obligations.TxdStopsCompletesAndWakes := by
  refine ⟨fun s ⟨hh, hc⟩ hrun hown => ?_, fun s ⟨hh, hc⟩ hstate hpos => ?_, fun s v ⟨hh, hc⟩ => ?_, fun s v hno => ?_⟩
  · rw [State.txdStep_of_not_owned hc (by rw [hrun]; exact nofun) hown, if_neg (by simp [hh])]
  · obtain ⟨err, ds, n, he⟩ := s.txdComplete_eq
    have hstep : s.txdStep = s.txdComplete := by simp [State.txdStep, hh, hc, hstate]
    have hlast : s.txd.left - 1#17 = 0#17 ↔ s.txd.left = 1#17 := by bv_omega
    have hrun : s.completedTxd.state = if s.txd.left = 1#17 then .running else .completing := by
      simp only [State.completedTxd, hlast, hstate]
    have hdone : (if s.txd.left - 1#17 = 0#17 then s.irq.isr ||| txDoneBit else s.irq.isr) =
        if s.txd.left = 1#17 then s.irq.isr ||| 0b10#2 else s.irq.isr := by
      simp only [hlast, txDoneBit]
    refine ⟨err, _, hstep, ?_, ?_, ?_⟩ <;> rw [he]
    · exact s.txAt_setTx_self _ (ringPos_lt hpos _ _)
    · exact .of_set rfl
    · exact ⟨rfl, rfl, rfl, rfl, rfl, hrun, hdone, rfl, rfl, rfl, rfl, rfl, rfl, rfl⟩
  · simp only [State.writeReg, State.ringDoorbell, hh, hc, Bool.not_true, Bool.or_self, Bool.false_eq_true, if_false,
      State.wakeTxd_eq]
  · have hoff : (s.halted || !s.cfg.configured) = true := by
      by_contra hon
      exact hno (by simpa using hon)
    simp only [State.writeReg, State.ringDoorbell, hoff, if_true]


/-! ### What the ring commands leave unchanged -/

/-- The fault registers are as before, or the command has stopped on a fault (R408). -/
def KeepsFaultUnlessStopped (s t : State) : Prop := t.halt = s.halt ∨ t.port = { s.port with w := .stopped }

/-- TX_SEND writes the TX ring, TXD's state, the port and, when it stops, the fault registers (R230, R233). -/
def SendEffect (s t : State) : Prop :=
  KeepsFaultUnlessStopped s t ∧ ∃ tx state port halt,
    t = { s with tx := tx, txd.state := state, port := port, halt := halt }

/-- TX_RECLAIM writes the TX ring, the free set with the history of calls, `service`, the port and, when it stops, the fault
registers (R240). -/
def ReclaimEffect (s t : State) : Prop :=
  KeepsFaultUnlessStopped s t ∧ ∃ tx pool provider service port halt,
    t = { s with
      tx := tx, env := { s.env with pool := pool, provider := provider }, service := service, port := port, halt := halt }

/-- RX_POLL writes the RX ring, RX_DROP_COUNT, spans, ENV's handles and histories, `service`, the port, the model's own draws and, when
it stops, the fault registers (R280). -/
def PollEffect (s t : State) : Prop :=
  KeepsFaultUnlessStopped s t ∧ ∃ rx drop span pool router delivered provider service port ds n halt,
    t = { s with
      rx := rx, ctr.rxDrop := drop, buf.span := span
      env := { s.env with pool := pool, router := router, delivered := delivered, provider := provider }
      service := service, port := port, draws := ds, drawNo := n, halt := halt }

theorem SendEffect.refl (s : State) : SendEffect s s := ⟨.inl rfl, _, _, _, _, rfl⟩

theorem ReclaimEffect.refl (s : State) : ReclaimEffect s s := ⟨.inl rfl, _, _, _, _, _, _, rfl⟩

theorem PollEffect.refl (s : State) : PollEffect s s := ⟨.inl rfl, _, _, _, _, _, _, _, _, _, _, _, _, rfl⟩

/-- A command other than CFG has an effect that its own step, an error and a refusal have. -/
theorem State.issueConfigured_effect {E : State → State → Prop} {s : State} {cmd : State → State} (hsame : E s s)
    (herr : E s (s.retErr .notConfigured)) (hcmd : E s (cmd s)) : E s (s.issueConfigured cmd) := by
  rcases s.issueConfigured_cases cmd with h | ⟨-, -, -, h⟩ | ⟨-, -, -, h⟩ <;> rw [h] <;> assumption

/-- TX_SEND's first step (R230, R231). -/
theorem State.sendStart_effect (s : State) (k : Nat) : SendEffect s (s.sendStart k) := by
  unfold State.sendStart
  split
  · exact ⟨.inl rfl, _, _, _, _, rfl⟩
  split
  · exact ⟨.inr rfl, _, _, _, _, rfl⟩
  · exact ⟨.inl rfl, _, _, _, _, rfl⟩
  · obtain ⟨slots, h, -⟩ := s.fillChain_handles k
    rw [h]
    exact ⟨.inl rfl, _, _, _, _, rfl⟩

/-- An ownership write of TX_SEND (R232). -/
theorem State.sendCommit_effect (s : State) (k i : Nat) : SendEffect s (s.sendCommit k i) := by
  cases i <;> exact ⟨.inl rfl, _, _, _, _, rfl⟩

/-- TX_SEND's doorbell (R233). -/
theorem State.sendDoorbell_effect (s : State) : SendEffect s s.sendDoorbell := by
  rw [State.sendDoorbell, State.wakeTxd_eq]
  exact ⟨.inl rfl, _, _, _, _, rfl⟩

/-- A further step of TX_SEND (R232, R233). -/
theorem State.workerStep_sendEffect {s : State} (hw : s.port.w.inSend = true) : SendEffect s s.workerStep := by
  unfold State.workerStep
  split
  · exact .refl s
  cases h : s.port.w with
  | txCommit k i => exact s.sendCommit_effect k i
  | txDoorbell => exact s.sendDoorbell_effect
  | idle | stopped | reclaim | pollVisit | pollRearm | pollRecycle =>
    rw [h] at hw
    cases hw

/-- TX_RECLAIM's first step (R240). -/
theorem State.reclaimStart_effect (s : State) : ReclaimEffect s s.reclaimStart := by
  obtain ⟨port, service, h, -⟩ := s.reclaimStart_frame
  exact h ▸ ⟨.inl rfl, _, _, _, _, _, _, rfl⟩

/-- A visit of TX_RECLAIM (R240 to R243). -/
theorem State.reclaimVisit_effect (s : State) (more count : Nat) : ReclaimEffect s (s.reclaimVisit more count) := by
  rcases s.reclaimVisit_answers more count with h | h | ⟨port, service, -, h | ⟨p, -, h⟩⟩ <;> rw [h]
  · exact ⟨.inr rfl, _, _, _, _, _, _, rfl⟩
  all_goals exact ⟨.inl rfl, _, _, _, _, _, _, rfl⟩

/-- A further step of TX_RECLAIM (R240 to R245). -/
theorem State.workerStep_reclaimEffect {s : State} (hw : s.port.w.inReclaim = true) : ReclaimEffect s s.workerStep := by
  unfold State.workerStep
  split
  · exact .refl s
  cases h : s.port.w with
  | reclaim more count => exact s.reclaimVisit_effect more count
  | idle | stopped | txCommit | txDoorbell | pollVisit | pollRearm | pollRecycle =>
    rw [h] at hw
    cases hw

/-- The end of a frame (R283, R284, R288). -/
theorem State.endOfFrame_effect (s : State) (n p : Nat) (len : BitVec 16) : PollEffect s (s.endOfFrame n p len) := by
  rcases s.endOfFrame_answers n p len with ⟨-, h⟩ | ⟨got, u, hu, hans⟩
  · exact h ▸ ⟨.inr rfl, _, _, _, _, _, _, _, _, _, _, _, _, rfl⟩
  obtain ⟨sp, hsp⟩ := s.spanChain_frame len
  obtain ⟨got', pool, provider, ds, k, hget, -⟩ := State.allocateUpTo_perm s.rx.chain.length (s.spanChain len)
  cases hget.symm.trans hu
  rcases hans with ⟨-, h⟩ | h
  · rw [h, hsp]
    exact ⟨.inl rfl, _, _, _, _, _, _, _, _, _, _, _, _, rfl⟩
  · obtain ⟨provider', hback⟩ := State.releaseAll_insertAll got
      { s.spanChain len with draws := ds, drawNo := k, env := { (s.spanChain len).env with pool := pool, provider := provider } }
    rw [h, hback, hsp]
    exact ⟨.inl rfl, _, _, _, _, _, _, _, _, _, _, _, _, rfl⟩

/-- A visit of RX_POLL (R280). -/
theorem State.pollVisit_effect (s : State) (n : Nat) : PollEffect s (s.pollVisit n) := by
  rcases s.pollVisit_answers n with ⟨ds, k, v, h⟩ | h | ⟨-, -, ⟨-, h⟩ | ⟨-, h⟩⟩ <;> rw [h]
  · exact ⟨.inl rfl, _, _, _, _, _, _, _, _, _, _, _, _, rfl⟩
  · exact ⟨.inr rfl, _, _, _, _, _, _, _, _, _, _, _, _, rfl⟩
  · exact s.linkSlot.endOfFrame_effect n _ _
  · exact ⟨.inl rfl, _, _, _, _, _, _, _, _, _, _, _, _, rfl⟩

/-- A re-arming write of RX_POLL (R285). -/
theorem State.pollRearm_effect (s : State) (n f : Nat) (fresh : List Handle) (len : BitVec 16) :
    PollEffect s (s.pollRearm n f fresh len) := by
  unfold State.pollRearm
  split
  · exact ⟨.inl rfl, _, _, _, _, _, _, _, _, _, _, _, _, rfl⟩
  · simp only
    split <;> exact ⟨.inl rfl, _, _, _, _, _, _, _, _, _, _, _, _, rfl⟩

/-- A write of RX_POLL's failed refill (R288). -/
theorem State.pollRecycle_effect (s : State) (n f : Nat) : PollEffect s (s.pollRecycle n f) := by
  unfold State.pollRecycle
  simp only
  split <;> exact ⟨.inl rfl, _, _, _, _, _, _, _, _, _, _, _, _, rfl⟩

/-- A further step of RX_POLL (R280 to R292). -/
theorem State.workerStep_pollEffect {s : State} (hw : s.port.w.inPoll = true) : PollEffect s s.workerStep := by
  unfold State.workerStep
  split
  · exact .refl s
  cases h : s.port.w with
  | pollVisit n => exact s.pollVisit_effect n
  | pollRearm n f fresh len => exact s.pollRearm_effect n f fresh len
  | pollRecycle n f => exact s.pollRecycle_effect n f
  | idle | stopped | txCommit | txDoorbell | reclaim =>
    rw [h] at hw
    cases hw

theorem SendStep.effect {s t : State} (h : SendStep s t) : SendEffect s t := by
  rcases h with ⟨k, h⟩ | ⟨hw, rfl⟩
  · cases h
    exact State.issueConfigured_effect (.refl s) ⟨.inl rfl, _, _, _, _, rfl⟩ (s.sendStart_effect k)
  · exact State.workerStep_sendEffect hw

theorem ReclaimStep.effect {s t : State} (h : ReclaimStep s t) : ReclaimEffect s t := by
  rcases h with h | ⟨hw, rfl⟩
  · cases h
    exact State.issueConfigured_effect (.refl s) ⟨.inl rfl, _, _, _, _, _, _, rfl⟩ s.reclaimStart_effect
  · exact State.workerStep_reclaimEffect hw

theorem PollStep.effect {s t : State} (h : PollStep s t) : PollEffect s t := by
  rcases h with h | ⟨hw, rfl⟩
  · cases h
    exact State.issueConfigured_effect (.refl s) ⟨.inl rfl, _, _, _, _, _, _, _, _, _, _, _, _, rfl⟩
      ⟨.inl rfl, _, _, _, _, _, _, _, _, _, _, _, _, rfl⟩
  · exact State.workerStep_pollEffect hw

/-- Every step of W is one of the three ring commands', or does nothing. -/
theorem State.workerStep_effect (s : State) :
    SendEffect s s.workerStep ∨ ReclaimEffect s s.workerStep ∨ PollEffect s s.workerStep := by
  cases hw : s.port.w with
  | idle | stopped =>
    rw [State.workerStep_of_outside (by rw [hw]; rfl)]
    exact .inl (.refl s)
  | txCommit | txDoorbell => exact .inl (State.workerStep_sendEffect (by rw [hw]; rfl))
  | reclaim => exact .inr (.inl (State.workerStep_reclaimEffect (by rw [hw]; rfl)))
  | pollVisit | pollRearm | pollRecycle => exact .inr (.inr (State.workerStep_pollEffect (by rw [hw]; rfl)))

/-- Settles O39: what the statement names is not among what the ring commands write. -/
theorem ringCommandsFrame : Obligations.RingCommandsFrame := by
  intro s t
  refine ⟨fun h => ?_, fun h => ?_, fun h => ?_, fun h => ?_, fun h => ?_⟩
  · have heffect : SendEffect s t ∨ ReclaimEffect s t ∨ PollEffect s t := by
      rcases h with h | h | h | rfl
      · exact .inl h.effect
      · exact .inr (.inl h.effect)
      · exact .inr (.inr h.effect)
      · exact s.workerStep_effect
    rcases heffect with ⟨hfault, _, _, _, _, rfl⟩ | ⟨hfault, _, _, _, _, _, _, rfl⟩ |
      ⟨hfault, _, _, _, _, _, _, _, _, _, _, _, _, rfl⟩ <;>
      exact ⟨rfl, rfl, rfl, rfl, rfl, rfl, rfl, rfl, rfl, rfl, rfl, rfl, fun _ => rfl, hfault⟩
  · rcases h with h | h
    · obtain ⟨-, _, _, _, _, rfl⟩ := h.effect
      exact ⟨rfl, rfl, rfl, rfl, rfl⟩
    · obtain ⟨-, _, _, _, _, _, _, rfl⟩ := h.effect
      exact ⟨rfl, rfl, rfl, rfl, rfl⟩
  · obtain ⟨-, _, _, _, _, rfl⟩ := h.effect
    exact ⟨rfl, rfl⟩
  · obtain ⟨-, _, _, _, _, _, _, rfl⟩ := h.effect
    rfl
  · obtain ⟨-, _, _, _, _, _, _, _, _, _, _, _, _, rfl⟩ := h.effect
    exact ⟨rfl, rfl⟩

end Sys2Proof.Machine

/-! Family 42_receive: frames that RXD discards, RX_POLL's visits and faults, and the refill of a complete frame. -/

namespace Sys2Proof.Machine

/-! ### Frames that find too few armed slots -/

/-- RXD's start check stops without a fault at a slot that is not armed, when none before it is owned and empty (R301). -/
theorem State.checkArmed_notArmed {s : State} {p : Nat} (hown : (s.rxAt p).owned = false) (post : List Nat) :
    ∀ pre : List Nat, (∀ q ∈ pre, (s.rxAt q).owned = true → (s.rxAt q).buf ≠ 0#32) →
      s.checkArmed (pre ++ p :: post) = .notArmed := by
  intro pre
  induction pre with
  | nil => simp [State.checkArmed, hown]
  | cons q pre ih =>
    intro hpre
    obtain ⟨hq, hrest⟩ := List.forall_mem_cons.mp hpre
    by_cases ho : (s.rxAt q).owned = true
    · simp [State.checkArmed, ho, hq ho, ih hrest]
    · simp [State.checkArmed, ho]

/-- Settles O21: the frame needs more slots than there are, or the start check stops at a slot that is not armed. -/
theorem overflowDiscardsTheFrameWhole : Obligations.OverflowDiscardsTheFrameWhole := by
  intro s frame hd hnone hacc hshort
  obtain ⟨hh, hc⟩ := hd
  have htaken : s.offerFrame frame = s.rxdStart frame := by
    simp [State.offerFrame, hh, hc, hnone, hacc]
  rw [htaken, State.rxdStart]
  by_cases hroom : s.nRx < fragmentCount frame.length s.cfg.cap.toNat
  · simp only [hroom, if_true]
    rfl
  obtain ⟨f, hf, hown, hpre⟩ := hshort.resolve_left hroom
  obtain ⟨post, hm⟩ := range_split hf
  have hcheck : s.checkArmed ((List.range (fragmentCount frame.length s.cfg.cap.toNat)).map (ringPos s.nRx s.rxd.idx)) =
      .notArmed := by
    rw [hm, List.map_append, List.map_cons]
    refine State.checkArmed_notArmed hown _ _ fun q hq => ?_
    obtain ⟨g, hg, rfl⟩ := List.mem_map.mp hq
    exact hpre g (List.mem_range.mp hg)
  simp only [hroom, if_false, hcheck]
  rfl

/-! ### A visit of RX_POLL, case by case -/

/-- RX_POLL on a configured block whose port takes commands. -/
theorem exec_rxPoll {s : State} (hr : s.Ready) : exec .rxPoll s = .next (s.goOn (.pollVisit 0)) := by
  obtain ⟨hh, hb, hc⟩ := hr
  exact congrArg Host.Outcome.next (State.issueConfigured_run hh hb hc _)

/-- W's step in an RX_POLL that walks the ring. -/
theorem State.workerStep_pollVisit {s : State} {d : Nat} (hh : s.halted = false) (hw : s.port.w = .pollVisit d) :
    s.workerStep = s.pollVisit d := by
  simp only [State.workerStep, hh, hw, Bool.false_eq_true, if_false]

/-- W's step in an RX_POLL that re-arms a frame's slots with fresh buffers. -/
theorem State.workerStep_pollRearm {s : State} {d f : Nat} {fresh : List Handle} {len : BitVec 16}
    (hh : s.halted = false) (hw : s.port.w = .pollRearm d f fresh len) : s.workerStep = s.pollRearm d f fresh len := by
  simp only [State.workerStep, hh, hw, Bool.false_eq_true, if_false]

/-- W's step in an RX_POLL that puts a frame's own buffers back. -/
theorem State.workerStep_pollRecycle {s : State} {d f : Nat} (hh : s.halted = false) (hw : s.port.w = .pollRecycle d f) :
    s.workerStep = s.pollRecycle d f := by
  simp only [State.workerStep, hh, hw, Bool.false_eq_true, if_false]

/-- A visit to an armed slot ends the command (R280, R294). -/
theorem State.pollVisit_owned {s : State} (d : Nat) (hown : (s.rxFromCurrent 0).owned = true) :
    s.pollVisit d = s.pollReturn d := if_pos hown

/-- A visit to a software-owned slot without a buffer raises RX_SLOT_EMPTY (R280). -/
theorem State.pollVisit_empty {s : State} (d : Nat) (hown : (s.rxFromCurrent 0).owned = false)
    (hbuf : (s.rxFromCurrent 0).buf = 0#32) :
    s.pollVisit d = s.raiseInCommand .rxSlotEmpty .rx (ringPos s.nRx s.rx.current 0) :=
  (if_neg (Bool.eq_false_iff.mp hown)).trans (if_pos hbuf)

/-- A visit to a slot inside a frame links it and goes on (R280, R281). -/
theorem State.pollVisit_interior {s : State} (d : Nat) (hown : (s.rxFromCurrent 0).owned = false)
    (hbuf : (s.rxFromCurrent 0).buf ≠ 0#32) (heof : (s.rxFromCurrent 0).eof = false) :
    s.pollVisit d = s.linkSlot.goOn (.pollVisit d) :=
  (if_neg (Bool.eq_false_iff.mp hown)).trans ((if_neg hbuf).trans (if_neg (Bool.eq_false_iff.mp heof)))

/-- A visit to the slot that ends a frame links it and completes the frame (R280, R283). -/
theorem State.pollVisit_eof {s : State} (d : Nat) (hown : (s.rxFromCurrent 0).owned = false)
    (hbuf : (s.rxFromCurrent 0).buf ≠ 0#32) (heof : (s.rxFromCurrent 0).eof = true) :
    s.pollVisit d = s.linkSlot.endOfFrame d (ringPos s.nRx s.rx.current 0) (s.rxFromCurrent 0).len :=
  (if_neg (Bool.eq_false_iff.mp hown)).trans ((if_neg hbuf).trans (if_pos heof))

/-- RX_POLL returns the count of delivered frames, when it fits VALUE (R280). -/
theorem State.pollReturn_eq (s : State) {d : Nat} (hd : d < 2 ^ 32) :
    s.pollReturn d = (s.endService receivedBit).retOk (BitVec.ofNat 32 d) := by
  simp only [State.pollReturn, State.countValue, hd, if_true]

/-- The first fault of the block, raised at the slot that a visit of RX_POLL reads, names that slot in the RX ring, and the command
ends without a return (R405, R407, R408). -/
theorem State.pollFault_registers {s t : State} {bit : FaultBit} (hh : t.halted = false) (hlt : s.rx.current.toNat < s.nRx) :
    (t.raiseInCommand bit .rx (ringPos s.nRx s.rx.current 0)).halt =
        { fault := bit.mask, faultSlot := 1#1 ++ s.rx.current } ∧
      (t.raiseInCommand bit .rx (ringPos s.nRx s.rx.current 0)).busy = true ∧
      (t.raiseInCommand bit .rx (ringPos s.nRx s.rx.current 0)).port.result = t.port.result ∧
      (t.raiseInCommand bit .rx (ringPos s.nRx s.rx.current 0)).port.value = t.port.value := by
  have hpos : ringPos s.nRx s.rx.current 0 = s.rx.current.toNat := Nat.mod_eq_of_lt hlt
  rw [hpos, State.raiseInCommand, State.raise_first hh]
  exact ⟨by simp [faultSlotWord], rfl, rfl, rfl⟩

/-- The end of a frame whose length does not fit its chain raises RX_LENGTH_INCONSISTENT (R283). -/
theorem State.endOfFrame_misfit {s : State} {len : BitVec 16} (hfit : s.lengthFits s.rx.chain.length len = false) (d p : Nat) :
    s.endOfFrame d p len = s.raiseInCommand .rxLengthInconsistent .rx p := by
  simp only [State.endOfFrame, hfit, Bool.not_false, if_true]

/-- A length fits `k` fragments when it is above the capacity of all but one of them and within that of all (R283). -/
theorem State.lengthFits_iff (s : State) (k : Nat) (len : BitVec 16) :
    s.lengthFits k len = true ↔ (k - 1) * s.cfg.cap.toNat < len.toNat ∧ len.toNat ≤ k * s.cfg.cap.toNat := by
  simp only [State.lengthFits, Bool.and_eq_true, decide_eq_true_eq]

/-- Settles O26: the visit ends in the fault, which is the block's first. -/
theorem pollFaults : Obligations.PollFaults := by
  intro s d h0 hw hlt hown
  have hh := halted_eq_false_iff.mpr h0
  rw [State.workerStep_pollVisit hh hw]
  refine ⟨fun hbuf => ?_, fun hbuf heof hlen => ?_⟩
  · rw [State.pollVisit_empty d hown hbuf]
    exact State.pollFault_registers hh hlt
  · have hlink : s.linkSlot.rx.chain.length = s.rx.chain.length + 1 := List.length_append
    have hmisfit : s.linkSlot.lengthFits s.linkSlot.rx.chain.length (s.rxFromCurrent 0).len = false := by
      rw [hlink]
      exact Bool.eq_false_iff.mpr (mt (State.lengthFits_iff _ _ _).mp hlen)
    rw [State.pollVisit_eof d hown hbuf heof, State.endOfFrame_misfit hmisfit]
    exact State.pollFault_registers (t := s.linkSlot) hh hlt

/-! ### Runs of visits that link slots -/

/-- In `u` RX_POLL has linked the `j` slots from `rx.current` on, which are empty from then on, and no other slot has changed
(R280, R281). -/
structure Linked (s u : State) (j : Nat) : Prop where
  size : u.nRx = s.nRx
  chain : u.rx.chain = s.rx.chain ++ s.nextHandles j
  chainFirst : u.rx.chainFirst = if j = 0 then s.rx.chainFirst else s.frameFirst
  current : u.rx.current.toNat = ringPos s.nRx s.rx.current j
  emptied : ∀ i < j, u.rxAt (ringPos s.nRx s.rx.current i) = { s.rxFromCurrent i with buf := 0#32 }
  others : OtherRxSlotsSame u s s.rx.current j

/-- What is linked depends on the RX ring alone. -/
theorem Linked.of_rx {s u v : State} {j : Nat} (h : Linked s u j) (hrx : v.rx = u.rx) : Linked s v j := by
  have hat : v.rxAt = u.rxAt := by
    funext p
    simp only [State.rxAt, hrx]
  exact ⟨by rw [State.nRx, hrx]; exact h.size, hrx ▸ h.chain, hrx ▸ h.chainFirst, hrx ▸ h.current, hat ▸ h.emptied,
    fun p hp => hat ▸ h.others p hp⟩

/-- Before the first visit nothing is linked. -/
theorem Linked.refl {s : State} (hlt : s.rx.current.toNat < s.nRx) : Linked s s 0 :=
  ⟨rfl, (List.append_nil _).symm, rfl, (Nat.mod_eq_of_lt hlt).symm, fun i hi => absurd hi (Nat.not_lt_zero i),
    fun _ _ => rfl⟩

/-- The next slot that RX_POLL visits is `j` places on. -/
theorem Linked.next_slot {s u : State} {j : Nat} (h : Linked s u j) (hj : j < s.nRx) :
    u.rxFromCurrent 0 = s.rxFromCurrent j := by
  rw [State.rxFromCurrent, h.size, ringPos_add _ _ _ 0 h.current]
  refine h.others _ fun i hi e => ?_
  have := ringPos_inj s.rx.current hj (by omega) e
  omega

/-- The first slot that is linked begins the frame, unless the chain holds its beginning (R281). -/
theorem Linked.frameFirst {s u : State} {j : Nat} (h : Linked s u j) (hlt : s.rx.current.toNat < s.nRx) :
    u.frameFirst = s.frameFirst := by
  cases j with
  | zero =>
    have hchain : u.rx.chain = s.rx.chain := h.chain.trans (List.append_nil _)
    have hcur : u.rx.current = s.rx.current := BitVec.eq_of_toNat_eq (h.current.trans (Nat.mod_eq_of_lt hlt))
    have hfirst : u.rx.chainFirst = s.rx.chainFirst := h.chainFirst
    simp only [State.frameFirst, hchain, hcur, hfirst]
  | succ j =>
    have hne : u.rx.chain.isEmpty = false := by
      simp [h.chain, State.nextHandles]
    rw [State.frameFirst, hne]
    exact h.chainFirst

/-- One more slot is linked (R281). -/
theorem Linked.linkSlot {s u : State} {j : Nat} (h : Linked s u j) (hsize : IsRingSize s.nRx)
    (hlt : s.rx.current.toNat < s.nRx) (hj : j < s.nRx) : Linked s u.linkSlot (j + 1) := by
  have hslot := h.next_slot hj
  have hpos : ringPos u.nRx u.rx.current 0 = ringPos s.nRx s.rx.current j := by
    rw [h.size]
    exact ringPos_add _ _ _ 0 h.current
  have hat : ∀ p, u.linkSlot.rxAt p =
      (u.setRx (ringPos s.nRx s.rx.current j) { s.rxFromCurrent j with buf := 0#32 }).rxAt p := by
    rw [← hpos, ← hslot]
    exact fun _ => rfl
  refine ⟨u.nRx_linkSlot.trans h.size, ?_, h.frameFirst hlt, ?_, fun i hi => ?_, fun p hp => ?_⟩
  · have hchain : u.linkSlot.rx.chain = u.rx.chain ++ [(u.rxFromCurrent 0).buf] := rfl
    rw [hchain, h.chain, hslot, State.nextHandles, State.nextHandles, List.range_succ, List.map_append,
      List.append_assoc]
    rfl
  · rw [u.linkSlot_current, h.size, adv_eq_ringPos hsize _ (h.current ▸ ringPos_lt hsize.pos _ _)]
    exact ringPos_add _ _ _ _ h.current
  · rw [hat]
    rcases Nat.lt_succ_iff_lt_or_eq.mp hi with hi | rfl
    · have hne : ringPos s.nRx s.rx.current i ≠ ringPos s.nRx s.rx.current j := fun e => by
        have := ringPos_inj s.rx.current (by omega) hj e
        omega
      exact (u.rxAt_setRx_ne _ hne).trans (h.emptied i hi)
    · exact u.rxAt_setRx_self _ (h.size ▸ ringPos_lt hsize.pos _ _)
  · rw [hat]
    exact (u.rxAt_setRx_ne _ (hp j (Nat.lt_succ_self j))).trans (h.others p fun i hi => hp i (by omega))

/-- The state after visits to `j` slots inside a frame (R280, R281). -/
theorem State.runWorker_linked {s : State} {n : Nat} (d : Nat) (hh : s.halted = false) (hsize : IsRingSize s.nRx)
    (hlt : s.rx.current.toNat < s.nRx) (hn : n ≤ s.nRx)
    (hin : ∀ j < n, (s.rxFromCurrent j).owned = false ∧ (s.rxFromCurrent j).buf ≠ 0#32 ∧ (s.rxFromCurrent j).eof = false) :
    ∃ rx, (s.goOn (.pollVisit d)).runWorker n = { s with rx := rx, port.w := .pollVisit d } ∧
      Linked s ((s.goOn (.pollVisit d)).runWorker n) n := by
  induction n with
  | zero => exact ⟨s.rx, rfl, (Linked.refl hlt).of_rx rfl⟩
  | succ n ih =>
    obtain ⟨rx, hrun, hlinked⟩ := ih (by omega) fun j hj => hin j (by omega)
    rw [State.runWorker_succ]
    generalize (s.goOn (.pollVisit d)).runWorker n = u at hrun hlinked
    obtain ⟨hown, hbuf, heof⟩ := hin n (Nat.lt_succ_self n)
    rw [← hlinked.next_slot hn] at hown hbuf heof
    rw [State.workerStep_pollVisit (d := d) (by rw [hrun]; exact hh) (by rw [hrun]), State.pollVisit_interior d hown hbuf heof]
    exact ⟨u.linkSlot.rx, by rw [hrun]; rfl, (hlinked.linkSlot hsize hlt hn).of_rx rfl⟩

/-- Settles O25: the visits link the slots inside the frame, and the one to the armed slot returns. -/
theorem pollKeepsAnOpenChain : Obligations.PollKeepsAnOpenChain := by
  intro s k hr hsize hlt hk hin hown
  obtain ⟨rx, hrun, hlinked⟩ := State.runWorker_linked 0 hr.1 hsize hlt (Nat.le_of_lt hk) hin
  refine ⟨_, _, exec_rxPoll hr, rfl, ?_⟩
  rw [State.runWorker_succ]
  generalize (s.goOn (.pollVisit 0)).runWorker k = u at hrun hlinked
  rw [State.workerStep_pollVisit (d := 0) (by rw [hrun]; exact hr.1) (by rw [hrun]),
    State.pollVisit_owned 0 (hlinked.next_slot hk ▸ hown), State.pollReturn_eq u (by decide)]
  exact ⟨rfl, hlinked.chain, hlinked.chainFirst, hlinked.current, hlinked.emptied, hlinked.others, by rw [hrun]; rfl,
    by rw [hrun]; rfl, by rw [hrun]; rfl⟩

/-! ### The refill of a complete frame -/

/-- The slot at `p` armed with `h`: its wrap bit is kept (R285, R288). -/
def State.armedSlot (s : State) (p : Nat) (h : Handle) : RxSlot :=
  { buf := h, len := 0#16, sof := false, eof := false, wrap := (s.rxAt p).wrap, owned := true }

/-- The refill of the first `n` slots of the chain with the handles `hs`, each of which gets span 0 first (R285, R288, R291). -/
def State.refill (s : State) (hs : List Handle) : Nat → State
  | 0 => s
  | n + 1 => ((s.refill hs n).setSpan (hs.getD n 0#32) 0#16).armSlot (s.chainSlot n) (hs.getD n 0#32)

/-- A refill changes slots and spans alone. -/
theorem State.refill_frame (s : State) (hs : List Handle) (n : Nat) : ∃ slots span,
    s.refill hs n = { s with rx.slots := slots, buf.span := span } ∧ slots.length = s.nRx := by
  induction n with
  | zero => exact ⟨s.rx.slots, s.buf.span, rfl, rfl⟩
  | succ n ih =>
    obtain ⟨slots, span, h, hlen⟩ := ih
    rw [State.refill, h]
    exact ⟨_, _, rfl, List.length_set.trans hlen⟩

theorem State.nRx_refill (s : State) (hs : List Handle) (n : Nat) : (s.refill hs n).nRx = s.nRx := by
  obtain ⟨slots, span, h, hlen⟩ := s.refill_frame hs n
  rw [h]
  exact hlen

theorem State.halted_refill (s : State) (hs : List Handle) (n : Nat) : (s.refill hs n).halted = s.halted := by
  obtain ⟨slots, span, h, -⟩ := s.refill_frame hs n
  rw [h]
  rfl

theorem State.chain_refill (s : State) (hs : List Handle) (n : Nat) : (s.refill hs n).rx.chain = s.rx.chain := by
  obtain ⟨slots, span, h, -⟩ := s.refill_frame hs n
  rw [h]

theorem State.current_refill (s : State) (hs : List Handle) (n : Nat) : (s.refill hs n).rx.current = s.rx.current := by
  obtain ⟨slots, span, h, -⟩ := s.refill_frame hs n
  rw [h]

theorem State.env_refill (s : State) (hs : List Handle) (n : Nat) : (s.refill hs n).env = s.env := by
  obtain ⟨slots, span, h, -⟩ := s.refill_frame hs n
  rw [h]

theorem State.ctr_refill (s : State) (hs : List Handle) (n : Nat) : (s.refill hs n).ctr = s.ctr := by
  obtain ⟨slots, span, h, -⟩ := s.refill_frame hs n
  rw [h]

theorem State.chainSlot_refill (s : State) (hs : List Handle) (n f : Nat) :
    (s.refill hs n).chainSlot f = s.chainSlot f := by
  have hfirst : (s.refill hs n).rx.chainFirst = s.rx.chainFirst := by
    obtain ⟨slots, span, h, -⟩ := s.refill_frame hs n
    rw [h]
  rw [State.chainSlot, s.nRx_refill, hfirst]
  rfl

/-- The slots after a refill: those of the chain's first `n` fragments are armed, and no other has changed. -/
theorem State.rxAt_refill (s : State) (hs : List Handle) (n : Nat) (hn : n ≤ s.nRx) :
    (∀ f < n, (s.refill hs n).rxAt (s.chainSlot f) = s.armedSlot (s.chainSlot f) (hs.getD f 0#32)) ∧
      OtherRxSlotsSame (s.refill hs n) s s.rx.chainFirst n := by
  induction n with
  | zero => exact ⟨fun f hf => absurd hf (Nat.not_lt_zero f), fun _ _ => rfl⟩
  | succ n ih =>
    obtain ⟨harmed, hothers⟩ := ih (by omega)
    have hdiff : ∀ f < n, s.chainSlot f ≠ s.chainSlot n := fun f hf e => by
      have := ringPos_inj s.rx.chainFirst (by omega) hn e
      omega
    have hslot : (s.refill hs n).armedSlot (s.chainSlot n) (hs.getD n 0#32) =
        s.armedSlot (s.chainSlot n) (hs.getD n 0#32) := by
      rw [State.armedSlot, hothers _ fun f hf => (hdiff f hf).symm]
      rfl
    have hat : ∀ p, (s.refill hs (n + 1)).rxAt p =
        ((s.refill hs n).setRx (s.chainSlot n) (s.armedSlot (s.chainSlot n) (hs.getD n 0#32))).rxAt p := by
      rw [← hslot]
      exact fun _ => rfl
    refine ⟨fun f hf => ?_, fun p hp => ?_⟩
    · rw [hat]
      rcases Nat.lt_succ_iff_lt_or_eq.mp hf with hf | rfl
      · exact (State.rxAt_setRx_ne _ _ (hdiff f hf)).trans (harmed f hf)
      · exact State.rxAt_setRx_self _ _ (s.nRx_refill hs f ▸ ringPos_lt (by omega) _ _)
    · rw [hat]
      exact (State.rxAt_setRx_ne _ _ (hp n (Nat.lt_succ_self n))).trans (hothers p fun f hf => hp f (by omega))

/-- The spans after a refill are those after a write of span 0 to the buffers placed (R285, R291). -/
theorem State.buf_refill (s : State) (hs : List Handle) (n : Nat) (hn : n ≤ hs.length) :
    (s.refill hs n).buf = (s.setSpans (hs.take n) 0#16).buf := by
  induction n with
  | zero => rfl
  | succ n ih =>
    have htake : hs.take (n + 1) = hs.take n ++ [hs.getD n 0#32] := by
      rw [List.take_add_one, List.getD_eq_getElem _ _ hn, List.getElem?_eq_getElem hn]
      rfl
    have hsnoc : s.setSpans (hs.take (n + 1)) 0#16 = (s.setSpans (hs.take n) 0#16).setSpan (hs.getD n 0#32) 0#16 := by
      simp only [State.setSpans, htake, List.foldl_append, List.foldl_cons, List.foldl_nil]
    rw [hsnoc]
    show ((s.refill hs n).setSpan (hs.getD n 0#32) 0#16).buf = _
    simp only [State.setSpan_buf, ih (by omega)]

/-- A refill with all handles of a list leaves each with span 0 and every other span as it was. -/
theorem State.span_refill {s : State} (hc : Canonical s) (hs : List Handle) (g : Handle) :
    (s.refill hs hs.length).span g = if g ∈ hs then 0#16 else s.span g := by
  have hbuf := s.buf_refill hs hs.length (Nat.le_refl _)
  rw [List.take_length] at hbuf
  rw [← State.span_setSpans hs 0#16 hc.span hc.noZeroSpan g, State.span, hbuf]
  rfl

/-- A re-arming write of the success path: the slot is armed, and W goes on with the next one or delivers the frame (R285). -/
theorem State.workerStep_rearmFrom {s : State} (hh : s.halted = false) (d f : Nat) (h : Handle) (rest : List Handle)
    (len : BitVec 16) : (s.rearmFrom d f (h :: rest) len).workerStep =
      if rest.isEmpty then ((s.setSpan h 0#16).armSlot (s.chainSlot f) h).deliverChain d len
      else ((s.setSpan h 0#16).armSlot (s.chainSlot f) h).rearmFrom d (f + 1) rest len := by
  rw [State.workerStep_pollRearm (s := s.rearmFrom d f (h :: rest) len) hh rfl, State.pollRearm]
  rfl

/-- A write of the failure path: the slot gets its buffer back, and W goes on with the next one or drops the frame (R288). -/
theorem State.workerStep_recycleFrom {s : State} (hh : s.halted = false) (d f : Nat) : (s.recycleFrom d f).workerStep =
      if f + 1 < s.rx.chain.length then
        ((s.setSpan (s.rx.chain.getD f 0#32) 0#16).armSlot (s.chainSlot f) (s.rx.chain.getD f 0#32)).recycleFrom d (f + 1)
      else ((s.setSpan (s.rx.chain.getD f 0#32) 0#16).armSlot (s.chainSlot f) (s.rx.chain.getD f 0#32)).dropChain d := by
  rw [State.workerStep_pollRecycle (s := s.recycleFrom d f) hh rfl, State.pollRecycle]
  rfl

/-- The handles still to be placed after `n` writes begin with the `n`-th. -/
theorem drop_eq_getD_cons {hs : List Handle} {n : Nat} (hn : n < hs.length) :
    hs.drop n = hs.getD n 0#32 :: hs.drop (n + 1) := by
  rw [List.drop_eq_getElem_cons hn, List.getD_eq_getElem _ _ hn]

/-- The state after `n` re-arming writes of the success path, fewer than all (R285). -/
theorem State.runWorker_rearmFrom {s : State} (hh : s.halted = false) (d : Nat) {hs : List Handle} (len : BitVec 16)
    (n : Nat) (hn : n < hs.length) :
    (s.rearmFrom d 0 hs len).runWorker n = (s.refill hs n).rearmFrom d n (hs.drop n) len := by
  induction n with
  | zero => rfl
  | succ n ih =>
    have hmore : ¬(hs.drop (n + 1)).isEmpty = true := by simpa using hn
    rw [State.runWorker_succ, ih (by omega), drop_eq_getD_cons (by omega),
      State.workerStep_rearmFrom ((s.halted_refill hs n).trans hh), if_neg hmore, s.chainSlot_refill]
    rfl

/-- All re-arming writes of the success path: the frame is delivered with the last one (R285, R286). -/
theorem State.runWorker_rearmed {s : State} (hh : s.halted = false) (d : Nat) {hs : List Handle} (len : BitVec 16)
    (hpos : 0 < hs.length) :
    (s.rearmFrom d 0 hs len).runWorker hs.length = (s.refill hs hs.length).deliverChain d len := by
  obtain ⟨n, hlen⟩ := Nat.exists_eq_add_one.mpr hpos
  have hn : n < hs.length := by omega
  have hlast : (hs.drop (n + 1)).isEmpty = true := by simp [hlen]
  rw [hlen, State.runWorker_succ, State.runWorker_rearmFrom hh d len n hn, drop_eq_getD_cons hn,
    State.workerStep_rearmFrom ((s.halted_refill hs n).trans hh), if_pos hlast, s.chainSlot_refill]
  rfl

/-- The state after `n` writes of the failure path, fewer than all (R288). -/
theorem State.runWorker_recycleFrom {s : State} (hh : s.halted = false) (d n : Nat) (hn : n < s.rx.chain.length) :
    (s.recycleFrom d 0).runWorker n = (s.refill s.rx.chain n).recycleFrom d n := by
  induction n with
  | zero => rfl
  | succ n ih =>
    rw [State.runWorker_succ, ih (by omega), State.workerStep_recycleFrom ((s.halted_refill _ n).trans hh), s.chain_refill,
      if_pos hn, s.chainSlot_refill]
    rfl

/-- All writes of the failure path: the frame is dropped with the last one (R288, R292). -/
theorem State.runWorker_recycled {s : State} (hh : s.halted = false) (d : Nat) (hpos : 0 < s.rx.chain.length) :
    (s.recycleFrom d 0).runWorker s.rx.chain.length = (s.refill s.rx.chain s.rx.chain.length).dropChain d := by
  obtain ⟨n, hlen⟩ := Nat.exists_eq_add_one.mpr hpos
  have hlast : ¬n + 1 < s.rx.chain.length := by omega
  rw [hlen, State.runWorker_succ, State.runWorker_recycleFrom hh d n (by omega),
    State.workerStep_recycleFrom ((s.halted_refill _ n).trans hh), s.chain_refill, if_neg hlast, s.chainSlot_refill]
  rfl

/-! ### The end of a frame -/

/-- The end of a frame whose length fits: W refills the chain's slots with the buffers it obtained, or with their own when these
are too few (R283, R284, R288). -/
theorem State.endOfFrame_fits {s u : State} {len : BitVec 16} {got : List Handle}
    (hfit : s.lengthFits s.rx.chain.length len = true)
    (hu : (s.spanChain len).allocateUpTo s.rx.chain.length = (got, u)) (d p : Nat) :
    s.endOfFrame d p len = if got.length = s.rx.chain.length then u.rearmFrom d 0 got len
      else (u.releaseAll got).recycleFrom d 0 := by
  simp only [State.endOfFrame, hfit, hu, Bool.not_true, Bool.false_eq_true, if_false]

/-- The spans of a completed chain's distinct buffers: `CAP` for all but the last, and the rest of the length (R287). -/
theorem State.map_span_spanChain {s : State} (hc : Canonical s) (hne : s.rx.chain ≠ []) (hnodup : s.rx.chain.Nodup)
    (len : BitVec 16) : s.rx.chain.map (s.spanChain len).span =
      List.replicate (s.rx.chain.length - 1) s.cfg.cap ++
        [BitVec.ofNat 16 (len.toNat - (s.rx.chain.length - 1) * s.cfg.cap.toNat)] := by
  have hsplit := List.dropLast_append_getLast hne
  have hlast : s.rx.chain.getLastD 0#32 = s.rx.chain.getLast hne := by
    rw [List.getLastD_eq_getLast?, List.getLast?_eq_getLast_of_ne_nil hne]
    rfl
  have hsep : s.rx.chain.getLast hne ∉ s.rx.chain.dropLast := fun hmem => by
    rw [← hsplit] at hnodup
    exact (List.nodup_append.mp hnodup).2.2 _ hmem _ List.mem_cons_self rfl
  have hcap := State.setSpans_canonical s.rx.chain.dropLast s.cfg.cap hc.span hc.noZeroSpan
  have hwrite : s.spanChain len = (s.setSpans s.rx.chain.dropLast s.cfg.cap).setSpan (s.rx.chain.getLast hne)
      (BitVec.ofNat 16 (len.toNat - (s.rx.chain.length - 1) * s.cfg.cap.toNat)) := by
    obtain ⟨span, h⟩ := State.setSpans_spec s.rx.chain.dropLast s.cfg.cap s
    rw [State.spanChain, h, ← hlast]
  have hfirst : ∀ h ∈ s.rx.chain.dropLast, (s.spanChain len).span h = s.cfg.cap := fun h hh => by
    rw [hwrite, State.span_setSpan_ne _ (ne_of_mem_of_not_mem hh hsep), State.span_setSpans _ _ hc.span hc.noZeroSpan, if_pos hh]
  have hend : (s.spanChain len).span (s.rx.chain.getLast hne) =
      BitVec.ofNat 16 (len.toNat - (s.rx.chain.length - 1) * s.cfg.cap.toNat) := by
    rw [hwrite, State.span_setSpan_self hcap.1]
  calc s.rx.chain.map (s.spanChain len).span
      = s.rx.chain.dropLast.map (s.spanChain len).span ++ [(s.spanChain len).span (s.rx.chain.getLast hne)] := by
        rw [← List.map_singleton, ← List.map_append, hsplit]
    _ = _ := by rw [List.map_eq_replicate_iff.mpr hfirst, List.length_dropLast, hend]

theorem State.spanChain_env (s : State) (len : BitVec 16) : (s.spanChain len).env = s.env := by
  obtain ⟨span, h⟩ := s.spanChain_frame len
  rw [h]

theorem State.spanChain_rx (s : State) (len : BitVec 16) : (s.spanChain len).rx = s.rx := by
  obtain ⟨span, h⟩ := s.spanChain_frame len
  rw [h]

/-- With enough free buffers W starts the refill with fresh ones, taken from the free set (R284, R285, R287). -/
theorem State.endOfFrame_granted {s : State} {len : BitVec 16} (hc : Canonical s)
    (hfit : s.lengthFits s.rx.chain.length len = true) (henough : s.rx.chain.length ≤ s.env.pool.length) (d p : Nat) :
    ∃ fresh v pool provider ds n, s.endOfFrame d p len = v.rearmFrom d 0 fresh len ∧
      v = { s.spanChain len with
        draws := ds, drawNo := n, env := { s.env with pool := pool, provider := provider } } ∧
      fresh.length = s.rx.chain.length ∧ fresh.Nodup ∧ (∀ h ∈ fresh, h ∈ s.env.pool) ∧ HandleSet.wf pool ∧
      ∀ h, h ∈ pool ↔ h ∈ s.env.pool ∧ h ∉ fresh := by
  have henv := s.spanChain_env len
  obtain ⟨fresh, pool, calls, ds, n, hu, hlen, hnodup, hmem, hwf, hpool⟩ :=
    State.allocateUpTo_spec s.rx.chain.length (s := s.spanChain len) (henv ▸ hc.pool)
  rw [henv] at hu hlen hmem hpool
  have hall : fresh.length = s.rx.chain.length := hlen.trans (Nat.min_eq_left henough)
  exact ⟨fresh, _, pool, _, ds, n, (State.endOfFrame_fits hfit hu d p).trans (if_pos hall), rfl, hall, hnodup, hmem, hwf,
    hpool⟩

/-- With too few free buffers W gives back what it obtained, which restores the free set, and starts to put the frame's own buffers
back (R284, R288, R289). -/
theorem State.endOfFrame_refused {s : State} {len : BitVec 16} (hc : Canonical s)
    (hfit : s.lengthFits s.rx.chain.length len = true) (hfew : s.env.pool.length < s.rx.chain.length) (d p : Nat) :
    ∃ provider ds n, s.endOfFrame d p len = State.recycleFrom { s.spanChain len with
        draws := ds, drawNo := n, env := { s.env with provider := provider } } d 0 := by
  have henv := s.spanChain_env len
  obtain ⟨got, pool, calls, ds, n, hu, hlen, -, hmem, hwf, hpool⟩ :=
    State.allocateUpTo_spec s.rx.chain.length (s := s.spanChain len) (henv ▸ hc.pool)
  rw [henv] at hu hlen hmem hpool
  have hshort : got.length ≠ s.rx.chain.length := by omega
  obtain ⟨pool', hback, hwf', hpool'⟩ := State.releaseAll_spec got (s := { s.spanChain len with
    draws := ds, drawNo := n, env := { s.env with pool := pool, provider := s.env.provider ++ calls } }) hwf
    fun h hh => HandleSet.ne_zero hc.pool (hmem h hh)
  have hrestored : pool' = s.env.pool := HandleSet.ext hwf' hc.pool fun h => by
    rw [hpool' h, hpool h]
    by_cases hh : h ∈ got
    · simp [hh, hmem h hh]
    · simp [hh]
  rw [State.endOfFrame_fits hfit hu, if_neg hshort, hback, hrestored]
  exact ⟨_, ds, n, rfl⟩

/-! ### The slots of a complete frame -/

/-- The slots that complete a frame lie behind those that the chain has linked (R73, R281). -/
theorem FrameReady.visited_eq {s : State} {k : Nat} {len : BitVec 16} (hf : FrameReady s k len) (j : Nat) :
    ringPos s.nRx s.rx.current j = ringPos s.nRx s.frameFirst (s.rx.chain.length + j) := by
  by_cases hc : s.rx.chain = []
  · simp [State.frameFirst, hc]
  · have hfirst : s.frameFirst = s.rx.chainFirst := by simp [State.frameFirst, hc]
    rw [hfirst]
    exact ringPos_add _ _ _ _ (hf.chain_first hc)

/-- The visits that link a frame's slots, the last of which completes it (R280, R283). -/
theorem FrameReady.runWorker_visits {s : State} {k : Nat} {len : BitVec 16} (hf : FrameReady s k len) (hh : s.halted = false)
    (d : Nat) : ∃ rx p, Linked s { s with rx := rx, port.w := .pollVisit d } k ∧
      (s.goOn (.pollVisit d)).runWorker k = State.endOfFrame { s with rx := rx, port.w := .pollVisit d } d p len := by
  obtain ⟨n, rfl⟩ := Nat.exists_eq_add_one.mpr hf.k_pos
  have hn : n < s.nRx := by
    have := hf.k_le
    omega
  have hin : ∀ j < n, (s.rxFromCurrent j).owned = false ∧ (s.rxFromCurrent j).buf ≠ 0#32 ∧
      (s.rxFromCurrent j).eof = false := fun j hj => by
    obtain ⟨hown, hbuf, heof⟩ := hf.slots j (by omega)
    exact ⟨hown, hbuf, heof.trans (decide_eq_false (by omega))⟩
  obtain ⟨rx, hrun, hlinked⟩ := State.runWorker_linked d hh hf.size hf.current_lt (Nat.le_of_lt hn) hin
  obtain ⟨hown, hbuf, heof⟩ := hf.slots n (Nat.lt_succ_self n)
  have hlen := hf.len_eq
  rw [State.runWorker_succ]
  generalize (s.goOn (.pollVisit d)).runWorker n = u at hrun hlinked
  rw [Nat.add_sub_cancel, ← hlinked.next_slot hn] at hlen
  rw [← hlinked.next_slot hn] at hown hbuf heof
  have hlast := hlinked.linkSlot hf.size hf.current_lt hn
  have hframe : u.linkSlot = { s with rx := u.linkSlot.rx, port.w := .pollVisit d } := by
    rw [hrun]
    rfl
  rw [State.workerStep_pollVisit (d := d) (by rw [hrun]; exact hh) (by rw [hrun]),
    State.pollVisit_eof d hown hbuf (heof.trans (decide_eq_true rfl)), hlen]
  exact ⟨u.linkSlot.rx, _, hframe ▸ hlast, by rw [← hframe]⟩

theorem Linked.chain_length {s u : State} {j : Nat} (h : Linked s u j) : u.rx.chain.length = s.rx.chain.length + j := by
  simp [h.chain, State.nextHandles]

/-- The length fits the frame's chain (R283). -/
theorem FrameReady.lengthFits {s u : State} {k : Nat} {len : BitVec 16} (hf : FrameReady s k len) (hl : Linked s u k)
    (hcap : u.cfg = s.cfg) : u.lengthFits u.rx.chain.length len = true := by
  have hlen := hl.chain_length
  rw [State.lengthFits_iff, hlen, hcap]
  exact ⟨hf.len_gt, hf.len_le⟩

/-- No wrap bit has changed when slots are linked. -/
theorem Linked.wrap {s u : State} {j : Nat} (h : Linked s u j) (p : Nat) : (u.rxAt p).wrap = (s.rxAt p).wrap := by
  by_cases hp : ∃ i < j, p = ringPos s.nRx s.rx.current i
  · obtain ⟨i, hi, rfl⟩ := hp
    rw [h.emptied i hi]
    rfl
  · rw [h.others p fun i hi e => hp ⟨i, hi, e⟩]

/-- In `u` the slots of the frame that the next `k` slots of `s` complete are armed with the handles `hs`, no other slot has
changed, and `rx.current` stands behind the frame (R285, R288). -/
structure FrameRefilled (s u : State) (k : Nat) (hs : List Handle) : Prop where
  size : u.nRx = s.nRx
  current : u.rx.current.toNat = ringPos s.nRx s.rx.current k
  armed : ∀ f < s.rx.chain.length + k, u.rxAt (ringPos s.nRx s.frameFirst f) =
    s.armedSlot (ringPos s.nRx s.frameFirst f) (hs.getD f 0#32)
  others : OtherRxSlotsSame u s s.frameFirst (s.rx.chain.length + k)

/-- A refill of the chain of the linked frame arms all its slots. -/
theorem FrameReady.refilled {s v u : State} {k : Nat} {len : BitVec 16} (hf : FrameReady s k len) (hl : Linked s v k)
    (hs : List Handle) (hslots : u.rx.slots = (v.refill hs (s.rx.chain.length + k)).rx.slots)
    (hcur : u.rx.current = v.rx.current) : FrameRefilled s u k hs := by
  have hfirst : v.rx.chainFirst = s.frameFirst := by rw [hl.chainFirst, if_neg (Nat.ne_of_gt hf.k_pos)]
  have hslot : ∀ f, v.chainSlot f = ringPos s.nRx s.frameFirst f := fun f => by rw [State.chainSlot, hl.size, hfirst]
  have hat : u.rxAt = (v.refill hs (s.rx.chain.length + k)).rxAt := by
    funext p
    simp only [State.rxAt, hslots]
  obtain ⟨harmed, hothers⟩ := v.rxAt_refill hs (s.rx.chain.length + k) (hl.size ▸ hf.k_le)
  refine ⟨?_, hcur ▸ hl.current, fun f hlt => ?_, fun p hp => ?_⟩
  · rw [State.nRx, hslots]
    exact (v.nRx_refill _ _).trans hl.size
  · rw [hat, ← hslot, harmed f hlt, State.armedSlot, hl.wrap]
    rfl
  · rw [hat, hothers p fun f hlt => ?_, hl.others p fun i hi => ?_]
    · rw [hf.visited_eq i]
      exact hp _ (by omega)
    · rw [hl.size, hfirst]
      exact hp f hlt

/-- After the refill the walk stops at the slot behind the frame: it is armed, and in a full ring it is the frame's own first slot
(R294). -/
theorem FrameRefilled.next_owned {s u : State} {k : Nat} {len : BitVec 16} {hs : List Handle} (h : FrameRefilled s u k hs)
    (hf : FrameReady s k len) (hnext : s.rx.chain.length + k < s.nRx → (s.rxFromCurrent k).owned = true) :
    (u.rxFromCurrent 0).owned = true := by
  have hpos : ringPos u.nRx u.rx.current 0 = ringPos s.nRx s.rx.current k := by
    rw [h.size]
    exact ringPos_add _ _ _ 0 h.current
  have hk := hf.k_pos
  rw [State.rxFromCurrent, hpos, hf.visited_eq k]
  rcases Nat.lt_or_eq_of_le hf.k_le with hlt | hfull
  · rw [h.others _ fun f hfl e => ?_, ← hf.visited_eq k]
    · exact hnext hlt
    · have := ringPos_inj s.frameFirst hlt (by omega) e
      omega
  · have haround : ringPos s.nRx s.frameFirst (s.rx.chain.length + k) = ringPos s.nRx s.frameFirst 0 := by
      rw [hfull]
      exact Nat.add_mod_right _ _
    rw [haround, h.armed 0 (by omega)]
    rfl

/-- The visit behind the frame returns the count (R280, R294). -/
theorem FrameRefilled.workerStep {s u : State} {k d : Nat} {len : BitVec 16} {hs : List Handle} (h : FrameRefilled s u k hs)
    (hf : FrameReady s k len) (hnext : s.rx.chain.length + k < s.nRx → (s.rxFromCurrent k).owned = true)
    (hh : u.halted = false) (hw : u.port.w = .pollVisit d) (hd : d < 2 ^ 32) :
    u.workerStep = (u.endService receivedBit).retOk (BitVec.ofNat 32 d) := by
  rw [State.workerStep_pollVisit hh hw, State.pollVisit_owned d (h.next_owned hf hnext), State.pollReturn_eq u hd]

/-! ### RX_POLL on a complete frame -/

/-- `v` follows `s` when RX_POLL has linked a frame's last `k` slots, written the spans of its buffers and obtained `fresh` from the
free set (R281, R284, R287). -/
structure BuffersGranted (s v : State) (k : Nat) (len : BitVec 16) (fresh : List Handle) : Prop where
  linked : Linked s v k
  rest : ∃ rx span pool provider w ds n, v = { s with
    rx := rx, buf.span := span, env := { s.env with pool := pool, provider := provider }, port.w := w
    draws := ds, drawNo := n }
  canonical : Canonical v
  length : fresh.length = s.rx.chain.length + k
  nodup : fresh.Nodup
  taken : ∀ h ∈ fresh, h ∈ s.env.pool
  pool : ∀ h, h ∈ v.env.pool ↔ h ∈ s.env.pool ∧ h ∉ fresh
  spans : v.rx.chain.Nodup → v.rx.chain.map v.span = List.replicate (s.rx.chain.length + k - 1) s.cfg.cap ++
    [BitVec.ofNat 16 (len.toNat - (s.rx.chain.length + k - 1) * s.cfg.cap.toNat)]

/-- With enough free buffers the visits end in the refill with fresh ones (R284, R285). -/
theorem FrameReady.granted {s : State} {k : Nat} {len : BitVec 16} (hf : FrameReady s k len) (hh : s.halted = false)
    (hc : Canonical s) (henough : s.rx.chain.length + k ≤ s.env.pool.length) (d : Nat) : ∃ fresh v,
      BuffersGranted s v k len fresh ∧ (s.goOn (.pollVisit d)).runWorker k = v.rearmFrom d 0 fresh len := by
  obtain ⟨rx, p, hl, hrun⟩ := hf.runWorker_visits hh d
  rw [hrun]
  generalize hw : ({ s with rx := rx, port.w := .pollVisit d } : State) = w at hl
  have hcw : Canonical w := hw ▸ hc.of_same rfl rfl rfl rfl
  have henv : w.env = s.env := hw ▸ rfl
  have hcfg : w.cfg = s.cfg := hw ▸ rfl
  have hlen := hl.chain_length
  have hne : w.rx.chain ≠ [] := List.ne_nil_of_length_pos (hlen ▸ Nat.add_pos_right _ hf.k_pos)
  obtain ⟨fresh, v, pool, provider, ds, n, hend, hv, hlength, hnodup, hmem, hwf, hpool⟩ :=
    State.endOfFrame_granted hcw (hf.lengthFits hl hcfg) (by rw [hlen, henv]; exact henough) d p
  have hspan : v.span = (w.spanChain len).span := by rw [hv]; rfl
  have hrx : v.rx = w.rx := by rw [hv]; exact w.spanChain_rx len
  refine ⟨fresh, v, ⟨hl.of_rx hrx, ?_, ?_, hlength.trans hlen, hnodup, henv ▸ hmem, ?_, fun hdist => ?_⟩, hend⟩
  · obtain ⟨span, h⟩ := w.spanChain_frame len
    rw [hv, h, ← hw]
    exact ⟨_, _, _, _, _, _, _, rfl⟩
  · rw [hv]
    exact (hcw.spanChain len).of_sets rfl rfl hwf hcw.router
  · rw [hv, ← henv]
    exact hpool
  · rw [hrx] at hdist ⊢
    rw [hspan, State.map_span_spanChain hcw hne hdist, hlen, hcfg]

/-- The frame that is delivered: the chain's buffers, which the refill has not touched, with their spans (R286, R287). -/
theorem BuffersGranted.chainFrame_refill {s v : State} {k : Nat} {len : BitVec 16} {fresh : List Handle}
    (hv : BuffersGranted s v k len fresh) (hdist : (s.rx.chain ++ s.nextHandles k).Nodup)
    (hapart : ∀ h ∈ s.rx.chain ++ s.nextHandles k, h ∉ s.env.pool) : (v.refill fresh fresh.length).chainFrame len = {
      handles := s.rx.chain ++ s.nextHandles k, totalLength := len
      spans := List.replicate (s.rx.chain.length + k - 1) s.cfg.cap ++
        [BitVec.ofNat 16 (len.toNat - (s.rx.chain.length + k - 1) * s.cfg.cap.toNat)] } := by
  have hspans : v.rx.chain.map (v.refill fresh fresh.length).span = v.rx.chain.map v.span :=
    List.map_congr_left fun h hmem => by
      rw [State.span_refill hv.canonical, if_neg fun hfresh => hapart h (hv.linked.chain ▸ hmem) (hv.taken h hfresh)]
  rw [State.chainFrame, v.chain_refill, hspans, hv.spans (hv.linked.chain ▸ hdist), hv.linked.chain]

/-- Settles O23: the visits link the frame, the refill arms its slots with the buffers granted and ends in the delivery, and the
visit behind the frame returns. -/
theorem pollDeliversACompleteFrame : Obligations.PollDeliversACompleteFrame := by
  intro s k len hr hc hf hnext hdist hapart henough
  obtain ⟨fresh, v, hv, hrun⟩ := hf.granted hr.1 hc henough 0
  have hlen : 0 < fresh.length := hv.length ▸ Nat.add_pos_right _ hf.k_pos
  obtain ⟨rx, span, pool, provider, w, ds, n, hrest⟩ := hv.rest
  have hh : v.halted = false := by rw [hrest]; exact hr.1
  have hdelivered : v.env.delivered = s.env.delivered := by rw [hrest]
  have hrouter : v.env.router = s.env.router := by rw [hrest]
  have hctr : v.ctr = s.ctr := by rw [hrest]
  have hframe := hv.chainFrame_refill hdist hapart
  have hhu := (v.halted_refill fresh fresh.length).trans hh
  have henvu := v.env_refill fresh fresh.length
  have hctru := v.ctr_refill fresh fresh.length
  have hdone : FrameRefilled s ((v.refill fresh fresh.length).deliverChain 0 len) k fresh :=
    hf.refilled hv.linked fresh (by rw [← hv.length]; rfl) (v.current_refill _ _)
  refine ⟨_, _, fresh, exec_rxPoll hr, rfl, ?_⟩
  rw [State.runWorker_succ, State.runWorker_add, hrun, ← hv.length, State.runWorker_rearmed hh 0 len hlen]
  generalize v.refill fresh fresh.length = u at hhu henvu hctru hframe hdone
  rw [hdone.workerStep (d := 1) hf hnext hhu rfl (by decide), hv.length]
  refine ⟨rfl, ?_, fun h => ?_, rfl, hv.nodup, hv.taken, fun h => ?_, hdone.armed, hdone.others, rfl, hdone.current, ?_⟩
  · show u.env.delivered ++ [u.chainFrame len] = _
    rw [henvu, hdelivered, hframe]
  · show h ∈ HandleSet.insertAll u.env.router (u.chainFrame len).handles ↔ _
    rw [HandleSet.mem_insertAll, henvu, hrouter, hframe]
  · show h ∈ u.env.pool ↔ _
    rw [henvu, hv.pool]
  · show u.ctr = s.ctr
    rw [hctru, hctr]

/-- `v` follows `s` when RX_POLL has linked a frame's last `k` slots and given back what it obtained (R281, R284, R289). -/
structure BuffersRefused (s v : State) (k : Nat) : Prop where
  linked : Linked s v k
  rest : ∃ rx span provider w ds n, v = { s with
    rx := rx, buf.span := span, env := { s.env with provider := provider }, port.w := w, draws := ds, drawNo := n }
  canonical : Canonical v

/-- With too few free buffers the visits end in the recycling of the frame's own (R284, R288, R289). -/
theorem FrameReady.refused {s : State} {k : Nat} {len : BitVec 16} (hf : FrameReady s k len) (hh : s.halted = false)
    (hc : Canonical s) (hfew : s.env.pool.length < s.rx.chain.length + k) (d : Nat) : ∃ v,
      BuffersRefused s v k ∧ (s.goOn (.pollVisit d)).runWorker k = v.recycleFrom d 0 := by
  obtain ⟨rx, p, hl, hrun⟩ := hf.runWorker_visits hh d
  rw [hrun]
  generalize hw : ({ s with rx := rx, port.w := .pollVisit d } : State) = w at hl
  have hcw : Canonical w := hw ▸ hc.of_same rfl rfl rfl rfl
  have henv : w.env = s.env := hw ▸ rfl
  have hlen := hl.chain_length
  obtain ⟨provider, ds, n, hend⟩ :=
    State.endOfFrame_refused hcw (hf.lengthFits hl (hw ▸ rfl)) (by rw [hlen, henv]; exact hfew) d p
  refine ⟨_, ⟨?_, ?_, ?_⟩, hend⟩
  · exact hl.of_rx (w.spanChain_rx len)
  · obtain ⟨span, h⟩ := w.spanChain_frame len
    rw [h, ← hw]
    exact ⟨_, _, _, _, _, _, rfl⟩
  · exact (hcw.spanChain len).of_sets rfl rfl hcw.pool hcw.router

/-- Settles O24: the visits link the frame, the recycling puts its buffers back and ends in the drop, and the visit behind the frame
returns. -/
theorem pollRecyclesWhenBuffersRunOut : Obligations.PollRecyclesWhenBuffersRunOut := by
  intro s k len hr hc hf hnext hfew
  obtain ⟨v, hv, hrun⟩ := hf.refused hr.1 hc hfew 0
  have hchain := hv.linked.chain
  have hlen := hv.linked.chain_length
  have hpos : 0 < v.rx.chain.length := hlen ▸ Nat.add_pos_right _ hf.k_pos
  obtain ⟨rx, span, provider, w, ds, n, hrest⟩ := hv.rest
  have hh : v.halted = false := by rw [hrest]; exact hr.1
  have henv : v.env = { s.env with provider := provider } := by rw [hrest]
  have hctr : v.ctr = s.ctr := by rw [hrest]
  have hhu := (v.halted_refill v.rx.chain v.rx.chain.length).trans hh
  have henvu := v.env_refill v.rx.chain v.rx.chain.length
  have hctru := v.ctr_refill v.rx.chain v.rx.chain.length
  have hspan := State.span_refill hv.canonical v.rx.chain
  have hdone : FrameRefilled s ((v.refill v.rx.chain v.rx.chain.length).dropChain 0) k v.rx.chain :=
    hf.refilled hv.linked v.rx.chain (by rw [← hlen]; rfl) (v.current_refill _ _)
  refine ⟨_, _, exec_rxPoll hr, rfl, ?_⟩
  rw [State.runWorker_succ, State.runWorker_add, hrun, ← hlen, State.runWorker_recycled hh 0 hpos]
  generalize v.refill v.rx.chain v.rx.chain.length = u at hhu henvu hctru hspan hdone
  rw [hdone.workerStep (d := 0) hf hnext hhu rfl (by decide), hlen, ← hchain]
  refine ⟨rfl, ?_, ?_, ?_, ?_, hdone.armed, fun h hmem => ?_, hdone.others, rfl, hdone.current⟩
  · show u.env.delivered = _
    rw [henvu, henv]
  · show u.env.router = _
    rw [henvu, henv]
  · show u.env.pool = _
    rw [henvu, henv]
  · show ({ u.ctr with rxDrop := u.ctr.rxDrop + 1#32 } : Counters) = _
    rw [hctru, hctr]
  · exact (hspan h).trans (if_pos hmem)

end Sys2Proof.Machine

/-! Family 43_event_gate: agent I's steps, the events that stay in EVT until a drain answers them, and the gate's view. -/

namespace Sys2Proof.Machine

/-! ### Agent I's steps -/

/-- Agent I's step while an IRQ_ENTRY runs is its merge (R330). -/
theorem State.interruptStep_of_latch {s : State} {captured : BitVec 2} (hh : s.halted = false)
    (hlatch : s.irq.latch = some captured) : s.interruptStep = s.irqMerge captured := by
  unfold State.interruptStep
  rw [if_neg (by simp [hh]), hlatch]

/-- IRQ_ENTRY's word on a free interrupt port captures at once (R330, R335). -/
theorem exec_irqEntry {s : State} (hh : s.halted = false) (hfree : s.interruptBusy = false) :
    exec .irqEntry s = .next s.irqCapture := by
  simp only [exec, execIrqEntry, hh, hfree, Bool.false_eq_true, if_false]

/-- Step A takes all that ISR holds and leaves it 0 (R331). -/
theorem State.irqCapture_eq (s : State) : s.irqCapture =
    { s with irq := { s.irq with isr := 0#2, latch := some s.irq.isr, intResult := 0#8 } } := by
  unfold State.irqCapture
  rw [BitVec.and_not_self]
  rfl

/-- Step B adds the captured bits to EVT (R332, R333). -/
theorem State.irqMerge_eq (s : State) (captured : BitVec 2) : s.irqMerge captured =
    { s with irq := { s.irq with evt := s.irq.evt ||| captured, sig := true, intResult := 0#8, latch := none } } := by
  unfold State.irqMerge
  rw [eventBits_eq]
  rfl

/-- After step A a bit of ISR is one that has been set since (R331, R336). -/
theorem State.irqCapture_setIsr (s : State) (bits : BitVec 2) : s.irqCapture.setIsr bits =
    { s with irq := { s.irq with isr := bits, latch := some s.irq.isr, intResult := 0#8 } } := by
  rw [State.irqCapture_eq]
  simp only [State.setIsr, BitVec.zero_or]

/-- Settles O30: the capture empties ISR, so that what a DMA agent sets there afterwards is all that the merge leaves in it. -/
theorem irqEntryCapturesThenMerges : Obligations.IrqEntryCapturesThenMerges := by
  intro s hh hfree
  refine ⟨s.irqCapture, exec_irqEntry hh hfree, s.irqCapture_eq, fun bits => ?_⟩
  rw [State.interruptStep_of_latch (s := s.irqCapture.setIsr bits) hh rfl, State.irqMerge_eq, State.irqCapture_setIsr]
  exact ⟨rfl, bne_iff_ne.mpr⟩

/-- Settles O34: both steps of IRQ_ENTRY, and a waiting word, write the interrupt registers and nothing else. -/
theorem interruptContextTouchesOnlyTheGate : Obligations.InterruptContextTouchesOnlyTheGate := by
  intro s
  have hstep := s.interruptStep_frame
  refine ⟨hstep, execIrqEntry_frame s, fun a => ?_⟩
  obtain ⟨irq, h⟩ := hstep
  rw [h]

/-! ### The events in EVT -/

/-- EVT_DRAIN has answered OK with the events of `s` and cleared EVT and SIG (R340, R341). -/
def DrainAnswered (s t : State) : Prop :=
  t.irq.evt = 0#2 ∧ t.irq.sig = false ∧ t.port = returned .ok (s.irq.evt.setWidth 32)

/-- The bits of EVT stay, or EVT_DRAIN has answered them (R343). -/
def EventsKept (s t : State) : Prop := BitsStay s.irq.evt t.irq.evt ∨ DrainAnswered s t

theorem EventsKept.of_evt {s t : State} (h : t.irq.evt = s.irq.evt) : EventsKept s t := .inl (h ▸ .refl _)

theorem EventsKept.of_irq {s t : State} (h : t.irq = s.irq) : EventsKept s t := .of_evt (congrArg IrqRegs.evt h)

/-- A worker command other than CFG, whose own step keeps the events. -/
theorem EventsKept.issueConfigured {s : State} {cmd : State → State} (h : EventsKept s (cmd s)) :
    EventsKept s (s.issueConfigured cmd) :=
  State.issueConfigured_effect (.of_irq rfl) (.of_irq rfl) h

/-- EVT_DRAIN answers the events it clears (R341). -/
theorem State.drainEvents_answered (s : State) : DrainAnswered s s.drainEvents := ⟨rfl, rfl, rfl⟩

/-- A performed INTCMD word leaves EVT as it is (R144, R330). -/
theorem State.performInt_evt (s : State) (w : Word) : (s.performInt w).irq.evt = s.irq.evt := by
  unfold State.performInt
  split <;> rfl

/-- Agent I's step only adds events (R333). -/
theorem State.interruptStep_evt (s : State) : BitsStay s.irq.evt s.interruptStep.irq.evt := by
  unfold State.interruptStep
  split
  · exact .refl _
  split
  · exact .or _ _
  split
  · exact .refl _
  · next w rest _ =>
    rw [State.performInt_evt]
    exact .refl _

/-- IRQ_ENTRY's first step, or its place in the queue, leaves EVT as it is (R330). -/
theorem execIrqEntry_evt {s t : State} (h : execIrqEntry s = .next t) : t.irq.evt = s.irq.evt := by
  cases h
  split
  · rfl
  split <;> rfl

/-- Of the commands only EVT_DRAIN takes events out of EVT. -/
theorem exec_eventsKept {s t : State} {i : Instr} (h : exec i s = .next t) : EventsKept s t := by
  cases i with
  | cfg =>
    obtain ⟨_, _, _, _, _, _, _, _, _, _, _, _, _, rfl⟩ := exec_cfg_effect h
    exact .of_irq rfl
  | txSend k =>
    obtain ⟨-, _, _, _, _, rfl⟩ := SendStep.effect (.inl ⟨k, h⟩)
    exact .of_irq rfl
  | txReclaim =>
    obtain ⟨-, _, _, _, _, _, _, rfl⟩ := ReclaimStep.effect (.inl h)
    exact .of_irq rfl
  | rxPoll =>
    obtain ⟨-, _, _, _, _, _, _, _, _, _, _, _, _, rfl⟩ := PollStep.effect (.inl h)
    exact .of_irq rfl
  | evtDrain =>
    cases h
    exact .issueConfigured (.inr s.drainEvents_answered)
  | mcJoin =>
    cases h
    obtain ⟨_, _, h, -⟩ := s.joinBucket_frame
    exact .issueConfigured (h ▸ .of_irq rfl)
  | mcLeave =>
    cases h
    obtain ⟨_, _, h, -⟩ := s.leaveBucket_frame
    exact .issueConfigured (h ▸ .of_irq rfl)
  | irqEntry => exact .of_evt (execIrqEntry_evt h)

/-- A move of ENV takes events out of EVT only as the write of an EVT_DRAIN word. -/
theorem HostAnswer.eventsKept {s t : State} {m : HostMove} (h : HostAnswer s m t) : EventsKept s t := by
  cases h with
  | command i t h duty => exact exec_eventsKept h
  | illegal => rcases s.issue_cases (·.retErr .illegalCommand) with h | ⟨-, -, h⟩ <;> rw [h] <;> exact .of_irq rfl
  | doorbell =>
    obtain ⟨_, h⟩ := s.ringDoorbell_frame
    exact h ▸ .of_irq rfl
  | isr => unfold State.writeIsr; split <;> exact .of_evt rfl
  | arg a => unfold State.writeArg; split <;> exact .of_irq rfl
  | offer frame h0 h1 =>
    obtain ⟨_, _, _, h⟩ := s.offerFrame_frame frame
    exact h ▸ .of_irq rfl
  | intIllegal | intQueued | txBase | rxBase | ignored | read | giveBack | take | fill | readBuffer => exact .of_evt rfl

/-- Every turn keeps the events, or is an EVT_DRAIN that answers them. -/
theorem TurnAnswer.eventsKept {s t : State} {turn : Turn} (h : TurnAnswer s turn t) : EventsKept s t := by
  cases h with
  | worker => exact .of_irq s.workerStep_frame.irq
  | interrupt => exact .inl s.interruptStep_evt
  | txd =>
    obtain ⟨_, _, _, _, _, _, _, h, -⟩ := s.txdStep_effect
    exact .of_evt (by rw [h])
  | rxd =>
    obtain ⟨_, _, _, _, _, h, -⟩ := s.rxdStep_effect
    exact .of_evt (by rw [h])
  | host h => exact h.eventsKept

/-- Settles O32: a step is a turn, and of the turns only the write of an EVT_DRAIN word takes events out of EVT. -/
theorem eventsLeaveOnlyThroughADrain : Obligations.EventsLeaveOnlyThroughADrain := by
  intro s t h
  obtain ⟨_, _, _, hturn⟩ := step_takes_turn h
  exact (takeTurn_answer hturn).eventsKept

/-! ### The gate's view and the service of drained events -/

/-- EVT_DRAIN on a block that takes commands swaps the event set (R340). -/
theorem exec_evtDrain {s : State} (hr : s.Ready) : exec .evtDrain s = .next s.drainEvents := by
  obtain ⟨hh, hb, hc⟩ := hr
  exact congrArg Host.Outcome.next (State.issueConfigured_run hh hb hc _)

/-- The gate's view with events in EVT (R345). -/
theorem State.gateView_pending {s : State} (h : s.irq.evt ≠ 0#2) : s.gateView = .eventPending :=
  if_pos (bne_iff_ne.mpr h)

/-- The gate's view with no event in EVT (R345). -/
theorem State.gateView_drained {s : State} (h : s.irq.evt = 0#2) :
    s.gateView = if s.service = 0#2 then .idle else .draining := by
  simp [State.gateView, h]

/-- The gate's view after a drain (R345). -/
theorem State.gateView_drainEvents (s : State) :
    s.drainEvents.gateView = if s.irq.evt = 0#2 ∧ s.service = 0#2 then .idle else .draining := by
  have hservice : s.drainEvents.service = 0#2 ↔ s.irq.evt = 0#2 ∧ s.service = 0#2 :=
    BitVec.or_eq_zero_iff.trans and_comm
  rw [State.gateView_drained rfl]
  simp only [hservice]

/-- From `s` to `t` the command that services the events `v` goes on, or it returns and has serviced them (R345, R346). -/
def ServesUntilReturn (v : BitVec 2) (s t : State) : Prop :=
  t.service = if t.busy then s.service else s.service &&& ~~~v

theorem ServesUntilReturn.goes_on {v : BitVec 2} {s t : State} (hb : t.busy = true) (h : t.service = s.service) :
    ServesUntilReturn v s t :=
  h.trans (if_pos hb).symm

theorem ServesUntilReturn.returns {v : BitVec 2} {s t : State} (hb : t.busy = false) (h : t.service = s.service &&& ~~~v) :
    ServesUntilReturn v s t :=
  h.trans (if_neg (by simp [hb])).symm

/-- After its visit TX_RECLAIM goes on to the next, or returns (R245). -/
theorem State.reclaimNext_serves {s u : State} (hu : u.service = s.service) (more count : Nat) :
    ServesUntilReturn transmittedBit s (u.reclaimNext more count) := by
  cases more with
  | zero => exact .returns rfl (by rw [← hu]; rfl)
  | succ more => exact .goes_on rfl hu

/-- A visit of TX_RECLAIM (R240 to R243). -/
theorem State.reclaimVisit_serves (s : State) (more count : Nat) :
    ServesUntilReturn transmittedBit s (s.reclaimVisit more count) := by
  unfold State.reclaimVisit
  simp only
  split
  · split
    · exact .goes_on rfl rfl
    · exact State.reclaimNext_serves rfl more count
  split
  · exact .returns rfl rfl
  · exact State.reclaimNext_serves rfl more (count + 1)

/-- A further step of TX_RECLAIM (R240 to R245). -/
theorem State.workerStep_reclaim_serves {s : State} (hw : s.port.w.inReclaim = true) :
    ServesUntilReturn transmittedBit s s.workerStep := by
  unfold State.workerStep
  split
  · exact .goes_on (bne_iff_ne.mpr fun h => by rw [h] at hw; cases hw) rfl
  cases h : s.port.w with
  | reclaim more count => exact s.reclaimVisit_serves more count
  | idle | stopped | txCommit | txDoorbell | pollVisit | pollRearm | pollRecycle =>
    rw [h] at hw
    cases hw

/-- The end of a frame goes on with the refill, or stops on a fault (R283, R284, R288). -/
theorem State.endOfFrame_goes_on (s : State) (n p : Nat) (len : BitVec 16) :
    (s.endOfFrame n p len).busy = true ∧ (s.endOfFrame n p len).service = s.service := by
  rcases s.endOfFrame_cases n p len with h | ⟨_, _, _, _, _, _, -, h | h⟩ <;> rw [h] <;> exact ⟨rfl, rfl⟩

/-- A visit of RX_POLL (R280). -/
theorem State.pollVisit_serves (s : State) (n : Nat) : ServesUntilReturn receivedBit s (s.pollVisit n) := by
  rcases s.pollVisit_answers n with ⟨_, _, _, h⟩ | h | ⟨-, -, ⟨-, h⟩ | ⟨-, h⟩⟩ <;> rw [h]
  · exact .returns rfl rfl
  · exact .goes_on rfl rfl
  · obtain ⟨hb, hservice⟩ := s.linkSlot.endOfFrame_goes_on n (ringPos s.nRx s.rx.current 0) (s.rxFromCurrent 0).len
    exact .goes_on hb hservice
  · exact .goes_on rfl rfl

/-- A re-arming write of RX_POLL goes on (R285). -/
theorem State.pollRearm_serves (s : State) (n f : Nat) (fresh : List Handle) (len : BitVec 16) :
    ServesUntilReturn receivedBit s (s.pollRearm n f fresh len) := by
  unfold State.pollRearm
  split
  · exact .goes_on rfl rfl
  · simp only
    split <;> exact .goes_on rfl rfl

/-- A write of RX_POLL's failed refill goes on (R288). -/
theorem State.pollRecycle_serves (s : State) (n f : Nat) : ServesUntilReturn receivedBit s (s.pollRecycle n f) := by
  unfold State.pollRecycle
  simp only
  split <;> exact .goes_on rfl rfl

/-- A further step of RX_POLL (R280 to R292). -/
theorem State.workerStep_poll_serves {s : State} (hw : s.port.w.inPoll = true) :
    ServesUntilReturn receivedBit s s.workerStep := by
  unfold State.workerStep
  split
  · exact .goes_on (bne_iff_ne.mpr fun h => by rw [h] at hw; cases hw) rfl
  cases h : s.port.w with
  | pollVisit n => exact s.pollVisit_serves n
  | pollRearm n f fresh len => exact s.pollRearm_serves n f fresh len
  | pollRecycle n f => exact s.pollRecycle_serves n f
  | idle | stopped | txCommit | txDoorbell | reclaim =>
    rw [h] at hw
    cases hw

/-- TX_RECLAIM's first step returns when nothing is in use, and goes on otherwise (R240). -/
theorem State.reclaimStart_service (s : State) :
    s.reclaimStart.service = if s.tx.inUse = 0#17 then s.service &&& ~~~transmittedBit else s.service := by
  have hzero : s.tx.inUse.toNat = 0 ↔ s.tx.inUse = 0#17 := BitVec.toNat_inj (y := 0#17)
  unfold State.reclaimStart
  split
  · next h => exact (if_pos (hzero.mp h)).symm
  · next more h => exact (if_neg fun h0 => by simp [hzero.mpr h0] at h).symm

/-- Settles O29: the swap read off EVT_DRAIN's one step, the view it leaves, and TX_RECLAIM's and RX_POLL's steps, of which the
returns alone end a service. -/
theorem drainSwapsTheEventSet : Obligations.DrainSwapsTheEventSet := by
  intro s
  refine ⟨exec_evtDrain, State.gateView_pending, fun t hr h => ?_, State.workerStep_reclaim_serves,
    State.workerStep_poll_serves, fun t h => ?_, fun t h => ?_⟩
  · cases (exec_evtDrain hr).symm.trans h
    exact s.gateView_drainEvents
  · cases h
    by_cases hr : s.Ready
    · obtain ⟨hh, hb, hc⟩ := hr
      rw [State.issueConfigured_run hh hb hc, State.reclaimStart_service]
      simp [State.Ready, hh, hb, hc, transmittedBit]
    · rw [if_neg fun h => hr h.1]
      rcases s.issueConfigured_cases State.reclaimStart with h | ⟨-, -, -, h⟩ | ⟨hh, hb, hc, -⟩
      · rw [h]
      · rw [h]; rfl
      · exact absurd ⟨hh, hb, hc⟩ hr
  · cases h
    rcases s.issueConfigured_cases (·.goOn (.pollVisit 0)) with h | ⟨-, -, -, h⟩ | ⟨-, -, -, h⟩ <;> rw [h] <;> rfl

end Sys2Proof.Machine

/-! Family 44_multicast: the counts and the filter bits of the multicast table, in MC_JOIN, in MC_LEAVE and in every step. -/

namespace Sys2Proof.Machine

/-! ### One bucket of the table -/

/-- The filter bit of bucket `b` is the one its count asks for (R360). -/
def Multicast.BitMatches (t : Multicast) (b : BitVec 6) : Prop := t.filterBit b = decide (t.countOf b ≠ 0#8)

/-- R360's invariant, bucket by bucket. -/
theorem filterMatchesCounts_iff {s : State} : FilterMatchesCounts s ↔ ∀ b, s.mc.BitMatches b := by
  refine forall_congr' fun b => ?_
  have hpos : 0 < (s.mc.countOf b).toNat ↔ s.mc.countOf b ≠ 0#8 := by
    rw [Nat.pos_iff_ne_zero, Ne, Ne, ← BitVec.toNat_inj, BitVec.toNat_zero]
  rw [hpos]
  exact (Bool.eq_iff_iff.trans (iff_congr .rfl decide_eq_true_iff)).symm

/-- The mask of a bucket is set at that bucket alone. -/
theorem getLsbD_bucketMask (b c : BitVec 6) : (bucketMask b).getLsbD c.toNat = decide (c = b) := by
  have hc := c.isLt
  rw [bucketMask, ← BitVec.twoPow_eq, BitVec.getLsbD_twoPow, ← Bool.decide_and, decide_eq_decide, ← BitVec.toNat_inj]
  omega

/-- A table is its counts and filter bits. -/
theorem Multicast.ext_buckets {t u : Multicast} (hcount : ∀ b, t.countOf b = u.countOf b)
    (hbit : ∀ b, t.filterBit b = u.filterBit b) : t = u := by
  obtain ⟨count, filter⟩ := t
  obtain ⟨count', filter'⟩ := u
  have hnum : ∀ i < 64, (BitVec.ofNat 6 i).toNat = i := fun i hi => by simpa using hi
  congr 1
  · ext1 i hi
    simpa only [Multicast.countOf, hnum i hi] using hcount (BitVec.ofNat 6 i)
  · ext1 i hi
    simpa only [Multicast.filterBit, hnum i hi, BitVec.getLsbD_eq_getElem hi] using hbit (BitVec.ofNat 6 i)

/-- A join counts up at its own bucket (R363). -/
theorem Multicast.countOf_join (t : Multicast) (b c : BitVec 6) :
    (t.join b).countOf c = if c = b then t.countOf b + 1#8 else t.countOf c := by
  simp only [Multicast.countOf, Multicast.join, Vector.getElem_set, BitVec.toNat_inj, eq_comm]

/-- A leave counts down at its own bucket (R365). -/
theorem Multicast.countOf_leave (t : Multicast) (b c : BitVec 6) :
    (t.leave b).countOf c = if c = b then t.countOf b - 1#8 else t.countOf c := by
  simp only [Multicast.countOf, Multicast.leave, Vector.getElem_set, BitVec.toNat_inj, eq_comm]

/-- A join sets the filter bit of its own bucket when the count was 0 (R363). -/
theorem Multicast.filterBit_join (t : Multicast) (b c : BitVec 6) :
    (t.join b).filterBit c = (t.filterBit c || decide (c = b ∧ t.countOf b = 0#8)) := by
  have hzero : t.countOf b + 1#8 = 1#8 ↔ t.countOf b = 0#8 := by bv_omega
  simp only [Multicast.filterBit, Multicast.join, hzero]
  split
  · next h => simp [getLsbD_bucketMask, h]
  · next h => simp [h]

/-- A leave clears the filter bit of its own bucket when the count was 1 (R365). -/
theorem Multicast.filterBit_leave (t : Multicast) (b c : BitVec 6) :
    (t.leave b).filterBit c = (t.filterBit c && !decide (c = b ∧ t.countOf b = 1#8)) := by
  have hone : t.countOf b - 1#8 = 0#8 ↔ t.countOf b = 1#8 := by bv_omega
  simp only [Multicast.filterBit, Multicast.leave, hone]
  split
  · next h =>
    have hc : c.toNat < 64 := c.isLt
    rw [BitVec.getLsbD_and, BitVec.getLsbD_not, getLsbD_bucketMask]
    simp [h, hc]
  · next h => simp [h]

/-- A join of one bucket leaves the others as they are (R363). -/
theorem Multicast.join_other (t : Multicast) {b c : BitVec 6} (h : c ≠ b) :
    (t.join b).countOf c = t.countOf c ∧ (t.join b).filterBit c = t.filterBit c := by
  simp [countOf_join, filterBit_join, h]

/-- A leave of one bucket leaves the others as they are (R365). -/
theorem Multicast.leave_other (t : Multicast) {b c : BitVec 6} (h : c ≠ b) :
    (t.leave b).countOf c = t.countOf c ∧ (t.leave b).filterBit c = t.filterBit c := by
  simp [countOf_leave, filterBit_leave, h]

/-- Below saturation a join does not wrap its count. -/
theorem Multicast.toNat_countOf_join {t : Multicast} {b : BitVec 6} (h : t.countOf b ≠ 255#8) :
    ((t.join b).countOf b).toNat = (t.countOf b).toNat + 1 := by
  rw [countOf_join, if_pos rfl]
  bv_omega

/-- With references a leave does not wrap its count. -/
theorem Multicast.toNat_countOf_leave {t : Multicast} {b : BitVec 6} (h : t.countOf b ≠ 0#8) :
    ((t.leave b).countOf b).toNat = (t.countOf b).toNat - 1 := by
  rw [countOf_leave, if_pos rfl]
  bv_omega

/-- Below saturation a join keeps every bucket's filter bit the one its count asks for. -/
theorem Multicast.BitMatches.join {t : Multicast} {b c : BitVec 6} (hc : t.BitMatches c) (hb : t.countOf b ≠ 255#8) :
    (t.join b).BitMatches c := by
  unfold Multicast.BitMatches at *
  rw [filterBit_join, countOf_join, hc]
  by_cases h : c = b
  · subst h
    have : t.countOf c + 1#8 ≠ 0#8 := by bv_omega
    simp [this]
  · simp [h]

/-- A leave of a bucket with references keeps every bucket's filter bit the one its count asks for. -/
theorem Multicast.BitMatches.leave {t : Multicast} {b c : BitVec 6} (hc : t.BitMatches c) (hb : t.countOf b ≠ 0#8) :
    (t.leave b).BitMatches c := by
  unfold Multicast.BitMatches at *
  rw [filterBit_leave, countOf_leave, hc]
  by_cases h : c = b
  · subst h
    have : t.countOf c - 1#8 = 0#8 ↔ t.countOf c = 1#8 := by bv_omega
    simp [this, hb]
  · simp [h]

/-! ### Every step -/

/-- What a step can do to the table: nothing, or a join below saturation, or a leave of a bucket with references. -/
inductive TableMove (t : Multicast) : Multicast → Prop where
  | same : TableMove t t
  | join (b : BitVec 6) (h : t.countOf b ≠ 255#8) : TableMove t (t.join b)
  | leave (b : BitVec 6) (h : t.countOf b ≠ 0#8) : TableMove t (t.leave b)

/-- Each of the moves keeps the filter equal to the counts. -/
theorem TableMove.bitMatches {t u : Multicast} (h : TableMove t u) {b : BitVec 6} (hb : t.BitMatches b) : u.BitMatches b := by
  cases h with
  | same => exact hb
  | join _ h => exact hb.join h
  | leave _ h => exact hb.leave h

theorem TableMove.of_eq {t u : Multicast} (h : u = t) : TableMove t u := h ▸ .same

/-- A worker command other than CFG makes the move its own step makes. -/
theorem TableMove.issueConfigured {s : State} {cmd : State → State} (h : TableMove s.mc (cmd s).mc) :
    TableMove s.mc (s.issueConfigured cmd).mc :=
  State.issueConfigured_effect (E := fun s t => TableMove s.mc t.mc) .same .same h

/-- MC_JOIN joins its bucket only below saturation (R362, R364). -/
theorem State.joinBucket_tableMove (s : State) : TableMove s.mc s.joinBucket.mc := by
  unfold State.joinBucket
  split
  · exact .same
  · next h => exact .join _ h

/-- MC_LEAVE leaves its bucket only while it has references (R365). -/
theorem State.leaveBucket_tableMove (s : State) : TableMove s.mc s.leaveBucket.mc := by
  unfold State.leaveBucket
  split
  · exact .same
  · next h => exact .leave _ h

/-- Of the commands only MC_JOIN and MC_LEAVE touch the table. -/
theorem exec_tableMove {s t : State} {i : Instr} (h : exec i s = .next t) : TableMove s.mc t.mc := by
  cases i with
  | cfg =>
    obtain ⟨_, _, _, _, _, _, _, _, _, _, _, _, _, rfl⟩ := exec_cfg_effect h
    exact .same
  | txSend k =>
    obtain ⟨-, _, _, _, _, rfl⟩ := SendStep.effect (.inl ⟨k, h⟩)
    exact .same
  | txReclaim =>
    obtain ⟨-, _, _, _, _, _, _, rfl⟩ := ReclaimStep.effect (.inl h)
    exact .same
  | rxPoll =>
    obtain ⟨-, _, _, _, _, _, _, _, _, _, _, _, _, rfl⟩ := PollStep.effect (.inl h)
    exact .same
  | evtDrain =>
    cases h
    exact .issueConfigured .same
  | mcJoin =>
    cases h
    exact .issueConfigured s.joinBucket_tableMove
  | mcLeave =>
    cases h
    exact .issueConfigured s.leaveBucket_tableMove
  | irqEntry =>
    obtain ⟨irq, he⟩ := execIrqEntry_frame s
    cases he.symm.trans h
    exact .same

/-- A move of ENV touches the table only as the write of a command word. -/
theorem HostAnswer.tableMove {s t : State} {m : HostMove} (h : HostAnswer s m t) : TableMove s.mc t.mc := by
  cases h with
  | command i t h duty => exact exec_tableMove h
  | illegal => rcases s.issue_cases (·.retErr .illegalCommand) with h | ⟨-, -, h⟩ <;> rw [h] <;> exact .same
  | doorbell =>
    obtain ⟨_, h⟩ := s.ringDoorbell_frame
    exact h ▸ .same
  | isr => unfold State.writeIsr; split <;> exact .same
  | arg a => unfold State.writeArg; split <;> exact .same
  | offer frame h0 h1 =>
    obtain ⟨_, _, _, h⟩ := s.offerFrame_frame frame
    exact h ▸ .same
  | intIllegal | intQueued | txBase | rxBase | ignored | read | giveBack | take | fill | readBuffer => exact .same

/-- No further step of W touches the table. -/
theorem State.workerStep_mc (s : State) : s.workerStep.mc = s.mc := by
  rcases s.workerStep_effect with ⟨-, _, _, _, _, h⟩ | ⟨-, _, _, _, _, _, _, h⟩ |
    ⟨-, _, _, _, _, _, _, _, _, _, _, _, _, h⟩ <;> rw [h]

/-- Every turn makes one of the moves. -/
theorem TurnAnswer.tableMove {s t : State} {turn : Turn} (h : TurnAnswer s turn t) : TableMove s.mc t.mc := by
  cases h with
  | worker => exact .of_eq s.workerStep_mc
  | interrupt =>
    obtain ⟨_, h⟩ := s.interruptStep_frame
    exact .of_eq (by rw [h])
  | txd =>
    obtain ⟨_, _, _, _, _, _, _, h, -⟩ := s.txdStep_effect
    exact .of_eq (by rw [h])
  | rxd =>
    obtain ⟨_, _, _, _, _, h, -⟩ := s.rxdStep_effect
    exact .of_eq (by rw [h])
  | host h => exact h.tableMove

/-- After reset every count is 0 and every filter bit clear (R360). -/
theorem State.reset_bucket (b : BitVec 6) :
    State.reset.mc.countOf b = 0#8 ∧ State.reset.mc.filterBit b = false :=
  ⟨Vector.getElem_replicate _, BitVec.getLsbD_zero⟩

/-- Settles O45: a step makes one of the moves of `TableMove`, and each of them keeps the filter equal to the counts. -/
theorem everyStepKeepsFilterAndCounts : Obligations.EveryStepKeepsFilterAndCounts := by
  refine ⟨State.reset_bucket, filterMatchesCounts_iff.mpr fun b => ?_, fun s t hs h => ?_⟩
  · obtain ⟨hcount, hbit⟩ := State.reset_bucket b
    rw [Multicast.BitMatches, hcount, hbit]
    rfl
  · obtain ⟨_, _, _, hturn⟩ := step_takes_turn h
    have hmove : TableMove s.mc t.mc := (takeTurn_answer hturn).tableMove
    exact filterMatchesCounts_iff.mpr fun b => hmove.bitMatches (filterMatchesCounts_iff.mp hs b)

/-! ### MC_JOIN and MC_LEAVE -/

/-- MC_JOIN on a block that can run a command (R362). -/
theorem exec_mcJoin {s : State} (hr : s.Ready) : exec .mcJoin s = .next s.joinBucket := by
  obtain ⟨hh, hb, hc⟩ := hr
  exact congrArg Host.Outcome.next (State.issueConfigured_run hh hb hc _)

/-- MC_LEAVE on a block that can run a command (R365). -/
theorem exec_mcLeave {s : State} (hr : s.Ready) : exec .mcLeave s = .next s.leaveBucket := by
  obtain ⟨hh, hb, hc⟩ := hr
  exact congrArg Host.Outcome.next (State.issueConfigured_run hh hb hc _)

/-- Settles O35: below saturation the count grows by one without wrapping, and the filter bit is the one the new count asks
for. -/
theorem joinCountsAndSetsTheFilter : Obligations.JoinCountsAndSetsTheFilter := by
  intro s hr hs
  rw [exec_mcJoin hr, State.joinBucket]
  refine ⟨fun h => ?_, fun h => ?_⟩
  · rw [if_neg h]
    have hcount := Multicast.toNat_countOf_join h
    have hbit : (s.mc.join s.argBucket).BitMatches s.argBucket := (filterMatchesCounts_iff.mp hs _).join h
    refine ⟨_, rfl, rfl, hcount, hbit.trans (decide_eq_true fun h0 => ?_), fun b hb => s.mc.join_other hb⟩
    rw [h0] at hcount
    exact absurd hcount (Nat.succ_ne_zero _).symm
  · rw [if_pos h]
    rfl

/-- Settles O36: with references the count shrinks by one without wrapping, and the filter bit is the one the new count asks
for. -/
theorem leaveCountsAndClearsTheFilter : Obligations.LeaveCountsAndClearsTheFilter := by
  intro s hr hs
  rw [exec_mcLeave hr, State.leaveBucket]
  refine ⟨fun h => ?_, fun h => ?_⟩
  · rw [if_neg h]
    have hcount := Multicast.toNat_countOf_leave h
    have hbit : (s.mc.leave s.argBucket).BitMatches s.argBucket := (filterMatchesCounts_iff.mp hs _).leave h
    refine ⟨_, rfl, rfl, hcount, hbit.trans (decide_eq_decide.mpr ?_), fun b hb => s.mc.leave_other hb⟩
    rw [Ne, ← BitVec.toNat_inj, hcount, BitVec.toNat_zero]
    omega
  · rw [if_pos h]
    rfl

/-! ### Joins and leaves of one bucket -/

/-- Below saturation a leave undoes a join (R369). -/
theorem Multicast.leave_join {t : Multicast} {b : BitVec 6} (hb : t.BitMatches b) (h : t.countOf b ≠ 255#8) :
    (t.join b).leave b = t := by
  have hback : (t.join b).countOf b ≠ 0#8 := by
    rw [countOf_join, if_pos rfl]
    bv_omega
  have hcount : ((t.join b).leave b).countOf b = t.countOf b := by
    rw [countOf_leave, if_pos rfl, countOf_join, if_pos rfl, BitVec.add_sub_cancel]
  have hbit : ((t.join b).leave b).filterBit b = t.filterBit b := by
    have hnew : ((t.join b).leave b).BitMatches b := (hb.join h).leave hback
    rw [hnew, hcount, hb]
  refine ext_buckets (fun c => ?_) (fun c => ?_) <;> by_cases hc : c = b
  · exact hc ▸ hcount
  · rw [(leave_other _ hc).1, (join_other _ hc).1]
  · exact hc ▸ hbit
  · rw [(leave_other _ hc).2, (join_other _ hc).2]

/-- A count below 255 is not saturated (R364). -/
theorem ne_saturated {c : BitVec 8} (h : c.toNat < 255) : c ≠ 255#8 := by
  rintro rfl
  exact absurd h (by decide)

/-- While they stay below saturation, `k` joins add `k` to the count and keep the filter bit the one it asks for. -/
theorem Multicast.iterate_join {t : Multicast} {b : BitVec 6} (hb : t.BitMatches b) {k : Nat}
    (hk : (t.countOf b).toNat + k ≤ 255) :
    (((·.join b)^[k] t).countOf b).toNat = (t.countOf b).toNat + k ∧ ((·.join b)^[k] t).BitMatches b := by
  induction k with
  | zero => exact ⟨rfl, hb⟩
  | succ k ih =>
    obtain ⟨hcount, hbit⟩ := ih (by omega)
    have hroom : ((·.join b)^[k] t).countOf b ≠ 255#8 := ne_saturated (by omega)
    rw [Function.iterate_succ_apply']
    exact ⟨by rw [toNat_countOf_join hroom, hcount, Nat.add_assoc], hbit.join hroom⟩

/-- While they stay below saturation, `k` leaves undo `k` joins (R369). -/
theorem Multicast.iterate_leave_join {t : Multicast} {b : BitVec 6} (hb : t.BitMatches b) {k : Nat}
    (hk : (t.countOf b).toNat + k ≤ 255) : (·.leave b)^[k] ((·.join b)^[k] t) = t := by
  induction k with
  | zero => rfl
  | succ k ih =>
    obtain ⟨hcount, hbit⟩ := iterate_join hb (k := k) (by omega)
    have hroom : ((·.join b)^[k] t).countOf b ≠ 255#8 := ne_saturated (by omega)
    rw [Function.iterate_succ_apply, Function.iterate_succ_apply', leave_join hbit hroom]
    exact ih (by omega)

/-- Settles O37: the leaves undo the joins one by one, so that the table is as it was, with all its buckets. -/
theorem joinLeaveRoundTrip : Obligations.JoinLeaveRoundTrip := by
  refine ⟨fun t b k hcount hbit hk => ?_, fun s hs b h => ?_⟩
  · have hb : t.BitMatches b := by
      rw [Multicast.BitMatches, hcount, hbit]
      rfl
    intro u
    have hback : u = t := Multicast.iterate_leave_join hb (by simpa [hcount] using hk)
    rw [hback]
    exact ⟨hcount, hbit, fun _ _ => ⟨rfl, rfl⟩⟩
  · rw [Multicast.leave_join (filterMatchesCounts_iff.mp hs b) h]
    exact ⟨rfl, rfl⟩

end Sys2Proof.Machine

/-! Family 60_exceptions: commands before CFG, and what the commands of one step leave unchanged. -/

namespace Sys2Proof.Machine

/-! ### Before CFG -/

/-- A worker command other than CFG on a block that is not configured answers `NotConfigured` (R402). -/
theorem exec_of_unconfigured {s : State} (hacc : s.Accepting) (hc : s.cfg.configured = false) {i : Instr}
    (hp : i.port = .worker) (hi : i ≠ .cfg) : exec i s = .next (s.retErr .notConfigured) := by
  obtain ⟨hh, hb⟩ := hacc
  have hans : ∀ cmd, s.issueConfigured cmd = s.retErr .notConfigured := State.issueConfigured_unconfigured hh hb hc
  cases i
  case cfg => exact absurd rfl hi
  case irqEntry => exact absurd hp (by decide)
  all_goals exact congrArg Host.Outcome.next (hans _)

/-- After step A of IRQ_ENTRY agent I's next step adds what ISR held to EVT and sets SIG (R330). -/
theorem State.interruptStep_irqCapture {s : State} (hh : s.halted = false) : s.irqCapture.interruptStep = { s with
    irq := { s.irq with isr := 0#2, evt := s.irq.evt ||| s.irq.isr, sig := true, intResult := 0#8, latch := none } } := by
  rw [State.interruptStep_of_latch (s := s.irqCapture) hh rfl, State.irqMerge_eq, State.irqCapture_eq]

/-- Settles O11: every worker command but CFG asks first whether the block is configured, and neither step of IRQ_ENTRY does. -/
theorem unconfiguredCommandsAnswerNotConfigured : Obligations.UnconfiguredCommandsAnswerNotConfigured := by
  intro s hacc hc
  refine ⟨fun i hp hi => exec_of_unconfigured hacc hc hp hi, fun hfree => ?_⟩
  obtain ⟨hh, -⟩ := hacc
  exact ⟨s.irqCapture, exec_irqEntry hh hfree, s.irqCapture_eq, State.interruptStep_irqCapture hh⟩

/-! ### The commands of one step -/

/-- From `s` to `t` nothing changes but the worker port, EVT, SIG and `service`, which EVT_DRAIN writes (R340, R345). -/
def DrainFrame (s t : State) : Prop :=
  t = { s with port := t.port, irq := { s.irq with evt := t.irq.evt, sig := t.irq.sig }, service := t.service }

/-- From `s` to `t` nothing changes but the worker port and the multicast table, which MC_JOIN and MC_LEAVE write (R362, R365). -/
def TableFrame (s t : State) : Prop := t = { s with port := t.port, mc := t.mc }

theorem DrainFrame.sameBytes {s t : State} (h : DrainFrame s t) : t.SameBytes s := fun a => by rw [h]

theorem TableFrame.sameBytes {s t : State} (h : TableFrame s t) : t.SameBytes s := fun a => by rw [h]

theorem exec_evtDrain_frame {s t : State} (h : exec .evtDrain s = .next t) : DrainFrame s t := by
  cases h
  exact State.issueConfigured_effect (E := DrainFrame) rfl rfl rfl

theorem State.joinBucket_tableFrame (s : State) : TableFrame s s.joinBucket := by
  obtain ⟨port, mc, h, -⟩ := s.joinBucket_frame
  exact h ▸ rfl

theorem State.leaveBucket_tableFrame (s : State) : TableFrame s s.leaveBucket := by
  obtain ⟨port, mc, h, -⟩ := s.leaveBucket_frame
  exact h ▸ rfl

theorem exec_mcJoin_frame {s t : State} (h : exec .mcJoin s = .next t) : TableFrame s t := by
  cases h
  exact State.issueConfigured_effect rfl rfl s.joinBucket_tableFrame

theorem exec_mcLeave_frame {s t : State} (h : exec .mcLeave s = .next t) : TableFrame s t := by
  cases h
  exact State.issueConfigured_effect rfl rfl s.leaveBucket_tableFrame

/-- Settles O38: a refusal writes the worker port alone, and each command's own step writes what its frame names. -/
theorem atomicCommandsFrame : Obligations.AtomicCommandsFrame := by
  intro s t
  refine ⟨fun h => ?_, fun h => ?_, fun h => ?_⟩
  · exact ⟨exec_evtDrain_frame h, (exec_evtDrain_frame h).sameBytes⟩
  · exact ⟨exec_mcJoin_frame h, (exec_mcJoin_frame h).sameBytes⟩
  · exact ⟨exec_mcLeave_frame h, (exec_mcLeave_frame h).sameBytes⟩

end Sys2Proof.Machine

/-! Family 70_reset_and_hazards: reset, the signal of pending events, the bytes of held buffers, and progress. -/

namespace Sys2Proof.Machine

/-! ### Reset -/

/-- The handles of a set made of a list are the real handles of the list. -/
theorem HandleSet.mem_ofList (l : List Handle) (h : Handle) : h ∈ HandleSet.ofList l ↔ h ∈ l ∧ h ≠ 0#32 := by
  induction l with
  | nil => simp [HandleSet.ofList]
  | cons g l ih =>
    unfold HandleSet.ofList
    split
    · next hg =>
      rw [ih, List.mem_cons, hg]
      tauto
    · next hg =>
      rw [HandleSet.mem_insert, ih, List.mem_cons, or_and_right]
      exact or_congr_left ⟨fun e => ⟨e, e ▸ hg⟩, And.left⟩

/-- After reset every word of the counts reads 0 (R42, R450). -/
theorem State.mcCountWord_reset (j : Nat) : State.reset.mcCountWord j = 0#32 := by
  have hcount : ∀ b, State.reset.mc.count.toList.getD b 0#8 = 0#8 := fun b =>
    (List.getD_eq_getElem?_getD ..).trans (List.getElem?_getD_replicate_default_eq 0#8 64 b)
  simp only [State.mcCountWord, hcount]
  rfl

/-- Settles O6: each register is a view of a field that reset sets to 0, but `ARG`, of which nothing is listed. -/
theorem resetState : Obligations.ResetState := by
  refine ⟨fun r => ?_, rfl, rfl, rfl, rfl, rfl, rfl, rfl, rfl, rfl, rfl, rfl, rfl, rfl, rfl, fun _ => rfl, fun _ => rfl,
    HandleSet.mem_ofList Config.pool⟩
  cases r
  case mcCount j => exact State.mcCountWord_reset j
  all_goals rfl

/-- After reset the one place with handles is the free set (R450). -/
theorem HandlesExclusive.reset : HandlesExclusive State.reset := by
  refine ⟨?_, fun h hh => absurd hh List.not_mem_nil⟩
  have hplaced : State.reset.placedHandles = State.reset.env.pool := by
    simp [State.placedHandles, State.chainHeld, State.reset, WState.fresh]
  rw [hplaced]
  exact HandleSet.nodup_of_wf (HandleSet.ofList_wf Config.pool)

/-- After reset only the free set lists anything (R450). -/
theorem Canonical.reset : Canonical State.reset :=
  ⟨.nil, .nil, .nil, fun _ he => absurd he List.not_mem_nil, HandleSet.ofList_wf Config.pool, .nil⟩

/-- Settles O7: there are no rings, no counts and no events, and the free set is in order. -/
theorem resetMeetsInvariants : Obligations.ResetMeetsInvariants := by
  obtain ⟨htx, hrx, hfault⟩ := FaultFree.reset [] [] State.reset.params
  obtain ⟨-, hfilter, -⟩ := everyStepKeepsFilterAndCounts
  have hwrap : WrapAtEnd State.reset :=
    ⟨fun p hp => absurd hp (Nat.not_lt_zero p), fun p hp => absurd hp (Nat.not_lt_zero p)⟩
  exact ⟨.reset, hfilter, fun hne => absurd rfl hne, hwrap, .reset, htx, nofun, hrx, hfault⟩

/-! ### What commands leave unchanged -/

/-- No command writes a buffer byte in its first step, and only EVT_DRAIN and IRQ_ENTRY write the interrupt side there. -/
theorem exec_data_irq {s t : State} {i : Instr} (h : exec i s = .next t) :
    t.buf.data = s.buf.data ∧ (t.irq = s.irq ∨ i = .evtDrain ∨ i = .irqEntry) := by
  cases i with
  | cfg =>
    obtain ⟨_, _, _, _, _, _, _, _, _, _, _, _, _, rfl⟩ := exec_cfg_effect h
    exact ⟨rfl, .inl rfl⟩
  | txSend k =>
    obtain ⟨-, _, _, _, _, rfl⟩ := SendStep.effect (.inl ⟨k, h⟩)
    exact ⟨rfl, .inl rfl⟩
  | txReclaim =>
    obtain ⟨-, _, _, _, _, _, _, rfl⟩ := ReclaimStep.effect (.inl h)
    exact ⟨rfl, .inl rfl⟩
  | rxPoll =>
    obtain ⟨-, _, _, _, _, _, _, _, _, _, _, _, _, rfl⟩ := PollStep.effect (.inl h)
    exact ⟨rfl, .inl rfl⟩
  | evtDrain => exact ⟨by rw [exec_evtDrain_frame h], .inr (.inl rfl)⟩
  | mcJoin =>
    rw [exec_mcJoin_frame h]
    exact ⟨rfl, .inl rfl⟩
  | mcLeave =>
    rw [exec_mcLeave_frame h]
    exact ⟨rfl, .inl rfl⟩
  | irqEntry =>
    obtain ⟨irq, he⟩ := execIrqEntry_frame s
    cases he.symm.trans h
    exact ⟨rfl, .inr (.inr rfl)⟩

/-! ### Pending events are signalled -/

/-- What a step can do to EVT and SIG: nothing, set SIG, or empty EVT (R330, R340). -/
def SignalKept (s t : State) : Prop :=
  (t.irq.evt = s.irq.evt ∧ t.irq.sig = s.irq.sig) ∨ t.irq.sig = true ∨ t.irq.evt = 0#2

theorem SignalKept.of_irq {s t : State} (h : t.irq = s.irq) : SignalKept s t := .inl (by simp only [h, and_self])

/-- Each of these keeps pending events signalled. -/
theorem SignalKept.eventsSignalled {s t : State} (h : SignalKept s t) (hs : EventsSignalled s) : EventsSignalled t := by
  rcases h with ⟨hevt, hsig⟩ | hset | hempty
  · unfold EventsSignalled
    rw [hevt, hsig]
    exact hs
  · exact fun _ => hset
  · exact fun hne => absurd hempty hne

/-- A performed INTCMD word is no merge, and leaves EVT and SIG (R144, R330). -/
theorem State.performInt_signal (s : State) (w : Word) :
    (s.performInt w).irq.evt = s.irq.evt ∧ (s.performInt w).irq.sig = s.irq.sig := by
  unfold State.performInt
  split <;> exact ⟨rfl, rfl⟩

/-- Agent I's merge sets SIG in the step in which it adds events (R333). -/
theorem State.interruptStep_signal (s : State) : SignalKept s s.interruptStep := by
  unfold State.interruptStep
  split
  · exact .of_irq rfl
  split
  · exact .inr (.inl rfl)
  split
  · exact .of_irq rfl
  · exact .inl (State.performInt_signal _ _)

/-- EVT_DRAIN empties EVT when it clears SIG, and no other command's first step touches either (R340, R341). -/
theorem exec_signal {s t : State} {i : Instr} (h : exec i s = .next t) : SignalKept s t := by
  rcases (exec_data_irq h).2 with hirq | rfl | rfl
  · exact .of_irq hirq
  · cases h
    exact State.issueConfigured_effect (E := SignalKept) (.of_irq rfl) (.of_irq rfl) (.inr (.inr rfl))
  · cases h
    split
    · exact .of_irq rfl
    split <;> exact .inl ⟨rfl, rfl⟩

/-- A move of ENV touches EVT and SIG only as the write of an EVT_DRAIN word. -/
theorem HostAnswer.signal {s t : State} {m : HostMove} (h : HostAnswer s m t) : SignalKept s t := by
  cases h with
  | command i t h duty => exact exec_signal h
  | illegal => rcases s.issue_cases (·.retErr .illegalCommand) with h | ⟨-, -, h⟩ <;> rw [h] <;> exact .of_irq rfl
  | doorbell =>
    obtain ⟨_, h⟩ := s.ringDoorbell_frame
    exact h ▸ .of_irq rfl
  | isr => unfold State.writeIsr; split <;> exact .inl ⟨rfl, rfl⟩
  | arg a => unfold State.writeArg; split <;> exact .of_irq rfl
  | offer frame h0 h1 =>
    obtain ⟨_, _, _, h⟩ := s.offerFrame_frame frame
    exact h ▸ .of_irq rfl
  | intIllegal | intQueued | txBase | rxBase | ignored | read | giveBack | take | fill | readBuffer => exact .inl ⟨rfl, rfl⟩

/-- Every turn keeps EVT and SIG, sets SIG, or empties EVT. -/
theorem TurnAnswer.signal {s t : State} {turn : Turn} (h : TurnAnswer s turn t) : SignalKept s t := by
  cases h with
  | worker => exact .of_irq s.workerStep_frame.irq
  | interrupt => exact s.interruptStep_signal
  | txd =>
    obtain ⟨_, _, _, _, _, _, _, h, -⟩ := s.txdStep_effect
    exact h ▸ .inl ⟨rfl, rfl⟩
  | rxd =>
    obtain ⟨_, _, _, _, _, h, -⟩ := s.rxdStep_effect
    exact h ▸ .inl ⟨rfl, rfl⟩
  | host h => exact h.signal

/-- Settles O46: the one step that adds an event sets SIG, and the one that clears SIG empties EVT. -/
theorem everyStepKeepsEventsSignalled : Obligations.EveryStepKeepsEventsSignalled := by
  intro s t hs h
  obtain ⟨_, _, _, hturn⟩ := step_takes_turn h
  have hkept : SignalKept s t := (takeTurn_answer hturn).signal
  exact hkept.eventsSignalled hs

/-! ### The bytes of held buffers -/

/-- The bytes below 65536 of two buffers lie at different addresses. -/
theorem bufKey_ne {g h : Handle} {i j : Nat} (hne : h ≠ g) (hi : i < 65536) (hj : j < 65536) : bufKey h j ≠ bufKey g i := by
  have : h.toNat ≠ g.toNat := fun e => hne (BitVec.eq_of_toNat_eq e)
  unfold bufKey
  omega

/-- ENV reaches fewer than 65536 bytes of a buffer (R9; assumption 11). -/
theorem State.bufferLimit_lt (s : State) : s.bufferLimit < 65536 := by
  unfold State.bufferLimit
  split
  · exact s.cfg.cap.isLt
  · decide

/-- No step of W writes a buffer byte. -/
theorem State.workerStep_data (s : State) : s.workerStep.buf.data = s.buf.data := by
  rcases s.workerStep_effect with ⟨-, _, _, _, _, h⟩ | ⟨-, _, _, _, _, _, _, h⟩ |
    ⟨-, _, _, _, _, _, _, _, _, _, _, _, _, h⟩ <;> rw [h]

/-- ENV writes the bytes of a buffer only where it does not lie in the block (R472). -/
theorem HostAnswer.heldByte {s t : State} {m : HostMove} (h : HostAnswer s m t) {g : Handle} {j : Nat}
    (held : s.blockHolds g = true) (hj : j < 65536) :
    Memory.read t.buf.data (bufKey g j) = Memory.read s.buf.data (bufKey g j) := by
  cases h with
  | fill f start bytes h0 free fits =>
    have hne : g ≠ f := fun e => absurd ((e ▸ held).symm.trans free) (by decide)
    have hlimit := s.bufferLimit_lt
    exact Memory.read_writeBytes_other _ _ _ _ _ fun i hi => bufKey_ne hne (by omega) hj
  | command i t h duty => rw [(exec_data_irq h).1]
  | illegal => rcases s.issue_cases (·.retErr .illegalCommand) with h | ⟨-, -, h⟩ <;> rw [h]; rfl
  | doorbell =>
    obtain ⟨_, h⟩ := s.ringDoorbell_frame
    rw [h]
  | isr => unfold State.writeIsr; split <;> rfl
  | arg a => unfold State.writeArg; split <;> rfl
  | offer frame h0 h1 =>
    obtain ⟨_, _, _, h⟩ := s.offerFrame_frame frame
    rw [h]
  | intIllegal | intQueued | txBase | rxBase | ignored | read | giveBack | take | readBuffer => rfl

/-- Settles O51: of the agents only RXD writes bytes, and only of the buffer of its slot; ENV's writes are checked against the
block. -/
theorem heldBuffersAreWrittenOnlyByRxd : Obligations.HeldBuffersAreWrittenOnlyByRxd := by
  intro s t turn h j hturn held hj hother
  cases takeTurn_answer hturn with
  | worker => rw [s.workerStep_data]
  | interrupt =>
    obtain ⟨_, h⟩ := s.interruptStep_frame
    rw [h]
  | txd =>
    obtain ⟨_, _, _, _, _, _, _, h, -⟩ := s.txdStep_effect
    rw [h]
  | rxd =>
    have hne := hother.resolve_left (not_not_intro rfl)
    exact s.rxdStep_otherBytes fun i hi => bufKey_ne hne (Nat.lt_trans hi s.cfg.cap.isLt) hj
  | host hm => exact hm.heldByte held hj

/-! ### W's steps in a running command -/

/-- A fault raised inside a command halts the block (R408, R410). -/
theorem State.raiseInCommand_halted (s : State) (bit : FaultBit) (ring : Ring) (p : Nat) :
    (s.raiseInCommand bit ring p).halted = true := by
  cases bit <;> simp [State.halted, FaultBit.mask]

/-- No command runs any more, or a fault halts the block. -/
def Ended (s : State) : Prop := s.busy = false ∨ s.halted = true

/-- How many steps of W are left of a running TX_SEND or TX_RECLAIM, at most (R492). -/
def WState.txStepsLeft : WState → Nat
  | .txCommit _ i => i + 2
  | .txDoorbell _ => 1
  | .reclaim more _ => more + 1
  | .idle | .stopped | .pollVisit _ | .pollRearm _ _ _ _ | .pollRecycle _ _ => 0

theorem WState.txStepsLeft_pos {w : WState} (h : w.inSend = true ∨ w.inReclaim = true) : 0 < w.txStepsLeft := by
  cases w <;> simp_all [WState.inSend, WState.inReclaim, WState.txStepsLeft]

/-- W is inside a TX_SEND or a TX_RECLAIM while steps of it are left. -/
theorem busy_of_txStepsLeft {s : State} (h : 0 < s.port.w.txStepsLeft) : s.busy = true ∧ s.port.w ≠ .stopped := by
  cases hw : s.port.w <;> simp_all [State.busy, WState.txStepsLeft]

/-- Each step of a TX_SEND or a TX_RECLAIM ends it or leaves one step less (R492). -/
theorem State.workerStep_txStepsLeft {s : State} (hh : s.halted = false) (h : 0 < s.port.w.txStepsLeft) :
    Ended s.workerStep ∨ s.workerStep.port.w.txStepsLeft + 1 = s.port.w.txStepsLeft ∧ 0 < s.workerStep.port.w.txStepsLeft := by
  cases hw : s.port.w with
  | txCommit k i =>
    rw [State.workerStep_txCommit hh hw]
    cases i <;> exact .inr ⟨rfl, Nat.succ_pos _⟩
  | txDoorbell k =>
    rw [State.workerStep_txDoorbell hh hw]
    exact .inl (.inl rfl)
  | reclaim more count =>
    have hnext : ∀ (u : State) (c : Nat), Ended (u.reclaimNext more c) ∨
        (u.reclaimNext more c).port.w.txStepsLeft + 1 = more + 1 ∧ 0 < (u.reclaimNext more c).port.w.txStepsLeft := by
      intro u c
      cases more with
      | zero => exact .inl (.inl rfl)
      | succ more => exact .inr ⟨rfl, Nat.succ_pos _⟩
    rw [State.workerStep_reclaim hh hw]
    unfold State.reclaimVisit
    simp only
    split
    · split
      · exact .inl (.inr (s.raiseInCommand_halted _ _ _))
      · exact hnext _ _
    · split
      · exact .inl (.inl rfl)
      · exact hnext _ _
  | idle | stopped | pollVisit | pollRearm | pollRecycle =>
    rw [hw] at h
    cases h

/-- The end of a frame goes to a refill or stops the command (R283 to R288). -/
theorem State.endOfFrame_moves (s : State) (n p : Nat) (len : BitVec 16) (delivered : Nat) :
    (s.endOfFrame n p len).port.w ≠ .pollVisit delivered := by
  rcases s.endOfFrame_answers n p len with ⟨-, h⟩ | ⟨got, u, -, ⟨-, h⟩ | h⟩ <;> rw [h] <;> exact nofun

/-- A visit of RX_POLL that goes on with the next one has made the chain longer (R281). -/
theorem State.pollVisit_ne {s : State} {n : Nat} (hw : s.port.w = .pollVisit n) : s.pollVisit n ≠ s := by
  intro he
  have hport : (s.pollVisit n).port.w = .pollVisit n := (congrArg (·.port.w) he).trans hw
  rcases s.pollVisit_answers n with ⟨ds, k, v, h⟩ | h | ⟨-, -, ⟨-, h⟩ | ⟨-, h⟩⟩ <;> rw [h] at hport
  · cases hport
  · cases hport
  · exact s.linkSlot.endOfFrame_moves n _ _ n hport
  · have hchain : s.rx.chain ++ [(s.rxFromCurrent 0).buf] = s.rx.chain := congrArg (·.rx.chain) (h.symm.trans he)
    simp at hchain

/-- A refill step of the success path goes to the next one or to the next visit (R285). -/
theorem State.pollRearm_moves (s : State) (n f : Nat) (fresh : List Handle) (len : BitVec 16) :
    (s.pollRearm n f fresh len).port.w ≠ .pollRearm n f fresh len := by
  unfold State.pollRearm
  split
  · exact nofun
  · simp only
    split
    · exact nofun
    · intro he
      injection he with _ hf
      omega

/-- A refill step of the failure path goes to the next one or to the next visit (R288). -/
theorem State.pollRecycle_moves (s : State) (n f : Nat) : (s.pollRecycle n f).port.w ≠ .pollRecycle n f := by
  unfold State.pollRecycle
  simp only
  split
  · intro he
    injection he with _ hf
    omega
  · exact nofun

/-- While a command runs W's next step does something (R492). -/
theorem State.workerStep_ne {s : State} (hh : s.halted = false) (hb : s.busy = true) (hrun : s.port.w ≠ .stopped) :
    s.workerStep ≠ s := by
  have htx : 0 < s.port.w.txStepsLeft → s.workerStep ≠ s := fun hpos he => by
    rcases he ▸ State.workerStep_txStepsLeft hh hpos with (hidle | hhalt) | ⟨hleft, -⟩
    · exact absurd (hb.symm.trans hidle) (by decide)
    · exact absurd (hh.symm.trans hhalt) (by decide)
    · omega
  have hmoves : s.workerStep.port.w ≠ s.port.w → s.workerStep ≠ s := mt fun he => by rw [he]
  cases hw : s.port.w with
  | idle => simp [State.busy, hw] at hb
  | stopped => exact absurd hw hrun
  | txCommit | txDoorbell | reclaim => exact htx (by rw [hw]; exact Nat.succ_pos _)
  | pollVisit n =>
    rw [State.workerStep_pollVisit hh hw]
    exact State.pollVisit_ne hw
  | pollRearm n f fresh len =>
    refine hmoves ?_
    rw [State.workerStep_pollRearm hh hw, hw]
    exact s.pollRearm_moves n f fresh len
  | pollRecycle n f =>
    refine hmoves ?_
    rw [State.workerStep_pollRecycle hh hw, hw]
    exact s.pollRecycle_moves n f

/-! ### TX_SEND and TX_RECLAIM when W steps alone -/

/-- When W steps alone, the command is over, or a fault halts the block, within `n` steps. -/
def EndsWithin (n : Nat) (s : State) : Prop := ∃ m ≤ n, Ended (s.runWorker m)

theorem EndsWithin.of_ended {s : State} (h : Ended s) (n : Nat) : EndsWithin n s := ⟨0, Nat.zero_le n, h⟩

/-- A running TX_SEND or TX_RECLAIM ends within the steps that are left of it (R492). -/
theorem EndsWithin.of_txStepsLeft {n : Nat} : ∀ {s : State}, s.halted = false → 0 < s.port.w.txStepsLeft →
    s.port.w.txStepsLeft = n → EndsWithin n s := by
  induction n with
  | zero => exact fun _ hpos hn => absurd hn (Nat.ne_of_gt hpos)
  | succ n ih =>
    intro s hh hpos hn
    have hstep : EndsWithin n s.workerStep := by
      rcases State.workerStep_txStepsLeft hh hpos with hend | ⟨hleft, hpos'⟩
      · exact .of_ended hend n
      · cases hh' : s.workerStep.halted with
        | true => exact .of_ended (.inr hh') n
        | false => exact ih hh' hpos' (by omega)
    obtain ⟨m, hm, hend⟩ := hstep
    exact ⟨m + 1, Nat.succ_le_succ hm, hend⟩

/-- TX_SEND's first step answers an error or a fault, or leaves `k + 1` further steps (R230, R492). -/
theorem State.sendStart_endsWithin {s : State} (hh : s.halted = false) (k : Nat) : EndsWithin (k + 1) (s.sendStart k) := by
  unfold State.sendStart
  split
  · exact .of_ended (.inl rfl) _
  next herr =>
  have hpos := State.sendError_none_pos herr
  split
  · exact .of_ended (.inr (s.raiseInCommand_halted _ _ _)) _
  · exact .of_ended (.inl rfl) _
  · have hleft : k - 1 + 2 = k + 1 := by omega
    obtain ⟨slots, h, -⟩ := s.fillChain_handles k
    rw [h]
    exact .of_txStepsLeft hh (Nat.succ_pos _) hleft

/-- TX_RECLAIM's first step leaves a further step for each slot in use (R240, R492). -/
theorem State.reclaimStart_endsWithin {s : State} (hh : s.halted = false) : EndsWithin s.tx.inUse.toNat s.reclaimStart := by
  unfold State.reclaimStart
  split
  · exact .of_ended (.inl rfl) _
  · next more huse =>
    rw [huse]
    exact .of_txStepsLeft hh (Nat.succ_pos _) rfl

/-- A worker command other than CFG ends within as many steps as its own first step leaves. -/
theorem EndsWithin.issueConfigured {s : State} {cmd : State → State} {n : Nat} (hb : s.busy = false)
    (h : EndsWithin n (cmd s)) : EndsWithin n (s.issueConfigured cmd) :=
  State.issueConfigured_effect (E := fun _ t => EndsWithin n t) (.of_ended (.inl hb) n) (.of_ended (.inl rfl) n) h

/-! ### Enabled steps last -/

/-- While INTCMD words wait or an IRQ_ENTRY runs, no other turn than agent I's takes them. -/
theorem takeTurn_interruptBusy {s t : State} {turn : Turn} (h : s.takeTurn turn = .next t) (hturn : turn ≠ .interrupt)
    (hb : s.interruptBusy = true) : t.interruptBusy = true := by
  cases takeTurn_answer h with
  | worker =>
    rw [State.interruptBusy, s.workerStep_frame.irq]
    exact hb
  | interrupt => exact absurd rfl hturn
  | txd =>
    obtain ⟨_, _, _, _, _, _, _, h, -⟩ := s.txdStep_effect
    exact h ▸ hb
  | rxd =>
    obtain ⟨_, _, _, _, _, h, -⟩ := s.rxdStep_effect
    exact h ▸ hb
  | host h => exact h.frame.waiting hb

/-- An enabled step of an agent lasts through every turn but its own, unless the block halts (R491). -/
theorem takeTurn_enabled {s t : State} {turn : Turn} {a : Agent} (h : s.takeTurn turn = .next t) (hturn : turn ≠ a.turn)
    (hen : s.enabled a = true) : t.enabled a = true ∨ t.halted = true := by
  cases hh : t.halted with
  | true => exact .inr rfl
  | false =>
  left
  cases a with
  | worker =>
    simp only [State.enabled, Bool.and_eq_true] at hen
    obtain ⟨⟨-, hb⟩, hrun⟩ := hen
    obtain ⟨hport, -⟩ := takeTurn_port h hturn hb
    simp only [State.enabled, State.busy, hport, hh, Bool.not_false, Bool.true_and]
    exact Bool.and_eq_true_iff.mpr ⟨hb, hrun⟩
  | interrupt =>
    simp only [State.enabled, Bool.and_eq_true] at hen
    simp only [State.enabled, hh, takeTurn_interruptBusy h hturn hen.2, Bool.not_false, Bool.and_self]
  | txd =>
    simp only [State.enabled, Bool.and_eq_true, bne_iff_ne] at hen
    obtain ⟨⟨-, hc⟩, hrun⟩ := hen
    obtain ⟨htxd, -⟩ := takeTurn_txd h hturn hc hrun
    simpa [State.enabled, hh, takeTurn_cfg h hc, htxd, hc] using hrun
  | rxd =>
    simp only [State.enabled, Bool.and_eq_true, Option.isSome_iff_ne_none] at hen
    obtain ⟨⟨-, hc⟩, hframe⟩ := hen
    simpa [State.enabled, hh, takeTurn_cfg h hc, takeTurn_rxd h hturn hc hframe, hc, Option.isSome_iff_ne_none] using hframe

/-! ### What lasts until an agent's turn, and what the agent's step then does -/

/-- A TX_SEND or a TX_RECLAIM runs. -/
def TxCommandRuns (s : State) : Prop := s.halted = false ∧ 0 < s.port.w.txStepsLeft

theorem TxCommandRuns.enabled {s : State} (hs : TxCommandRuns s) : s.enabled .worker = true := by
  obtain ⟨hh, hleft⟩ := hs
  obtain ⟨hb, hrun⟩ := busy_of_txStepsLeft hleft
  simpa [State.enabled, hh, hb] using hrun

/-- No other turn than W's moves a running command. -/
theorem TxCommandRuns.lasts {s t : State} {turn : Turn} (hs : TxCommandRuns s) (hturn : turn ≠ .worker)
    (h : s.takeTurn turn = .next t) : TxCommandRuns t ∧ t.port = s.port ∨ t.halted = true := by
  obtain ⟨hport, -⟩ := takeTurn_port h hturn (busy_of_txStepsLeft hs.2).1
  cases hh : t.halted with
  | true => exact .inr rfl
  | false => exact .inl ⟨⟨hh, hport.symm ▸ hs.2⟩, hport⟩

/-- W's step ends the command or leaves it one step less (R492). -/
theorem TxCommandRuns.workerStep {s : State} (hs : TxCommandRuns s) :
    TxCommandRuns s.workerStep ∧ s.workerStep.port.w.txStepsLeft < s.port.w.txStepsLeft ∨ Ended s.workerStep := by
  rcases State.workerStep_txStepsLeft hs.1 hs.2 with hend | ⟨hless, hpos⟩
  · exact .inr hend
  · cases hh : s.workerStep.halted with
    | true => exact .inr (.inr hh)
    | false => exact .inl ⟨⟨hh, hpos⟩, by omega⟩

theorem Polling.enabled {s : State} (hs : Polling s) : s.enabled .worker = true := by
  obtain ⟨hh, hw, -⟩ := hs
  cases hp : s.port.w <;> simp_all [State.enabled, State.busy, WState.inPoll]

/-- An IRQ_ENTRY is between its steps, with the bits `c` captured (R330). -/
def Captured (c : BitVec 2) (s : State) : Prop := s.halted = false ∧ s.irq.latch = some c

theorem Captured.enabled {c : BitVec 2} {s : State} (hs : Captured c s) : s.enabled .interrupt = true := by
  simp [State.enabled, State.interruptBusy, hs.1, hs.2]

/-- No other turn than agent I's takes the captured bits. -/
theorem Captured.lasts {c : BitVec 2} {s t : State} {turn : Turn} (hs : Captured c s) (hturn : turn ≠ .interrupt)
    (h : s.takeTurn turn = .next t) : Captured c t ∨ t.halted = true := by
  obtain ⟨-, hlatch⟩ := hs
  have hsame := takeTurn_latch h hturn (by rw [hlatch]; exact nofun)
  cases hh : t.halted with
  | true => exact .inr rfl
  | false => exact .inl ⟨hh, hsame.trans hlatch⟩

/-- TXD is RUNNING at a frame of `k` fragments (R262). -/
structure AtFrame (k : Nat) (s : State) : Prop where
  dma : s.DmaEnabled
  running : s.txd.state = .running
  walk : s.walkFrame 0 s.nTx = .frame k

theorem AtFrame.congr {k : Nat} {s t : State} (hs : AtFrame k s) (hh : t.halted = false) (hc : t.cfg = s.cfg)
    (htxd : t.txd = s.txd) (hn : t.nTx = s.nTx) (hown : ∀ p, (s.txAt p).owned = true → t.txAt p = s.txAt p) : AtFrame k t :=
  ⟨⟨hh, hc.symm ▸ hs.dma.2⟩, htxd.symm ▸ hs.running, by
    rw [hn]
    exact State.walkFrame_congr (by rw [htxd]) hn hown _ _ hs.walk⟩

theorem AtFrame.enabled {k : Nat} {s : State} (hs : AtFrame k s) : s.enabled .txd = true := by
  simp [State.enabled, hs.dma.1, hs.dma.2, hs.running]

/-- No other turn than TXD's moves it or the frame it is at. -/
theorem AtFrame.lasts {k : Nat} {s t : State} {turn : Turn} (hs : AtFrame k s) (hturn : turn ≠ .txd)
    (h : s.takeTurn turn = .next t) : AtFrame k t ∨ t.halted = true := by
  have hc := hs.dma.2
  obtain ⟨htxd, hn, hown⟩ := takeTurn_txd h hturn hc (by rw [hs.running]; exact nofun)
  cases hh : t.halted with
  | true => exact .inr rfl
  | false => exact .inl (hs.congr hh (takeTurn_cfg h hc) htxd hn hown)

/-- TXD's step puts the frame's bytes on the wire (R262). -/
theorem AtFrame.txdStep_wire {k : Nat} {s : State} (hs : AtFrame k s) :
    s.txdStep.env.wire = s.env.wire ++ [s.frameBytes k] := by
  obtain ⟨hpos, -, hown, -⟩ := State.walkFrame_frame _ _ hs.walk
  rw [State.txdStep_send hs.dma hs.running (hown 0 (Nat.le_refl 0) hpos), State.txdSend, hs.walk]
  rfl

/-- TXD is COMPLETING a frame with slots left (R264). -/
structure Completing (s : State) : Prop where
  dma : s.DmaEnabled
  state : s.txd.state = .completing
  left_pos : 0 < s.txd.left.toNat

theorem Completing.enabled {s : State} (hs : Completing s) : s.enabled .txd = true := by
  simp [State.enabled, hs.dma.1, hs.dma.2, hs.state]

/-- No other turn than TXD's moves it. -/
theorem Completing.lasts {s t : State} {turn : Turn} (hs : Completing s) (hturn : turn ≠ .txd)
    (h : s.takeTurn turn = .next t) : Completing t ∧ t.txd = s.txd ∨ t.halted = true := by
  have hc := hs.dma.2
  obtain ⟨htxd, -⟩ := takeTurn_txd h hturn hc (by rw [hs.state]; exact nofun)
  cases hh : t.halted with
  | true => exact .inr rfl
  | false =>
    exact .inl ⟨⟨⟨hh, (takeTurn_cfg h hc).symm ▸ hc⟩, htxd.symm ▸ hs.state, htxd.symm ▸ hs.left_pos⟩, htxd⟩

/-- TXD's step completes one slot: TXD is RUNNING again, or has one slot less to complete (R264). -/
theorem Completing.txdStep {s : State} (hs : Completing s) :
    s.txdStep.txd.state = .running ∨ Completing s.txdStep ∧ s.txdStep.txd.left.toNat < s.txd.left.toNat := by
  obtain ⟨⟨hh, hc⟩, hstate, hpos⟩ := hs
  have hstep : s.txdStep = s.txdComplete := by simp [State.txdStep, hh, hc, hstate]
  obtain ⟨err, ds, n, he⟩ := s.txdComplete_eq
  have htxd : s.txdStep.txd = s.completedTxd := by rw [hstep, he]
  by_cases hlast : s.txd.left - 1#17 = 0#17
  · exact .inl (by rw [htxd, State.completedTxd, if_pos hlast])
  · have hleft : 0 < (s.txd.left - 1#17).toNat ∧ (s.txd.left - 1#17).toNat < s.txd.left.toNat := by bv_omega
    refine .inr ⟨⟨?_, ?_, ?_⟩, ?_⟩
    · rw [hstep, he]
      exact ⟨hh, hc⟩
    · rw [htxd, State.completedTxd, if_neg hlast]
      exact hstate
    · rw [htxd]
      exact hleft.1
    · rw [htxd]
      exact hleft.2

/-- RXD has fragments of a frame left to write (R303). -/
structure Receiving (s : State) : Prop where
  going : s.halted = false
  frame : s.rxd.frame ≠ none
  fits : RxdFits s

theorem Receiving.enabled {s : State} (hs : Receiving s) : s.enabled .rxd = true := by
  obtain ⟨hc, -⟩ := hs.fits hs.frame
  simpa [State.enabled, hs.going, hc, Option.isSome_iff_ne_none] using hs.frame

/-- No other turn than RXD's moves it. -/
theorem Receiving.lasts {s t : State} {turn : Turn} (hs : Receiving s) (hturn : turn ≠ .rxd)
    (h : s.takeTurn turn = .next t) : Receiving t ∧ t.rxd = s.rxd ∨ t.halted = true := by
  obtain ⟨hc, -⟩ := hs.fits hs.frame
  have hrxd := takeTurn_rxd h hturn hc hs.frame
  cases hh : t.halted with
  | true => exact .inr rfl
  | false =>
    refine .inl ⟨⟨hh, hrxd.symm ▸ hs.frame, ?_⟩, hrxd⟩
    unfold RxdFits
    rw [hrxd, takeTurn_cfg h hc]
    exact hs.fits

/-- RXD's step ends the frame, or leaves one fragment less to write (R303). -/
theorem Receiving.rxdStep {s : State} (hs : Receiving s) :
    s.rxdStep.rxd.frame = none ∨ Receiving s.rxdStep ∧ s.rxdStep.unwritten < s.unwritten := by
  obtain ⟨hcfg, hh, hend | ⟨hframe, hm, hfrag, hmore⟩⟩ := State.rxdStep_progress hs.going hs.frame hs.fits
  · exact .inl hend
  · obtain ⟨hc, -, hmax⟩ := hs.fits hs.frame
    refine .inr ⟨⟨hh, hframe, fun _ => ⟨hcfg.symm ▸ hc, ?_, hm.symm ▸ hmax⟩⟩, ?_⟩
    · rw [hm, hfrag]
      exact hmore
    · rw [State.unwritten, State.unwritten, if_neg hframe, if_neg hs.frame, hm, hfrag]
      omega

/-! ### Progress in fair runs -/

/-- Step `n` of a run that is an agent's turn is that agent's step on the state of the run. -/
theorem FollowsSchedule.agent_turn {sched : Nat → Turn} {r : Nat → State} (h : FollowsSchedule sched r) {n : Nat} {a : Agent}
    (hn : sched n = a.turn) : ({ r n with script := [] } : State).takeTurn a.turn = .next (r (n + 1)) :=
  hn ▸ h.turn n

section
variable {sched : Nat → Turn} {r : Nat → State} (h : FairRun sched r) {n : Nat}
include h

/-- A running TX_SEND or TX_RECLAIM ends (R492): each turn of W leaves it one step less. -/
theorem FairRun.tx_command_ends (hn : TxCommandRuns (r n)) : ∃ m ≥ n, Ended (r m) := by
  refine h.reaches .worker (fun s => s.port.w.txStepsLeft) (fun _ => True) (fun s hs => ⟨hs, rfl⟩)
    (fun _ => TxCommandRuns.enabled) (fun s turn t _ hturn hs ht => ?_) (fun s t hs ht => ?_) (fun _ _ => trivial) hn
  · rcases hs.lasts hturn ht with ⟨hs', hport⟩ | hhalt
    · exact .inl ⟨hs', by rw [hport]⟩
    · exact .inr (.inr hhalt)
  · cases ht
    exact hs.workerStep

/-- A running RX_POLL ends if ENV offers no frame (R492): the slots that RXD has written or will write run out, and between two
visits so do the refill's steps. -/
theorem FairRun.poll_ends (hn : Polling (r n)) (hno : ∀ m ≥ n, ∀ frame, sched m ≠ .host (.offer frame)) :
    ∃ m ≥ n, Ended (r m) := by
  refine h.reaches .worker (fun s => toLex (s.pollWork, s.pollRank)) (fun turn => ∀ frame, turn ≠ .host (.offer frame))
    (fun s hs => ⟨hs, rfl⟩) (fun _ => Polling.enabled) (fun s turn t hoffer hturn hs ht => ?_) (fun s t hs ht => ?_) hno hn
  · rcases takeTurn_polling hoffer hturn hs ht with ⟨hs', hwork, hrank⟩ | hhalt
    · exact .inl ⟨hs', Prod.Lex.toLex_mono ⟨hwork, hrank.le⟩⟩
    · exact .inr (.inr hhalt)
  · cases ht
    rcases workerStep_polling hs with ⟨hs', hfall⟩ | hend
    · refine .inl ⟨hs', Prod.Lex.toLex_lt_toLex.mpr ?_⟩
      simp only
      omega
    · exact .inr hend

/-- Captured events are merged into EVT, with SIG set (R343). -/
theorem FairRun.captured_merges {c : BitVec 2} (hn : Captured c (r n)) : ∃ m ≥ n, (r m).halted = true ∨
    ((r m).irq.latch = some c ∧ (r (m + 1)).irq.latch = none ∧ (r (m + 1)).irq.evt = (r m).irq.evt ||| eventBits c ∧
      (r (m + 1)).irq.sig = true) := by
  obtain ⟨m, hm, hhalt | ⟨⟨hh, hl⟩, hturn⟩⟩ := h.reaches_turn .interrupt (P := Captured c) (fun s hs => hs)
    (fun _ => Captured.enabled) (fun s turn t hturn hs ht => hs.lasts hturn ht) hn
  · exact ⟨m, hm, .inl hhalt⟩
  · have hstep : State.interruptStep { r m with script := [] } = r (m + 1) :=
      Host.Outcome.next.inj (h.follows.agent_turn hturn)
    rw [State.interruptStep_of_latch (s := { r m with script := [] }) hh hl] at hstep
    exact ⟨m, hm, .inr ⟨hl, hstep ▸ rfl, hstep ▸ rfl, hstep ▸ rfl⟩⟩

/-- TXD, RUNNING at a frame, puts its bytes on the wire (R262, R268). -/
theorem FairRun.frame_is_sent {k : Nat} (hn : AtFrame k (r n)) :
    ∃ m ≥ n, (r m).halted = true ∨ (r (m + 1)).env.wire = (r m).env.wire ++ [(r m).frameBytes k] := by
  have hscript : ∀ s, AtFrame k s → AtFrame k { s with script := [] } := fun s hs =>
    hs.congr hs.dma.1 rfl rfl rfl fun _ _ => rfl
  obtain ⟨m, hm, hhalt | ⟨hat, hturn⟩⟩ := h.reaches_turn .txd hscript
    (fun _ => AtFrame.enabled) (fun s turn t hturn hs ht => hs.lasts hturn ht) hn
  · exact ⟨m, hm, .inl hhalt⟩
  · have hstep : State.txdStep { r m with script := [] } = r (m + 1) :=
      Host.Outcome.next.inj (h.follows.agent_turn hturn)
    exact ⟨m, hm, .inr (hstep ▸ (hscript _ hat).txdStep_wire)⟩

/-- TXD, COMPLETING, comes back to RUNNING (R264). -/
theorem FairRun.completing_ends (hn : Completing (r n)) : ∃ m ≥ n, (r m).halted = true ∨ (r m).txd.state = .running := by
  refine h.reaches .txd (Q := fun s => s.halted = true ∨ s.txd.state = .running) (fun s => s.txd.left.toNat) (fun _ => True)
    (fun s hs => ⟨⟨hs.dma, hs.state, hs.left_pos⟩, rfl⟩) (fun _ => Completing.enabled) (fun s turn t _ hturn hs ht => ?_)
    (fun s t hs ht => ?_) (fun _ _ => trivial) hn
  · rcases hs.lasts hturn ht with ⟨hs', htxd⟩ | hhalt
    · exact .inl ⟨hs', by rw [htxd]⟩
    · exact .inr (.inl hhalt)
  · cases ht
    exact hs.txdStep.symm.imp_right .inr

/-- RXD ends the frame it is writing (R303). -/
theorem FairRun.receiving_ends (hn : Receiving (r n)) : ∃ m ≥ n, (r m).halted = true ∨ (r m).rxd.frame = none := by
  refine h.reaches .rxd (Q := fun s => s.halted = true ∨ s.rxd.frame = none) State.unwritten (fun _ => True)
    (fun s hs => ⟨⟨hs.going, hs.frame, hs.fits⟩, rfl⟩) (fun _ => Receiving.enabled) (fun s turn t _ hturn hs ht => ?_)
    (fun s t hs ht => ?_) (fun _ _ => trivial) hn
  · rcases hs.lasts hturn ht with ⟨hs', hrxd⟩ | hhalt
    · exact .inl ⟨hs', by rw [State.unwritten, State.unwritten, hrxd]⟩
    · exact .inr (.inl hhalt)
  · cases ht
    exact hs.rxdStep.symm.imp_right .inr

end

/-- A claim about a run that a halted block meets needs a proof only from a state with no fault. -/
theorem eventually_of_going {r : Nat → State} {n : Nat} {Q : Nat → Prop} (hhalt : (r n).halted = true → Q n)
    (h : (r n).halted = false → ∃ m ≥ n, Q m) : ∃ m ≥ n, Q m := by
  cases hh : (r n).halted with
  | true => exact ⟨n, Nat.le_refl n, hhalt hh⟩
  | false => exact h hh

/-- Settles O57: the bounds by the steps that are left of a command, and each progress claim by what lasts until an agent's turn
and what that turn then does. -/
theorem commandsGoOn : Obligations.CommandsGoOn := by
  refine ⟨fun s => State.workerStep_ne, fun s t k hacc hexec => ?_, fun s t hacc hexec => ?_,
    fun s t turn a => takeTurn_enabled, fun sched r n h => ⟨fun hw => ?_, fun hw hring hno => ?_, fun c hl => ?_,
      fun k hc hrun hwalk => ?_, fun hc hstate hpos => ?_, fun hframe hring => ?_⟩⟩
  · cases hexec
    exact EndsWithin.issueConfigured hacc.2 (State.sendStart_endsWithin hacc.1 k)
  · cases hexec
    exact EndsWithin.issueConfigured hacc.2 (State.reclaimStart_endsWithin hacc.1)
  · exact eventually_of_going .inr fun hh => h.tx_command_ends ⟨hh, WState.txStepsLeft_pos hw⟩
  · exact eventually_of_going .inr fun hh => h.poll_ends ⟨hh, hw, hring.rxdFits⟩ hno
  · exact eventually_of_going .inl fun hh => h.captured_merges ⟨hh, hl⟩
  · exact eventually_of_going .inl fun hh => h.frame_is_sent ⟨⟨hh, hc⟩, hrun, hwalk⟩
  · exact eventually_of_going .inl fun hh => h.completing_ends ⟨⟨hh, hc⟩, hstate, hpos⟩
  · exact eventually_of_going .inl fun hh => h.receiving_ends ⟨hh, hframe, hring.rxdFits⟩

end Sys2Proof.Machine
